-- ==== Sys2Proof/Word.lean ====
section
/-! DEFINITION. The word types of packed_bit_buffer: command words, stream bytes and bit sequences. -/

namespace Sys2Proof

/-- A command word: 32 bits, bit 31 the most significant (30_encoding.md R80, 00_scope.md R6). -/
abbrev Word := BitVec 32

/-- A byte of IN or OUT, and a symbol of the alphabet 0–255 (20_memory.md R60, 00_scope.md R5). -/
abbrev Byte := BitVec 8

/-- A bit sequence, numbered from 0, the first bit and the most significant one (00_scope.md R7). -/
abbrev Bits := List Bool

/-- `v^n`, the sequence of n copies of the bit v (00_scope.md R7). -/
abbrev bitRun (n : Nat) (v : Bool) : Bits := List.replicate n v

/-- `ceil(a/b)` (00_scope.md R8). -/
abbrev ceilDiv (a b : Nat) : Nat := (a + b - 1) / b

end Sys2Proof
end

