-- ==== Sys2Proof/Syntax.lean ====
section
/-! DEFINITION. The commands of packed_bit_buffer: one constructor per row of spec/opcode_table.json. -/

namespace Sys2Proof

/-- A scalar register specifier `x0`–`x15` (30_encoding.md R85). -/
abbrev XReg := Fin 16

/-- A buffer register specifier `b0`–`b15` (30_encoding.md R85). -/
abbrev BReg := Fin 16

/-- The 27 CSRs of 10_state.md R26, in the order of their numbers 0x00–0x1A. -/
inductive Csr where
  | status | report | hamB | hamK | crcN | crcCorr | crcW | crcPoly
  | hamFail | hamOk | hamOne | hamTwo | crcFail | crcOk | crcCorrected | crcCorrupted
  | srBits | srBytes | inLen | outLen | wrPend | ctNodes | ctLeaves | cancel | progress | flushT | chunk
  deriving DecidableEq, Repr

/-- The 57 commands (30_encoding.md R86), operands in field order A, B, C, D, E. A CSR number is the raw
8-bit field: a number that names no CSR is a legal word whose execution faults (40_scalar_csr.md R104). -/
inductive Instr where
  -- 40_scalar_csr.md
  | nop
  | xLi (xd : XReg) (imm : BitVec 20)
  | xLis (xd : XReg) (imm : BitVec 20)
  | xMov (xd xs : XReg)
  | csrR (xd : XReg) (csr : BitVec 8)
  | csrW (xs : XReg) (csr : BitVec 8)
  -- 41_packed_bit_buffer.md
  | pbClear (bd : BReg)
  | pbTrunc (bd : BReg) (xn : XReg)
  | pbAppBit (bd : BReg) (xv : XReg)
  | pbAppByte (bd : BReg) (xv : XReg)
  | pbAppPart (bd : BReg) (xv xl : XReg)
  | pbAppBuf (bd bs : BReg)
  | pbGet (xd : XReg) (bs : BReg) (xi : XReg) (fromEnd : Bool)
  | pbSet (bd : BReg) (xi xv : XReg) (fromEnd : Bool)
  | pbSlice (bd bs : BReg) (xa xe : XReg)
  | pbPop (xd : XReg) (bd : BReg)
  | pbXor (bd bs1 bs2 : BReg)
  | pbToInt (xd : XReg) (bs : BReg)
  | pbFromInt (bd : BReg) (xv xw : XReg)
  | pbPadR (bd : BReg) (xv xn : XReg)
  | pbLen (xd : XReg) (bs : BReg)
  | pbCopy (bd bs : BReg)
  -- 42_bit_streams.md
  | srOpen
  | srRdBit (xd : XReg)
  | srRdN (bd : BReg) (xn : XReg)
  | srRdByte (xd : XReg)
  | srClose
  | swOpen
  | swWrBit (xv : XReg)
  | swWrByte (xv : XReg)
  | swWrBuf (bs : BReg)
  | swClose
  -- 43_histogram.md
  | fhCount
  | fhGet (xd xs : XReg)
  | fhClear
  | fhDistinct (xd : XReg)
  -- 44_code_tree.md
  | ctFromMap
  | ctToMap
  | ctSer
  | ctDeser
  | ctFeed (xd xv : XReg)
  | ctReset
  | ctCode (bd : BReg) (xs : XReg)
  | ctSetCode (xs : XReg) (bs : BReg)
  -- 45_prefix_builders.md
  | sfBuild
  | hfBuild
  -- 46_compression.md
  | cdCompress (xalg : XReg)
  | cdDecompress
  -- 47_hamming.md
  | hmEnc (bd bs : BReg)
  | hmDec (bd : BReg) (xd : XReg) (bs : BReg)
  | hmFenc
  | hmFdec
  -- 48_crc.md
  | crcRem (bd bs : BReg)
  | crcEnc (bd bs : BReg)
  | crcDec (bd : BReg) (xd : XReg) (bs : BReg)
  | crcFenc
  | crcFdec
  deriving DecidableEq, Repr

end Sys2Proof
end

