-- ==== Sys2Proof/Decode.lean ====
section
/-! DEFINITION. Decoding and encoding of command words (30_encoding.md). -/

namespace Sys2Proof

/-- Why a word or a byte sequence is no command. The first two are the illegal words of 30_encoding.md R87. -/
inductive DecodeError where
  /-- The opcode byte is not in the table of R86. -/
  | unassignedOpcode
  /-- A reserved bit of the opcode's format is 1. -/
  | reservedBit
  /-- Fewer than the four bytes of a word are there (R80): met only by `decodeBytes`. -/
  | truncated
  deriving DecidableEq, Repr

/-! ## Fields (R81–R85) -/

/-- `w[31:24]`. -/
def fieldOp (w : Word) : BitVec 8 := BitVec.ofNat 8 (w.toNat / 2 ^ 24)
/-- `w[23:20]`. -/
def fieldA (w : Word) : Fin 16 := Fin.ofNat 16 (w.toNat / 2 ^ 20)
/-- `w[19:16]`. -/
def fieldB (w : Word) : Fin 16 := Fin.ofNat 16 (w.toNat / 2 ^ 16)
/-- `w[15:12]`. -/
def fieldC (w : Word) : Fin 16 := Fin.ofNat 16 (w.toNat / 2 ^ 12)
/-- `w[11:8]`. -/
def fieldD (w : Word) : Fin 16 := Fin.ofNat 16 (w.toNat / 2 ^ 8)
/-- `w[7]`, the from-end flag. -/
def fieldE (w : Word) : Bool := w.toNat / 2 ^ 7 % 2 == 1
/-- `w[19:0]`. -/
def fieldImm (w : Word) : BitVec 20 := BitVec.ofNat 20 w.toNat
/-- `w[7:0]`, the CSR number. -/
def fieldCsr (w : Word) : BitVec 8 := BitVec.ofNat 8 w.toNat

/-- The command `i`, if the reserved bits `w[hi:lo]` of its format, `n` bits from bit `lo` on, are 0 (R81–R84). -/
def ifZero (w : Word) (lo n : Nat) (i : Except DecodeError Instr) : Except DecodeError Instr :=
  if w.toNat / 2 ^ lo % 2 ^ n = 0 then i else .error .reservedBit

/-- The decoder: opcode map and reserved bits of 30_encoding.md R86, illegal words of R87. `ifZero w lo n` tests
the n reserved bits from bit lo on: the row's mask in spec/opcode_table.json without the opcode byte. -/
def decode (w : Word) : Except DecodeError Instr :=
  match fieldOp w with
  | 0x01#8 => ifZero w 0 24 (.ok .nop)
  | 0x02#8 => .ok (.xLi (fieldA w) (fieldImm w))
  | 0x03#8 => .ok (.xLis (fieldA w) (fieldImm w))
  | 0x04#8 => ifZero w 0 16 (.ok (.xMov (fieldA w) (fieldB w)))
  | 0x05#8 => ifZero w 8 12 (.ok (.csrR (fieldA w) (fieldCsr w)))
  | 0x06#8 => ifZero w 8 12 (.ok (.csrW (fieldA w) (fieldCsr w)))
  | 0x10#8 => ifZero w 0 20 (.ok (.pbClear (fieldA w)))
  | 0x11#8 => ifZero w 0 16 (.ok (.pbTrunc (fieldA w) (fieldB w)))
  | 0x12#8 => ifZero w 0 16 (.ok (.pbAppBit (fieldA w) (fieldB w)))
  | 0x13#8 => ifZero w 0 16 (.ok (.pbAppByte (fieldA w) (fieldB w)))
  | 0x14#8 => ifZero w 0 12 (.ok (.pbAppPart (fieldA w) (fieldB w) (fieldC w)))
  | 0x15#8 => ifZero w 0 16 (.ok (.pbAppBuf (fieldA w) (fieldB w)))
  | 0x16#8 => ifZero w 0 7 (ifZero w 8 4 (.ok (.pbGet (fieldA w) (fieldB w) (fieldC w) (fieldE w))))
  | 0x17#8 => ifZero w 0 7 (ifZero w 8 4 (.ok (.pbSet (fieldA w) (fieldB w) (fieldC w) (fieldE w))))
  | 0x18#8 => ifZero w 0 8 (.ok (.pbSlice (fieldA w) (fieldB w) (fieldC w) (fieldD w)))
  | 0x19#8 => ifZero w 0 16 (.ok (.pbPop (fieldA w) (fieldB w)))
  | 0x1A#8 => ifZero w 0 12 (.ok (.pbXor (fieldA w) (fieldB w) (fieldC w)))
  | 0x1B#8 => ifZero w 0 16 (.ok (.pbToInt (fieldA w) (fieldB w)))
  | 0x1C#8 => ifZero w 0 12 (.ok (.pbFromInt (fieldA w) (fieldB w) (fieldC w)))
  | 0x1D#8 => ifZero w 0 12 (.ok (.pbPadR (fieldA w) (fieldB w) (fieldC w)))
  | 0x1E#8 => ifZero w 0 16 (.ok (.pbLen (fieldA w) (fieldB w)))
  | 0x1F#8 => ifZero w 0 16 (.ok (.pbCopy (fieldA w) (fieldB w)))
  | 0x20#8 => ifZero w 0 24 (.ok .srOpen)
  | 0x21#8 => ifZero w 0 20 (.ok (.srRdBit (fieldA w)))
  | 0x22#8 => ifZero w 0 16 (.ok (.srRdN (fieldA w) (fieldB w)))
  | 0x23#8 => ifZero w 0 20 (.ok (.srRdByte (fieldA w)))
  | 0x24#8 => ifZero w 0 24 (.ok .srClose)
  | 0x28#8 => ifZero w 0 24 (.ok .swOpen)
  | 0x29#8 => ifZero w 0 20 (.ok (.swWrBit (fieldA w)))
  | 0x2A#8 => ifZero w 0 20 (.ok (.swWrByte (fieldA w)))
  | 0x2B#8 => ifZero w 0 20 (.ok (.swWrBuf (fieldA w)))
  | 0x2C#8 => ifZero w 0 24 (.ok .swClose)
  | 0x30#8 => ifZero w 0 24 (.ok .fhCount)
  | 0x31#8 => ifZero w 0 16 (.ok (.fhGet (fieldA w) (fieldB w)))
  | 0x32#8 => ifZero w 0 24 (.ok .fhClear)
  | 0x33#8 => ifZero w 0 20 (.ok (.fhDistinct (fieldA w)))
  | 0x40#8 => ifZero w 0 24 (.ok .ctFromMap)
  | 0x41#8 => ifZero w 0 24 (.ok .ctToMap)
  | 0x42#8 => ifZero w 0 24 (.ok .ctSer)
  | 0x43#8 => ifZero w 0 24 (.ok .ctDeser)
  | 0x44#8 => ifZero w 0 16 (.ok (.ctFeed (fieldA w) (fieldB w)))
  | 0x45#8 => ifZero w 0 24 (.ok .ctReset)
  | 0x46#8 => ifZero w 0 16 (.ok (.ctCode (fieldA w) (fieldB w)))
  | 0x47#8 => ifZero w 0 16 (.ok (.ctSetCode (fieldA w) (fieldB w)))
  | 0x48#8 => ifZero w 0 24 (.ok .sfBuild)
  | 0x49#8 => ifZero w 0 24 (.ok .hfBuild)
  | 0x50#8 => ifZero w 0 20 (.ok (.cdCompress (fieldA w)))
  | 0x51#8 => ifZero w 0 24 (.ok .cdDecompress)
  | 0x58#8 => ifZero w 0 16 (.ok (.hmEnc (fieldA w) (fieldB w)))
  | 0x59#8 => ifZero w 0 12 (.ok (.hmDec (fieldA w) (fieldB w) (fieldC w)))
  | 0x5A#8 => ifZero w 0 24 (.ok .hmFenc)
  | 0x5B#8 => ifZero w 0 24 (.ok .hmFdec)
  | 0x60#8 => ifZero w 0 16 (.ok (.crcRem (fieldA w) (fieldB w)))
  | 0x61#8 => ifZero w 0 16 (.ok (.crcEnc (fieldA w) (fieldB w)))
  | 0x62#8 => ifZero w 0 12 (.ok (.crcDec (fieldA w) (fieldB w) (fieldC w)))
  | 0x63#8 => ifZero w 0 24 (.ok .crcFenc)
  | 0x64#8 => ifZero w 0 24 (.ok .crcFdec)
  | _ => .error .unassignedOpcode

/-- Four bytes as a word, the first the most significant one (R80). -/
def wordOfBytes (b3 b2 b1 b0 : Byte) : Word :=
  BitVec.ofNat 32 (b3.toNat * 2 ^ 24 + b2.toNat * 2 ^ 16 + b1.toNat * 2 ^ 8 + b0.toNat)

/-- Decode a command carried as bytes, "the most significant byte (bits 31:24) comes first" (R80); the rest of
the bytes is returned. Total on any bytes. -/
def decodeBytes : List Byte → Except DecodeError (Instr × List Byte)
  | b3 :: b2 :: b1 :: b0 :: rest =>
    match decode (wordOfBytes b3 b2 b1 b0) with
    | .ok i => .ok (i, rest)
    | .error e => .error e
  | _ => .error .truncated

/-! ## Encoder -/

/-- Format R (30_encoding.md R81): op, A, B, C, D, E, and Z = 0. -/
def formatR (op : BitVec 8) (a b c d : Fin 16) (e : Bool) : Word :=
  BitVec.ofNat 32
    (op.toNat * 2 ^ 24 + a.val * 2 ^ 20 + b.val * 2 ^ 16 + c.val * 2 ^ 12 + d.val * 2 ^ 8 + e.toNat * 2 ^ 7)
/-- Format I (R82): op, A, imm20. -/
def formatI (op : BitVec 8) (a : Fin 16) (imm : BitVec 20) : Word :=
  BitVec.ofNat 32 (op.toNat * 2 ^ 24 + a.val * 2 ^ 20 + imm.toNat)
/-- Format S (R83): op, A, csr. -/
def formatS (op : BitVec 8) (a : Fin 16) (csr : BitVec 8) : Word :=
  BitVec.ofNat 32 (op.toNat * 2 ^ 24 + a.val * 2 ^ 20 + csr.toNat)
/-- Format N (R84): op. -/
def formatN (op : BitVec 8) : Word := BitVec.ofNat 32 (op.toNat * 2 ^ 24)

/-- The word of a command: opcodes and fields of 30_encoding.md R86, unused fields 0. -/
def encode : Instr → Word
  | .nop => formatN 0x01
  | .xLi xd imm => formatI 0x02 xd imm
  | .xLis xd imm => formatI 0x03 xd imm
  | .xMov xd xs => formatR 0x04 xd xs 0 0 false
  | .csrR xd csr => formatS 0x05 xd csr
  | .csrW xs csr => formatS 0x06 xs csr
  | .pbClear bd => formatR 0x10 bd 0 0 0 false
  | .pbTrunc bd xn => formatR 0x11 bd xn 0 0 false
  | .pbAppBit bd xv => formatR 0x12 bd xv 0 0 false
  | .pbAppByte bd xv => formatR 0x13 bd xv 0 0 false
  | .pbAppPart bd xv xl => formatR 0x14 bd xv xl 0 false
  | .pbAppBuf bd bs => formatR 0x15 bd bs 0 0 false
  | .pbGet xd bs xi e => formatR 0x16 xd bs xi 0 e
  | .pbSet bd xi xv e => formatR 0x17 bd xi xv 0 e
  | .pbSlice bd bs xa xe => formatR 0x18 bd bs xa xe false
  | .pbPop xd bd => formatR 0x19 xd bd 0 0 false
  | .pbXor bd bs1 bs2 => formatR 0x1A bd bs1 bs2 0 false
  | .pbToInt xd bs => formatR 0x1B xd bs 0 0 false
  | .pbFromInt bd xv xw => formatR 0x1C bd xv xw 0 false
  | .pbPadR bd xv xn => formatR 0x1D bd xv xn 0 false
  | .pbLen xd bs => formatR 0x1E xd bs 0 0 false
  | .pbCopy bd bs => formatR 0x1F bd bs 0 0 false
  | .srOpen => formatN 0x20
  | .srRdBit xd => formatR 0x21 xd 0 0 0 false
  | .srRdN bd xn => formatR 0x22 bd xn 0 0 false
  | .srRdByte xd => formatR 0x23 xd 0 0 0 false
  | .srClose => formatN 0x24
  | .swOpen => formatN 0x28
  | .swWrBit xv => formatR 0x29 xv 0 0 0 false
  | .swWrByte xv => formatR 0x2A xv 0 0 0 false
  | .swWrBuf bs => formatR 0x2B bs 0 0 0 false
  | .swClose => formatN 0x2C
  | .fhCount => formatN 0x30
  | .fhGet xd xs => formatR 0x31 xd xs 0 0 false
  | .fhClear => formatN 0x32
  | .fhDistinct xd => formatR 0x33 xd 0 0 0 false
  | .ctFromMap => formatN 0x40
  | .ctToMap => formatN 0x41
  | .ctSer => formatN 0x42
  | .ctDeser => formatN 0x43
  | .ctFeed xd xv => formatR 0x44 xd xv 0 0 false
  | .ctReset => formatN 0x45
  | .ctCode bd xs => formatR 0x46 bd xs 0 0 false
  | .ctSetCode xs bs => formatR 0x47 xs bs 0 0 false
  | .sfBuild => formatN 0x48
  | .hfBuild => formatN 0x49
  | .cdCompress xalg => formatR 0x50 xalg 0 0 0 false
  | .cdDecompress => formatN 0x51
  | .hmEnc bd bs => formatR 0x58 bd bs 0 0 false
  | .hmDec bd xd bs => formatR 0x59 bd xd bs 0 false
  | .hmFenc => formatN 0x5A
  | .hmFdec => formatN 0x5B
  | .crcRem bd bs => formatR 0x60 bd bs 0 0 false
  | .crcEnc bd bs => formatR 0x61 bd bs 0 0 false
  | .crcDec bd xd bs => formatR 0x62 bd xd bs 0 false
  | .crcFenc => formatN 0x63
  | .crcFdec => formatN 0x64

/-- The four bytes of a command as the host carries it, most significant byte first (R80). -/
def wordBytes (w : Word) : List Byte :=
  [BitVec.ofNat 8 (w.toNat / 2 ^ 24), BitVec.ofNat 8 (w.toNat / 2 ^ 16), BitVec.ofNat 8 (w.toNat / 2 ^ 8),
    BitVec.ofNat 8 w.toNat]

/-- The command the decoder reads from a row of spec/opcode_table.json whose bits are `w`: the row's word,
with every bit from `nbits` upward 0, laid out as R80 says. -/
def decodeTableWord (nbits w : Nat) : Option Instr :=
  match decodeBytes (wordBytes (BitVec.ofNat 32 (w % 2 ^ nbits))) with
  | .ok (i, _) => some i
  | .error _ => none

end Sys2Proof
end

