-- ==== Sys2Proof/Config.lean ====
section
/-! DEFINITION. The implementation parameters of 00_scope.md R5. CRC_POLY and FLUSH_T are OPEN and CHUNK_BYTES
may be an argument of the model: the machine carries them in one constant field, which no step changes
(log entry 3). The other parameters of R5 are fixed and stand where they are used. -/

namespace Sys2Proof

/-- The parameters that the spec leaves open or lets a model take as arguments (00_scope.md R5). -/
structure Config where
  /-- CRC_POLY, the generator polynomial G (48_crc.md R300). -/
  poly : Bits
  /-- FLUSH_T, the writer's flush threshold in whole bytes (42_bit_streams.md R173). -/
  flushT : Nat
  /-- CHUNK_BYTES, the chunk size of the histogram and of the compression passes (43_histogram.md R192). -/
  chunkBytes : Nat
  deriving DecidableEq, Repr

/-- The values the spec allows: len(G) ≥ 2, G[0] = 1, G[len(G) − 1] = 1 (48_crc.md R300); a chunk holds at
least one byte, since IN is split into ceil(len(IN)/CHUNK_BYTES) chunks (43_histogram.md R192). -/
def Config.legal (c : Config) : Bool :=
  2 ≤ c.poly.length && c.poly.head? == some true && c.poly.getLast? == some true && 1 ≤ c.chunkBytes

/-- The parameter values the spec's vectors use (95_test_vectors.md): CRC_POLY = 1011, FLUSH_T = 4096,
CHUNK_BYTES = 1048576. DESIGN CHOICE for the first two, which the spec leaves OPEN (log entry 3). -/
def Config.specVectors : Config where
  poly := [true, false, true, true]
  flushT := 4096
  chunkBytes := 1048576

end Sys2Proof
end

