-- ==== Sys2Proof/Machine/State.lean ====
section
/-! DEFINITION. The state of packed_bit_buffer as plain data (10_state.md R20), the reasons a step can stop,
and the state after reset (70_reset_and_hazards.md R350). -/

namespace Sys2Proof.Machine

/-! ## Faults, reports, refusals -/

/-- The causes of a fatal fault (60_exceptions.md R321), code 0 None aside. A fatal fault is a state of the
block (R322, R323), not a stop of the model. -/
inductive Cause where
  | illegalCommand | outOfRange | invalidValue | conflictingCode | emptyInput
  | streamClosed | endOfStream | missingChild | malformedTree | ioError
  deriving DecidableEq, Repr

/-- The report codes of 60_exceptions.md R327. -/
inductive Report where
  | none | success | emptyInput | failure | cancelled
  deriving DecidableEq, Repr

/-- Why a step stops with a fault. The type has no constructor: every fault the spec names is a state the block
goes on from (60_exceptions.md R320: a command ends in a completion, a fatal fault or a report, and R322 and
R323 say what the halted block does next). Safe: nothing is left out by it (log entry 8). -/
inductive Fault where
  deriving DecidableEq, Repr

/-- Why the model refuses. `notModelled` is for an instruction without a meaning; the others are acts of the
HOST that the spec excludes, never commands of the block (log entry 9). -/
inductive Refusal where
  /-- An instruction that has no meaning in the model yet; raised by `exec` only. Safe. -/
  | notModelled (mnemonic : String)
  /-- The host changes IN while the reader is open: "a model may refuse such a host (the block's behaviour is
  not specified)", 70_reset_and_hazards.md R354. Raised by the step at `HostAct.supplyIn`. Safe. -/
  | inChangedWhileReaderOpen
  /-- The host supplies 2^64 bytes or more: 93_implementation_defined.md, "IN of 2^64 bytes or more", treatment
  refuse (43_histogram.md R190). Raised by the step at `HostAct.supplyIn`. Safe. -/
  | inTooLong
  /-- The host changes OUT while the writer is open, which it "must not" (70_reset_and_hazards.md R355,
  treatment refuse in 93_implementation_defined.md). Raised by the step at `HostAct.supplyOut`. Safe. -/
  | outChangedWhileWriterOpen
  deriving DecidableEq, Repr

/-! ## The host's side -/

/-- What the host does next (60_exceptions.md R334): it issues a command word, asserts reset (R351 of
70_reset_and_hazards.md), supplies another IN, another OUT, or changes the level of its cancellation signal. -/
inductive HostAct where
  | command (w : Word)
  | reset
  | supplyIn (bytes : List Byte)
  | supplyOut (bytes : List Byte)
  | setCancel (level : Bool)
  deriving DecidableEq, Repr

/-- What the environment answers: the draws of 60_exceptions.md R328 and R330, as plain data.
A statement about a draw holds for every value of these fields (log entries 4 and 5). -/
structure Env where
  /-- The level of the cancellation signal (10_state.md R46), seen at a poll when `polls` lists no value. -/
  cancel : Bool
  /-- The values the coming polls and reads of CANCEL see, first the next one. -/
  polls : List Bool
  /-- For the coming I/O actions, first the next one: does it fail? An action beyond the list does not fail:
  "A model in which the draw never fails is a legal model" (R330). -/
  ioFails : List Bool
  deriving DecidableEq, Repr

/-! ## Units -/

/-- The reader unit (10_state.md R40). -/
structure Reader where
  isOpen : Bool
  /-- The number of bits of IN consumed since SR.OPEN. -/
  pos : Nat
  deriving DecidableEq, Repr

/-- The writer unit (10_state.md R41). -/
structure Writer where
  isOpen : Bool
  /-- The bits appended since the last flush. -/
  pend : Bits
  deriving DecidableEq, Repr

/-- Four outcome counters of 64 bits that wrap (10_state.md R33, R34): Fail, OK, OneBitErrorCorrected or
Corrected, TwoBitError or Corrupted, the outcome kinds 0 to 3 (47_hamming.md R282, 48_crc.md R303). -/
structure OutcomeCounts where
  fail : BitVec 64
  ok : BitVec 64
  fixed : BitVec 64
  bad : BitVec 64
  deriving DecidableEq, Repr

/-- A node of the code tree with what hangs under it (10_state.md R44). A leaf holds its symbol and an inner
node none, so "a node holds a symbol value only if it is currently a leaf" holds by the type; a missing child
is `absent`. The root is a `node` (log entry 15). -/
inductive Tree where
  | absent
  | leaf (symbol : Byte)
  | node (left right : Tree)
  deriving DecidableEq, Repr

/-- The tree of a single root with no children and no symbol (10_state.md R44). -/
def Tree.rootOnly : Tree := .node .absent .absent

/-! ## The state -/

/-- The state of the block (10_state.md R20), of what the host holds for it (R46), and of the parameters. -/
structure State where
  -- the host's side
  /-- The host's acts still to come, in order. -/
  acts : List HostAct
  /-- The index of the next command in the host's command list (10_state.md R25). -/
  pc : Nat
  /-- IN (20_memory.md R60). -/
  input : List Byte
  /-- OUT (20_memory.md R60). -/
  output : List Byte
  env : Env
  /-- The parameters (00_scope.md R5): no step changes them. -/
  cfg : Config
  -- registers
  /-- Scalar registers (10_state.md R24). -/
  x : Vector Nat 16
  /-- Buffer registers (10_state.md R21, R23). -/
  b : Vector Bits 16
  -- status and configuration registers
  /-- STATUS.FAULT and STATUS.CAUSE (10_state.md R27, R45): FAULT is 1 exactly when a cause is held. -/
  fault : Option Cause
  /-- STATUS.EOS (10_state.md R27). -/
  eos : Bool
  /-- REPORT (10_state.md R28). -/
  report : Report
  /-- HAM_B (10_state.md R29). -/
  hamB : Nat
  /-- CRC_N (10_state.md R30). -/
  crcN : Nat
  /-- CRC_CORR (10_state.md R31). -/
  crcCorr : Bool
  /-- HAM_FAIL, HAM_OK, HAM_ONE, HAM_TWO (10_state.md R33). -/
  ham : OutcomeCounts
  /-- CRC_FAIL, CRC_OK, CRC_CORRECTED, CRC_CORRUPTED (10_state.md R34). -/
  crc : OutcomeCounts
  /-- PROGRESS (10_state.md R38, 60_exceptions.md R329). -/
  progress : Nat
  -- units
  reader : Reader
  writer : Writer
  /-- The histogram H (10_state.md R42). -/
  hist : Vector Nat 256
  /-- The code table T (10_state.md R43). -/
  codes : Vector (Option Bits) 256
  /-- The code tree (10_state.md R44). -/
  tree : Tree
  /-- The cursor ct.cur: the path (44_code_tree.md R211) of the node it names. -/
  cur : Bits
  deriving DecidableEq, Repr

/-- The outcome of one step or one command. -/
abbrev Result := Host.Outcome State Fault Refusal

/-- The block after reset (70_reset_and_hazards.md R350). What reset does not touch (IN, OUT, the signal, the
parameters, the host's acts) holds the values of log entries 1 to 6. -/
def State.reset : State where
  acts := []
  pc := 0
  input := []
  output := []
  env := { cancel := false, polls := [], ioFails := [] }
  cfg := Config.specVectors
  x := Vector.replicate 16 0
  b := Vector.replicate 16 []
  fault := none
  eos := false
  report := .none
  hamB := 0
  crcN := 0
  crcCorr := false
  ham := ⟨0, 0, 0, 0⟩
  crc := ⟨0, 0, 0, 0⟩
  progress := 0
  reader := { isOpen := false, pos := 0 }
  writer := { isOpen := false, pend := [] }
  hist := Vector.replicate 256 0
  codes := Vector.replicate 256 none
  tree := .rootOnly
  cur := []

end Sys2Proof.Machine
end

