-- ==== Sys2Proof/Machine/Ops.lean ====
section
/-! DEFINITION. The named operations over bit sequences, byte sequences, registers and streams, taking a fatal
fault and leaving the halted state. Every meaning is written over these. -/

namespace Sys2Proof.Machine

/-! ## Bit sequences and numbers (00_scope.md R7, R8) -/

/-- `int(s)`: bit 0 of the sequence is the most significant. -/
def natOfBits (s : Bits) : Nat := s.foldl (fun acc v => 2 * acc + v.toNat) 0

/-- `bits_w(v)` for v < 2^w; for a larger v the w low bits of it. Most significant bit first. -/
def bitsOf : Nat → Nat → Bits
  | 0, _ => []
  | w + 1, v => v.testBit w :: bitsOf w v

/-- Tail-aligned exclusive or: "shorter operand aligned to the tail" (41_packed_bit_buffer.md R132). -/
def xorTail (s t : Bits) : Bits :=
  let n := max s.length t.length
  List.zipWith Bool.xor (bitRun (n - s.length) false ++ s) (bitRun (n - t.length) false ++ t)

/-! ## Bytes and streams (20_memory.md R60–R64) -/

/-- The 8 bits of a byte, its bit 7 first (20_memory.md R63). -/
def byteBits (v : Byte) : Bits := bitsOf 8 v.toNat

/-- The byte whose high-order bits are the (at most 8) bits of `s`, the rest 0 (10_state.md R22). -/
def byteOfBits (s : Bits) : Byte := BitVec.ofNat 8 (natOfBits (s ++ bitRun (8 - s.length) false))

/-- `n` bytes packed from the front of `s`. -/
def packCount : Nat → Bits → List Byte
  | 0, _ => []
  | n + 1, s => byteOfBits (s.take 8) :: packCount n (s.drop 8)

/-- The packed byte form of a bit sequence: ceil(L/8) bytes, unused low-order bits 0 (10_state.md R22). -/
def pack (s : Bits) : List Byte := packCount (ceilDiv s.length 8) s

/-- The bits of a byte sequence, most significant bit of each byte first (20_memory.md R60). -/
def streamBits (m : List Byte) : Bits := m.flatMap byteBits

/-- `MemRead(a, n)`: n bits of the byte sequence from bit address a (20_memory.md R61). Past the end of the
sequence there is no bit to read; the callers test the bound first. -/
def memRead (m : List Byte) (a n : Nat) : Bits := ((streamBits m).drop a).take n

/-- The byte at byte address `a` of IN or OUT; an address at or beyond its length does not exist
(20_memory.md R68: each ends at its length). -/
def Memory.byteAt (m : List Byte) (a : Nat) : Option Byte := m[a]?

/-- IN or OUT as (address, byte) cells, addresses rising (log entry 7). -/
def Memory.cells (m : List Byte) : List Host.Cell := m.zipIdx.map fun p => (p.2, p.1)

/-- The canonical form of the cells of a byte sequence: the addresses are 0, 1, 2, … in order, so none is
listed twice and none below the length is missing. -/
def Memory.wf (cells : List Host.Cell) : Bool := cells.map Prod.fst == List.range cells.length

/-! ## Registers (10_state.md R21, R24) -/

/-- Write scalar register r: `x[r] <- v`. -/
def State.setX (s : State) (r : XReg) (v : Nat) : State := { s with x := s.x.set r v }

/-- Write buffer register r: `b[r] <- v`. -/
def State.setB (s : State) (r : BReg) (v : Bits) : State := { s with b := s.b.set r v }

/-! ## Fatal faults (60_exceptions.md R322–R324) -/

/-- STATUS.FAULT = 1: the block is halted (R323). -/
def State.halted (s : State) : Bool := s.fault.isSome

/-- Fault entry (R322): "if STATUS.FAULT = 0, STATUS.FAULT <- 1 and STATUS.CAUSE <- c. Nothing else is saved".
The command that raised the cause has no other effect: its meaning applies this to the state it found. -/
def State.raise (s : State) (c : Cause) : State :=
  if s.halted then s else { s with fault := some c }

/-- `raise <Cause>(info)` of the pseudocode (00_scope.md R9): the fault entry as the command's outcome. -/
def fatal (c : Cause) (s : State) : Result := .next (s.raise c)

/-- Leaving the halted state: only reset does it (R324). Reset puts every piece of block state to its reset
value and touches nothing the host holds: IN, OUT, the signal, the parameters (70_reset_and_hazards.md R350),
and the host's own command list. -/
def State.afterReset (s : State) : State :=
  { State.reset with
    acts := s.acts, pc := s.pc, input := s.input, output := s.output, env := s.env, cfg := s.cfg }

/-- A command runs only while the block is not halted; a halted block ignores it: "no effect, no new fault,
CAUSE unchanged" (R323). -/
def State.unlessHalted (s : State) (body : Result) : Result := if s.halted then .next s else body

/-! ## Draws from the environment (60_exceptions.md R328, R330) -/

/-- `poll()`: the value of the cancellation signal now, and the environment after the draw (R328). -/
def Env.poll (e : Env) : Bool × Env :=
  match e.polls with
  | [] => (e.cancel, e)
  | p :: ps => (p, { e with polls := ps })

/-- Does the next I/O action fail, and the environment after that draw (R330). -/
def Env.io (e : Env) : Bool × Env :=
  match e.ioFails with
  | [] => (false, e)
  | f :: fs => (f, { e with ioFails := fs })

/-- The I/O action of a unit command: "a failure raises IOError, a fatal fault with no effect" (R330); the draw
happens at the command's first I/O action (R325). `body` is the rest of the command. -/
def State.withIo (s : State) (body : State → Result) : Result :=
  let s' := { s with env := s.env.io.2 }
  if s.env.io.1 then fatal .ioError s' else body s'

/-! ## The writer (42_bit_streams.md R170–R176) -/

/-- The flush rule (R173): when the buffered whole bytes exceed FLUSH_T, the bytes that go to OUT and the bits
that stay pending; otherwise nothing is written. -/
def flushOf (flushT : Nat) (pend : Bits) : Option (List Byte × Bits) :=
  let q := pend.length / 8
  if q > flushT then some (pack (pend.take (8 * q)), pend.drop (8 * q)) else none

/-- Append bits to the open writer unit and run the flush rule (R172–R175). -/
def State.writeBits (s : State) (v : Bits) : Result :=
  let pend := s.writer.pend ++ v
  match flushOf s.cfg.flushT pend with
  | none => .next { s with writer := { s.writer with pend := pend } }
  | some (bytes, rest) =>
    s.withIo fun s' =>
      .next { s' with output := s'.output ++ bytes, writer := { s'.writer with pend := rest } }

end Sys2Proof.Machine
end

