-- ==== Sys2Proof/Machine/CodeTree.lean ====
section
/-! DEFINITION. The code tree as data: counts, paths, full trees, building from and to the code table,
serialization and deserialization (44_code_tree.md). -/

namespace Sys2Proof.Machine

/-! ## Counts, paths, shape (10_state.md R37, 44_code_tree.md R210, R211) -/

/-- The number of nodes, the root included. -/
def Tree.nodeCount : Tree → Nat
  | .absent => 0
  | .leaf _ => 1
  | .node l r => 1 + l.nodeCount + r.nodeCount

/-- The leaf symbols in pre-order ("visitation order", R211). -/
def Tree.leaves : Tree → List Byte
  | .absent => []
  | .leaf s => [s]
  | .node l r => l.leaves ++ r.leaves

/-- The leaves with their paths, in pre-order (R211: 0 for a left edge, 1 for a right edge). -/
def Tree.leafPaths : Tree → List (Bits × Byte)
  | .absent => []
  | .leaf s => [([], s)]
  | .node l r =>
    l.leafPaths.map (fun p => (false :: p.1, p.2)) ++ r.leafPaths.map (fun p => (true :: p.1, p.2))

/-- The child for a bit: left for 0, right for 1. -/
def Tree.child : Tree → Bool → Tree
  | .node l r, v => if v then r else l
  | _, _ => .absent

/-- The node a path names. -/
def Tree.at (t : Tree) (path : Bits) : Tree := path.foldl Tree.child t

def Tree.isAbsent : Tree → Bool
  | .absent => true
  | _ => false

/-- Below the root a node of a full tree has zero or two children. -/
def Tree.fullBelow : Tree → Bool
  | .absent => false
  | .leaf _ => true
  | .node l r => l.fullBelow && r.fullBelow

/-- "A tree is full when the root has two children and every other node has zero or two" (R210). -/
def Tree.full : Tree → Bool
  | .node l r => l.fullBelow && r.fullBelow
  | _ => false

/-- The most nodes a tree may have (00_scope.md R5). -/
def maxNodes : Nat := 511

/-! ## From and to the code table (R212, R213) -/

/-- Insert the symbol `s` at a code, bit by bit, creating nodes on the way: none is ConflictingCode, when the
code passes through a leaf, ends on a node that has children, or ends on another symbol's leaf (R212). -/
def Tree.insert (s : Byte) : Bits → Tree → Option Tree
  | [], .absent => some (.leaf s)
  | [], _ => none
  | _ :: _, .leaf _ => none
  | v :: c, .absent =>
    if v then (Tree.insert s c .absent).map (.node .absent ·)
    else (Tree.insert s c .absent).map (.node · .absent)
  | v :: c, .node l r =>
    if v then (Tree.insert s c r).map (.node l ·)
    else (Tree.insert s c l).map (.node · r)

/-- Insert every entry in order; none is ConflictingCode. -/
def Tree.insertAll : List (Byte × Bits) → Tree → Option Tree
  | [], t => some t
  | (s, c) :: rest, t =>
    match t.insert s c with
    | none => none
    | some t' => Tree.insertAll rest t'

/-- The present entries of the code table, in ascending symbol order (R212). -/
def codeEntries (codes : Vector (Option Bits) 256) : List (Byte × Bits) :=
  codes.toList.zipIdx.filterMap fun e => e.1.map fun c => (BitVec.ofNat 8 e.2, c)

/-- "single-symbol degenerate table": when the table is {s: 0}, "give the root a right child holding s" (R212). -/
def degenerateFix (entries : List (Byte × Bits)) (t : Tree) : Tree :=
  match entries, t with
  | [(s, [false])], .node l _ => .node l (.leaf s)
  | _, t => t

/-- Build-from-map (R212): the tree of a code table, or the cause raised. -/
def treeOfCodes (codes : Vector (Option Bits) 256) : Except Cause Tree :=
  let entries := codeEntries codes
  if entries.isEmpty then .error .emptyInput
  else
    match Tree.rootOnly.insertAll entries with
    | none => .error .conflictingCode
    | some t =>
      let t' := degenerateFix entries t
      if t'.nodeCount > maxNodes then .error .malformedTree else .ok t'

/-- Enter a leaf into the table unless its symbol has a code: "first leaf wins" (R213). -/
def putFirst (codes : Vector (Option Bits) 256) (leaf : Bits × Byte) : Vector (Option Bits) 256 :=
  match codes[leaf.2.toFin] with
  | none => codes.set leaf.2.toFin (some leaf.1)
  | some _ => codes

/-- The code table read off a tree (R213). -/
def codesOfTree (t : Tree) : Vector (Option Bits) 256 :=
  t.leafPaths.foldl putFirst (Vector.replicate 256 none)

/-! ## Serialization (R214) -/

/-- The shape bits of `visit`: a 0 on each descent into a present child, a 1 on each return. -/
def Tree.shapeBits : Tree → Bits
  | .absent => []
  | .leaf _ => []
  | .node l r =>
    (if l.isAbsent then [] else false :: l.shapeBits ++ [true]) ++
    (if r.isAbsent then [] else false :: r.shapeBits ++ [true])

/-- The serialization of a full tree: shape bits, then the 8 bits of each leaf symbol in pre-order. -/
def Tree.serialize (t : Tree) : Bits := t.shapeBits ++ t.leaves.flatMap byteBits

/-! ## Deserialization (R215) -/

/-- A tree whose leaves have no symbols yet. -/
inductive Shape where
  | absent
  | node (left right : Shape)
  deriving DecidableEq, Repr

/-- Below the root a node of a full shape has zero or two children. -/
def Shape.fullBelow : Shape → Bool
  | .absent => false
  | .node .absent .absent => true
  | .node l r => l.fullBelow && r.fullBelow

/-- A node under construction on the explicit stack of pending nodes: its children so far. -/
structure Pending where
  left : Shape
  right : Shape
  deriving DecidableEq, Repr

/-- "cur has two children". -/
def Pending.complete (p : Pending) : Bool := p.left != .absent && p.right != .absent

/-- Return to the parent: the finished node becomes its left child, or its right one when it has a left one
(a node's left child is always created first). -/
def Pending.attach (parent child : Pending) : Pending :=
  if parent.left = .absent then { parent with left := .node child.left child.right }
  else { parent with right := .node child.left child.right }

/-- The shape loop: `count` is the number of nodes of t so far, `cur` the current node, `stack` its ancestors,
nearest first. Answers the root and the bits that follow the shape. -/
def parseShape : Bits → Nat → Pending → List Pending → Except Cause (Pending × Bits)
  | [], _, _, _ => .error .endOfStream
  | false :: bits, count, cur, stack =>
    if cur.complete then .error .malformedTree
    else if count + 1 > maxNodes then .error .malformedTree
    else parseShape bits (count + 1) ⟨.absent, .absent⟩ (cur :: stack)
  | true :: _, _, _, [] => .error .malformedTree
  | true :: bits, count, cur, parent :: stack =>
    let cur' := parent.attach cur
    if stack.isEmpty && cur'.complete then .ok (cur', bits)
    else parseShape bits count cur' stack

/-- Give the leaves of a shape their symbols, 8 bits each in visitation order; none is EndOfStream. -/
def Shape.label : Shape → Bits → Option (Tree × Bits)
  | .absent, bits => some (.absent, bits)
  | .node .absent .absent, bits =>
    if bits.length < 8 then none else some (.leaf (byteOfBits (bits.take 8)), bits.drop 8)
  | .node l r, bits =>
    match l.label bits with
    | none => none
    | some (l', bits') =>
      match r.label bits' with
      | none => none
      | some (r', bits'') => some (.node l' r', bits'')

/-- CT.DESER over the bits still to read: the tree and the number of bits consumed, or the cause (R215). -/
def deserialize (bits : Bits) : Except Cause (Tree × Nat) :=
  match parseShape bits 1 ⟨.absent, .absent⟩ [] with
  | .error c => .error c
  | .ok (root, rest) =>
    if root.left.fullBelow && root.right.fullBelow then
      match (Shape.node root.left root.right).label rest with
      | none => .error .endOfStream
      | some (t, rest') => .ok (t, bits.length - rest'.length)
    else .error .malformedTree

end Sys2Proof.Machine
end

