-- ==== Sys2Proof/Machine/Builders.lean ====
section
/-! DEFINITION. The ordered histogram and the prefix-code builders (43_histogram.md R196,
45_prefix_builders.md). -/

namespace Sys2Proof.Machine

/-- The histogram H[0..255] (10_state.md R42). -/
abbrev Hist := Vector Nat 256

/-- Count one byte (43_histogram.md R191). -/
def tally (h : Hist) (v : Byte) : Hist := h.set v.toFin (h[v.toFin] + 1)

/-- Every symbol with its count, in ascending symbol order, zero counts excluded. -/
def presentSymbols (h : Hist) : List (Byte × Nat) :=
  h.toList.zipIdx.filterMap fun e => if e.1 > 0 then some (BitVec.ofNat 8 e.2, e.1) else none

/-- "sorted by H[s] descending and, among equal counts, by s ascending" (43_histogram.md R196). -/
abbrev histBefore (p q : Byte × Nat) : Prop := p.2 > q.2 ∨ (p.2 = q.2 ∧ p.1.toNat ≤ q.1.toNat)

/-- The ordered histogram (43_histogram.md R196). -/
def orderedHist (h : Hist) : List (Byte × Nat) := (presentSymbols h).insertionSort histBefore

/-! ## Shannon-Fano (R241–R243) -/

def weightOf (l : List (Byte × Nat)) : Nat := (l.map Prod.snd).sum

/-- `| 2·(sum of the first n counts) − total |`: twice the difference of the two halves' weights (R241). -/
def imbalance (l : List (Byte × Nat)) (n : Nat) : Nat :=
  let left := 2 * weightOf (l.take n)
  let total := weightOf l
  max left total - min left total

/-- The smallest of the numbers `best` and `n, n+1, …` (`fuel` of them) with the least imbalance. -/
def bestSplitFrom (l : List (Byte × Nat)) : Nat → Nat → Nat → Nat
  | 0, _, best => best
  | fuel + 1, n, best =>
    bestSplitFrom l fuel (n + 1) (if imbalance l n < imbalance l best then n else best)

/-- The number of symbols in the left half, 1 to len − 1: "the smallest k … minimising" the imbalance (R241;
the k of the rule is this number plus lo − 1). -/
def bestSplit (l : List (Byte × Nat)) : Nat := bestSplitFrom l (l.length - 2) 2 1

/-- The Shannon-Fano codes of a range of the ordered histogram (R241); `fuel` is at least its length
(log entry 16). -/
def sfCodes : Nat → List (Byte × Nat) → List (Byte × Bits)
  | 0, l => l.map fun e => (e.1, [])
  | fuel + 1, l =>
    if l.length ≤ 1 then l.map fun e => (e.1, [])
    else
      let n := bestSplit l
      (sfCodes fuel (l.take n)).map (fun e => (e.1, false :: e.2)) ++
      (sfCodes fuel (l.drop n)).map (fun e => (e.1, true :: e.2))

/-- The table with the given entries and no other. -/
def tableOf (entries : List (Byte × Bits)) : Vector (Option Bits) 256 :=
  entries.foldl (fun t e => t.set e.1.toFin (some e.2)) (Vector.replicate 256 none)

/-- SF.BUILD on a histogram (R242, R243); none is EmptyInput. -/
def sfTable (h : Hist) : Option (Vector (Option Bits) 256) :=
  match orderedHist h with
  | [] => none
  | [e] => some (tableOf [(e.1, [false])])
  | o => some (tableOf (sfCodes o.length o))

/-! ## Huffman (R244, R245) -/

/-- A node of the pool with its key (weight, seq) (R244). -/
structure HufNode where
  weight : Nat
  seq : Nat
  tree : Tree
  deriving DecidableEq, Repr

/-- "the minimum is the smallest key in lexicographic order" (R244). -/
def HufNode.before (p q : HufNode) : Bool := p.weight < q.weight || (p.weight == q.weight && p.seq ≤ q.seq)

/-- Put a node into the pool, which is kept in key order, so that its head is the node of smallest key. -/
def poolInsert (n : HufNode) : List HufNode → List HufNode
  | [] => [n]
  | p :: ps => if n.before p then n :: p :: ps else p :: poolInsert n ps

/-- The first pool: a leaf for each symbol, its seq its rank in the ordered histogram (R244). -/
def firstPool (o : List (Byte × Nat)) : List HufNode :=
  o.zipIdx.foldr (fun e pool => poolInsert ⟨e.1.2, e.2, .leaf e.1.1⟩ pool) []

/-- "while pool has more than one node": merge the two nodes of smallest key, "left = first extracted" (R244).
`fuel` is at least the pool's length (log entry 16). -/
def hufMerge : Nat → Nat → List HufNode → Tree
  | fuel + 1, next, n1 :: n2 :: pool =>
    hufMerge fuel (next + 1) (poolInsert ⟨n1.weight + n2.weight, next, .node n1.tree n2.tree⟩ pool)
  | _, _, n :: _ => n.tree
  | _, _, [] => .rootOnly

/-- HF.BUILD on a histogram (R243, R245); none is EmptyInput. -/
def hufTree (h : Hist) : Option Tree :=
  match orderedHist h with
  | [] => none
  | [e] => some (.node (.leaf e.1) (.leaf e.1))
  | o => some (hufMerge o.length o.length (firstPool o))

end Sys2Proof.Machine
end

