-- ==== Sys2Proof/Machine/Flags.lean ====
section
/-! DEFINITION. The flags of STATUS and the codes the status registers read (10_state.md R27, R28, R47). The
block has no arithmetic condition codes. -/

namespace Sys2Proof.Machine

/-- The cause codes of 60_exceptions.md R321. -/
def Cause.code : Cause → Nat
  | .illegalCommand => 1
  | .outOfRange => 2
  | .invalidValue => 3
  | .conflictingCode => 4
  | .emptyInput => 5
  | .streamClosed => 6
  | .endOfStream => 7
  | .missingChild => 8
  | .malformedTree => 9
  | .ioError => 10

/-- STATUS.CAUSE: 0 when FAULT = 0 (10_state.md R27). -/
def causeCode : Option Cause → Nat
  | none => 0
  | some c => c.code

/-- The report codes of 60_exceptions.md R327. -/
def Report.code : Report → Nat
  | .none => 0
  | .success => 1
  | .emptyInput => 2
  | .failure => 3
  | .cancelled => 4

/-- The STATUS word (10_state.md R27): FAULT bit 0, CAUSE bits 15:8, EOS bit 16, RD_OPEN bit 17, WR_OPEN bit 18;
"bits not listed read 0". -/
def State.status (s : State) : Nat :=
  s.fault.isSome.toNat + causeCode s.fault * 2 ^ 8 + s.eos.toNat * 2 ^ 16
    + s.reader.isOpen.toNat * 2 ^ 17 + s.writer.isOpen.toNat * 2 ^ 18

end Sys2Proof.Machine
end

