-- ==== Sys2Proof/Machine/Operands.lean ====
section
/-! DEFINITION. The operand forms: bit and byte operands, indices, CSRs by number. -/

namespace Sys2Proof.Machine

/-! ## Bit and byte operands -/

/-- A bit operand: 0 or 1, anything else is an InvalidValue (41_packed_bit_buffer.md R123, decision D17). -/
def bitOperand (v : Nat) : Option Bool :=
  match v with
  | 0 => some false
  | 1 => some true
  | _ => none

/-- A byte operand or a symbol: 0–255 (41_packed_bit_buffer.md R124, 43_histogram.md R193). -/
def byteOperand (v : Nat) : Option Byte := if v ≤ 255 then some (BitVec.ofNat 8 v) else none

/-- Index resolution (41_packed_bit_buffer.md R127): the position an index names in a buffer of length L;
none is OutOfRange. From the end, "i = 1 names the last bit". -/
def resolveIndex (len i : Nat) (fromEnd : Bool) : Option Nat :=
  if fromEnd then
    if i < 1 ∨ i > len then none else some (len - i)
  else
    if i ≥ len then none else some i

/-! ## CSRs -/

/-- The CSR with a number (10_state.md R26). -/
def csrOfNum (n : BitVec 8) : Option Csr :=
  match n with
  | 0x00#8 => some .status
  | 0x01#8 => some .report
  | 0x02#8 => some .hamB
  | 0x03#8 => some .hamK
  | 0x04#8 => some .crcN
  | 0x05#8 => some .crcCorr
  | 0x06#8 => some .crcW
  | 0x07#8 => some .crcPoly
  | 0x08#8 => some .hamFail
  | 0x09#8 => some .hamOk
  | 0x0A#8 => some .hamOne
  | 0x0B#8 => some .hamTwo
  | 0x0C#8 => some .crcFail
  | 0x0D#8 => some .crcOk
  | 0x0E#8 => some .crcCorrected
  | 0x0F#8 => some .crcCorrupted
  | 0x10#8 => some .srBits
  | 0x11#8 => some .srBytes
  | 0x12#8 => some .inLen
  | 0x13#8 => some .outLen
  | 0x14#8 => some .wrPend
  | 0x15#8 => some .ctNodes
  | 0x16#8 => some .ctLeaves
  | 0x17#8 => some .cancel
  | 0x18#8 => some .progress
  | 0x19#8 => some .flushT
  | 0x1A#8 => some .chunk
  | _ => none

/-- `informationBlockSize = blockSize − log2(blockSize) − 1`, and 0 while unconfigured (10_state.md R29). -/
def hamK (blockSize : Nat) : Nat := if blockSize = 0 then 0 else blockSize - Nat.log2 blockSize - 1

/-- The value a read of a CSR gives (10_state.md R27–R38). CANCEL gives the value drawn at the read (R38). -/
def State.csrValue (s : State) : Csr → Nat
  | .status => s.status
  | .report => s.report.code
  | .hamB => s.hamB
  | .hamK => hamK s.hamB
  | .crcN => s.crcN
  | .crcCorr => s.crcCorr.toNat
  | .crcW => s.cfg.poly.length
  | .crcPoly => natOfBits s.cfg.poly
  | .hamFail => s.ham.fail.toNat
  | .hamOk => s.ham.ok.toNat
  | .hamOne => s.ham.fixed.toNat
  | .hamTwo => s.ham.bad.toNat
  | .crcFail => s.crc.fail.toNat
  | .crcOk => s.crc.ok.toNat
  | .crcCorrected => s.crc.fixed.toNat
  | .crcCorrupted => s.crc.bad.toNat
  | .srBits => s.reader.pos
  | .srBytes => ceilDiv s.reader.pos 8
  | .inLen => s.input.length
  | .outLen => s.output.length
  | .wrPend => s.writer.pend.length
  | .ctNodes => s.tree.nodeCount
  | .ctLeaves => s.tree.leaves.length
  | .cancel => s.env.poll.1.toNat
  | .progress => s.progress
  | .flushT => s.cfg.flushT
  | .chunk => s.cfg.chunkBytes

/-- The environment after a read of a CSR: a read of CANCEL is a draw (60_exceptions.md R328), any other read
leaves everything as it is (40_scalar_csr.md R104). -/
def State.envAfterRead (s : State) : Csr → Env
  | .cancel => s.env.poll.2
  | _ => s.env

/-- The block sizes HAM_B accepts: powers of two 4, 8, …, 65536 (40_scalar_csr.md R106). -/
def hamBLegal (v : Nat) : Bool := 4 ≤ v && v ≤ 65536 && 2 ^ Nat.log2 v == v

/-- A 64-bit counter value (40_scalar_csr.md R106): none when v ≥ 2^64. -/
def counterOperand (v : Nat) : Option (BitVec 64) := if v < 2 ^ 64 then some (BitVec.ofNat 64 v) else none

/-- The write of an outcome counter: InvalidValue for a value of 2^64 or more (40_scalar_csr.md R106). -/
def counterWrite (v : Nat) (put : BitVec 64 → State) : Except Cause State :=
  match counterOperand v with
  | some n => .ok (put n)
  | none => .error .invalidValue

/-- `csr.name <- v` (40_scalar_csr.md R105): the state after the write, or the cause it raises. An RO CSR raises
IllegalCommand before the value is looked at, a value R106 refuses raises InvalidValue. -/
def State.csrWrite (s : State) (c : Csr) (v : Nat) : Except Cause State :=
  match c with
  | .hamB => if hamBLegal v then .ok { s with hamB := v } else .error .invalidValue
  | .crcN => if 1 ≤ v then .ok { s with crcN := v } else .error .invalidValue
  | .crcCorr =>
    match bitOperand v with
    | some w => .ok { s with crcCorr := w }
    | none => .error .invalidValue
  | .hamFail => counterWrite v fun n => { s with ham := { s.ham with fail := n } }
  | .hamOk => counterWrite v fun n => { s with ham := { s.ham with ok := n } }
  | .hamOne => counterWrite v fun n => { s with ham := { s.ham with fixed := n } }
  | .hamTwo => counterWrite v fun n => { s with ham := { s.ham with bad := n } }
  | .crcFail => counterWrite v fun n => { s with crc := { s.crc with fail := n } }
  | .crcOk => counterWrite v fun n => { s with crc := { s.crc with ok := n } }
  | .crcCorrected => counterWrite v fun n => { s with crc := { s.crc with fixed := n } }
  | .crcCorrupted => counterWrite v fun n => { s with crc := { s.crc with bad := n } }
  | .status | .report | .hamK | .crcW | .crcPoly | .srBits | .srBytes | .inLen | .outLen | .wrPend
  | .ctNodes | .ctLeaves | .cancel | .progress | .flushT | .chunk => .error .illegalCommand

end Sys2Proof.Machine
end

