-- ==== Sys2Proof/Machine/FileLevel.lean ====
section
/-! DEFINITION. The private streams of the file-level commands and the wrapper around their bodies
(42_bit_streams.md R177, 60_exceptions.md R326). A body works on a `Job` alone, so it cannot change the unit
state; it stops early with the report code Failure or Cancelled. -/

namespace Sys2Proof.Machine

/-- What a file-level command changes while it runs: the environment's draws, OUT, the private writer's pending
bits, PROGRESS, and the four outcome counters of its decoder (R326: "only OUT, REPORT, PROGRESS and … the
outcome counters are"). -/
structure Job where
  env : Env
  out : List Byte
  pend : Bits
  progress : Nat
  counts : OutcomeCounts
  deriving DecidableEq, Repr

/-- An action of a body: it ends with a value, or early with a report code; either way with the job so far. -/
abbrev FileM := EStateM Report Job

namespace FileM

/-- End the command with a report code; the wrapper closes the private streams. -/
def stop {α : Type} (why : Report) : FileM α := fun j => .error why j

/-- A poll point: "on poll() = 1: close the private reader and writer; report Cancelled" (R326, R328). -/
def poll : FileM Unit := fun j =>
  let j' := { j with env := j.env.poll.2 }
  if j.env.poll.1 then .error .cancelled j' else .ok () j'

/-- An I/O action on IN or OUT; a failure gives `report Failure` (R330). -/
def io : FileM Unit := fun j =>
  let j' := { j with env := j.env.io.2 }
  if j.env.io.1 then .error .failure j' else .ok () j'

/-- PROGRESS <- p (R329). -/
def setProgress (p : Nat) : FileM Unit := fun j => .ok () { j with progress := p }

/-- Count one outcome of a decoder. -/
def count (add : OutcomeCounts → OutcomeCounts) : FileM Unit := fun j => .ok () { j with counts := add j.counts }

/-- Append bits to the private writer's pending sequence. -/
def append (v : Bits) : FileM Unit := fun j => .ok () { j with pend := j.pend ++ v }

/-- The MemWrite of a flush, when the flush rule asks for one (42_bit_streams.md R173). A failed write leaves the
bits pending. -/
def flush (cfg : Config) : FileM Unit := fun j =>
  match flushOf cfg.flushT j.pend with
  | none => .ok () j
  | some (bytes, rest) =>
    let j' := { j with env := j.env.io.2 }
    if j.env.io.1 then .error .failure j' else .ok () { j' with out := j'.out ++ bytes, pend := rest }

/-- A write to the private writer, with the same flush rule and FLUSH_T as the unit (R173, R177). -/
def write (cfg : Config) (v : Bits) : FileM Unit := do
  append v
  flush cfg

end FileM

/-- Close the private streams: the writer's close pads and writes the pending bits, an I/O action whose failure
makes the report Failure (log entry 13). -/
def Job.close (j : Job) (why : Report) : Job × Report :=
  let j' := { j with env := j.env.io.2 }
  if j.env.io.1 then (j', .failure) else ({ j' with out := j'.out ++ pack j'.pend, pend := [] }, why)

/-- Open the private streams (OUT <- empty, an I/O action: log entry 12), run the body, close the streams on
every exit path (R177, R326). -/
def Job.runFile (j : Job) (body : FileM Unit) : Job × Report :=
  let j' := { j with env := j.env.io.2 }
  if j.env.io.1 then (j', .failure)
  else
    match body { j' with out := [], pend := [] } with
    | .ok _ jEnd => jEnd.close .success
    | .error why jEnd => jEnd.close why

/-- The job a file-level command starts with. -/
def State.job (s : State) (counts : OutcomeCounts) : Job where
  env := s.env
  out := s.output
  pend := []
  progress := s.progress
  counts := counts

/-- `report X`: REPORT <- code(X) (60_exceptions.md R327). -/
def State.reportAs (s : State) (r : Report) : State := { s with report := r }

/-- The state after a file-level command: OUT, PROGRESS and REPORT from the job's end, and the draws made. -/
def State.afterJob (s : State) (e : Job × Report) : State :=
  { s with env := e.1.env, output := e.1.out, progress := e.1.progress, report := e.2 }

/-- "if rd.open = 1 or wr.open = 1: report Failure -- nothing else changes" (R326). -/
def State.unlessUnitOpen (s : State) (body : Result) : Result :=
  if s.reader.isOpen || s.writer.isOpen then .next (s.reportAs .failure) else body

end Sys2Proof.Machine
end

