-- ==== Sys2Proof/Machine/Histogram.lean ====
section
/-! DEFINITION. Meanings of the histogram commands (43_histogram.md) and of the prefix-code builders
(45_prefix_builders.md). -/

namespace Sys2Proof.Machine

/-- The first `n` chunks of C bytes, the last one shorter when the bytes run out (43_histogram.md R192). -/
def chunksOf (chunkBytes : Nat) : Nat → List Byte → List (List Byte)
  | 0, _ => []
  | n + 1, bytes => bytes.take chunkBytes :: chunksOf chunkBytes n (bytes.drop chunkBytes)

/-- IN split into ceil(len(IN)/CHUNK_BYTES) chunks (43_histogram.md R192). -/
def chunksOfIn (cfg : Config) (inp : List Byte) : List (List Byte) :=
  chunksOf cfg.chunkBytes (ceilDiv inp.length cfg.chunkBytes) inp

/-- The histogram pass over the chunks still to count, `done` bytes being counted (43_histogram.md R191): poll,
read the chunk (one I/O action, log entry 11), count it, write PROGRESS. -/
def countChunks (total : Nat) : Nat → List (List Byte) → Hist → FileM Hist
  | _, [], h => pure h
  | done, chunk :: rest, h => do
    FileM.poll
    FileM.io
    FileM.setProgress (100 * (done + chunk.length) / total)
    countChunks total (done + chunk.length) rest (chunk.foldl tally h)

/-- The histogram pass over IN, from a zero histogram. -/
def countPass (cfg : Config) (inp : List Byte) : FileM Hist :=
  countChunks inp.length 0 (chunksOfIn cfg inp) (Vector.replicate 256 0)

/-- The state after FH.COUNT: OUT and the units are untouched. -/
def State.afterCount (s : State) (j : Job) (h : Hist) (progress : Nat) (r : Report) : State :=
  { s with env := j.env, hist := h, progress := progress, report := r }

/-- FH.COUNT (R191, R192): H is replaced; on Cancelled H and PROGRESS are cleared; on an I/O failure H is
cleared and PROGRESS keeps its last value (log entry 17). -/
def execFhCount (s : State) : Result :=
  s.unlessHalted <|
    match countPass s.cfg s.input (s.job s.ham) with
    | .ok h j => .next (s.afterCount j h j.progress .success)
    | .error .cancelled j => .next (s.afterCount j (Vector.replicate 256 0) 0 .cancelled)
    | .error why j => .next (s.afterCount j (Vector.replicate 256 0) j.progress why)

/-- FH.GET (R193). -/
def execFhGet (xd xs : XReg) (s : State) : Result :=
  s.unlessHalted <|
    match byteOperand s.x[xs] with
    | none => fatal .outOfRange s
    | some sym => .next (s.setX xd s.hist[sym.toFin])

/-- FH.CLEAR (R194). -/
def execFhClear (s : State) : Result :=
  s.unlessHalted (.next { s with hist := Vector.replicate 256 0 })

/-- FH.DISTINCT (R195). -/
def execFhDistinct (xd : XReg) (s : State) : Result :=
  s.unlessHalted (.next (s.setX xd (s.hist.toList.countP (· > 0))))

/-- SF.BUILD (45_prefix_builders.md R242): writes only T. -/
def execSfBuild (s : State) : Result :=
  s.unlessHalted <|
    match sfTable s.hist with
    | none => fatal .emptyInput s
    | some t => .next { s with codes := t }

/-- HF.BUILD (45_prefix_builders.md R245): writes only the tree and its cursor. -/
def execHfBuild (s : State) : Result :=
  s.unlessHalted <|
    match hufTree s.hist with
    | none => fatal .emptyInput s
    | some t => .next { s with tree := t, cur := [] }

end Sys2Proof.Machine
end

