-- ==== Sys2Proof/Machine/Compression.lean ====
section
/-! DEFINITION. The compression datapath (46_compression.md): CD.COMPRESS and CD.DECOMPRESS, with a private
histogram, code table and tree. -/

namespace Sys2Proof.Machine

/-- The algorithm operand: 0 Shannon-Fano, 1 Huffman (R261). -/
inductive Algorithm where
  | shannonFano | huffman
  deriving DecidableEq, Repr

def algorithmOperand (v : Nat) : Option Algorithm :=
  match v with
  | 0 => some .shannonFano
  | 1 => some .huffman
  | _ => none

/-- The private tree and code table of a histogram (R261); none when a step would raise a fault as a unit
command: an empty histogram, a conflicting code, a tree that is too large or not full. -/
def buildCode (alg : Algorithm) (h : Hist) : Option (Tree × Vector (Option Bits) 256) :=
  match alg with
  | .shannonFano =>
    match sfTable h with
    | none => none
    | some table =>
      match treeOfCodes table with
      | .error _ => none
      | .ok t => if t.full then some (t, table) else none
  | .huffman =>
    match hufTree h with
    | none => none
    | some t => if t.full then some (t, codesOfTree t) else none

/-- `Σ_v H'[v]·len(T'[v])`, the length of the payload (R260, R261). -/
def payloadLength (h : Hist) (codes : Vector (Option Bits) 256) : Nat :=
  (List.zipWith (fun n c => n * (c.getD []).length) h.toList codes.toList).sum

/-- The substitution of the bytes of one chunk: read a byte, write its code (R261). -/
def substBytes (cfg : Config) (codes : Vector (Option Bits) 256) : List Byte → FileM Unit
  | [] => pure ()
  | v :: rest => do
    FileM.io
    match codes[v.toFin] with
    | none => FileM.stop .failure
    | some c => do
      FileM.write cfg c
      substBytes cfg codes rest

/-- Pass 2 over the chunks still to substitute (R261). -/
def substChunks (cfg : Config) (codes : Vector (Option Bits) 256) (total : Nat) :
    Nat → List (List Byte) → FileM Unit
  | _, [] => pure ()
  | done, chunk :: rest => do
    FileM.poll
    substBytes cfg codes chunk
    FileM.setProgress (100 * (done + chunk.length) / total)
    substChunks cfg codes total (done + chunk.length) rest

/-- The header and pass 2, once the code is built: "write bits_3(t mod 8); write s" (R260, R261). -/
def writeCompressed (cfg : Config) (inp : List Byte) (h : Hist) (tree : Tree)
    (codes : Vector (Option Bits) 256) : FileM Unit := do
  FileM.write cfg (bitsOf 3 ((3 + tree.serialize.length + payloadLength h codes) % 8))
  FileM.write cfg tree.serialize
  FileM.setProgress 0
  substChunks cfg codes inp.length 0 (chunksOfIn cfg inp)

/-- The body of CD.COMPRESS (R261). -/
def compressBody (cfg : Config) (inp : List Byte) (alg : Algorithm) : FileM Unit := do
  let h ← countPass cfg inp
  match buildCode alg h with
  | none => FileM.stop .failure
  | some (tree, codes) => writeCompressed cfg inp h tree codes

/-- CD.COMPRESS (R261): the algorithm is a fatal operand check; an empty IN reports EmptyInput and does not
touch OUT. -/
def execCdCompress (xalg : XReg) (s : State) : Result :=
  s.unlessHalted <|
    match algorithmOperand s.x[xalg] with
    | none => fatal .invalidValue s
    | some alg =>
      s.unlessUnitOpen <|
        if s.input.isEmpty then .next (s.reportAs .emptyInput)
        else .next (s.afterJob ((s.job s.ham).runFile (compressBody s.cfg s.input alg)))

/-! ## Decompress (R262) -/

/-- The poll point before payload bit j, one in 8·CHUNK_BYTES bits (R262, R263). -/
def payloadPoll (cfg : Config) (j total : Nat) : FileM Unit :=
  if j % (8 * cfg.chunkBytes) = 0 then do
    FileM.poll
    FileM.setProgress (100 * j / total)
  else pure ()

/-- Feed the payload bits from index j on, `cur` being the current node of `root` (R262). -/
def feedPayload (cfg : Config) (root : Tree) (total : Nat) : Nat → Tree → Bits → FileM Unit
  | _, _, [] => pure ()
  | j, cur, v :: rest => do
    payloadPoll cfg j total
    FileM.io
    match cur.child v with
    | .absent => FileM.stop .failure
    | .leaf sym => do
      FileM.write cfg (byteBits sym)
      feedPayload cfg root total (j + 1) root rest
    | .node l r => feedPayload cfg root total (j + 1) (.node l r) rest

/-- "F <- int(read 3 bits); if F = 0: F <- 8" (R262). -/
def usedBitsField (bits : Bits) : Nat :=
  let f := natOfBits (bits.take 3)
  if f = 0 then 8 else f

/-- The body of CD.DECOMPRESS (R262). Its reads of the F field and of the tree are one I/O action each
(log entry 11). -/
def decompressBody (cfg : Config) (inp : List Byte) : FileM Unit := do
  FileM.io
  FileM.io
  match deserialize ((streamBits inp).drop 3) with
  | .error _ => FileM.stop .failure
  | .ok (tree, used) =>
    let total := 8 * (inp.length - 1) + usedBitsField (streamBits inp)
    if 3 + used > total then FileM.stop .failure
    else do
      let payload := ((streamBits inp).drop (3 + used)).take (total - (3 + used))
      feedPayload cfg tree payload.length 0 tree payload
      FileM.setProgress 100

/-- CD.DECOMPRESS (R262). -/
def execCdDecompress (s : State) : Result :=
  s.unlessHalted <| s.unlessUnitOpen <|
    if s.input.isEmpty then .next (s.reportAs .emptyInput)
    else .next (s.afterJob ((s.job s.ham).runFile (decompressBody s.cfg s.input)))

end Sys2Proof.Machine
end

