-- ==== Sys2Proof/Machine/Hamming.lean ====
section
/-! DEFINITION. The Hamming SECDED encoder and decoder (47_hamming.md). -/

namespace Sys2Proof.Machine

/-! ## Block code (R280–R282) -/

/-- A parity position of a block: 0 or a power of two (R280). -/
def isParityPos (p : Nat) : Bool := p == 0 || 2 ^ Nat.log2 p == p

/-- The exclusive or of the positions of the set bits, the first bit being at position `p` (R281, R282). -/
def syndromeFrom : Nat → Bits → Nat
  | _, [] => 0
  | p, v :: rest => (if v then p else 0) ^^^ syndromeFrom (p + 1) rest

/-- The syndrome of a block (R282). -/
def syndrome (c : Bits) : Nat := syndromeFrom 0 c

/-- The exclusive or of all bits: true is odd parity (R282). -/
def parity (c : Bits) : Bool := c.foldl Bool.xor false

/-- `n` positions of a block from position `p` on: 0 at the parity positions, the message bits in original order
at the data positions (R281). -/
def placeData : Nat → Nat → Bits → Bits
  | 0, _, _ => []
  | n + 1, p, msg =>
    if isParityPos p then false :: placeData n (p + 1) msg
    else msg.headD false :: placeData n (p + 1) msg.tail

/-- "parity slot 2^t gets bit t of the XOR" (R281); position 0 is left alone. -/
def setParitySlots (syn : Nat) : Nat → Bits → Bits
  | _, [] => []
  | p, v :: rest =>
    (if p ≠ 0 ∧ isParityPos p then syn.testBit (Nat.log2 p) else v) :: setParitySlots syn (p + 1) rest

/-- The encode function HENC (R281). -/
def hamEncode (blockSize : Nat) (msg : Bits) : Bits :=
  let placed := placeData blockSize 0 msg
  let c := setParitySlots (syndrome placed) 0 placed
  c.set 0 (parity c.tail)

/-- The bits at the data positions, the first bit being at position `p`: "strip parity positions" (R282). -/
def dataBits : Nat → Bits → Bits
  | _, [] => []
  | p, v :: rest => if isParityPos p then dataBits (p + 1) rest else v :: dataBits (p + 1) rest

/-- The outcome kinds of a decoder that are data of a block (R282, 48_crc.md R303): OK, OneBitErrorCorrected or
Corrected, TwoBitError or Corrupted. -/
inductive OutcomeKind where
  | ok | fixed | bad
  deriving DecidableEq, Repr

/-- The outcome codes (R282, 48_crc.md R303); 0 Fail arises at file level only. -/
def outcomeCode : OutcomeKind → Nat
  | .ok => 1
  | .fixed => 2
  | .bad => 3

/-- Flip the bit at a position. -/
def flipBit (c : Bits) (p : Nat) : Bits := c.modify p not

/-- The decode function HDEC (R282). -/
def hamDecode (r : Bits) : Bits × OutcomeKind :=
  let syn := syndrome r
  if syn = 0 then (dataBits 0 r, .ok)
  else if parity r then (dataBits 0 (flipBit r syn), .fixed)
  else (dataBits 0 r, .bad)

/-- Add 1 to the counter of an outcome kind, modulo 2^64 (10_state.md R33, R34). -/
def countOutcome (k : OutcomeKind) (c : OutcomeCounts) : OutcomeCounts :=
  match k with
  | .ok => { c with ok := c.ok + 1 }
  | .fixed => { c with fixed := c.fixed + 1 }
  | .bad => { c with bad := c.bad + 1 }

/-- Add 1 to the counter of the Fail kind (47_hamming.md R287, 48_crc.md R309). -/
def countFail (c : OutcomeCounts) : OutcomeCounts := { c with fail := c.fail + 1 }

/-- "HAM_FAIL, HAM_OK, HAM_ONE, HAM_TWO <- 0" (R287). -/
def OutcomeCounts.zero : OutcomeCounts := ⟨0, 0, 0, 0⟩

/-- HM.ENC (R283). -/
def execHmEnc (bd bs : BReg) (s : State) : Result :=
  s.unlessHalted <|
    if s.hamB = 0 then fatal .invalidValue s
    else if s.b[bs].length ≠ hamK s.hamB then fatal .outOfRange s
    else .next (s.setB bd (hamEncode s.hamB s.b[bs]))

/-- HM.DEC (R284). -/
def execHmDec (bd : BReg) (xd : XReg) (bs : BReg) (s : State) : Result :=
  s.unlessHalted <|
    if s.hamB = 0 then fatal .invalidValue s
    else if s.b[bs].length ≠ s.hamB then fatal .outOfRange s
    else
      let d := hamDecode s.b[bs]
      .next { (s.setB bd d.1).setX xd (outcomeCode d.2) with ham := countOutcome d.2 s.ham }

/-! ## File level (R285–R287) -/

/-- `n` consecutive slices of k bits. -/
def slicesOf (k : Nat) : Nat → Bits → List Bits
  | 0, _ => []
  | n + 1, bits => bits.take k :: slicesOf k n (bits.drop k)

/-- nf = ceil(16/k), the number of field blocks (R285). -/
def fieldBlocks (k : Nat) : Nat := ceilDiv 16 k

/-- The information bits of the field blocks: bits_16(O) ++ 0^(nf·k − 16), cut into k-bit slices (R285). -/
def fieldSlices (k overflow : Nat) : List Bits :=
  slicesOf k (fieldBlocks k) (bitsOf 16 overflow ++ bitRun (fieldBlocks k * k - 16) false)

/-- The blocks of the Hamming file of input bits M in order (R285): the k information bits of each, and how many
bits of IN it carries. -/
def hamFileBlocks (k : Nat) (m : Bits) : List (Bits × Nat) :=
  let o := m.length % k
  (fieldSlices k o).map (fun d => (d, 0)) ++
  (if o > 0 then [(m.take o ++ bitRun (k - o) false, o)] else []) ++
  (slicesOf k (m.length / k) (m.drop o)).map (fun d => (d, k))

/-- Read the bits of IN a block carries, an I/O action when there are any: "reading IN for overflow and body
blocks" (R286). -/
def readCarried (carried : Nat) : FileM Unit := if carried > 0 then FileM.io else pure ()

/-- `floor(100·done/total)`, "or 100 when len(M) = 0" (R286). -/
def percentOf (done total : Nat) : Nat := if total = 0 then 100 else 100 * done / total

/-- The loop of HM.FENC over the blocks still to write, `done` bits of IN being consumed (R286). -/
def hamEncodeBlocks (cfg : Config) (blockSize total : Nat) : Nat → List (Bits × Nat) → FileM Unit
  | _, [] => pure ()
  | done, blk :: rest => do
    FileM.poll
    readCarried blk.2
    FileM.write cfg (hamEncode blockSize blk.1)
    FileM.setProgress (percentOf (done + blk.2) total)
    hamEncodeBlocks cfg blockSize total (done + blk.2) rest

/-- The body of HM.FENC (R286). -/
def hamEncodeBody (cfg : Config) (blockSize : Nat) (inp : List Byte) : FileM Unit :=
  hamEncodeBlocks cfg blockSize (8 * inp.length) 0 (hamFileBlocks (hamK blockSize) (streamBits inp))

/-- HM.FENC (R286): HAM_B = 0 is a fatal configuration check; an empty IN is not EmptyInput. -/
def execHmFenc (s : State) : Result :=
  s.unlessHalted <|
    if s.hamB = 0 then fatal .invalidValue s
    else s.unlessUnitOpen <|
      .next (s.afterJob ((s.job s.ham).runFile (hamEncodeBody s.cfg s.hamB s.input)))

/-- Read, decode and tally one block at bit position `pos` of the private reader (R287, `next_block` without
its bound test). -/
def hamReadBlock (blockSize : Nat) (inp : List Byte) (pos : Nat) : FileM Bits := do
  FileM.io
  let d := hamDecode (memRead inp pos blockSize)
  FileM.count (countOutcome d.2)
  FileM.setProgress (100 * (pos + blockSize) / (8 * inp.length))
  pure d.1

/-- `next_block()` (R287): poll first; "if fewer than B bits of IN remain: return none". -/
def hamNextBlock (blockSize : Nat) (inp : List Byte) (pos : Nat) : FileM (Option Bits) := do
  FileM.poll
  if 8 * inp.length < pos + blockSize then pure none
  else do
    let d ← hamReadBlock blockSize inp pos
    pure (some d)

/-- "repeat nf times": the field bits so far are `f`; a missing block is a Failure (R287). -/
def hamReadField (blockSize : Nat) (inp : List Byte) : Nat → Nat → Bits → FileM Bits
  | 0, _, f => pure f
  | n + 1, pos, f => do
    match ← hamNextBlock blockSize inp pos with
    | none => FileM.stop .failure
    | some d => hamReadField blockSize inp n (pos + blockSize) (f ++ d)

/-- The loop over the whole blocks that remain, `n` of them from `pos` on (R287). -/
def hamDecodeBlocks (cfg : Config) (blockSize : Nat) (inp : List Byte) : Nat → Nat → FileM Unit
  | 0, _ => pure ()
  | n + 1, pos => do
    match ← hamNextBlock blockSize inp pos with
    | none => FileM.stop .failure
    | some d => do
      FileM.write cfg d
      hamDecodeBlocks cfg blockSize inp n (pos + blockSize)

/-- From the body blocks to the end: decode "until the file is exhausted", then count a trailing partial block
as the Fail kind (R287). -/
def hamDecodeRest (cfg : Config) (blockSize : Nat) (inp : List Byte) (pos : Nat) : FileM Unit := do
  hamDecodeBlocks cfg blockSize inp ((8 * inp.length - pos) / blockSize) pos
  if (8 * inp.length - pos) % blockSize > 0 then FileM.count countFail else pure ()

/-- The body of HM.FDEC (R287). -/
def hamDecodeBody (cfg : Config) (blockSize : Nat) (inp : List Byte) : FileM Unit := do
  let k := hamK blockSize
  let f ← hamReadField blockSize inp (fieldBlocks k) 0 []
  let o := natOfBits (f.take 16)
  let pos := fieldBlocks k * blockSize
  if o ≥ k then FileM.stop .failure
  else if o > 0 then do
    match ← hamNextBlock blockSize inp pos with
    | none => FileM.stop .failure
    | some d => do
      FileM.write cfg (d.take o)
      hamDecodeRest cfg blockSize inp (pos + blockSize)
  else hamDecodeRest cfg blockSize inp pos

/-- The state after a file-level command that counts Hamming outcomes (R287). -/
def State.afterHamJob (s : State) (e : Job × Report) : State := { s.afterJob e with ham := e.1.counts }

/-- HM.FDEC (R287): the four counters are zeroed at the start, then tallied. -/
def execHmFdec (s : State) : Result :=
  s.unlessHalted <|
    if s.hamB = 0 then fatal .invalidValue s
    else s.unlessUnitOpen <|
      .next (s.afterHamJob ((s.job .zero).runFile (hamDecodeBody s.cfg s.hamB s.input)))

end Sys2Proof.Machine
end

