-- ==== Sys2Proof/Machine/Crc.lean ====
section
/-! DEFINITION. The CRC polynomial engine (48_crc.md). -/

namespace Sys2Proof.Machine

/-! ## Block functions (R300–R303) -/

/-- One turn of the loop of REM: the dividend after the aligned subtraction of the generator, or none when the
loop exits (R301). -/
def remStep (g r : Bits) : Option Bits :=
  match r.findIdx? id with
  | none => none
  | some i =>
    if r.length - 1 - i < g.length - 1 then none
    else some (xorTail r (g ++ bitRun (r.length - i - g.length) false))

/-- The loop of REM. Each turn clears the leading 1, so `fuel` = len(D) turns are enough (log entry 16). -/
def remLoop (g : Bits) : Nat → Bits → Bits
  | 0, r => r
  | fuel + 1, r =>
    match remStep g r with
    | none => r
    | some r' => remLoop g fuel r'

/-- "if len(R) >= W: return R[len(R) - W .. len(R)) else: return 0^(W - len(R)) ++ R" (R301). -/
def lastBits (w : Nat) (r : Bits) : Bits :=
  if r.length ≥ w then r.drop (r.length - w) else bitRun (w - r.length) false ++ r

/-- The remainder function REM (R301). -/
def crcRem (g d : Bits) : Bits := lastBits g.length (remLoop g d.length d)

/-- The encode function CENC (R302): `(M ++ 0^W) XOR REM(M ++ 0^W)`. -/
def crcEncode (g m : Bits) : Bits :=
  let padded := m ++ bitRun g.length false
  xorTail padded (crcRem g padded)

/-- "REM(…) = 0^W". -/
def crcZero (g r : Bits) : Bool := crcRem g r == bitRun g.length false

/-- The positions whose trial flip gives remainder zero (R303). -/
def crcCandidates (g r : Bits) : List Nat := (List.range r.length).filter fun i => crcZero g (flipBit r i)

/-- The decode function CDEC (R303). -/
def crcDecode (g r : Bits) (corr : Bool) : Bits × OutcomeKind :=
  if crcZero g r then (r.take (r.length - g.length), .ok)
  else if corr then
    match crcCandidates g r with
    | [i] => ((flipBit r i).take (r.length - g.length), .fixed)
    | _ => (r.take (r.length - g.length), .bad)
  else (r.take (r.length - g.length), .bad)

/-! ## Block commands -/

/-- CRC.REM (R304). -/
def execCrcRem (bd bs : BReg) (s : State) : Result :=
  s.unlessHalted (.next (s.setB bd (crcRem s.cfg.poly s.b[bs])))

/-- CRC.ENC (R305). -/
def execCrcEnc (bd bs : BReg) (s : State) : Result :=
  s.unlessHalted (.next (s.setB bd (crcEncode s.cfg.poly s.b[bs])))

/-- CRC.DEC (R306). -/
def execCrcDec (bd : BReg) (xd : XReg) (bs : BReg) (s : State) : Result :=
  s.unlessHalted <|
    if s.b[bs].length < s.cfg.poly.length then fatal .outOfRange s
    else
      let d := crcDecode s.cfg.poly s.b[bs] s.crcCorr
      .next { (s.setB bd d.1).setX xd (outcomeCode d.2) with crc := countOutcome d.2 s.crc }

/-! ## File level (R307–R309) -/

/-- The sizes of the message blocks of `total` bits: floor(total/N) of N bits and a last one of the rest
(R307). -/
def crcBlockSizes (n total : Nat) : List Nat :=
  List.replicate (total / n) n ++ (if total % n > 0 then [total % n] else [])

/-- The loop of CRC.FENC over the block sizes still to encode, at bit position `pos` of IN (R308). -/
def crcEncodeBlocks (cfg : Config) (inp : List Byte) : Nat → List Nat → FileM Unit
  | _, [] => pure ()
  | pos, size :: rest => do
    FileM.poll
    FileM.io
    FileM.write cfg (crcEncode cfg.poly (memRead inp pos size))
    FileM.setProgress (100 * (pos + size) / (8 * inp.length))
    crcEncodeBlocks cfg inp (pos + size) rest

/-- CRC.FENC (R308). -/
def execCrcFenc (s : State) : Result :=
  s.unlessHalted <|
    if s.crcN = 0 then fatal .invalidValue s
    else s.unlessUnitOpen <|
      .next (s.afterJob ((s.job s.crc).runFile
        (crcEncodeBlocks s.cfg s.input 0 (crcBlockSizes s.crcN (8 * s.input.length)))))

/-- E(n) = 8n + W·ceil(8n/N), the encoded length in bits of n bytes (R307). -/
def crcEncodedBits (w n bytes : Nat) : Nat := 8 * bytes + w * ceilDiv (8 * bytes) n

/-- The bytes of the file that n bytes encode to: ceil(E(n)/8) (R307). -/
def crcFileBytes (w n bytes : Nat) : Nat := ceilDiv (crcEncodedBits w n bytes) 8

/-- The largest number up to `n` that satisfies `p`; 0 when none does. -/
def largestUpTo (p : Nat → Bool) : Nat → Nat
  | 0 => 0
  | n + 1 => if p (n + 1) then n + 1 else largestUpTo p n

/-- The original length in bytes: "the largest natural with ceil(E(n)/8) ≤ f" (R309); E(n) ≥ 8n, so none above f
qualifies. -/
def crcOriginalBytes (w n f : Nat) : Nat := largestUpTo (fun b => crcFileBytes w n b ≤ f) f

/-- The loop of CRC.FDEC over the message block sizes still to decode, at bit position `pos` of IN (R309). -/
def crcDecodeBlocks (cfg : Config) (corr : Bool) (inp : List Byte) : Nat → List Nat → FileM Unit
  | _, [] => pure ()
  | pos, size :: rest => do
    FileM.poll
    FileM.io
    let d := crcDecode cfg.poly (memRead inp pos (size + cfg.poly.length)) corr
    FileM.count (countOutcome d.2)
    FileM.write cfg d.1
    FileM.setProgress (100 * (pos + size + cfg.poly.length) / (8 * inp.length))
    crcDecodeBlocks cfg corr inp (pos + size + cfg.poly.length) rest

/-- The body of CRC.FDEC (R309). -/
def crcDecodeBody (cfg : Config) (n : Nat) (corr : Bool) (inp : List Byte) : FileM Unit := do
  let bytes := crcOriginalBytes cfg.poly.length n inp.length
  crcDecodeBlocks cfg corr inp 0 (crcBlockSizes n (8 * bytes))
  if crcFileBytes cfg.poly.length n bytes ≠ inp.length then FileM.count countFail else pure ()

/-- The state after a file-level command that counts CRC outcomes (R309). -/
def State.afterCrcJob (s : State) (e : Job × Report) : State := { s.afterJob e with crc := e.1.counts }

/-- CRC.FDEC (R309): the four counters are zeroed at the start, then tallied. -/
def execCrcFdec (s : State) : Result :=
  s.unlessHalted <|
    if s.crcN = 0 then fatal .invalidValue s
    else s.unlessUnitOpen <|
      .next (s.afterCrcJob ((s.job .zero).runFile (crcDecodeBody s.cfg s.crcN s.crcCorr s.input)))

end Sys2Proof.Machine
end

