-- ==== Sys2Proof/Machine/PackedBits.lean ====
section
/-! DEFINITION. Meanings of the packed-bit buffer commands (41_packed_bit_buffer.md). Every one reads its
operands before it writes, and a fault changes no register (R120). -/

namespace Sys2Proof.Machine

/-- PB.CLEAR (R121). -/
def execPbClear (bd : BReg) (s : State) : Result := s.unlessHalted (.next (s.setB bd []))

/-- PB.TRUNC (R122): keep the first n bits. -/
def execPbTrunc (bd : BReg) (xn : XReg) (s : State) : Result :=
  s.unlessHalted <|
    if s.x[xn] > s.b[bd].length then fatal .outOfRange s
    else .next (s.setB bd (s.b[bd].take s.x[xn]))

/-- PB.APPBIT (R123). -/
def execPbAppBit (bd : BReg) (xv : XReg) (s : State) : Result :=
  s.unlessHalted <|
    match bitOperand s.x[xv] with
    | none => fatal .invalidValue s
    | some v => .next (s.setB bd (s.b[bd] ++ [v]))

/-- PB.APPBYTE (R124): most significant bit first. -/
def execPbAppByte (bd : BReg) (xv : XReg) (s : State) : Result :=
  s.unlessHalted <|
    match byteOperand s.x[xv] with
    | none => fatal .invalidValue s
    | some v => .next (s.setB bd (s.b[bd] ++ byteBits v))

/-- PB.APPPART (R125): the n low bits of the value; the length is checked first. -/
def execPbAppPart (bd : BReg) (xv xl : XReg) (s : State) : Result :=
  s.unlessHalted <|
    if s.x[xl] < 1 ∨ s.x[xl] > 8 then fatal .outOfRange s
    else if s.x[xv] > 255 then fatal .invalidValue s
    else .next (s.setB bd (s.b[bd] ++ bitsOf s.x[xl] (s.x[xv] % 2 ^ s.x[xl])))

/-- PB.APPBUF (R126): bit-exact concatenation. -/
def execPbAppBuf (bd bs : BReg) (s : State) : Result :=
  s.unlessHalted (.next (s.setB bd (s.b[bd] ++ s.b[bs])))

/-- PB.GET (R128). -/
def execPbGet (xd : XReg) (bs : BReg) (xi : XReg) (fromEnd : Bool) (s : State) : Result :=
  s.unlessHalted <|
    match resolveIndex s.b[bs].length s.x[xi] fromEnd with
    | none => fatal .outOfRange s
    | some p => .next (s.setX xd (s.b[bs].getD p false).toNat)

/-- PB.SET (R129): the index is checked first; the length is unchanged. -/
def execPbSet (bd : BReg) (xi xv : XReg) (fromEnd : Bool) (s : State) : Result :=
  s.unlessHalted <|
    match resolveIndex s.b[bd].length s.x[xi] fromEnd with
    | none => fatal .outOfRange s
    | some p =>
      match bitOperand s.x[xv] with
      | none => fatal .invalidValue s
      | some v => .next (s.setB bd (s.b[bd].set p v))

/-- PB.SLICE (R130): the half-open range [a, e). -/
def execPbSlice (bd bs : BReg) (xa xe : XReg) (s : State) : Result :=
  s.unlessHalted <|
    if s.x[xa] ≤ s.x[xe] ∧ s.x[xe] ≤ s.b[bs].length then
      .next (s.setB bd ((s.b[bs].drop s.x[xa]).take (s.x[xe] - s.x[xa])))
    else fatal .outOfRange s

/-- PB.POP (R131): the last bit, removed. -/
def execPbPop (xd : XReg) (bd : BReg) (s : State) : Result :=
  s.unlessHalted <|
    match s.b[bd].getLast? with
    | none => fatal .outOfRange s
    | some v => .next ((s.setB bd s.b[bd].dropLast).setX xd v.toNat)

/-- PB.XOR (R132). -/
def execPbXor (bd bs1 bs2 : BReg) (s : State) : Result :=
  s.unlessHalted (.next (s.setB bd (xorTail s.b[bs1] s.b[bs2])))

/-- PB.TOINT (R133). -/
def execPbToInt (xd : XReg) (bs : BReg) (s : State) : Result :=
  s.unlessHalted (.next (s.setX xd (natOfBits s.b[bs])))

/-- PB.FROMINT (R134). -/
def execPbFromInt (bd : BReg) (xv xw : XReg) (s : State) : Result :=
  s.unlessHalted <|
    if s.x[xv] ≥ 2 ^ s.x[xw] then fatal .outOfRange s
    else .next (s.setB bd (bitsOf s.x[xw] s.x[xv]))

/-- PB.PADR (R135): append n copies of the bit. -/
def execPbPadR (bd : BReg) (xv xn : XReg) (s : State) : Result :=
  s.unlessHalted <|
    match bitOperand s.x[xv] with
    | none => fatal .invalidValue s
    | some v => .next (s.setB bd (s.b[bd] ++ bitRun s.x[xn] v))

/-- PB.LEN (R136). -/
def execPbLen (xd : XReg) (bs : BReg) (s : State) : Result :=
  s.unlessHalted (.next (s.setX xd s.b[bs].length))

/-- PB.COPY (R137). -/
def execPbCopy (bd bs : BReg) (s : State) : Result := s.unlessHalted (.next (s.setB bd s.b[bs]))

end Sys2Proof.Machine
end

