-- ==== Sys2Proof/Machine/Scalar.lean ====
section
/-! DEFINITION. Meanings of the scalar and CSR commands (40_scalar_csr.md). -/

namespace Sys2Proof.Machine

/-- NOP (R100). -/
def execNop (s : State) : Result := s.unlessHalted (.next s)

/-- X.LI (R101): `x[A] <- zext_20(w[19:0])`. -/
def execXLi (xd : XReg) (imm : BitVec 20) (s : State) : Result :=
  s.unlessHalted (.next (s.setX xd imm.toNat))

/-- X.LIS (R102): `x[A] <- x[A] · 2^20 + zext_20(w[19:0])`, never wrapping. -/
def execXLis (xd : XReg) (imm : BitVec 20) (s : State) : Result :=
  s.unlessHalted (.next (s.setX xd (s.x[xd] * 2 ^ 20 + imm.toNat)))

/-- X.MOV (R103). -/
def execXMov (xd xs : XReg) (s : State) : Result :=
  s.unlessHalted (.next (s.setX xd s.x[xs]))

/-- CSR.R (R104): "the only command that still executes while STATUS.FAULT = 1". An absent CSR raises
IllegalCommand, which in a halted block changes nothing (60_exceptions.md R323). -/
def execCsrR (xd : XReg) (csr : BitVec 8) (s : State) : Result :=
  match csrOfNum csr with
  | none => fatal .illegalCommand s
  | some c => .next { s.setX xd (s.csrValue c) with env := s.envAfterRead c }

/-- CSR.W (R105, R106). -/
def execCsrW (xs : XReg) (csr : BitVec 8) (s : State) : Result :=
  s.unlessHalted <|
    match csrOfNum csr with
    | none => fatal .illegalCommand s
    | some c =>
      match s.csrWrite c s.x[xs] with
      | .error cause => fatal cause s
      | .ok s' => .next s'

end Sys2Proof.Machine
end

