-- ==== Sys2Proof/Machine/Streams.lean ====
section
/-! DEFINITION. Meanings of the bit stream reader and writer commands (42_bit_streams.md). A write command
checks the open state, then its operand, then writes (R170); a read command checks the open state first (R160). -/

namespace Sys2Proof.Machine

/-- The bits of IN the reader unit has not consumed (R160). -/
def State.bitsLeft (s : State) : Nat := 8 * s.input.length - s.reader.pos

/-- A read that met the end of IN: STATUS.EOS is set and nothing is consumed (R162, R164). -/
def State.atEnd (s : State) : State := { s with eos := true }

/-- A read of n bits: rd.pos advances and STATUS.EOS is written (R162–R164). -/
def State.consumed (s : State) (n : Nat) (eos : Bool) : State :=
  { s with reader := { s.reader with pos := s.reader.pos + n }, eos := eos }

/-- SR.OPEN (R161). -/
def execSrOpen (s : State) : Result :=
  s.unlessHalted (.next { s with reader := { isOpen := true, pos := 0 }, eos := false })

/-- SR.RDBIT (R162): 2 is the end marker. -/
def execSrRdBit (xd : XReg) (s : State) : Result :=
  s.unlessHalted <|
    if !s.reader.isOpen then fatal .streamClosed s
    else if s.reader.pos ≥ 8 * s.input.length then .next (s.atEnd.setX xd 2)
    else s.withIo fun s' =>
      .next ((s'.consumed 1 false).setX xd (natOfBits (memRead s'.input s'.reader.pos 1)))

/-- SR.RDN (R163): a partial buffer when fewer than n bits remain. -/
def execSrRdN (bd : BReg) (xn : XReg) (s : State) : Result :=
  s.unlessHalted <|
    if !s.reader.isOpen then fatal .streamClosed s
    else s.withIo fun s' =>
      let m := min s'.x[xn] s'.bitsLeft
      .next ((s'.consumed m (decide (m < s'.x[xn]))).setB bd (memRead s'.input s'.reader.pos m))

/-- SR.RDBYTE (R164): 256 is the end marker. -/
def execSrRdByte (xd : XReg) (s : State) : Result :=
  s.unlessHalted <|
    if !s.reader.isOpen then fatal .streamClosed s
    else if s.bitsLeft < 8 then .next (s.atEnd.setX xd 256)
    else s.withIo fun s' =>
      .next ((s'.consumed 8 false).setX xd (natOfBits (memRead s'.input s'.reader.pos 8)))

/-- SR.CLOSE (R165): rd.pos and STATUS.EOS keep their values. -/
def execSrClose (s : State) : Result :=
  s.unlessHalted (.next { s with reader := { s.reader with isOpen := false } })

/-- SW.OPEN (R171): the truncation of OUT is an I/O action (60_exceptions.md R330). -/
def execSwOpen (s : State) : Result :=
  s.unlessHalted <| s.withIo fun s' =>
    .next { s' with output := [], writer := { isOpen := true, pend := [] } }

/-- SW.WRBIT (R172). -/
def execSwWrBit (xv : XReg) (s : State) : Result :=
  s.unlessHalted <|
    if !s.writer.isOpen then fatal .streamClosed s
    else
      match bitOperand s.x[xv] with
      | none => fatal .invalidValue s
      | some v => s.writeBits [v]

/-- SW.WRBYTE (R174): most significant bit first, at any bit position. -/
def execSwWrByte (xv : XReg) (s : State) : Result :=
  s.unlessHalted <|
    if !s.writer.isOpen then fatal .streamClosed s
    else
      match byteOperand s.x[xv] with
      | none => fatal .invalidValue s
      | some v => s.writeBits (byteBits v)

/-- SW.WRBUF (R175). -/
def execSwWrBuf (bs : BReg) (s : State) : Result :=
  s.unlessHalted <|
    if !s.writer.isOpen then fatal .streamClosed s else s.writeBits s.b[bs]

/-- SW.CLOSE (R176): the trailing partial byte is zero-padded; a closed writer does nothing. -/
def execSwClose (s : State) : Result :=
  s.unlessHalted <|
    if s.writer.isOpen then
      s.withIo fun s' =>
        .next { s' with output := s'.output ++ pack s'.writer.pend, writer := { isOpen := false, pend := [] } }
    else .next s

end Sys2Proof.Machine
end

