-- ==== Sys2Proof/Machine/TreeCommands.lean ====
section
/-! DEFINITION. Meanings of the code tree commands (44_code_tree.md). "A faulting CT command changes no state"
(R210). -/

namespace Sys2Proof.Machine

/-- CT.FROMMAP (R212). -/
def execCtFromMap (s : State) : Result :=
  s.unlessHalted <|
    match treeOfCodes s.codes with
    | .error c => fatal c s
    | .ok t => .next { s with tree := t, cur := [] }

/-- CT.TOMAP (R213). -/
def execCtToMap (s : State) : Result := s.unlessHalted (.next { s with codes := codesOfTree s.tree })

/-- CT.SER (R214). -/
def execCtSer (s : State) : Result :=
  s.unlessHalted <|
    if !s.writer.isOpen then fatal .streamClosed s
    else if !s.tree.full then fatal .malformedTree s
    else s.writeBits s.tree.serialize

/-- The bits of IN from the reader unit's position on. -/
def State.readerBits (s : State) : Bits := (streamBits s.input).drop s.reader.pos

/-- CT.DESER (R215): "on any fault rd.pos and the old tree are kept"; STATUS.EOS is not changed. Its first I/O
action is the first bit read, so at the end of IN it raises EndOfStream without a draw (log entry 10). -/
def execCtDeser (s : State) : Result :=
  s.unlessHalted <|
    if !s.reader.isOpen then fatal .streamClosed s
    else if s.readerBits.isEmpty then fatal .endOfStream s
    else s.withIo fun s' =>
      match deserialize s'.readerBits with
      | .error c => fatal c s'
      | .ok (t, used) =>
        .next { s' with tree := t, cur := [], reader := { s'.reader with pos := s'.reader.pos + used } }

/-- CT.FEED (R216): a leaf emits its symbol and resets the cursor; 256 means no symbol yet. -/
def execCtFeed (xd xv : XReg) (s : State) : Result :=
  s.unlessHalted <|
    match bitOperand s.x[xv] with
    | none => fatal .invalidValue s
    | some v =>
      match (s.tree.at s.cur).child v with
      | .absent => fatal .missingChild s
      | .leaf sym => .next { s.setX xd sym.toNat with cur := [] }
      | .node _ _ => .next { s.setX xd 256 with cur := s.cur ++ [v] }

/-- CT.RESET (R217). -/
def execCtReset (s : State) : Result := s.unlessHalted (.next { s with cur := [] })

/-- CT.CODE (R218). -/
def execCtCode (bd : BReg) (xs : XReg) (s : State) : Result :=
  s.unlessHalted <|
    match byteOperand s.x[xs] with
    | none => fatal .outOfRange s
    | some sym =>
      match s.codes[sym.toFin] with
      | none => fatal .outOfRange s
      | some c => .next (s.setB bd c)

/-- CT.SETCODE (R219): "an empty code deletes the entry". -/
def execCtSetCode (xs : XReg) (bs : BReg) (s : State) : Result :=
  s.unlessHalted <|
    match byteOperand s.x[xs] with
    | none => fatal .outOfRange s
    | some sym =>
      .next { s with codes := s.codes.set sym.toFin (if s.b[bs].isEmpty then none else some s.b[bs]) }

end Sys2Proof.Machine
end

