-- ==== Sys2Proof/Machine/Dispatch.lean ====
section
/-! DEFINITION. One arm per command: the meaning that runs it. -/

namespace Sys2Proof.Machine

def exec (i : Instr) (s : State) : Host.Outcome State Fault Refusal :=
  match i with
  -- 40_scalar_csr.md
  | .nop => Sys2Proof.Machine.execNop s
  | .xLi xd imm => Sys2Proof.Machine.execXLi xd imm s
  | .xLis xd imm => Sys2Proof.Machine.execXLis xd imm s
  | .xMov xd xs => Sys2Proof.Machine.execXMov xd xs s
  | .csrR xd csr => Sys2Proof.Machine.execCsrR xd csr s
  | .csrW xs csr => Sys2Proof.Machine.execCsrW xs csr s
  -- 41_packed_bit_buffer.md
  | .pbClear bd => Sys2Proof.Machine.execPbClear bd s
  | .pbTrunc bd xn => Sys2Proof.Machine.execPbTrunc bd xn s
  | .pbAppBit bd xv => Sys2Proof.Machine.execPbAppBit bd xv s
  | .pbAppByte bd xv => Sys2Proof.Machine.execPbAppByte bd xv s
  | .pbAppPart bd xv xl => Sys2Proof.Machine.execPbAppPart bd xv xl s
  | .pbAppBuf bd bs => Sys2Proof.Machine.execPbAppBuf bd bs s
  | .pbGet xd bs xi fromEnd => Sys2Proof.Machine.execPbGet xd bs xi fromEnd s
  | .pbSet bd xi xv fromEnd => Sys2Proof.Machine.execPbSet bd xi xv fromEnd s
  | .pbSlice bd bs xa xe => Sys2Proof.Machine.execPbSlice bd bs xa xe s
  | .pbPop xd bd => Sys2Proof.Machine.execPbPop xd bd s
  | .pbXor bd bs1 bs2 => Sys2Proof.Machine.execPbXor bd bs1 bs2 s
  | .pbToInt xd bs => Sys2Proof.Machine.execPbToInt xd bs s
  | .pbFromInt bd xv xw => Sys2Proof.Machine.execPbFromInt bd xv xw s
  | .pbPadR bd xv xn => Sys2Proof.Machine.execPbPadR bd xv xn s
  | .pbLen xd bs => Sys2Proof.Machine.execPbLen xd bs s
  | .pbCopy bd bs => Sys2Proof.Machine.execPbCopy bd bs s
  -- 42_bit_streams.md
  | .srOpen => Sys2Proof.Machine.execSrOpen s
  | .srRdBit xd => Sys2Proof.Machine.execSrRdBit xd s
  | .srRdN bd xn => Sys2Proof.Machine.execSrRdN bd xn s
  | .srRdByte xd => Sys2Proof.Machine.execSrRdByte xd s
  | .srClose => Sys2Proof.Machine.execSrClose s
  | .swOpen => Sys2Proof.Machine.execSwOpen s
  | .swWrBit xv => Sys2Proof.Machine.execSwWrBit xv s
  | .swWrByte xv => Sys2Proof.Machine.execSwWrByte xv s
  | .swWrBuf bs => Sys2Proof.Machine.execSwWrBuf bs s
  | .swClose => Sys2Proof.Machine.execSwClose s
  -- 43_histogram.md
  | .fhCount => Sys2Proof.Machine.execFhCount s
  | .fhGet xd xs => Sys2Proof.Machine.execFhGet xd xs s
  | .fhClear => Sys2Proof.Machine.execFhClear s
  | .fhDistinct xd => Sys2Proof.Machine.execFhDistinct xd s
  -- 44_code_tree.md
  | .ctFromMap => Sys2Proof.Machine.execCtFromMap s
  | .ctToMap => Sys2Proof.Machine.execCtToMap s
  | .ctSer => Sys2Proof.Machine.execCtSer s
  | .ctDeser => Sys2Proof.Machine.execCtDeser s
  | .ctFeed xd xv => Sys2Proof.Machine.execCtFeed xd xv s
  | .ctReset => Sys2Proof.Machine.execCtReset s
  | .ctCode bd xs => Sys2Proof.Machine.execCtCode bd xs s
  | .ctSetCode xs bs => Sys2Proof.Machine.execCtSetCode xs bs s
  -- 45_prefix_builders.md
  | .sfBuild => Sys2Proof.Machine.execSfBuild s
  | .hfBuild => Sys2Proof.Machine.execHfBuild s
  -- 46_compression.md
  | .cdCompress xalg => Sys2Proof.Machine.execCdCompress xalg s
  | .cdDecompress => Sys2Proof.Machine.execCdDecompress s
  -- 47_hamming.md
  | .hmEnc bd bs => Sys2Proof.Machine.execHmEnc bd bs s
  | .hmDec bd xd bs => Sys2Proof.Machine.execHmDec bd xd bs s
  | .hmFenc => Sys2Proof.Machine.execHmFenc s
  | .hmFdec => Sys2Proof.Machine.execHmFdec s
  -- 48_crc.md
  | .crcRem bd bs => Sys2Proof.Machine.execCrcRem bd bs s
  | .crcEnc bd bs => Sys2Proof.Machine.execCrcEnc bd bs s
  | .crcDec bd xd bs => Sys2Proof.Machine.execCrcDec bd xd bs s
  | .crcFenc => Sys2Proof.Machine.execCrcFenc s
  | .crcFdec => Sys2Proof.Machine.execCrcFdec s

end Sys2Proof.Machine
end

