-- ==== Sys2Proof/Machine/HostActs.lean ====
section
/-! DEFINITION. What one act of the host does to the block: a command word is decoded and run, reset, another
IN or OUT, the level of the cancellation signal (60_exceptions.md R334, 70_reset_and_hazards.md). -/

namespace Sys2Proof.Machine

/-- A command word: "Decoding comes first: an illegal word raises IllegalCommand before any operand is read"
(60_exceptions.md R325, 30_encoding.md R87); in a halted block an illegal word changes nothing (R323). -/
def runWord (w : Word) (s : State) : Result :=
  match decode w with
  | .ok i => exec i s
  | .error _ => fatal .illegalCommand s

/-- The host takes its next act off its list. A command advances the index of the next command "by exactly
one, and no command changes it otherwise" (10_state.md R25). -/
def State.takeAct (s : State) (rest : List HostAct) : State := { s with acts := rest }

/-- The host issues a command. -/
def State.takeCommand (s : State) (rest : List HostAct) : State := { s with acts := rest, pc := s.pc + 1 }

/-- The host supplies another IN. It keeps IN unchanged while the reader is open (70_reset_and_hazards.md R354),
and IN is shorter than 2^64 bytes (43_histogram.md R190): the model refuses a host that breaks either
(log entry 9). -/
def supplyIn (bytes : List Byte) (s : State) : Result :=
  if s.reader.isOpen then .refused .inChangedWhileReaderOpen
  else if bytes.length ≥ 2 ^ 64 then .refused .inTooLong
  else .next { s with input := bytes }

/-- The host supplies another OUT, never while the writer is open (70_reset_and_hazards.md R355). -/
def supplyOut (bytes : List Byte) (s : State) : Result :=
  if s.writer.isOpen then .refused .outChangedWhileWriterOpen else .next { s with output := bytes }

/-- The host's signal takes another level (60_exceptions.md R328). -/
def setCancel (level : Bool) (s : State) : Result := .next { s with env := { s.env with cancel := level } }

/-- One act of the host, `s` being the state it is taken from. With no act to come the block waits
(70_reset_and_hazards.md R352). -/
def hostAct (s : State) : Result :=
  match s.acts with
  | [] => .next s
  | .command w :: rest => runWord w (s.takeCommand rest)
  | .reset :: rest => .next (s.takeAct rest).afterReset
  | .supplyIn bytes :: rest => supplyIn bytes (s.takeAct rest)
  | .supplyOut bytes :: rest => supplyOut bytes (s.takeAct rest)
  | .setCancel level :: rest => setCancel level (s.takeAct rest)

end Sys2Proof.Machine
end

