-- ==== Sys2Proof/Machine/Step.lean ====
section
/-! DEFINITION. One step of the machine: the host's next act, a command run to completion being one step
(70_reset_and_hazards.md R353). -/

namespace Sys2Proof.Machine

/-- One step. -/
def step (s : State) : Host.Outcome State Fault Refusal := hostAct s

/-- The state in which the next command the host issues is the word `w` (the bits from `nbits` upward 0): the
command is put at the front of the host's list, where the step takes its next command from (log entry 2). -/
def State.withFetchWord (s : State) (nbits w : Nat) : State :=
  { s with acts := .command (BitVec.ofNat 32 (w % 2 ^ nbits)) :: s.acts }

end Sys2Proof.Machine
end

