-- ==== Sys2Proof/Safety.lean ====
section
/-! DEFINITION. What every state of a run satisfies, and what a safe run is. -/

namespace Sys2Proof.Machine

/-- Below the root a node without a symbol has a child: "a leaf is a non-root node with no children" and every
leaf holds a symbol (10_state.md R44, 44_code_tree.md R210). -/
def Tree.wfBelow : Tree → Bool
  | .absent => true
  | .leaf _ => true
  | .node l r => (!l.isAbsent || !r.isAbsent) && l.wfBelow && r.wfBelow

/-- The invariants of a code tree (44_code_tree.md R210): the root exists and holds no symbol, every leaf holds
one, no node with a child does, and there are at most 511 nodes. -/
def Tree.wf : Tree → Bool
  | .node l r => l.wfBelow && r.wfBelow && (Tree.node l r).nodeCount ≤ maxNodes
  | _ => false

def Tree.isNode : Tree → Bool
  | .node _ _ => true
  | _ => false

/-- The tree is well formed and ct.cur names a node of it, never a leaf (44_code_tree.md R210, R216). -/
structure State.TreeInv (s : State) : Prop where
  tree : s.tree.wf = true
  cursor : (s.tree.at s.cur).isNode = true

/-- An entry of the code table is absent or a nonempty code (10_state.md R43). -/
def State.CodesInv (s : State) : Prop := ∀ i : Fin 256, s.codes[i] ≠ some []

/-- The stream units (10_state.md R40, R41): an open reader is within IN, a closed writer has nothing pending,
and the flush rule leaves at most FLUSH_T whole bytes pending (42_bit_streams.md R173). -/
structure State.StreamInv (s : State) : Prop where
  readerWithin : s.reader.isOpen = true → s.reader.pos ≤ 8 * s.input.length
  closedEmpty : s.writer.isOpen = false → s.writer.pend = []
  pendBound : s.writer.pend.length / 8 ≤ s.cfg.flushT

/-- Values within their ranges: IN shorter than 2^64 bytes (43_histogram.md R190), counts below 2^64
(10_state.md R42), HAM_B and PROGRESS as 10_state.md R26 lists them. -/
structure State.RangeInv (s : State) : Prop where
  inputShort : s.input.length < 2 ^ 64
  counts : ∀ i : Fin 256, s.hist[i] < 2 ^ 64
  hamB : s.hamB = 0 ∨ hamBLegal s.hamB = true
  progress : s.progress ≤ 100

/-- The invariant of the machine. -/
structure State.Inv (s : State) : Prop where
  tree : s.TreeInv
  codes : s.CodesInv
  streams : s.StreamInv
  ranges : s.RangeInv

/-- A safe state: no fatal fault has occurred (10_state.md R45). -/
def State.Safe (s : State) : Prop := s.fault = none

/-- A run of `n` steps ends in a state that satisfies `P`: the machine was not refused on the way. -/
def RunEndsIn (n : Nat) (s : State) (P : State → Prop) : Prop :=
  ∃ s', Sys2Proof.core.run n s = .next s' ∧ P s'

/-- A safe run: after `n` steps no fatal fault has occurred. -/
def SafeRun (n : Nat) (s : State) : Prop := RunEndsIn n s State.Safe

end Sys2Proof.Machine
end

