-- ==== Sys2Proof/WellFormed.lean ====
section
/-! DEFINITION. Which commands are well formed. Register specifiers, the immediate and the flag are within
their fields by their types; what is left to check is the CSR number of CSR.R and CSR.W. -/

namespace Sys2Proof

/-- The CSRs are numbered 0x00–0x1A (10_state.md R26). -/
def csrExists (n : BitVec 8) : Bool := n.toNat ≤ 0x1A

/-- The read-write CSRs of 10_state.md R26: HAM_B, CRC_N, CRC_CORR and the eight outcome counters. -/
def csrWritable (n : BitVec 8) : Bool :=
  n.toNat == 0x02 || n.toNat == 0x04 || n.toNat == 0x05 || (0x08 ≤ n.toNat && n.toNat ≤ 0x0F)

/-- A command is well formed when executing it raises no IllegalCommand: a CSR.R names a CSR
(40_scalar_csr.md R104) and a CSR.W names a read-write CSR (R105). -/
def Instr.wellFormed : Instr → Bool
  | .csrR _ csr => csrExists csr
  | .csrW _ csr => csrWritable csr
  | _ => true

end Sys2Proof
end

