-- ==== Sys2Proof/Certificates/Slice0/Obligations.lean ====
section
/-! DEFINITION. The statements for the provers. `Sys2Proof.Claims` holds the vocabulary they share: words laid out
as 30_encoding.md draws them, states after a fault, quiet environments, and the relations of the spec's pseudocode. -/

namespace Sys2Proof.Claims
open Sys2Proof.Machine

/-! ## Words (30_encoding.md R81–R84) -/

/-- A 4-bit register field. -/
def nib (r : Fin 16) : BitVec 4 := BitVec.ofNat 4 r.val

/-- Format R: op, A, B, C, D, E and the seven reserved bits, from bit 31 down. An unused field is 0. -/
def word (op : BitVec 8) (a b c d : Fin 16) (e : Bool) : Word :=
  op ++ nib a ++ nib b ++ nib c ++ nib d ++ BitVec.ofBool e ++ 0#7

/-- Format I: op, A, imm20. -/
def wordI (op : BitVec 8) (a : Fin 16) (imm : BitVec 20) : Word := op ++ nib a ++ imm

/-- Format S: op, A, twelve reserved bits, csr. -/
def wordS (op : BitVec 8) (a : Fin 16) (csr : BitVec 8) : Word := op ++ nib a ++ 0#12 ++ csr

/-- The `match` of an opcode: op·2^24 (R86). -/
def opMatch (op : BitVec 8) : Word := op ++ 0#24

/-- A row of the opcode map (R86, R87): the word `w` is selected by the row's mask and match and is the command
`i`; a word with the row's opcode and a reserved bit set is illegal. -/
structure Row (mask : Word) (op : BitVec 8) (w : Word) (i : Instr) : Prop where
  selects : w &&& mask = opMatch op
  decodes : decode w = .ok i
  reserved : ∀ v : Word, v &&& 0xFF000000 = opMatch op → v &&& mask ≠ opMatch op → ∃ e, decode v = .error e

/-- The opcodes of the map with their masks (R86). -/
def opcodeMap : List (Nat × Nat) :=
  [(0x01, 0xFFFFFFFF), (0x02, 0xFF000000), (0x03, 0xFF000000), (0x04, 0xFF00FFFF), (0x05, 0xFF0FFF00),
    (0x06, 0xFF0FFF00)] ++
  [(0x10, 0xFF0FFFFF), (0x11, 0xFF00FFFF), (0x12, 0xFF00FFFF), (0x13, 0xFF00FFFF), (0x14, 0xFF000FFF),
    (0x15, 0xFF00FFFF), (0x16, 0xFF000F7F), (0x17, 0xFF000F7F), (0x18, 0xFF0000FF), (0x19, 0xFF00FFFF),
    (0x1A, 0xFF000FFF), (0x1B, 0xFF00FFFF), (0x1C, 0xFF000FFF), (0x1D, 0xFF000FFF), (0x1E, 0xFF00FFFF),
    (0x1F, 0xFF00FFFF)] ++
  [(0x20, 0xFFFFFFFF), (0x21, 0xFF0FFFFF), (0x22, 0xFF00FFFF), (0x23, 0xFF0FFFFF), (0x24, 0xFFFFFFFF),
    (0x28, 0xFFFFFFFF), (0x29, 0xFF0FFFFF), (0x2A, 0xFF0FFFFF), (0x2B, 0xFF0FFFFF), (0x2C, 0xFFFFFFFF)] ++
  [(0x30, 0xFFFFFFFF), (0x31, 0xFF00FFFF), (0x32, 0xFFFFFFFF), (0x33, 0xFF0FFFFF)] ++
  [(0x40, 0xFFFFFFFF), (0x41, 0xFFFFFFFF), (0x42, 0xFFFFFFFF), (0x43, 0xFFFFFFFF), (0x44, 0xFF00FFFF),
    (0x45, 0xFFFFFFFF), (0x46, 0xFF00FFFF), (0x47, 0xFF00FFFF), (0x48, 0xFFFFFFFF), (0x49, 0xFFFFFFFF)] ++
  [(0x50, 0xFF0FFFFF), (0x51, 0xFFFFFFFF), (0x58, 0xFF00FFFF), (0x59, 0xFF000FFF), (0x5A, 0xFFFFFFFF),
    (0x5B, 0xFFFFFFFF)] ++
  [(0x60, 0xFF00FFFF), (0x61, 0xFF00FFFF), (0x62, 0xFF000FFF), (0x63, 0xFFFFFFFF), (0x64, 0xFFFFFFFF)]

/-- A legal word: some row of the map selects it (R86). -/
def LegalWord (w : Word) : Prop :=
  ∃ row ∈ opcodeMap, w &&& BitVec.ofNat 32 row.2 = BitVec.ofNat 32 (row.1 * 2 ^ 24)

/-! ## Faults and the environment -/

/-- The state after the fault entry of 60_exceptions.md R322 in a block that is not halted. -/
def raised (s : State) (c : Cause) : State := { s with fault := some c }

/-- The next I/O action fails (60_exceptions.md R330). -/
def ioFailsNext (s : State) : Bool := s.env.ioFails.headD false

/-- The environment after the draw of one I/O action. -/
def afterIo (s : State) : Env := { s.env with ioFails := s.env.ioFails.tail }

/-- An I/O action failed: IOError, no effect but the draw (60_exceptions.md R330, R322). -/
def ioRaised (s : State) : State := { s with fault := some .ioError, env := afterIo s }

/-- An environment in which no poll sees 1 and no I/O action fails. -/
structure Quiet (e : Env) : Prop where
  signal : e.cancel = false
  polls : ∀ p ∈ e.polls, p = false
  ios : ∀ f ∈ e.ioFails, f = false

/-- The environment after `p` polls and `n` I/O actions. -/
def afterDraws (e : Env) (p n : Nat) : Env :=
  { e with polls := e.polls.drop p, ioFails := e.ioFails.drop n }

/-- The value the poll number `j` from now sees: the list's, then the level of the signal (60_exceptions.md R328). -/
def pollSees (e : Env) (j : Nat) : Bool := e.polls.getD j e.cancel

/-- Does the I/O action number `j` from now fail (60_exceptions.md R330)? -/
def failsAt (e : Env) (j : Nat) : Bool := e.ioFails.getD j false

/-- What a file-level command needs to run: not halted, both stream units closed (60_exceptions.md R326). -/
structure Ready (s : State) : Prop where
  running : s.fault = none
  reader : s.reader.isOpen = false
  writer : s.writer.isOpen = false

/-! ## What each command may write -/

/-- The destination scalar register of a command (30_encoding.md R86). -/
def destX : Instr → Option XReg
  | .xLi r _ | .xLis r _ | .xMov r _ | .csrR r _ | .pbGet r _ _ _ | .pbPop r _ | .pbToInt r _ | .pbLen r _
  | .srRdBit r | .srRdByte r | .fhGet r _ | .fhDistinct r | .ctFeed r _ | .hmDec _ r _ | .crcDec _ r _ => some r
  | _ => none

/-- The destination buffer register of a command (30_encoding.md R86). -/
def destB : Instr → Option BReg
  | .pbClear r | .pbTrunc r _ | .pbAppBit r _ | .pbAppByte r _ | .pbAppPart r _ _ | .pbAppBuf r _
  | .pbSet r _ _ _ | .pbSlice r _ _ _ | .pbPop _ r | .pbXor r _ _ | .pbFromInt r _ _ | .pbPadR r _ _
  | .pbCopy r _ | .srRdN r _ | .ctCode r _ | .hmEnc r _ | .hmDec r _ _ | .crcRem r _ | .crcEnc r _
  | .crcDec r _ _ => some r
  | _ => none

/-- The six file-level commands (00_scope.md, glossary). -/
def fileLevel : Instr → Bool
  | .cdCompress _ | .cdDecompress | .hmFenc | .hmFdec | .crcFenc | .crcFdec => true
  | _ => false

/-- The seven commands that write REPORT (10_state.md R28). -/
def reporting (i : Instr) : Bool := fileLevel i || i == .fhCount

/-- The commands that append to OUT: the writer's and CT.SER (20_memory.md R60). SW.OPEN and the file-level
commands truncate it first. -/
def appendsOut : Instr → Bool
  | .swWrBit _ | .swWrByte _ | .swWrBuf _ | .swClose | .ctSer => true
  | _ => false

/-- The commands of the writer unit (42_bit_streams.md R170–R176, 44_code_tree.md R214). -/
def writesWriter (i : Instr) : Bool := appendsOut i || i == .swOpen

/-- The SR read commands (42_bit_streams.md R162–R164). -/
def readsStream : Instr → Bool
  | .srRdBit _ | .srRdN _ _ | .srRdByte _ => true
  | _ => false

end Sys2Proof.Claims

open Sys2Proof Sys2Proof.Machine Sys2Proof.Claims

section Statements
open Sys2Proof Sys2Proof.Machine Sys2Proof.Claims

/-! ## Encoding -/

/-- 30_encoding.md R80–R86: no bit of an encoding is dropped and every legal word has one meaning. Decoding the
word of a command, or its four bytes most significant first, gives the command; a word that decodes to a command
is that command's word. -/
def Obligations.EncodeAndDecodeAreInverse : Prop :=
  (∀ i : Instr, decode (encode i) = .ok i) ∧
  (∀ (i : Instr) (rest : List Byte), decodeBytes (wordBytes (encode i) ++ rest) = .ok (i, rest)) ∧
  (∀ (w : Word) (i : Instr), decode w = .ok i → encode i = w) ∧
  (∀ i : Instr, decodeTableWord 32 (encode i).toNat = some i)

/-- 30_encoding.md R87 (and the map of R86): a word that no row of the map selects decodes to no command, and
executing it raises IllegalCommand and changes nothing else; every other word is a command. -/
def Obligations.IllegalWordsOnlyRaiseIllegalCommand : Prop :=
  (∀ w : Word, LegalWord w ↔ ∃ i, decode w = .ok i) ∧
  (∀ (w : Word) (s : State), ¬ LegalWord w → s.fault = none → runWord w s = .next (raised s .illegalCommand)) ∧
  ¬ LegalWord 0x00000000 ∧
  (∀ w : Word, (w.toNat / 2 ^ 24 ∈
      List.range' 0x07 9 ++ List.range' 0x25 3 ++ List.range' 0x2D 3 ++ List.range' 0x34 12 ++
      List.range' 0x4A 6 ++ List.range' 0x52 6 ++ List.range' 0x5C 4 ++ List.range' 0x65 155) → ¬ LegalWord w)

/-- Words written out in the rules of spec/40 to spec/48, one or more for each family, decode to the commands the
rules name (a sanity statement). -/
def Obligations.SpecExampleWordsDecode : Prop :=
  decode 0x01000000 = .ok .nop ∧
  decode 0x023ABCDE = .ok (.xLi 3 0xABCDE) ∧
  decode 0x05100015 = .ok (.csrR 1 0x15) ∧
  decode 0x06200002 = .ok (.csrW 2 0x02) ∧
  decode 0x16123080 = .ok (.pbGet 1 2 3 true) ∧
  decode 0x18523400 = .ok (.pbSlice 5 2 3 4) ∧
  decode 0x22120000 = .ok (.srRdN 1 2) ∧
  decode 0x2A200000 = .ok (.swWrByte 2) ∧
  decode 0x31120000 = .ok (.fhGet 1 2) ∧
  decode 0x44120000 = .ok (.ctFeed 1 2) ∧
  decode 0x49000000 = .ok .hfBuild ∧
  decode 0x50100000 = .ok (.cdCompress 1) ∧
  decode 0x59413000 = .ok (.hmDec 4 1 3) ∧
  decode 0x62231000 = .ok (.crcDec 2 3 1) ∧
  decode 0x64000000 = .ok .crcFdec

/-! ## Steps, the host's acts, reset -/

/-- 60_exceptions.md R334, 70_reset_and_hazards.md R353, 10_state.md R25: the command at the front of the host's
list is decoded and run by one step, from the state in which it is taken off the list and the index of the next
command is one more; an illegal word is the IllegalCommand fault. The same for a word placed by `withFetchWord`
(the model's own loading function, log entry 2). -/
def Obligations.StepRunsTheDecodedCommand : Prop :=
  (∀ (s : State) (w : Word) (rest : List HostAct) (i : Instr),
    s.acts = .command w :: rest → decode w = .ok i →
      step s = exec i { s with acts := rest, pc := s.pc + 1 }) ∧
  (∀ (s : State) (w : Word) (rest : List HostAct),
    s.acts = .command w :: rest → s.fault = none → ¬ LegalWord w →
      step s = .next { s with acts := rest, pc := s.pc + 1, fault := some .illegalCommand }) ∧
  (∀ (s : State) (w : Word) (i : Instr), decode w = .ok i →
      step (s.withFetchWord 32 w.toNat) = exec i { s with pc := s.pc + 1 })

/-- 70_reset_and_hazards.md R351, R352, R354, R355, 60_exceptions.md R328, R334: the other acts of the host.
Reset is applied between commands; IN is replaced only while the reader is closed and OUT only while the writer
is closed, a host that does otherwise being refused (log entry 9); the signal takes any level; with no act to come
the block waits. -/
def Obligations.StepTakesTheOtherHostActs : Prop :=
  (∀ (s : State) rest, s.acts = .reset :: rest → step s = .next { s with acts := rest }.afterReset) ∧
  (∀ (s : State) bytes rest, s.acts = .supplyIn bytes :: rest →
    (s.reader.isOpen = false → bytes.length < 2 ^ 64 →
      step s = .next { s with acts := rest, input := bytes }) ∧
    (s.reader.isOpen = true → step s = .refused .inChangedWhileReaderOpen) ∧
    (s.reader.isOpen = false → 2 ^ 64 ≤ bytes.length → step s = .refused .inTooLong)) ∧
  (∀ (s : State) bytes rest, s.acts = .supplyOut bytes :: rest →
    (s.writer.isOpen = false → step s = .next { s with acts := rest, output := bytes }) ∧
    (s.writer.isOpen = true → step s = .refused .outChangedWhileWriterOpen)) ∧
  (∀ (s : State) level rest, s.acts = .setCancel level :: rest →
    step s = .next { s with acts := rest, env := { s.env with cancel := level } }) ∧
  (∀ s : State, s.acts = [] → step s = .next s)

/-- 10_state.md R25, 60_exceptions.md R320: from every state every command answers a next state, and no command
changes the index of the next command, the host's list, IN or the parameters; a step over a command, legal or
not, advances the index by exactly one. -/
def Obligations.CommandsAnswerNextAndKeepTheIndex : Prop :=
  (∀ (i : Instr) (s : State), ∃ t, exec i s = .next t ∧
    t.pc = s.pc ∧ t.acts = s.acts ∧ t.input = s.input ∧ t.cfg = s.cfg) ∧
  (∀ (s : State) (w : Word) (rest : List HostAct), s.acts = .command w :: rest →
    ∃ t, step s = .next t ∧ t.pc = s.pc + 1 ∧ t.acts = rest)

/-- 70_reset_and_hazards.md R350: reset puts every piece of block state to the listed value and touches nothing
the host holds; and the state the machine starts in has those values. -/
def Obligations.ResetGivesTheListedValues : Prop :=
  (∀ s : State, s.afterReset =
    { s with
      x := Vector.replicate 16 0, b := Vector.replicate 16 [],
      fault := none, eos := false, report := .none,
      hamB := 0, crcN := 0, crcCorr := false,
      ham := ⟨0, 0, 0, 0⟩, crc := ⟨0, 0, 0, 0⟩, progress := 0,
      reader := ⟨false, 0⟩, writer := ⟨false, []⟩,
      hist := Vector.replicate 256 0, codes := Vector.replicate 256 none,
      tree := .node .absent .absent, cur := [] }) ∧
  (∀ s : State, s.afterReset.status = 0 ∧ hamK s.afterReset.hamB = 0 ∧
    s.afterReset.tree.nodeCount = 1 ∧ s.afterReset.tree.leaves.length = 0) ∧
  State.reset.afterReset = State.reset

/-! ## Faults -/

/-- 60_exceptions.md R322: a command that raises a cause has no effect but STATUS.FAULT and STATUS.CAUSE. That a
faulting command draws at most one answer of the environment, though CT.DESER reads many bits, and that the answer
stays drawn is the model's reading of R325 and R330 (log entry 10, DEDUCED), not the rules'. -/
def Obligations.FaultEntryHasNoOtherEffect : Prop :=
  ∀ (i : Instr) (s t : State) (c : Cause), s.fault = none → exec i s = .next t → t.fault = some c →
    t = raised s c ∨ t = { raised s c with env := afterIo s }

/-- 60_exceptions.md R323: in a halted block every word but a legal CSR.R is ignored, and a legal CSR.R writes
its register only (a read of CANCEL draws a value of the signal, R328). -/
def Obligations.HaltedBlockIgnoresCommands : Prop :=
  ∀ (s : State), s.fault ≠ none →
    (∀ w : Word, (∀ xd csr, csrExists csr = true → decode w ≠ .ok (.csrR xd csr)) → runWord w s = .next s) ∧
    (∀ (w : Word) xd csr, csrExists csr = true → decode w = .ok (.csrR xd csr) →
      ∃ v e, runWord w s = .next { s with x := s.x.set xd v, env := e } ∧ (csr ≠ 0x17 → e = s.env))

/-- 10_state.md R45, 60_exceptions.md R324: once FAULT = 1 it stays 1 and CAUSE keeps the first fault's code,
whatever the host does, until it resets the block; reset clears both. -/
def Obligations.OnlyResetClearsTheFault : Prop :=
  (∀ (s t : State) (c : Cause), s.fault = some c → step s = .next t →
    (∀ rest, s.acts ≠ .reset :: rest) → t.fault = some c) ∧
  (∀ (s : State) rest, s.acts = .reset :: rest → ∃ t, step s = .next t ∧ t.fault = none)

/-! ## Frames, over all commands -/

/-- 41_packed_bit_buffer.md R120, 10_state.md R21 and the rules of the commands: a command changes no scalar
register but its destination and no buffer register but its destination. -/
def Obligations.CommandsWriteOnlyTheirRegisters : Prop :=
  ∀ (i : Instr) (s t : State), exec i s = .next t →
    (∀ r : XReg, destX i ≠ some r → t.x[r] = s.x[r]) ∧
    (∀ r : BReg, destB i ≠ some r → t.b[r] = s.b[r])

/-- 10_state.md R28, R32, R47, 42_bit_streams.md R166, 43_histogram.md R190, 45_prefix_builders.md R240 and the
rules of the commands: each flag, configuration register, counter and unit is written by the commands named here
and by no other. -/
def Obligations.CommandsWriteOnlyTheirUnits : Prop :=
  ∀ (i : Instr) (s t : State), exec i s = .next t →
    (reporting i = false → t.report = s.report ∧ t.progress = s.progress) ∧
    ((∀ r n, i ≠ .csrW r n) → t.hamB = s.hamB ∧ t.crcN = s.crcN ∧ t.crcCorr = s.crcCorr) ∧
    ((∀ r n, i ≠ .csrW r n) → (∀ d r k, i ≠ .hmDec d r k) → i ≠ .hmFdec → t.ham = s.ham) ∧
    ((∀ r n, i ≠ .csrW r n) → (∀ d r k, i ≠ .crcDec d r k) → i ≠ .crcFdec → t.crc = s.crc) ∧
    (i ≠ .fhCount → i ≠ .fhClear → t.hist = s.hist) ∧
    (i ≠ .ctToMap → i ≠ .sfBuild → (∀ r n, i ≠ .ctSetCode r n) → t.codes = s.codes) ∧
    (i ≠ .ctFromMap → i ≠ .ctDeser → i ≠ .hfBuild → t.tree = s.tree ∧
      (i ≠ .ctReset → (∀ r v, i ≠ .ctFeed r v) → t.cur = s.cur)) ∧
    (i ≠ .srOpen → i ≠ .srClose → t.reader.isOpen = s.reader.isOpen) ∧
    (i ≠ .srOpen → readsStream i = false → t.eos = s.eos ∧ (i ≠ .ctDeser → t.reader.pos = s.reader.pos)) ∧
    (i ≠ .swOpen → i ≠ .swClose → t.writer.isOpen = s.writer.isOpen) ∧
    (writesWriter i = false → t.writer.pend = s.writer.pend)

/-- 20_memory.md R60, R62: memory. No command changes IN. A command that is neither a writer command nor a
file-level one leaves every byte of OUT; CT.SER and the writer commands but SW.OPEN leave every byte below the
length OUT had, which is where MemWrite(8·len(OUT), …) appends; SW.OPEN empties OUT or, on an I/O failure, leaves
it. -/
def Obligations.CommandsStoreOnlyByAppending : Prop :=
  ∀ (i : Instr) (s t : State), exec i s = .next t →
    (∀ a, Memory.byteAt t.input a = Memory.byteAt s.input a) ∧
    (writesWriter i = false → fileLevel i = false →
      ∀ a, Memory.byteAt t.output a = Memory.byteAt s.output a) ∧
    (appendsOut i = true →
      ∀ a, a < s.output.length → Memory.byteAt t.output a = Memory.byteAt s.output a) ∧
    (i = .swOpen → t.output = [] ∨ t.output = s.output)

/-- 60_exceptions.md R326: the unit state (buffers, scalars, H, T, tree, reader and writer units, STATUS) is never
changed by a file-level command that is not refused its operand or configuration (that is a fatal fault, R322);
only OUT, REPORT, PROGRESS and, for HM.FDEC and CRC.FDEC, the outcome counters are. -/
def Obligations.FileLevelCommandsKeepTheUnitState : Prop :=
  ∀ (i : Instr) (s t : State), fileLevel i = true → s.fault = none → exec i s = .next t → t.fault = none →
    ∃ env out rep prog ham crc,
      t = { s with env := env, output := out, report := rep, progress := prog, ham := ham, crc := crc } ∧
      (i ≠ .hmFdec → ham = s.ham) ∧ (i ≠ .crcFdec → crc = s.crc) ∧ rep ≠ .none

/-! ## Registers read and written by number -/

/-- 10_state.md R27, 60_exceptions.md R321: the fields of the STATUS word; bits not listed read 0. The cause
codes are those of R321. -/
def Obligations.StatusWordHasTheListedFields : Prop :=
  (∀ s : State,
    s.status.testBit 0 = s.fault.isSome ∧
    s.status / 2 ^ 8 % 2 ^ 8 = causeCode s.fault ∧
    s.status.testBit 16 = s.eos ∧
    s.status.testBit 17 = s.reader.isOpen ∧
    s.status.testBit 18 = s.writer.isOpen ∧
    (∀ n, (1 ≤ n ∧ n ≤ 7) ∨ 19 ≤ n → s.status.testBit n = false)) ∧
  [none, some .illegalCommand, some .outOfRange, some .invalidValue, some .conflictingCode, some .emptyInput,
    some .streamClosed, some .endOfStream, some .missingChild, some .malformedTree, some .ioError].map causeCode
    = List.range 11

end Statements

/-- The CSRs but CANCEL with the value a read gives (10_state.md R26–R38). -/
def Sys2Proof.Claims.csrTable (s : Sys2Proof.Machine.State) : List (BitVec 8 × Nat) :=
  [(0x00, s.status), (0x01, s.report.code),
    (0x02, s.hamB), (0x03, if s.hamB = 0 then 0 else s.hamB - Nat.log2 s.hamB - 1),
    (0x04, s.crcN), (0x05, s.crcCorr.toNat),
    (0x06, s.cfg.poly.length), (0x07, Sys2Proof.Machine.natOfBits s.cfg.poly)] ++
  [(0x08, s.ham.fail.toNat), (0x09, s.ham.ok.toNat), (0x0A, s.ham.fixed.toNat), (0x0B, s.ham.bad.toNat),
    (0x0C, s.crc.fail.toNat), (0x0D, s.crc.ok.toNat), (0x0E, s.crc.fixed.toNat), (0x0F, s.crc.bad.toNat)] ++
  [(0x10, s.reader.pos), (0x11, (s.reader.pos + 7) / 8), (0x12, s.input.length),
    (0x13, s.output.length), (0x14, s.writer.pend.length),
    (0x15, s.tree.nodeCount), (0x16, s.tree.leaves.length)] ++
  [(0x18, s.progress), (0x19, s.cfg.flushT), (0x1A, s.cfg.chunkBytes)]

section Statements
open Sys2Proof Sys2Proof.Machine Sys2Proof.Claims

/-- 40_scalar_csr.md R104 (10_state.md R26, R28–R38, 60_exceptions.md R323, R328): CSR.R writes the listed value,
halted block or not, with no other effect; a read of CANCEL gives the signal's value drawn at the read; an absent
CSR raises IllegalCommand, and in a halted block does nothing. -/
def Obligations.CsrReadGivesTheListedValue : Prop :=
  ∀ (xd : XReg) (csr : BitVec 8),
    Row 0xFF0FFF00 0x05 (wordS 0x05 xd csr) (.csrR xd csr) ∧
    ∀ s : State,
      (∀ v, (csr, v) ∈ csrTable s → exec (.csrR xd csr) s = .next { s with x := s.x.set xd v }) ∧
      (csr = 0x17 → exec (.csrR xd csr) s =
        .next { s with
          x := s.x.set xd (s.env.polls.headD s.env.cancel).toNat,
          env := { s.env with polls := s.env.polls.tail } }) ∧
      (0x1A < csr.toNat → s.fault = none → exec (.csrR xd csr) s = .next (raised s .illegalCommand)) ∧
      (0x1A < csr.toNat → s.fault ≠ none → exec (.csrR xd csr) s = .next s)

/-- 40_scalar_csr.md R105, R106: CSR.W of an absent or read-only CSR raises IllegalCommand whatever the value;
a value outside the legal ones of R106 raises InvalidValue; otherwise the CSR holds the value and nothing else
changes. -/
def Obligations.CsrWriteChecksThenWrites : Prop :=
  ∀ (xs : XReg) (csr : BitVec 8),
    Row 0xFF0FFF00 0x06 (wordS 0x06 xs csr) (.csrW xs csr) ∧
    ∀ s : State, s.fault = none →
      (csr ∉ [0x02, 0x04, 0x05, 0x08, 0x09, 0x0A, 0x0B, 0x0C, 0x0D, 0x0E, 0x0F] →
        exec (.csrW xs csr) s = .next (raised s .illegalCommand)) ∧
      (csr = 0x02 → (∃ m, 2 ≤ m ∧ m ≤ 16 ∧ s.x[xs] = 2 ^ m) →
        exec (.csrW xs csr) s = .next { s with hamB := s.x[xs] }) ∧
      (csr = 0x02 → (¬ ∃ m, 2 ≤ m ∧ m ≤ 16 ∧ s.x[xs] = 2 ^ m) →
        exec (.csrW xs csr) s = .next (raised s .invalidValue)) ∧
      (csr = 0x04 → 1 ≤ s.x[xs] → exec (.csrW xs csr) s = .next { s with crcN := s.x[xs] }) ∧
      (csr = 0x04 → s.x[xs] = 0 → exec (.csrW xs csr) s = .next (raised s .invalidValue)) ∧
      (csr = 0x05 → s.x[xs] ≤ 1 → exec (.csrW xs csr) s = .next { s with crcCorr := s.x[xs] == 1 }) ∧
      (csr = 0x05 → 1 < s.x[xs] → exec (.csrW xs csr) s = .next (raised s .invalidValue)) ∧
      (0x08 ≤ csr.toNat → csr.toNat ≤ 0x0F → 2 ^ 64 ≤ s.x[xs] →
        exec (.csrW xs csr) s = .next (raised s .invalidValue)) ∧
      (s.x[xs] < 2 ^ 64 →
        let n := BitVec.ofNat 64 s.x[xs]
        (csr = 0x08 → exec (.csrW xs csr) s = .next { s with ham := { s.ham with fail := n } }) ∧
        (csr = 0x09 → exec (.csrW xs csr) s = .next { s with ham := { s.ham with ok := n } }) ∧
        (csr = 0x0A → exec (.csrW xs csr) s = .next { s with ham := { s.ham with fixed := n } }) ∧
        (csr = 0x0B → exec (.csrW xs csr) s = .next { s with ham := { s.ham with bad := n } }) ∧
        (csr = 0x0C → exec (.csrW xs csr) s = .next { s with crc := { s.crc with fail := n } }) ∧
        (csr = 0x0D → exec (.csrW xs csr) s = .next { s with crc := { s.crc with ok := n } }) ∧
        (csr = 0x0E → exec (.csrW xs csr) s = .next { s with crc := { s.crc with fixed := n } }) ∧
        (csr = 0x0F → exec (.csrW xs csr) s = .next { s with crc := { s.crc with bad := n } }))

/-- 40_scalar_csr.md R100–R103: NOP leaves all state unchanged; X.LI, X.LIS and X.MOV write their destination and
nothing else; X.LIS never wraps. -/
def Obligations.ScalarCommandsMoveNumbers : Prop :=
  (Row 0xFFFFFFFF 0x01 (word 0x01 0 0 0 0 false) .nop ∧ ∀ s : State, exec .nop s = .next s) ∧
  (∀ (xd : XReg) (imm : BitVec 20),
    Row 0xFF000000 0x02 (wordI 0x02 xd imm) (.xLi xd imm) ∧
    ∀ s : State, s.fault = none →
      exec (.xLi xd imm) s = .next { s with x := s.x.set xd imm.toNat }) ∧
  (∀ (xd : XReg) (imm : BitVec 20),
    Row 0xFF000000 0x03 (wordI 0x03 xd imm) (.xLis xd imm) ∧
    ∀ s : State, s.fault = none →
      exec (.xLis xd imm) s = .next { s with x := s.x.set xd (s.x[xd] * 2 ^ 20 + imm.toNat) }) ∧
  (∀ xd xs : XReg,
    Row 0xFF00FFFF 0x04 (word 0x04 xd xs 0 0 false) (.xMov xd xs) ∧
    ∀ s : State, s.fault = none → exec (.xMov xd xs) s = .next { s with x := s.x.set xd s.x[xs] })

/-! ## Packed-bit buffer -/

/-- 41_packed_bit_buffer.md R121, R126, R136, R137: the commands without an operand check. -/
def Obligations.BufferCommandsWithoutChecks : Prop :=
  (∀ bd : BReg,
    Row 0xFF0FFFFF 0x10 (word 0x10 bd 0 0 0 false) (.pbClear bd) ∧
    ∀ s : State, s.fault = none → exec (.pbClear bd) s = .next { s with b := s.b.set bd [] }) ∧
  (∀ bd bs : BReg,
    Row 0xFF00FFFF 0x15 (word 0x15 bd bs 0 0 false) (.pbAppBuf bd bs) ∧
    ∀ s : State, s.fault = none →
      exec (.pbAppBuf bd bs) s = .next { s with b := s.b.set bd (s.b[bd] ++ s.b[bs]) }) ∧
  (∀ (xd : XReg) (bs : BReg),
    Row 0xFF00FFFF 0x1E (word 0x1E xd bs 0 0 false) (.pbLen xd bs) ∧
    ∀ s : State, s.fault = none →
      exec (.pbLen xd bs) s = .next { s with x := s.x.set xd s.b[bs].length }) ∧
  (∀ bd bs : BReg,
    Row 0xFF00FFFF 0x1F (word 0x1F bd bs 0 0 false) (.pbCopy bd bs) ∧
    ∀ s : State, s.fault = none → exec (.pbCopy bd bs) s = .next { s with b := s.b.set bd s.b[bs] })

/-- 41_packed_bit_buffer.md R122, R130, R131: PB.TRUNC keeps the first n bits, PB.SLICE takes the half-open range
[a, e), PB.POP returns and removes the last bit; OutOfRange exactly when n > L, when not a ≤ e ≤ L, and on an
empty buffer. -/
def Obligations.TruncSliceAndPopStayWithinTheBuffer : Prop :=
  (∀ (bd : BReg) (xn : XReg),
    Row 0xFF00FFFF 0x11 (word 0x11 bd xn 0 0 false) (.pbTrunc bd xn) ∧
    ∀ s : State, s.fault = none →
      (s.x[xn] ≤ s.b[bd].length →
        exec (.pbTrunc bd xn) s = .next { s with b := s.b.set bd (s.b[bd].take s.x[xn]) }) ∧
      (s.b[bd].length < s.x[xn] → exec (.pbTrunc bd xn) s = .next (raised s .outOfRange))) ∧
  (∀ (bd bs : BReg) (xa xe : XReg),
    Row 0xFF0000FF 0x18 (word 0x18 bd bs xa xe false) (.pbSlice bd bs xa xe) ∧
    ∀ s : State, s.fault = none →
      (∀ pre mid suf, s.b[bs] = pre ++ mid ++ suf → s.x[xa] = pre.length → s.x[xe] = pre.length + mid.length →
        exec (.pbSlice bd bs xa xe) s = .next { s with b := s.b.set bd mid }) ∧
      (s.x[xe] < s.x[xa] ∨ s.b[bs].length < s.x[xe] →
        exec (.pbSlice bd bs xa xe) s = .next (raised s .outOfRange))) ∧
  (∀ (xd : XReg) (bd : BReg),
    Row 0xFF00FFFF 0x19 (word 0x19 xd bd 0 0 false) (.pbPop xd bd) ∧
    ∀ s : State, s.fault = none →
      (∀ rest v, s.b[bd] = rest ++ [v] →
        exec (.pbPop xd bd) s = .next { s with b := s.b.set bd rest, x := s.x.set xd v.toNat }) ∧
      (s.b[bd] = [] → exec (.pbPop xd bd) s = .next (raised s .outOfRange)))

/-- 41_packed_bit_buffer.md R123, R124, R125, R135: the append commands; a bit operand other than 0 or 1 and a
byte operand above 255 raise InvalidValue, a partial length outside 1 to 8 raises OutOfRange first. -/
def Obligations.AppendCommandsCheckTheirOperands : Prop :=
  (∀ (bd : BReg) (xv : XReg),
    Row 0xFF00FFFF 0x12 (word 0x12 bd xv 0 0 false) (.pbAppBit bd xv) ∧
    ∀ s : State, s.fault = none →
      (∀ v : Bool, s.x[xv] = v.toNat →
        exec (.pbAppBit bd xv) s = .next { s with b := s.b.set bd (s.b[bd] ++ [v]) }) ∧
      (1 < s.x[xv] → exec (.pbAppBit bd xv) s = .next (raised s .invalidValue))) ∧
  (∀ (bd : BReg) (xv : XReg),
    Row 0xFF00FFFF 0x13 (word 0x13 bd xv 0 0 false) (.pbAppByte bd xv) ∧
    ∀ s : State, s.fault = none →
      (s.x[xv] ≤ 255 →
        exec (.pbAppByte bd xv) s = .next { s with b := s.b.set bd (s.b[bd] ++ bitsOf 8 s.x[xv]) }) ∧
      (255 < s.x[xv] → exec (.pbAppByte bd xv) s = .next (raised s .invalidValue))) ∧
  (∀ (bd : BReg) (xv xl : XReg),
    Row 0xFF000FFF 0x14 (word 0x14 bd xv xl 0 false) (.pbAppPart bd xv xl) ∧
    ∀ s : State, s.fault = none →
      (1 ≤ s.x[xl] → s.x[xl] ≤ 8 → s.x[xv] ≤ 255 →
        exec (.pbAppPart bd xv xl) s =
          .next { s with b := s.b.set bd (s.b[bd] ++ bitsOf s.x[xl] (s.x[xv] % 2 ^ s.x[xl])) }) ∧
      (s.x[xl] < 1 ∨ 8 < s.x[xl] → exec (.pbAppPart bd xv xl) s = .next (raised s .outOfRange)) ∧
      (1 ≤ s.x[xl] → s.x[xl] ≤ 8 → 255 < s.x[xv] →
        exec (.pbAppPart bd xv xl) s = .next (raised s .invalidValue))) ∧
  (∀ (bd : BReg) (xv xn : XReg),
    Row 0xFF000FFF 0x1D (word 0x1D bd xv xn 0 false) (.pbPadR bd xv xn) ∧
    ∀ s : State, s.fault = none →
      (∀ v : Bool, s.x[xv] = v.toNat →
        exec (.pbPadR bd xv xn) s = .next { s with b := s.b.set bd (s.b[bd] ++ List.replicate s.x[xn] v) }) ∧
      (1 < s.x[xv] → exec (.pbPadR bd xv xn) s = .next (raised s .invalidValue)))

/-- 41_packed_bit_buffer.md R127, R128, R129: an index names bit i from the start, or with E = 1 bit L − i, i = 1
being the last; an index out of range raises OutOfRange before PB.SET looks at the value. -/
def Obligations.GetAndSetResolveTheIndex : Prop :=
  (∀ (xd : XReg) (bs : BReg) (xi : XReg) (e : Bool),
    Row 0xFF000F7F 0x16 (word 0x16 xd bs xi 0 e) (.pbGet xd bs xi e) ∧
    ∀ s : State, s.fault = none →
      (∀ pre v suf, s.b[bs] = pre ++ v :: suf →
        s.x[xi] = (if e then suf.length + 1 else pre.length) →
        exec (.pbGet xd bs xi e) s = .next { s with x := s.x.set xd v.toNat }) ∧
      ((if e then s.x[xi] < 1 ∨ s.b[bs].length < s.x[xi] else s.b[bs].length ≤ s.x[xi]) →
        exec (.pbGet xd bs xi e) s = .next (raised s .outOfRange))) ∧
  (∀ (bd : BReg) (xi xv : XReg) (e : Bool),
    Row 0xFF000F7F 0x17 (word 0x17 bd xi xv 0 e) (.pbSet bd xi xv e) ∧
    ∀ s : State, s.fault = none →
      (∀ pre u suf, s.b[bd] = pre ++ u :: suf →
        s.x[xi] = (if e then suf.length + 1 else pre.length) →
        (∀ v : Bool, s.x[xv] = v.toNat →
          exec (.pbSet bd xi xv e) s = .next { s with b := s.b.set bd (pre ++ v :: suf) }) ∧
        (1 < s.x[xv] → exec (.pbSet bd xi xv e) s = .next (raised s .invalidValue))) ∧
      ((if e then s.x[xi] < 1 ∨ s.b[bd].length < s.x[xi] else s.b[bd].length ≤ s.x[xi]) →
        exec (.pbSet bd xi xv e) s = .next (raised s .outOfRange)))

/-- 00_scope.md R7, 41_packed_bit_buffer.md R133, R134: int(s) is the sum R7 gives and bits_w(v) the w-bit
sequence of value v; PB.TOINT and PB.FROMINT convert by them, a value of 2^w or more raising OutOfRange. -/
def Obligations.IntegerConversionIsExact : Prop :=
  (∀ s : Bits, natOfBits s =
    ((List.range s.length).map fun j => (s.getD j false).toNat * 2 ^ (s.length - 1 - j)).sum) ∧
  (∀ w v, v < 2 ^ w → (bitsOf w v).length = w ∧ natOfBits (bitsOf w v) = v) ∧
  (∀ s : Bits, natOfBits s < 2 ^ s.length ∧ bitsOf s.length (natOfBits s) = s) ∧
  (∀ (xd : XReg) (bs : BReg),
    Row 0xFF00FFFF 0x1B (word 0x1B xd bs 0 0 false) (.pbToInt xd bs) ∧
    ∀ s : State, s.fault = none →
      exec (.pbToInt xd bs) s = .next { s with x := s.x.set xd (natOfBits s.b[bs]) }) ∧
  (∀ (bd : BReg) (xv xw : XReg),
    Row 0xFF000FFF 0x1C (word 0x1C bd xv xw 0 false) (.pbFromInt bd xv xw) ∧
    ∀ s : State, s.fault = none →
      (s.x[xv] < 2 ^ s.x[xw] →
        exec (.pbFromInt bd xv xw) s = .next { s with b := s.b.set bd (bitsOf s.x[xw] s.x[xv]) }) ∧
      (2 ^ s.x[xw] ≤ s.x[xv] → exec (.pbFromInt bd xv xw) s = .next (raised s .outOfRange)))

/-- 41_packed_bit_buffer.md R132: PB.XOR writes the sequence of the longer operand's length whose value is the
exclusive or of the operands' values (tail alignment); of a buffer with itself, zeros of the same length. -/
def Obligations.XorAlignsAtTheTail : Prop :=
  (∀ s t : Bits, (xorTail s t).length = max s.length t.length ∧
    natOfBits (xorTail s t) = natOfBits s ^^^ natOfBits t ∧
    xorTail s s = List.replicate s.length false) ∧
  (∀ s u t : Bits, s.length = t.length → xorTail (u ++ s) t = u ++ List.zipWith Bool.xor s t ∧
    xorTail t (u ++ s) = u ++ List.zipWith Bool.xor t s) ∧
  (∀ bd bs1 bs2 : BReg,
    Row 0xFF000FFF 0x1A (word 0x1A bd bs1 bs2 0 false) (.pbXor bd bs1 bs2) ∧
    ∀ s : State, s.fault = none →
      exec (.pbXor bd bs1 bs2) s = .next { s with b := s.b.set bd (xorTail s.b[bs1] s.b[bs2]) })

/-! ## Bytes and streams -/

/-- 10_state.md R22, 20_memory.md R62, R63: the packed form of L bits is ceil(L/8) bytes, bit j of the sequence
being bit 7 − (j mod 8) of byte j/8 and every unused low-order bit 0; unpacking gives the sequence zero-padded to
whole bytes, and packing the bits of bytes gives the bytes. -/
def Obligations.PackedFormPutsTheFirstBitHighest : Prop :=
  (∀ s : Bits, (pack s).length = (s.length + 7) / 8) ∧
  (∀ (s : Bits) (j : Nat) (v : Byte), (pack s)[j / 8]? = some v →
    v.toNat.testBit (7 - j % 8) = s.getD j false) ∧
  (∀ s : Bits, streamBits (pack s) = s ++ List.replicate ((8 - s.length % 8) % 8) false) ∧
  (∀ m : List Byte, pack (streamBits m) = m)

/-- 20_memory.md R61: for a + n ≤ 8·len(IN), MemRead(a, n) has length n and its bit j is bit
(7 − ((a+j) mod 8)) of byte (a+j)/8. -/
def Obligations.MemReadGivesBitsHighFirst : Prop :=
  ∀ (m : List Byte) (a n : Nat), a + n ≤ 8 * m.length →
    (memRead m a n).length = n ∧
    ∀ j, j < n → ∃ v : Byte, m[(a + j) / 8]? = some v ∧
      (memRead m a n)[j]? = some (v.toNat.testBit (7 - (a + j) % 8))

/-- 42_bit_streams.md R161, R165, R171, R176: opening and closing the stream units. SR.OPEN restarts the reader;
SR.CLOSE keeps rd.pos and STATUS.EOS; SW.OPEN truncates OUT and drops pending bits; SW.CLOSE appends the pending
bits zero-padded to whole bytes and does nothing on a closed writer. A failed truncation or write is IOError
(60_exceptions.md R330). The draws as a list, one a command, and that SW.CLOSE of an open writer draws and can fail
also with no pending bit are the model's reading (log entry 5, DESIGN CHOICE; log entry 10, DEDUCED). -/
def Obligations.StreamUnitsOpenAndClose : Prop :=
  (Row 0xFFFFFFFF 0x20 (word 0x20 0 0 0 0 false) .srOpen ∧
    ∀ s : State, s.fault = none → exec .srOpen s = .next { s with reader := ⟨true, 0⟩, eos := false }) ∧
  (Row 0xFFFFFFFF 0x24 (word 0x24 0 0 0 0 false) .srClose ∧
    ∀ s : State, s.fault = none → exec .srClose s = .next { s with reader := ⟨false, s.reader.pos⟩ }) ∧
  (Row 0xFFFFFFFF 0x28 (word 0x28 0 0 0 0 false) .swOpen ∧
    ∀ s : State, s.fault = none →
      (ioFailsNext s = false →
        exec .swOpen s = .next { s with output := [], writer := ⟨true, []⟩, env := afterIo s }) ∧
      (ioFailsNext s = true → exec .swOpen s = .next (ioRaised s))) ∧
  (Row 0xFFFFFFFF 0x2C (word 0x2C 0 0 0 0 false) .swClose ∧
    ∀ s : State, s.fault = none →
      (s.writer.isOpen = true → ioFailsNext s = false →
        exec .swClose s =
          .next { s with output := s.output ++ pack s.writer.pend, writer := ⟨false, []⟩, env := afterIo s }) ∧
      (s.writer.isOpen = true → ioFailsNext s = true → exec .swClose s = .next (ioRaised s)) ∧
      (s.writer.isOpen = false → exec .swClose s = .next s))

/-- 42_bit_streams.md R160, R162, R163, R164: the read commands. A closed reader raises StreamClosed; at the end
SR.RDBIT gives 2, SR.RDBYTE 256 and SR.RDN the bits there are, with STATUS.EOS set; otherwise the next bits of IN,
at any bit position, with rd.pos advanced and STATUS.EOS cleared. A failed read is IOError (60_exceptions.md
R330); that SR.RDN of no bits draws too is the model's reading (log entry 10). -/
def Obligations.ReaderReadsAtAnyPosition : Prop :=
  (∀ xd : XReg,
    Row 0xFF0FFFFF 0x21 (word 0x21 xd 0 0 0 false) (.srRdBit xd) ∧
    ∀ s : State, s.fault = none →
      (s.reader.isOpen = false → exec (.srRdBit xd) s = .next (raised s .streamClosed)) ∧
      (s.reader.isOpen = true → 8 * s.input.length ≤ s.reader.pos →
        exec (.srRdBit xd) s = .next { s with x := s.x.set xd 2, eos := true }) ∧
      (s.reader.isOpen = true → s.reader.pos < 8 * s.input.length → ioFailsNext s = true →
        exec (.srRdBit xd) s = .next (ioRaised s)) ∧
      (s.reader.isOpen = true → s.reader.pos < 8 * s.input.length → ioFailsNext s = false →
        ∃ v : Bool, memRead s.input s.reader.pos 1 = [v] ∧
          exec (.srRdBit xd) s =
            .next { s with
              x := s.x.set xd v.toNat, reader := ⟨true, s.reader.pos + 1⟩, eos := false, env := afterIo s })) ∧
  (∀ (bd : BReg) (xn : XReg),
    Row 0xFF00FFFF 0x22 (word 0x22 bd xn 0 0 false) (.srRdN bd xn) ∧
    ∀ s : State, s.fault = none →
      (s.reader.isOpen = false → exec (.srRdN bd xn) s = .next (raised s .streamClosed)) ∧
      (s.reader.isOpen = true → ioFailsNext s = true → exec (.srRdN bd xn) s = .next (ioRaised s)) ∧
      (s.reader.isOpen = true → ioFailsNext s = false →
        (s.reader.pos + s.x[xn] ≤ 8 * s.input.length →
          exec (.srRdN bd xn) s =
            .next { s with
              b := s.b.set bd (memRead s.input s.reader.pos s.x[xn]),
              reader := ⟨true, s.reader.pos + s.x[xn]⟩, eos := false, env := afterIo s }) ∧
        (8 * s.input.length < s.reader.pos + s.x[xn] → s.reader.pos ≤ 8 * s.input.length →
          exec (.srRdN bd xn) s =
            .next { s with
              b := s.b.set bd (memRead s.input s.reader.pos (8 * s.input.length - s.reader.pos)),
              reader := ⟨true, 8 * s.input.length⟩, eos := true, env := afterIo s }))) ∧
  (∀ xd : XReg,
    Row 0xFF0FFFFF 0x23 (word 0x23 xd 0 0 0 false) (.srRdByte xd) ∧
    ∀ s : State, s.fault = none →
      (s.reader.isOpen = false → exec (.srRdByte xd) s = .next (raised s .streamClosed)) ∧
      (s.reader.isOpen = true → 8 * s.input.length < s.reader.pos + 8 →
        exec (.srRdByte xd) s = .next { s with x := s.x.set xd 256, eos := true }) ∧
      (s.reader.isOpen = true → s.reader.pos + 8 ≤ 8 * s.input.length → ioFailsNext s = true →
        exec (.srRdByte xd) s = .next (ioRaised s)) ∧
      (s.reader.isOpen = true → s.reader.pos + 8 ≤ 8 * s.input.length → ioFailsNext s = false →
        exec (.srRdByte xd) s =
          .next { s with
            x := s.x.set xd (natOfBits (memRead s.input s.reader.pos 8)),
            reader := ⟨true, s.reader.pos + 8⟩, eos := false, env := afterIo s }))

end Statements

/-- Writing bits `v` makes the flush rule write to OUT (42_bit_streams.md R173): more than FLUSH_T whole bytes are
pending then. -/
def Sys2Proof.Claims.Flushes (s : Sys2Proof.Machine.State) (v : Sys2Proof.Bits) : Prop :=
  s.cfg.flushT < (s.writer.pend ++ v).length / 8

/-- The state after bits `v` are written to the writer unit, no I/O action failing (42_bit_streams.md R173): with q
whole bytes pending, nothing goes to OUT when q ≤ FLUSH_T; otherwise the q bytes do. -/
def Sys2Proof.Claims.afterWrite (s : Sys2Proof.Machine.State) (v : Sys2Proof.Bits) : Sys2Proof.Machine.State :=
  let pend := s.writer.pend ++ v
  let q := pend.length / 8
  if q ≤ s.cfg.flushT then { s with writer := ⟨s.writer.isOpen, pend⟩ }
  else
    { s with
      output := s.output ++ Sys2Proof.Machine.pack (pend.take (8 * q)),
      writer := ⟨s.writer.isOpen, pend.drop (8 * q)⟩,
      env := Sys2Proof.Claims.afterIo s }

/-- A write command `i` of the bits `v` at the open writer (42_bit_streams.md R173, 60_exceptions.md R330): it
completes unless the flush rule writes to OUT and that write fails, which is IOError. -/
def Sys2Proof.Claims.Writes (i : Sys2Proof.Instr) (s : Sys2Proof.Machine.State) (v : Sys2Proof.Bits) : Prop :=
  (Sys2Proof.Claims.ioFailsNext s = false →
    Sys2Proof.Machine.exec i s = .next (Sys2Proof.Claims.afterWrite s v)) ∧
  (¬ Sys2Proof.Claims.Flushes s v →
    Sys2Proof.Machine.exec i s = .next (Sys2Proof.Claims.afterWrite s v)) ∧
  (Sys2Proof.Claims.Flushes s v → Sys2Proof.Claims.ioFailsNext s = true →
    Sys2Proof.Machine.exec i s = .next (Sys2Proof.Claims.ioRaised s))

/-- The bits a write command writes (42_bit_streams.md R172, R174, R175, 44_code_tree.md R214). -/
def Sys2Proof.Claims.bitsWritten (s : Sys2Proof.Machine.State) : Sys2Proof.Instr → Sys2Proof.Bits
  | .swWrBit r => [s.x[r] == 1]
  | .swWrByte r => Sys2Proof.Machine.bitsOf 8 s.x[r]
  | .swWrBuf r => s.b[r]
  | .ctSer => s.tree.serialize
  | _ => []

/-- Run commands one after another. -/
def Sys2Proof.Claims.runAll : List Sys2Proof.Instr → Sys2Proof.Machine.State → Sys2Proof.Machine.Result
  | [], s => .next s
  | i :: is, s =>
    match Sys2Proof.Machine.exec i s with
    | .next t => Sys2Proof.Claims.runAll is t
    | r => r

/-- The bits the write commands among `is` write in command order, each from the state it runs in. -/
def Sys2Proof.Claims.writtenAlong : List Sys2Proof.Instr → Sys2Proof.Machine.State → Sys2Proof.Bits
  | [], _ => []
  | i :: is, s =>
    Sys2Proof.Claims.bitsWritten s i ++
      match Sys2Proof.Machine.exec i s with
      | .next t => Sys2Proof.Claims.writtenAlong is t
      | _ => []

section Statements
open Sys2Proof Sys2Proof.Machine Sys2Proof.Claims

/-- 42_bit_streams.md R170, R172–R175: the write commands check that the writer is open, then their operand, then
append their bits and run the flush rule. (The I/O draws as a list are the model's, log entries 5 and 10.) -/
def Obligations.WriterAppendsAndFlushes : Prop :=
  (∀ xv : XReg,
    Row 0xFF0FFFFF 0x29 (word 0x29 xv 0 0 0 false) (.swWrBit xv) ∧
    ∀ s : State, s.fault = none →
      (s.writer.isOpen = false → exec (.swWrBit xv) s = .next (raised s .streamClosed)) ∧
      (s.writer.isOpen = true → 1 < s.x[xv] → exec (.swWrBit xv) s = .next (raised s .invalidValue)) ∧
      (s.writer.isOpen = true → ∀ v : Bool, s.x[xv] = v.toNat → Writes (.swWrBit xv) s [v])) ∧
  (∀ xv : XReg,
    Row 0xFF0FFFFF 0x2A (word 0x2A xv 0 0 0 false) (.swWrByte xv) ∧
    ∀ s : State, s.fault = none →
      (s.writer.isOpen = false → exec (.swWrByte xv) s = .next (raised s .streamClosed)) ∧
      (s.writer.isOpen = true → 255 < s.x[xv] → exec (.swWrByte xv) s = .next (raised s .invalidValue)) ∧
      (s.writer.isOpen = true → s.x[xv] ≤ 255 → Writes (.swWrByte xv) s (bitsOf 8 s.x[xv]))) ∧
  (∀ bs : BReg,
    Row 0xFF0FFFFF 0x2B (word 0x2B bs 0 0 0 false) (.swWrBuf bs) ∧
    ∀ s : State, s.fault = none →
      (s.writer.isOpen = false → exec (.swWrBuf bs) s = .next (raised s .streamClosed)) ∧
      (s.writer.isOpen = true → Writes (.swWrBuf bs) s s.b[bs]))

/-- 42_bit_streams.md R178: for any commands between SW.OPEN and SW.CLOSE, other commands standing between the
writes or not, s being all the bits written in command order, OUT after SW.CLOSE is exactly the packed bytes of s,
whatever FLUSH_T is; while the writer is open, 8·len(OUT) + len(wr.pend) = len(s). The runs are those without a
fatal fault; the SW.OPEN is the last one before the writes. -/
def Obligations.WrittenBitsReachOutWhole : Prop :=
  ∀ (is : List Instr) (s opened t : State), (∀ i ∈ is, i ≠ .swOpen ∧ i ≠ .swClose) → s.fault = none →
    exec .swOpen s = .next opened → opened.fault = none →
    (runAll is opened = .next t → t.fault = none →
      8 * t.output.length + t.writer.pend.length = (writtenAlong is opened).length) ∧
    (runAll (is ++ [.swClose]) opened = .next t → t.fault = none → t.output = pack (writtenAlong is opened))

/-! ## Histogram -/

/-- 43_histogram.md R191, R192, 60_exceptions.md R328, R330: FH.COUNT. When no poll sees 1 and no read fails, H[v] is
the number of bytes of IN equal to v, REPORT is Success and PROGRESS 100 (unchanged for an empty IN), one poll for
each of the ceil(len(IN)/CHUNK_BYTES) chunks; a poll that sees 1, from the list of coming values or the level of
the signal after it, ends the command with H zero, PROGRESS 0 and Cancelled; a failed read ends it with H zero and
Failure. (The draws as lists are the model's, log entries 4 and 5, and one I/O draw a chunk and the PROGRESS that a
failure leaves too, log entries 11 and 17.) -/
def Obligations.CountGivesTheBytesOfIn : Prop :=
  Row 0xFFFFFFFF 0x30 (word 0x30 0 0 0 0 false) .fhCount ∧
  ∀ s : State, s.fault = none → 1 ≤ s.cfg.chunkBytes →
    let chunks := ceilDiv s.input.length s.cfg.chunkBytes
    ((∀ j, j < chunks → pollSees s.env j = false ∧ failsAt s.env j = false) →
      ∃ h : Vector Nat 256, (∀ v : Byte, h[v.toFin] = s.input.count v) ∧
        exec .fhCount s = .next { s with
          hist := h,
          progress := if s.input.isEmpty then s.progress else 100,
          report := .success,
          env := afterDraws s.env chunks chunks }) ∧
    (∀ k, k < chunks → (∀ j, j < k → pollSees s.env j = false ∧ failsAt s.env j = false) →
      (pollSees s.env k = true →
        exec .fhCount s = .next { s with
          hist := Vector.replicate 256 0, progress := 0, report := .cancelled,
          env := afterDraws s.env (k + 1) k }) ∧
      (pollSees s.env k = false → failsAt s.env k = true →
        exec .fhCount s = .next { s with
          hist := Vector.replicate 256 0,
          progress := if k = 0 then s.progress else 100 * (k * s.cfg.chunkBytes) / s.input.length,
          report := .failure,
          env := afterDraws s.env (k + 1) (k + 1) }))

/-- 43_histogram.md R193, R194, R195, 44_code_tree.md R218, R219: reading and clearing the histogram, reading and
writing the code table; a symbol above 255, or one without a code for CT.CODE, raises OutOfRange; an empty code
deletes the entry. -/
def Obligations.TablesAreReadAndWrittenBySymbol : Prop :=
  (∀ xd xs : XReg,
    Row 0xFF00FFFF 0x31 (word 0x31 xd xs 0 0 false) (.fhGet xd xs) ∧
    ∀ s : State, s.fault = none →
      (∀ v : Byte, s.x[xs] = v.toNat →
        exec (.fhGet xd xs) s = .next { s with x := s.x.set xd s.hist[v.toFin] }) ∧
      (255 < s.x[xs] → exec (.fhGet xd xs) s = .next (raised s .outOfRange))) ∧
  (Row 0xFFFFFFFF 0x32 (word 0x32 0 0 0 0 false) .fhClear ∧
    ∀ s : State, s.fault = none → exec .fhClear s = .next { s with hist := Vector.replicate 256 0 }) ∧
  (∀ xd : XReg,
    Row 0xFF0FFFFF 0x33 (word 0x33 xd 0 0 0 false) (.fhDistinct xd) ∧
    ∀ s : State, s.fault = none →
      exec (.fhDistinct xd) s =
        .next { s with x := s.x.set xd ((List.finRange 256).filter fun v => 0 < s.hist[v]).length }) ∧
  (∀ (bd : BReg) (xs : XReg),
    Row 0xFF00FFFF 0x46 (word 0x46 bd xs 0 0 false) (.ctCode bd xs) ∧
    ∀ s : State, s.fault = none →
      (∀ (v : Byte) (c : Bits), s.x[xs] = v.toNat → s.codes[v.toFin] = some c →
        exec (.ctCode bd xs) s = .next { s with b := s.b.set bd c }) ∧
      (∀ v : Byte, s.x[xs] = v.toNat → s.codes[v.toFin] = none →
        exec (.ctCode bd xs) s = .next (raised s .outOfRange)) ∧
      (255 < s.x[xs] → exec (.ctCode bd xs) s = .next (raised s .outOfRange))) ∧
  (∀ (xs : XReg) (bs : BReg),
    Row 0xFF00FFFF 0x47 (word 0x47 xs bs 0 0 false) (.ctSetCode xs bs) ∧
    ∀ s : State, s.fault = none →
      (∀ v : Byte, s.x[xs] = v.toNat → s.b[bs] = [] →
        exec (.ctSetCode xs bs) s = .next { s with codes := s.codes.set v.toFin none }) ∧
      (∀ v : Byte, s.x[xs] = v.toNat → s.b[bs] ≠ [] →
        exec (.ctSetCode xs bs) s = .next { s with codes := s.codes.set v.toFin (some s.b[bs]) }) ∧
      (255 < s.x[xs] → exec (.ctSetCode xs bs) s = .next (raised s .outOfRange)))

/-- 43_histogram.md R196: the ordered histogram holds exactly the symbols with H[s] > 0, each with its count, by
count descending and among equal counts by symbol ascending. -/
def Obligations.OrderedHistogramIsSorted : Prop :=
  ∀ h : Vector Nat 256,
    (∀ (v : Byte) (n : Nat), (v, n) ∈ orderedHist h ↔ n = h[v.toFin] ∧ 0 < n) ∧
    (orderedHist h).Pairwise fun p q => q.2 < p.2 ∨ (p.2 = q.2 ∧ p.1.toNat < q.1.toNat)

end Statements

namespace Sys2Proof.Claims
open Sys2Proof.Machine

/-- No code of the table is a prefix of another symbol's code (44_code_tree.md R212). -/
def PrefixFree (codes : Vector (Option Bits) 256) : Prop :=
  ∀ (u v : Fin 256) (c d : Bits), u ≠ v → codes[u] = some c → codes[v] = some d → ¬ c <+: d

/-- The table {v: 0}. -/
def OnlyZeroCode (codes : Vector (Option Bits) 256) (v : Byte) : Prop :=
  ∀ u : Byte, codes[u.toFin] = if u = v then some [false] else none

/-- A full tree the block can hold (44_code_tree.md R210). -/
def FullTree (t : Tree) : Prop := t.full = true ∧ t.nodeCount ≤ 511

/-- Feed bits one by one through x[xv] with CT.FEED xd, xv: the values x[xd] takes, and the last state; none when
a feed raises a fault. -/
def feedAll (xd xv : XReg) : Bits → State → Option (List Nat × State)
  | [], s => some ([], s)
  | v :: bits, s =>
    match exec (.ctFeed xd xv) { s with x := s.x.set xv v.toNat } with
    | .next t => if t.fault.isSome then none else (feedAll xd xv bits t).map fun r => (t.x[xd] :: r.1, r.2)
    | _ => none

/-- `| 2·(sum of the first n counts) − total |` (45_prefix_builders.md R241). -/
def balance (l : List (Byte × Nat)) (n : Nat) : Nat :=
  (2 * ((l.take n).map Prod.snd).sum - (l.map Prod.snd).sum : Int).natAbs

/-- The recursive splitting of 45_prefix_builders.md R241 as a relation between a range of the ordered histogram
and its codes: n symbols go to the left half, n being the smallest number that minimises |2·left − total|. -/
inductive Splits : List (Byte × Nat) → List (Byte × Bits) → Prop where
  | one (e : Byte × Nat) : Splits [e] [(e.1, [])]
  | split (l : List (Byte × Nat)) (n : Nat) (left right : List (Byte × Bits)) :
      1 ≤ n → n < l.length →
      (∀ k, 1 ≤ k → k < l.length → balance l n ≤ balance l k) →
      (∀ k, 1 ≤ k → k < n → balance l n < balance l k) →
      Splits (l.take n) left → Splits (l.drop n) right →
      Splits l (left.map (fun e => (e.1, false :: e.2)) ++ right.map (fun e => (e.1, true :: e.2)))

/-- The merging of 45_prefix_builders.md R244 as a relation between a pool of nodes with keys (weight, seq), the
next seq, and the tree. -/
inductive Merges : List HufNode → Nat → Tree → Prop where
  | one (n : HufNode) (next : Nat) : Merges [n] next n.tree
  | merge (pool rest : List HufNode) (n1 n2 : HufNode) (next : Nat) (t : Tree) :
      pool.Perm (n1 :: n2 :: rest) →
      (∀ n ∈ n2 :: rest, n1.weight < n.weight ∨ (n1.weight = n.weight ∧ n1.seq < n.seq)) →
      (∀ n ∈ rest, n2.weight < n.weight ∨ (n2.weight = n.weight ∧ n2.seq < n.seq)) →
      Merges (⟨n1.weight + n2.weight, next, .node n1.tree n2.tree⟩ :: rest) (next + 1) t →
      Merges pool next t

end Sys2Proof.Claims

section Statements
open Sys2Proof Sys2Proof.Machine Sys2Proof.Claims

/-! ## Code tree -/

/-- 44_code_tree.md R212, 45_prefix_builders.md R243: CT.FROMMAP. An empty table raises EmptyInput; a table with
an empty code or with a code that is a prefix of another raises ConflictingCode; the table {v: 0} builds the
degenerate tree; any other table builds the tree whose leaves are exactly the table's codes, every inner node
below the root having a child, or raises MalformedTree when that tree has more than 511 nodes. -/
def Obligations.FromMapBuildsPrefixFreeTables : Prop :=
  Row 0xFFFFFFFF 0x40 (word 0x40 0 0 0 0 false) .ctFromMap ∧
  ∀ s : State, s.fault = none →
    ((∀ v : Fin 256, s.codes[v] = none) → exec .ctFromMap s = .next (raised s .emptyInput)) ∧
    ((∃ v : Fin 256, s.codes[v] = some []) ∨ ¬ PrefixFree s.codes →
      exec .ctFromMap s = .next (raised s .conflictingCode)) ∧
    (∀ v : Byte, OnlyZeroCode s.codes v →
      exec .ctFromMap s = .next { s with tree := .node (.leaf v) (.leaf v), cur := [] }) ∧
    ((∃ v : Fin 256, s.codes[v] ≠ none) → (∀ v : Fin 256, s.codes[v] ≠ some []) → PrefixFree s.codes →
      (∀ v, ¬ OnlyZeroCode s.codes v) →
      ∃ t : Tree, t.isNode = true ∧ t.wfBelow = true ∧
        (∀ (c : Bits) (v : Byte), (c, v) ∈ t.leafPaths ↔ s.codes[v.toFin] = some c) ∧
        (t.nodeCount ≤ 511 → exec .ctFromMap s = .next { s with tree := t, cur := [] }) ∧
        (511 < t.nodeCount → exec .ctFromMap s = .next (raised s .malformedTree)))

/-- 44_code_tree.md R211, R213: the leaves in pre-order are the leaves with their paths, which ascend as bit
strings; CT.TOMAP gives each symbol the path of the first leaf that holds it, and no other symbol a code. -/
def Obligations.ToMapTakesTheFirstLeaf : Prop :=
  (∀ t : Tree, (t.leafPaths.map Prod.fst).Pairwise (· < ·) ∧
    ∀ (p : Bits) (v : Byte), (p, v) ∈ t.leafPaths ↔ t.at p = .leaf v) ∧
  Row 0xFFFFFFFF 0x41 (word 0x41 0 0 0 0 false) .ctToMap ∧
  ∀ s : State, s.fault = none →
    ∃ codes : Vector (Option Bits) 256,
      (∀ v : Byte, codes[v.toFin] = (s.tree.leafPaths.find? fun e => e.2 == v).map Prod.fst) ∧
      exec .ctToMap s = .next { s with codes := codes }

/-- 44_code_tree.md R214: CT.SER. A closed writer raises StreamClosed, a tree that is not full MalformedTree; a
full tree's serialization goes to the writer: a 0 on each descent, a 1 on each return, then 8 bits for each leaf
in pre-order, 12m − 4 bits for m leaves. (The I/O draws as a list are the model's, log entries 5 and 10.) -/
def Obligations.SerWritesShapeThenLeaves : Prop :=
  Row 0xFFFFFFFF 0x42 (word 0x42 0 0 0 0 false) .ctSer ∧
  (∀ s : State, s.fault = none →
    (s.writer.isOpen = false → exec .ctSer s = .next (raised s .streamClosed)) ∧
    (s.writer.isOpen = true → s.tree.full = false → exec .ctSer s = .next (raised s .malformedTree)) ∧
    (s.writer.isOpen = true → s.tree.full = true → Writes .ctSer s s.tree.serialize)) ∧
  (∀ t : Tree, t.full = true →
    t.serialize = t.shapeBits ++ t.leaves.flatMap (fun v => bitsOf 8 v.toNat) ∧
    t.shapeBits.length + 4 = 4 * t.leaves.length ∧ t.serialize.length + 4 = 12 * t.leaves.length ∧
    t.nodeCount + 1 = 2 * t.leaves.length) ∧
  (∀ v : Byte, (Sys2Proof.Machine.Tree.leaf v).shapeBits = []) ∧
  (∀ l r : Tree, l ≠ .absent → r ≠ .absent →
    (Sys2Proof.Machine.Tree.node l r).shapeBits = false :: l.shapeBits ++ true :: false :: r.shapeBits ++ [true])

/-- 44_code_tree.md R215: CT.DESER. A closed reader raises StreamClosed. The bits at rd.pos are accepted exactly
when they begin with the serialization of a full tree of at most 511 nodes, which becomes the tree, the cursor at
its root, rd.pos moved past it; otherwise EndOfStream or MalformedTree is raised and nothing else changes. A
failed read is IOError (R330; one draw a command is the model's, log entry 10). -/
def Obligations.DeserAcceptsExactlySerializations : Prop :=
  Row 0xFFFFFFFF 0x43 (word 0x43 0 0 0 0 false) .ctDeser ∧
  ∀ s : State, s.fault = none →
    (s.reader.isOpen = false → exec .ctDeser s = .next (raised s .streamClosed)) ∧
    (s.reader.isOpen = true → 8 * s.input.length ≤ s.reader.pos →
      exec .ctDeser s = .next (raised s .endOfStream)) ∧
    (s.reader.isOpen = true → s.reader.pos < 8 * s.input.length → ioFailsNext s = true →
      exec .ctDeser s = .next (ioRaised s)) ∧
    (s.reader.isOpen = true → ioFailsNext s = false →
      ∀ (t : Tree) (rest : Bits), FullTree t → (streamBits s.input).drop s.reader.pos = t.serialize ++ rest →
        exec .ctDeser s = .next { s with
          tree := t, cur := [], reader := ⟨true, s.reader.pos + t.serialize.length⟩, env := afterIo s }) ∧
    (s.reader.isOpen = true → s.reader.pos < 8 * s.input.length → ioFailsNext s = false →
      (∀ (t : Tree) (rest : Bits), FullTree t → (streamBits s.input).drop s.reader.pos ≠ t.serialize ++ rest) →
        ∃ c : Cause, (c = .endOfStream ∨ c = .malformedTree) ∧
          exec .ctDeser s = .next { raised s c with env := afterIo s })

/-- 44_code_tree.md R220: for every full tree t the block can hold, CT.DESER of the bits CT.SER writes rebuilds
t; and for every entry (v, c) of the table CT.TOMAP reads off t, feeding the bits of c from the root of the
rebuilt tree returns 256 for every bit but the last and v for the last. -/
def Obligations.TreeRoundTripKeepsEveryCode : Prop :=
  ∀ (t : Tree), FullTree t →
    (∀ s : State, s.fault = none → s.writer.isOpen = true → ioFailsNext s = false → s.tree = t →
      exec .ctSer s = .next (afterWrite s t.serialize)) ∧
    (∀ (s : State) (rest : Bits), s.fault = none → s.reader.isOpen = true → ioFailsNext s = false →
      (streamBits s.input).drop s.reader.pos = t.serialize ++ rest →
      ∃ u, exec .ctDeser s = .next u ∧ u.fault = none ∧ u.tree = t ∧ u.cur = []) ∧
    (∀ (s u : State) (v : Byte) (c : Bits) (xd xv : XReg), s.fault = none → s.tree = t → s.cur = [] →
      exec .ctToMap s = .next u → u.codes[v.toFin] = some c →
      ∃ w, feedAll xd xv c u = some (List.replicate (c.length - 1) 256 ++ [v.toNat], w) ∧
        w.tree = t ∧ w.cur = [] ∧ c ≠ [])

/-- 44_code_tree.md R216, R217: CT.FEED moves the cursor along the bit; on a leaf it gives the leaf's symbol and
the cursor returns to the root, on an inner node it gives 256; a bit operand above 1 raises InvalidValue first, a
missing child MissingChild. CT.RESET returns the cursor to the root and changes nothing else. -/
def Obligations.FeedWalksTheTree : Prop :=
  (∀ xd xv : XReg,
    Row 0xFF00FFFF 0x44 (word 0x44 xd xv 0 0 false) (.ctFeed xd xv) ∧
    ∀ s : State, s.fault = none →
      (1 < s.x[xv] → exec (.ctFeed xd xv) s = .next (raised s .invalidValue)) ∧
      (∀ v : Bool, s.x[xv] = v.toNat →
        (s.tree.at (s.cur ++ [v]) = .absent →
          exec (.ctFeed xd xv) s = .next (raised s .missingChild)) ∧
        (∀ sym, s.tree.at (s.cur ++ [v]) = .leaf sym →
          exec (.ctFeed xd xv) s = .next { s with x := s.x.set xd sym.toNat, cur := [] }) ∧
        (∀ l r, s.tree.at (s.cur ++ [v]) = .node l r →
          exec (.ctFeed xd xv) s = .next { s with x := s.x.set xd 256, cur := s.cur ++ [v] }))) ∧
  (Row 0xFFFFFFFF 0x45 (word 0x45 0 0 0 0 false) .ctReset ∧
    ∀ s : State, s.fault = none → exec .ctReset s = .next { s with cur := [] }) ∧
  (∀ t : Tree, t.at [] = t) ∧
  (∀ (l r : Tree) (v : Bool) (p : Bits), (Sys2Proof.Machine.Tree.node l r).at (v :: p) = if v then r.at p else l.at p)

/-! ## Builders -/

/-- 45_prefix_builders.md R240–R243: SF.BUILD raises EmptyInput on an empty histogram, gives a single symbol the
code 0, and otherwise gives every symbol of the ordered histogram the code of the recursive splitting of R241;
it writes only T. -/
def Obligations.ShannonFanoSplitsAtTheBestBalance : Prop :=
  Row 0xFFFFFFFF 0x48 (word 0x48 0 0 0 0 false) .sfBuild ∧
  ∀ s : State, s.fault = none →
    (orderedHist s.hist = [] → exec .sfBuild s = .next (raised s .emptyInput)) ∧
    (∀ e, orderedHist s.hist = [e] → ∃ codes, OnlyZeroCode codes e.1 ∧
      exec .sfBuild s = .next { s with codes := codes }) ∧
    (2 ≤ (orderedHist s.hist).length → ∃ entries codes, Splits (orderedHist s.hist) entries ∧
      (∀ (v : Byte) (c : Bits), codes[v.toFin] = some c ↔ (v, c) ∈ entries) ∧
      exec .sfBuild s = .next { s with codes := codes })

/-- 45_prefix_builders.md R240, R243, R244, R245: HF.BUILD raises EmptyInput on an empty histogram, builds the
two-leaf tree for a single symbol, and otherwise the tree of merging the two nodes of smallest key until one is
left; the cursor goes to the root; it writes only the tree and its cursor. -/
def Obligations.HuffmanMergesTheSmallestKeys : Prop :=
  Row 0xFFFFFFFF 0x49 (word 0x49 0 0 0 0 false) .hfBuild ∧
  ∀ s : State, s.fault = none →
    (orderedHist s.hist = [] → exec .hfBuild s = .next (raised s .emptyInput)) ∧
    (∀ e, orderedHist s.hist = [e] →
      exec .hfBuild s = .next { s with tree := .node (.leaf e.1) (.leaf e.1), cur := [] }) ∧
    (2 ≤ (orderedHist s.hist).length →
      ∃ t, Merges ((orderedHist s.hist).zipIdx.map fun e => ⟨e.1.2, e.2, .leaf e.1.1⟩)
          (orderedHist s.hist).length t ∧
        exec .hfBuild s = .next { s with tree := t, cur := [] })

/-- 45_prefix_builders.md R246: for a histogram with at least one symbol, the table of SF.BUILD and the table
CT.TOMAP reads off the tree of HF.BUILD give every symbol with H[s] > 0 exactly one nonempty code and no other
symbol a code; the codes are prefix-free, so CT.FROMMAP accepts the SF table; both trees are full and hold at most
511 nodes. -/
def Obligations.BuildersGiveCompletePrefixCodes : Prop :=
  ∀ s : State, s.fault = none → (∃ v : Fin 256, 0 < s.hist[v]) →
    (∃ t u, exec .sfBuild s = .next t ∧ t.fault = none ∧
      (∀ v : Fin 256, (∃ c, t.codes[v] = some c ∧ c ≠ []) ↔ 0 < s.hist[v]) ∧
      (∀ v : Fin 256, t.codes[v] ≠ some []) ∧ PrefixFree t.codes ∧
      exec .ctFromMap t = .next u ∧ u.fault = none ∧ FullTree u.tree) ∧
    (∃ t u, exec .hfBuild s = .next t ∧ t.fault = none ∧ FullTree t.tree ∧
      exec .ctToMap t = .next u ∧
      (∀ v : Fin 256, (∃ c, u.codes[v] = some c ∧ c ≠ []) ↔ 0 < s.hist[v]) ∧
      (∀ v : Fin 256, u.codes[v] ≠ some []) ∧ PrefixFree u.codes)

end Statements

namespace Sys2Proof.Claims
open Sys2Proof.Machine

/-- The tree and the code table CD.COMPRESS builds for IN (46_compression.md R261), with the unit commands: for
Shannon-Fano SF.BUILD then CT.FROMMAP, for Huffman HF.BUILD then CT.TOMAP, from a state whose histogram counts
IN. `alg` is the operand: 0 Shannon-Fano, 1 Huffman. -/
def Builds (alg : Nat) (inp : List Byte) (tree : Tree) (codes : Vector (Option Bits) 256) : Prop :=
  ∃ s t u : State, s.fault = none ∧ (∀ v : Byte, s.hist[v.toFin] = inp.count v) ∧
    exec (if alg = 0 then .sfBuild else .hfBuild) s = .next t ∧ t.fault = none ∧
    exec (if alg = 0 then .ctFromMap else .ctToMap) t = .next u ∧ u.fault = none ∧
    u.tree = tree ∧ u.codes = codes

/-- The compressed file of 46_compression.md R260 before padding: F field, tree, payload. -/
def compressedBits (tree : Tree) (payload : Bits) : Bits :=
  bitsOf 3 ((3 + tree.serialize.length + payload.length) % 8) ++ tree.serialize ++ payload

/-- `v` is the code of the byte `v` for each byte of IN, in IN order (46_compression.md R260). -/
def payloadOf (codes : Vector (Option Bits) 256) (inp : List Byte) : Bits :=
  inp.flatMap fun v => (codes[v.toFin]).getD []

/-- HAM_B = B is configured: a power of two 4 ≤ B ≤ 65536 (10_state.md R29). -/
def HamSize (B : Nat) : Prop := ∃ m, 2 ≤ m ∧ m ≤ 16 ∧ B = 2 ^ m

/-- k = B − log2(B) − 1 (47_hamming.md R280). -/
def infoBits (B : Nat) : Nat := B - Nat.log2 B - 1

/-- The data positions D in increasing order: 1 to B−1 without the powers of two (47_hamming.md R280). -/
def dataPositions (B : Nat) : List Nat :=
  (List.range B).filter fun p => p ≠ 0 && !((List.range 17).any fun t => p == 2 ^ t)

/-- The exclusive or of the positions of the set bits of a block (47_hamming.md R281, R282). -/
def xorOfPositions (c : Bits) : Nat :=
  ((List.range c.length).filter fun p => c.getD p false).foldl (· ^^^ ·) 0

/-- The bits of a block at the data positions (47_hamming.md R282). -/
def readData (c : Bits) : Bits := (dataPositions c.length).map fun p => c.getD p false

/-- Odd overall parity (47_hamming.md R282). -/
def oddParity (c : Bits) : Bool := c.count true % 2 == 1

/-- `c` is HENC(msg) for the block size B (47_hamming.md R281): message bits at the data positions, parity slot
2^t bit t of the exclusive or of the set data positions, position 0 the parity of the rest. -/
structure IsCodeword (B : Nat) (msg c : Bits) : Prop where
  length : c.length = B
  data : readData c = msg
  slots : ∀ t, 2 ^ t < B →
    c.getD (2 ^ t) false =
      (((dataPositions B).filter fun p => c.getD p false).foldl (· ^^^ ·) 0).testBit t
  parity : c.headD false = oddParity c.tail

/-- Flip bit p of a sequence. -/
def flipAt (c : Bits) (p : Nat) : Bits := c.set p (!c.getD p false)

/-- The k-bit information parts of the blocks of the Hamming file of M (47_hamming.md R285). -/
def hamFileData (k : Nat) (m : Bits) : List Bits :=
  let o := m.length % k
  let nf := ceilDiv 16 k
  let f := bitsOf 16 o ++ List.replicate (nf * k - 16) false
  ((List.range nf).map fun i => (f.drop (i * k)).take k) ++
  (if o > 0 then [m.take o ++ List.replicate (k - o) false] else []) ++
  ((List.range ((m.length - o) / k)).map fun i => (m.drop (o + i * k)).take k)

/-- The Hamming file of IN: the codeword of each block in order (47_hamming.md R285). -/
def hamFile (B : Nat) (inp : List Byte) : List Bits :=
  (hamFileData (infoBits B) (streamBits inp)).map (hamEncode B)

/-- A legal generator: len(G) ≥ 2, first and last bit 1 (48_crc.md R300). -/
def LegalPoly (g : Bits) : Prop := 2 ≤ g.length ∧ g.head? = some true ∧ g.getLast? = some true

/-- The message blocks of M: floor(len(M)/N) of N bits and, when bits remain, one of the rest (48_crc.md R307). -/
def crcBlocks (n : Nat) (m : Bits) : List Bits :=
  ((List.range (m.length / n)).map fun i => (m.drop (i * n)).take n) ++
  (if m.length % n > 0 then [m.drop (m.length / n * n)] else [])

/-- The CRC file of IN: CENC of each block in order (48_crc.md R307). -/
def crcFile (g : Bits) (n : Nat) (inp : List Byte) : List Bits := (crcBlocks n (streamBits inp)).map (crcEncode g)

/-! ### Files read by the decoders, damaged or not -/

/-- HDEC: the data bits and the outcome of a received block (47_hamming.md R282). -/
def hdec (r : Bits) : Bits × OutcomeKind :=
  if xorOfPositions r = 0 then (readData r, .ok)
  else if oddParity r then (readData (flipAt r (xorOfPositions r)), .fixed)
  else (readData r, .bad)

/-- The blocks of B bits that IN holds whole, decoded (47_hamming.md R287). -/
def hamRead (B : Nat) (inp : List Byte) : List (Bits × OutcomeKind) :=
  (List.range (8 * inp.length / B)).map fun j => hdec (((streamBits inp).drop (j * B)).take B)

/-- nf = ceil(16/k), the number of field blocks (47_hamming.md R285). -/
def fieldCount (B : Nat) : Nat := ceilDiv 16 (infoBits B)

/-- O, the overflow count the field blocks give, "padding bits ignored" (47_hamming.md R287). -/
def overflowOf (B : Nat) (ds : List (Bits × OutcomeKind)) : Nat :=
  natOfBits (((ds.take (fieldCount B)).flatMap Prod.fst).take 16)

/-- What HM.FDEC writes of the decoded block number j: nothing of a field block, the first O bits of the overflow
block, all of a body block (47_hamming.md R287). -/
def hamMessagePart (B O j : Nat) (d : Bits) : Bits :=
  if j < fieldCount B then [] else if j = fieldCount B ∧ 0 < O then d.take O else d

/-- The message HM.FDEC writes (47_hamming.md R287). -/
def hamMessage (B : Nat) (ds : List (Bits × OutcomeKind)) : Bits :=
  ds.zipIdx.flatMap fun e => hamMessagePart B (overflowOf B ds) e.2 e.1.1

/-- CDEC: the message bits and the outcome of a received block (48_crc.md R303). -/
def cdec (g : Bits) (corr : Bool) (r : Bits) : Bits × OutcomeKind :=
  let zero := List.replicate g.length false
  let strip := fun (c : Bits) => c.take (r.length - g.length)
  if crcRem g r = zero then (strip r, .ok)
  else if corr then
    match (List.range r.length).filter fun i => crcRem g (flipAt r i) = zero with
    | [i] => (strip (flipAt r i), .fixed)
    | _ => (strip r, .bad)
  else (strip r, .bad)

/-- E(n) = 8n + W·ceil(8n/N) (48_crc.md R307). -/
def encodedBits (W N n : Nat) : Nat := 8 * n + W * ceilDiv (8 * n) N

/-- "n is the largest natural with ceil(E(n)/8) ≤ f" (48_crc.md R309). -/
def OriginalBytes (W N f n : Nat) : Prop :=
  (encodedBits W N n + 7) / 8 ≤ f ∧ f < (encodedBits W N (n + 1) + 7) / 8

/-- The blocks of a CRC file of n message bytes, decoded: N message bits, in the last block those that remain, and W
bits of checksum each (48_crc.md R309). -/
def crcRead (g : Bits) (N : Nat) (corr : Bool) (n : Nat) (inp : List Byte) : List (Bits × OutcomeKind) :=
  (List.range (ceilDiv (8 * n) N)).map fun j =>
    cdec g corr (((streamBits inp).drop (j * (N + g.length))).take (min N (8 * n - j * N) + g.length))

/-- The four outcome counters after the given outcomes and Fail kinds, from zero, modulo 2^64 (10_state.md R33,
R34). -/
def tally (kinds : List OutcomeKind) (fails : Nat) : OutcomeCounts :=
  ⟨BitVec.ofNat 64 fails, BitVec.ofNat 64 (kinds.count .ok), BitVec.ofNat 64 (kinds.count .fixed),
    BitVec.ofNat 64 (kinds.count .bad)⟩

/-! ### The course of a file-level command (46_compression.md, 47_hamming.md, 48_crc.md) -/

/-- What the body of a file-level command does, in order, between the truncation of OUT and the close of the private
streams: it polls, reads IN (one I/O action, log entry 11), writes bits to the private writer, writes PROGRESS, and
counts an outcome, none standing for the Fail kind. -/
inductive Event where
  | poll
  | read
  | write (v : Bits)
  | progress (p : Nat)
  | outcome (k : Option OutcomeKind)
  deriving DecidableEq, Repr

def Event.bits : Event → Bits
  | .write v => v
  | _ => []

def Event.isPoll : Event → Bool
  | .poll => true
  | _ => false

def Event.kind : Event → Option (Option OutcomeKind)
  | .outcome k => some k
  | _ => none

/-- The bits the private writer has received. -/
def received (es : List Event) : Bits := es.flatMap Event.bits

def pollCount (es : List Event) : Nat := es.countP Event.isPoll

/-- The last PROGRESS written, from the value before the command. -/
def lastProgress (p : Nat) (es : List Event) : Nat :=
  es.foldl (fun p e => match e with | .progress q => q | _ => p) p

/-- The outcomes counted. -/
def counted (es : List Event) : OutcomeCounts :=
  let ks := es.filterMap Event.kind
  tally (ks.filterMap id) (ks.count none)

/-- The I/O actions so far and the number of pending bits: a read is an action; a write is one when the flush rule
of 42_bit_streams.md R173 writes its whole bytes, and then fewer than 8 bits stay pending. -/
def flow (flushT : Nat) : Nat × Nat → Event → Nat × Nat
  | (n, p), .read => (n + 1, p)
  | (n, p), .write v =>
    if flushT < (p + v.length) / 8 then (n + 1, (p + v.length) % 8) else (n, p + v.length)
  | np, _ => np

/-- The I/O actions a command has taken, the truncation of OUT being the first. -/
def ioCount (flushT : Nat) (es : List Event) : Nat := (es.foldl (flow flushT) (1, 0)).1

/-- The bits pending in the private writer. -/
def pendCount (flushT : Nat) (es : List Event) : Nat := (es.foldl (flow flushT) (1, 0)).2

/-- The state after a file-level command whose body did `es`, took `polls` polls and `ios` I/O actions, left
`pending` of the bits `w` in the private writer and ended with the report `r`: the close writes them, zero-padded to
whole bytes, so that OUT keeps every bit the private writer had received (60_exceptions.md R326). The close is an
I/O action; when it fails the report is Failure and the pending bits are lost (log entry 13). -/
def closed (s : State) (i : Instr) (es : List Event) (r : Report) (polls ios pending : Nat) (w : Bits) : State :=
  { s with
    output := pack (if failsAt s.env ios then w.take (w.length - pending) else w),
    report := if failsAt s.env ios then .failure else r,
    progress := lastProgress s.progress es,
    ham := if i = .hmFdec then counted es else s.ham,
    crc := if i = .crcFdec then counted es else s.crc,
    env := afterDraws s.env polls (ios + 1) }

/-- A percentage of IN's bits; 100 for an empty IN (47_hamming.md R286). -/
def percent (done total : Nat) : Nat := if total = 0 then 100 else 100 * done / total

/-- The bits of IN in the first `n` blocks of its Hamming file: none in the field blocks, O in the overflow block,
k in a body block (47_hamming.md R285). -/
def hamConsumed (B total n : Nat) : Nat :=
  let k := infoBits B
  let o := total % k
  let j := n - fieldCount B
  if j = 0 then 0 else if o = 0 then j * k else o + (j - 1) * k

/-- HM.FENC of IN (47_hamming.md R286). -/
def hamEncodeEvents (B : Nat) (inp : List Byte) : List Event :=
  (hamFile B inp).zipIdx.flatMap fun e =>
    [.poll] ++ (if fieldCount B ≤ e.2 then [.read] else []) ++
      [.write e.1, .progress (percent (hamConsumed B (8 * inp.length) (e.2 + 1)) (8 * inp.length))]

/-- `next_block()` of HM.FDEC on the block number j, and what the command writes of it (47_hamming.md R287). -/
def hamBlockEvents (B O bytes : Nat) (e : (Bits × OutcomeKind) × Nat) : List Event :=
  [.poll, .read, .outcome (some e.1.2), .progress (100 * ((e.2 + 1) * B) / (8 * bytes))] ++
    (if e.2 < fieldCount B then [] else [.write (hamMessagePart B O e.2 e.1.1)])

/-- HM.FDEC of IN, with its report: the field cut short, an illegal overflow count, the overflow block missing, or
the whole file (47_hamming.md R287). -/
def hamDecodeCourse (B : Nat) (inp : List Byte) : List Event × Report :=
  let ds := hamRead B inp
  let O := overflowOf B ds
  let events := fun l => (List.zipIdx l).flatMap (hamBlockEvents B O inp.length)
  if ds.length < fieldCount B then (events ds ++ [.poll], .failure)
  else if infoBits B ≤ O then (events (ds.take (fieldCount B)), .failure)
  else if 0 < O ∧ ds.length = fieldCount B then (events ds ++ [.poll], .failure)
  else (events ds ++ (if 8 * inp.length % B = 0 then [] else [.outcome none]), .success)

/-- CRC.FENC of IN (48_crc.md R308). -/
def crcEncodeEvents (g : Bits) (N : Nat) (inp : List Byte) : List Event :=
  (crcFile g N inp).zipIdx.flatMap fun e =>
    [.poll, .read, .write e.1, .progress (100 * min ((e.2 + 1) * N) (8 * inp.length) / (8 * inp.length))]

/-- CRC.FDEC of IN, of n message bytes (48_crc.md R309). -/
def crcDecodeEvents (g : Bits) (N : Nat) (corr : Bool) (n : Nat) (inp : List Byte) : List Event :=
  ((crcRead g N corr n inp).zipIdx.flatMap fun e =>
    [.poll, .read, .outcome (some e.1.2), .write e.1.1,
      .progress (100 * (min ((e.2 + 1) * N) (8 * n) + (e.2 + 1) * g.length) / (8 * inp.length))]) ++
  (if (encodedBits g.length N n + 7) / 8 = inp.length then [] else [.outcome none])

/-- CD.COMPRESS of IN in chunks of C bytes: the histogram pass, the header, the substitution pass (46_compression.md
R261). -/
def compressEvents (C : Nat) (tree : Tree) (codes : Vector (Option Bits) 256) (inp : List Byte) : List Event :=
  let done := fun j => Event.progress (100 * min ((j + 1) * C) inp.length / inp.length)
  let header := (compressedBits tree (payloadOf codes inp)).take (3 + tree.serialize.length)
  ((List.range (ceilDiv inp.length C)).flatMap fun j => [.poll, .read, done j]) ++
  [.write (header.take 3), .write (header.drop 3), .progress 0] ++
  ((List.range (ceilDiv inp.length C)).flatMap fun j =>
    [.poll] ++ (((inp.drop (j * C)).take C).flatMap fun v => [.read, .write (payloadOf codes [v])]) ++ [done j])

/-- CD.DECOMPRESS in chunks of C bytes, `marks` telling for each payload bit the symbol it completes, if any
(46_compression.md R262). -/
def decompressEvents (C : Nat) (marks : List (Option Byte)) : List Event :=
  [.read, .read] ++
  (marks.zipIdx.flatMap fun e =>
    (if e.2 % (8 * C) = 0 then [.poll, .progress (100 * e.2 / marks.length)] else []) ++
    [.read] ++ (match e.1 with | some v => [.write (bitsOf 8 v.toNat)] | none => [])) ++
  [.progress 100]

/-- The marks of a payload: the codes of `items`, each with its symbol, and a partial code. -/
def marksOf (items : List (Bits × Byte)) (part : Bits) : List (Option Byte) :=
  (items.flatMap fun e => List.replicate (e.1.length - 1) none ++ [some e.2]) ++ List.replicate part.length none

/-- The course of a file-level command that passes its checks (60_exceptions.md R326): its events and the report
they end with. -/
inductive Course (s : State) : Instr → List Event → Report → Prop where
  | compress (r : XReg) (tree : Tree) (codes : Vector (Option Bits) 256) :
      s.x[r] ≤ 1 → s.input ≠ [] → 1 ≤ s.cfg.chunkBytes → Builds s.x[r] s.input tree codes →
      Course s (.cdCompress r) (compressEvents s.cfg.chunkBytes tree codes s.input) .success
  | decompress (tree : Tree) (items : List (Bits × Byte)) (part pad : Bits) :
      1 ≤ s.cfg.chunkBytes → FullTree tree → (∀ e ∈ items, tree.at e.1 = .leaf e.2) →
      (tree.at part).isNode = true →
      streamBits s.input = compressedBits tree (items.flatMap Prod.fst ++ part) ++ pad → pad.length < 8 →
      Course s .cdDecompress (decompressEvents s.cfg.chunkBytes (marksOf items part)) .success
  | noTree :
      s.input ≠ [] →
      (∀ (tree : Tree) (rest : Bits), FullTree tree → (streamBits s.input).drop 3 ≠ tree.serialize ++ rest) →
      Course s .cdDecompress [.read, .read] .failure
  | cutTree (tree : Tree) (rest : Bits) :
      s.input ≠ [] → FullTree tree → (streamBits s.input).drop 3 = tree.serialize ++ rest →
      8 * (s.input.length - 1) + (if (natOfBits ((streamBits s.input).take 3)) = 0 then 8
        else natOfBits ((streamBits s.input).take 3)) < 3 + tree.serialize.length →
      Course s .cdDecompress [.read, .read] .failure
  | hamEncode : HamSize s.hamB → Course s .hmFenc (hamEncodeEvents s.hamB s.input) .success
  | hamDecode :
      HamSize s.hamB →
      Course s .hmFdec (hamDecodeCourse s.hamB s.input).1 (hamDecodeCourse s.hamB s.input).2
  | crcEncode :
      1 ≤ s.crcN → LegalPoly s.cfg.poly → Course s .crcFenc (crcEncodeEvents s.cfg.poly s.crcN s.input) .success
  | crcDecode (n : Nat) :
      1 ≤ s.crcN → LegalPoly s.cfg.poly → OriginalBytes s.cfg.poly.length s.crcN s.input.length n →
      Course s .crcFdec (crcDecodeEvents s.cfg.poly s.crcN s.crcCorr n s.input) .success

end Sys2Proof.Claims

section Statements
open Sys2Proof Sys2Proof.Machine Sys2Proof.Claims

/-! ## File-level commands -/

/-- 60_exceptions.md R326, R322, 46_compression.md R261, R262, 47_hamming.md R286, R287, 48_crc.md R308, R309:
operand and configuration checks come first and are fatal; then a file-level command with a stream unit open
reports Failure and changes nothing else; then the compression commands report EmptyInput for an empty IN and do
not touch OUT. -/
def Obligations.FileCommandsCheckBeforeRunning : Prop :=
  ∀ s : State, s.fault = none →
    (∀ r : XReg, 1 < s.x[r] → exec (.cdCompress r) s = .next (raised s .invalidValue)) ∧
    (s.hamB = 0 → exec .hmFenc s = .next (raised s .invalidValue) ∧
      exec .hmFdec s = .next (raised s .invalidValue)) ∧
    (s.crcN = 0 → exec .crcFenc s = .next (raised s .invalidValue) ∧
      exec .crcFdec s = .next (raised s .invalidValue)) ∧
    (s.reader.isOpen = true ∨ s.writer.isOpen = true →
      (∀ r : XReg, s.x[r] ≤ 1 → exec (.cdCompress r) s = .next { s with report := .failure }) ∧
      exec .cdDecompress s = .next { s with report := .failure } ∧
      (s.hamB ≠ 0 → exec .hmFenc s = .next { s with report := .failure } ∧
        exec .hmFdec s = .next { s with report := .failure }) ∧
      (s.crcN ≠ 0 → exec .crcFenc s = .next { s with report := .failure } ∧
        exec .crcFdec s = .next { s with report := .failure })) ∧
    (s.reader.isOpen = false → s.writer.isOpen = false → s.input = [] →
      (∀ r : XReg, s.x[r] ≤ 1 → exec (.cdCompress r) s = .next { s with report := .emptyInput }) ∧
      exec .cdDecompress s = .next { s with report := .emptyInput })

/-- 60_exceptions.md R326, R328, R330, 70_reset_and_hazards.md R359, for each of the six file-level commands that
passes its checks. A poll that sees 1, the first or a later one, ends the command with Cancelled; a failing read or
flush ends it with Failure; OUT then keeps every bit the private writer had received, zero-padded; a course without
either ends with its own report. PROGRESS and the decoder's counters are those of the events so far. A failed
truncation gives Failure with OUT as it was. Which I/O actions there are, what a failed truncation leaves and what a
failed close does are the model's (log entries 5, 11, 12 and 13); the list of poll values is log entry 4. -/
def Obligations.FirstPollCancelsAndFirstFailureReports : Prop :=
  ∀ (s : State) (i : Instr) (es : List Event) (final : Report), Ready s → Course s i es final →
    (ioFailsNext s = true →
      exec i s = .next { s with
        report := .failure,
        ham := if i = .hmFdec then ⟨0, 0, 0, 0⟩ else s.ham,
        crc := if i = .crcFdec then ⟨0, 0, 0, 0⟩ else s.crc,
        env := afterIo s }) ∧
    (∀ pre post, es = pre ++ post →
      (∀ j, j < pollCount pre → pollSees s.env j = false) →
      (∀ j, j < ioCount s.cfg.flushT pre → failsAt s.env j = false) →
      let polls := pollCount pre
      let ios := ioCount s.cfg.flushT pre
      let pending := pendCount s.cfg.flushT pre
      (post = [] →
        exec i s = .next (closed s i pre final polls ios pending (received pre))) ∧
      (∀ rest, post = .poll :: rest → pollSees s.env polls = true →
        exec i s = .next (closed s i pre .cancelled (polls + 1) ios pending (received pre))) ∧
      (∀ rest, post = .read :: rest → failsAt s.env ios = true →
        exec i s = .next (closed s i pre .failure polls (ios + 1) pending (received pre))) ∧
      (∀ v rest, post = .write v :: rest → s.cfg.flushT < (pending + v.length) / 8 → failsAt s.env ios = true →
        exec i s =
          .next (closed s i pre .failure polls (ios + 1) (pending + v.length) (received pre ++ v))))

/-! ## Compression -/

/-- 46_compression.md R260, R261, R263: when no poll sees 1 and no I/O action fails, CD.COMPRESS of a nonempty IN
writes F, the serialized tree and the codes of the bytes of IN, zero-padded to ceil(t/8) bytes, reports Success,
leaves PROGRESS at 100 and polls twice for each chunk. -/
def Obligations.CompressWritesTheFormat : Prop :=
  ∀ r : XReg,
    Row 0xFF0FFFFF 0x50 (word 0x50 r 0 0 0 false) (.cdCompress r) ∧
    ∀ s : State, Ready s → Quiet s.env → s.x[r] ≤ 1 → s.input ≠ [] → 1 ≤ s.cfg.chunkBytes →
      ∃ tree codes n, Builds s.x[r] s.input tree codes ∧ FullTree tree ∧
        (∀ v ∈ s.input, (codes[v.toFin]).isSome = true) ∧
        exec (.cdCompress r) s = .next { s with
          output := pack (compressedBits tree (payloadOf codes s.input)),
          progress := 100, report := .success,
          env := afterDraws s.env (2 * ceilDiv s.input.length s.cfg.chunkBytes) n }

/-- 46_compression.md R262, R263: when no poll sees 1 and no I/O action fails, CD.DECOMPRESS of a file of F field,
full tree and payload, filled up to whole bytes with bits of any value, which are never fed, writes the symbols its
payload reaches, a partial code at the end being dropped, and reports Success; a file with no well-formed tree after
its F field, or whose tree runs past the bits the F field leaves, gives Failure with OUT empty. -/
def Obligations.DecompressWritesTheCodedBytes : Prop :=
  Row 0xFFFFFFFF 0x51 (word 0x51 0 0 0 0 false) .cdDecompress ∧
  ∀ s : State, Ready s → Quiet s.env → s.input ≠ [] → 1 ≤ s.cfg.chunkBytes →
    (∀ (tree : Tree) (items : List (Bits × Byte)) (part pad : Bits),
      FullTree tree → (∀ e ∈ items, tree.at e.1 = .leaf e.2) → (tree.at part).isNode = true →
      streamBits s.input = compressedBits tree (items.flatMap Prod.fst ++ part) ++ pad → pad.length < 8 →
      ∃ n, exec .cdDecompress s = .next { s with
        output := items.map Prod.snd, progress := 100, report := .success,
        env := afterDraws s.env
          (ceilDiv (items.flatMap Prod.fst ++ part).length (8 * s.cfg.chunkBytes)) n }) ∧
    ((∀ (tree : Tree) (rest : Bits), FullTree tree → (streamBits s.input).drop 3 ≠ tree.serialize ++ rest) →
      ∃ n, exec .cdDecompress s =
        .next { s with output := [], report := .failure, env := afterDraws s.env 0 n }) ∧
    (∀ (tree : Tree) (rest : Bits), FullTree tree → (streamBits s.input).drop 3 = tree.serialize ++ rest →
      ∀ F, F = natOfBits ((streamBits s.input).take 3) →
      8 * (s.input.length - 1) + (if F = 0 then 8 else F) < 3 + tree.serialize.length →
      ∃ n, exec .cdDecompress s =
        .next { s with output := [], report := .failure, env := afterDraws s.env 0 n })

/-- 46_compression.md R264: for every nonempty IN and alg ∈ {0, 1}, when no poll returns 1 and no IOError is
drawn, CD.COMPRESS reports Success and CD.DECOMPRESS, with that output as IN, reports Success and writes exactly
the original IN. -/
def Obligations.CompressedFilesDecompress : Prop :=
  ∀ (r : XReg) (s : State), Ready s → Quiet s.env → s.x[r] ≤ 1 → s.input ≠ [] → 1 ≤ s.cfg.chunkBytes →
    ∃ t, exec (.cdCompress r) s = .next t ∧ t.report = .success ∧
      (∃ tree codes, Builds s.x[r] s.input tree codes ∧
        t.output.length = (3 + tree.serialize.length + (payloadOf codes s.input).length + 7) / 8) ∧
      ∀ u : State, Ready u → Quiet u.env → 1 ≤ u.cfg.chunkBytes → u.input = t.output →
        ∃ e, exec .cdDecompress u = .next { u with
          output := s.input, progress := 100, report := .success, env := e }

/-! ## Hamming -/

/-- 47_hamming.md R280–R284: HM.ENC writes the codeword of R281; HM.DEC writes the data bits and the outcome code
of R282 and adds 1 to that outcome's counter modulo 2^64: OK for a zero syndrome, OneBitErrorCorrected with the bit
at the syndrome flipped for odd parity, TwoBitError uncorrected for even parity. InvalidValue when HAM_B = 0,
before the OutOfRange of a wrong length. -/
def Obligations.HammingBlockCommands : Prop :=
  (∀ bd bs : BReg,
    Row 0xFF00FFFF 0x58 (word 0x58 bd bs 0 0 false) (.hmEnc bd bs) ∧
    ∀ s : State, s.fault = none →
      (s.hamB = 0 → exec (.hmEnc bd bs) s = .next (raised s .invalidValue)) ∧
      (s.hamB ≠ 0 → s.b[bs].length ≠ infoBits s.hamB →
        exec (.hmEnc bd bs) s = .next (raised s .outOfRange)) ∧
      (HamSize s.hamB → s.b[bs].length = infoBits s.hamB →
        ∃ c, IsCodeword s.hamB s.b[bs] c ∧
          exec (.hmEnc bd bs) s = .next { s with b := s.b.set bd c })) ∧
  (∀ (bd : BReg) (xd : XReg) (bs : BReg),
    Row 0xFF000FFF 0x59 (word 0x59 bd xd bs 0 false) (.hmDec bd xd bs) ∧
    ∀ s : State, s.fault = none →
      (s.hamB = 0 → exec (.hmDec bd xd bs) s = .next (raised s .invalidValue)) ∧
      (s.hamB ≠ 0 → s.b[bs].length ≠ s.hamB →
        exec (.hmDec bd xd bs) s = .next (raised s .outOfRange)) ∧
      (HamSize s.hamB → s.b[bs].length = s.hamB →
        (xorOfPositions s.b[bs] = 0 →
          exec (.hmDec bd xd bs) s = .next { s with
            b := s.b.set bd (readData s.b[bs]), x := s.x.set xd 1,
            ham := { s.ham with ok := s.ham.ok + 1 } }) ∧
        (xorOfPositions s.b[bs] ≠ 0 → oddParity s.b[bs] = true →
          exec (.hmDec bd xd bs) s = .next { s with
            b := s.b.set bd (readData (flipAt s.b[bs] (xorOfPositions s.b[bs]))), x := s.x.set xd 2,
            ham := { s.ham with fixed := s.ham.fixed + 1 } }) ∧
        (xorOfPositions s.b[bs] ≠ 0 → oddParity s.b[bs] = false →
          exec (.hmDec bd xd bs) s = .next { s with
            b := s.b.set bd (readData s.b[bs]), x := s.x.set xd 3,
            ham := { s.ham with bad := s.ham.bad + 1 } })))

/-- 47_hamming.md R288, for blocks: for every legal B and k-bit msg, HDEC(HENC(msg)) = (msg, OK); one flip at a
position p ≥ 1 gives (msg, OneBitErrorCorrected), at position 0 (msg, OK); two distinct flips give TwoBitError. -/
def Obligations.HammingCorrectsOneAndDetectsTwo : Prop :=
  ∀ (B : Nat) (msg : Bits), HamSize B → msg.length = infoBits B →
    hamDecode (hamEncode B msg) = (msg, .ok) ∧
    (∀ p, 1 ≤ p → p < B → hamDecode (flipAt (hamEncode B msg) p) = (msg, .fixed)) ∧
    hamDecode (flipAt (hamEncode B msg) 0) = (msg, .ok) ∧
    (∀ p q, p < B → q < B → p ≠ q → (hamDecode (flipAt (flipAt (hamEncode B msg) p) q)).2 = .bad)

/-- 47_hamming.md R285, R286: when no poll sees 1 and no I/O action fails, HM.FENC writes the field, overflow and
body blocks of R285 in order, reports Success, leaves PROGRESS at 100 and polls once for each block. -/
def Obligations.HammingFilesHaveTheFormat : Prop :=
  Row 0xFFFFFFFF 0x5A (word 0x5A 0 0 0 0 false) .hmFenc ∧
  ∀ s : State, Ready s → Quiet s.env → HamSize s.hamB →
    ∃ n, exec .hmFenc s = .next { s with
      output := pack (hamFile s.hamB s.input).flatten,
      progress := 100, report := .success,
      env := afterDraws s.env (hamFile s.hamB s.input).length n }

/-- 47_hamming.md R287, R288, for files, damaged or not, when no poll sees 1 and no I/O action fails. Of any file
HM.FDEC decodes the whole blocks in order and counts each outcome, OneBitErrorCorrected and TwoBitError blocks too,
writes the message bits and reports Success, a trailing partial block counting one Fail; a field cut short, O ≥ k, or
a missing overflow block gives Failure with OUT empty. Of the file HM.FENC writes for M it writes M back with every
block OK; with one bit flipped at a position p ≥ 1 in any of the blocks it writes M back and counts those blocks
OneBitErrorCorrected; further whole bytes fewer than a block after the file count one Fail (B ≥ 16); an empty IN
gives Failure. -/
def Obligations.HammingFilesDecode : Prop :=
  Row 0xFFFFFFFF 0x5B (word 0x5B 0 0 0 0 false) .hmFdec ∧
  ∀ s : State, Ready s → Quiet s.env → HamSize s.hamB →
    (∀ ds O, ds = hamRead s.hamB s.input → O = overflowOf s.hamB ds →
      (fieldCount s.hamB ≤ ds.length → O < infoBits s.hamB → (O = 0 ∨ fieldCount s.hamB < ds.length) →
        ∃ n, exec .hmFdec s = .next { s with
          output := pack (hamMessage s.hamB ds),
          progress := 100 * (ds.length * s.hamB) / (8 * s.input.length), report := .success,
          ham := tally (ds.map Prod.snd) (if 8 * s.input.length % s.hamB = 0 then 0 else 1),
          env := afterDraws s.env ds.length n }) ∧
      (ds.length < fieldCount s.hamB ∨ ds.length = fieldCount s.hamB ∧ 0 < O ∧ O < infoBits s.hamB →
        ∃ n, exec .hmFdec s = .next { s with
          output := [],
          progress := if ds = [] then s.progress else 100 * (ds.length * s.hamB) / (8 * s.input.length),
          report := .failure, ham := tally (ds.map Prod.snd) 0, env := afterDraws s.env (ds.length + 1) n }) ∧
      (fieldCount s.hamB ≤ ds.length → infoBits s.hamB ≤ O →
        ∃ n, exec .hmFdec s = .next { s with
          output := [],
          progress := 100 * (fieldCount s.hamB * s.hamB) / (8 * s.input.length), report := .failure,
          ham := tally ((ds.take (fieldCount s.hamB)).map Prod.snd) 0,
          env := afterDraws s.env (fieldCount s.hamB) n })) ∧
    (∀ m : List Byte, s.input = pack (hamFile s.hamB m).flatten →
      ∃ n, exec .hmFdec s = .next { s with
        output := m, progress := 100, report := .success,
        ham := ⟨0, BitVec.ofNat 64 (hamFile s.hamB m).length, 0, 0⟩,
        env := afterDraws s.env (hamFile s.hamB m).length n }) ∧
    (∀ (m : List Byte) (flips : List (Option Nat)), flips.length = (hamFile s.hamB m).length →
      (∀ p, some p ∈ flips → 1 ≤ p ∧ p < s.hamB) →
      s.input = pack ((List.zipWith
        (fun c f => match f with | some p => flipAt c p | none => c) (hamFile s.hamB m) flips).flatten) →
      ∃ n, exec .hmFdec s = .next { s with
        output := m, progress := 100, report := .success,
        ham := ⟨0, BitVec.ofNat 64 (flips.countP Option.isNone), BitVec.ofNat 64 (flips.countP Option.isSome), 0⟩,
        env := afterDraws s.env (hamFile s.hamB m).length n }) ∧
    (∀ m extra : List Byte, s.input = pack (hamFile s.hamB m).flatten ++ extra →
      0 < extra.length → 8 * extra.length < s.hamB →
      ∃ p n, exec .hmFdec s = .next { s with
        output := m, progress := p, report := .success,
        ham := ⟨1, BitVec.ofNat 64 (hamFile s.hamB m).length, 0, 0⟩,
        env := afterDraws s.env (hamFile s.hamB m).length n }) ∧
    (s.input = [] → ∃ n, exec .hmFdec s = .next { s with
      output := [], report := .failure, ham := ⟨0, 0, 0, 0⟩, env := afterDraws s.env 1 n })

/-! ## CRC -/

/-- 48_crc.md R300, R301: for every legal G and every D, REM(D) has length W = len(G) and first bit 0, and D differs
from it by a sum of aligned copies of G: as polynomials over GF(2) it is D mod G. -/
def Obligations.CrcRemainderIsTheResidue : Prop :=
  ∀ g d : Bits, LegalPoly g →
    (crcRem g d).length = g.length ∧
    (crcRem g d).head? = some false ∧
    natOfBits (crcRem g d) < 2 ^ (g.length - 1) ∧
    ∃ shifts : List Nat,
      natOfBits d = natOfBits (crcRem g d) ^^^ (shifts.map fun k => natOfBits g * 2 ^ k).foldl (· ^^^ ·) 0

/-- 48_crc.md R303–R306: the block commands. CRC.REM and CRC.ENC take any length; CRC.DEC raises OutOfRange for a
block shorter than W, else writes the message bits and the outcome code and adds 1 to its counter modulo 2^64:
OK for remainder zero; with CRC_CORR = 1 and exactly one position whose flip gives remainder zero, Corrected with
that bit flipped; otherwise Corrupted, unmodified. -/
def Obligations.CrcBlockCommands : Prop :=
  (∀ bd bs : BReg,
    Row 0xFF00FFFF 0x60 (word 0x60 bd bs 0 0 false) (.crcRem bd bs) ∧
    ∀ s : State, s.fault = none →
      exec (.crcRem bd bs) s = .next { s with b := s.b.set bd (crcRem s.cfg.poly s.b[bs]) }) ∧
  (∀ bd bs : BReg,
    Row 0xFF00FFFF 0x61 (word 0x61 bd bs 0 0 false) (.crcEnc bd bs) ∧
    ∀ s : State, s.fault = none → LegalPoly s.cfg.poly →
      exec (.crcEnc bd bs) s = .next { s with
        b := s.b.set bd (s.b[bs] ++
          crcRem s.cfg.poly (s.b[bs] ++ List.replicate s.cfg.poly.length false)) }) ∧
  (∀ (bd : BReg) (xd : XReg) (bs : BReg),
    Row 0xFF000FFF 0x62 (word 0x62 bd xd bs 0 false) (.crcDec bd xd bs) ∧
    ∀ (s : State) (r : Bits), s.fault = none → r = s.b[bs] →
      let zero := List.replicate s.cfg.poly.length false
      let strip := fun (c : Bits) => c.take (r.length - s.cfg.poly.length)
      (r.length < s.cfg.poly.length → exec (.crcDec bd xd bs) s = .next (raised s .outOfRange)) ∧
      (s.cfg.poly.length ≤ r.length →
        (crcRem s.cfg.poly r = zero →
          exec (.crcDec bd xd bs) s = .next { s with
            b := s.b.set bd (strip r), x := s.x.set xd 1, crc := { s.crc with ok := s.crc.ok + 1 } }) ∧
        (crcRem s.cfg.poly r ≠ zero → s.crcCorr = true →
          (∀ i, i < r.length → crcRem s.cfg.poly (flipAt r i) = zero →
            (∀ j, j < r.length → crcRem s.cfg.poly (flipAt r j) = zero → j = i) →
            exec (.crcDec bd xd bs) s = .next { s with
              b := s.b.set bd (strip (flipAt r i)), x := s.x.set xd 2,
              crc := { s.crc with fixed := s.crc.fixed + 1 } }) ∧
          ((¬ ∃ i, i < r.length ∧ crcRem s.cfg.poly (flipAt r i) = zero ∧
              ∀ j, j < r.length → crcRem s.cfg.poly (flipAt r j) = zero → j = i) →
            exec (.crcDec bd xd bs) s = .next { s with
              b := s.b.set bd (strip r), x := s.x.set xd 3, crc := { s.crc with bad := s.crc.bad + 1 } })) ∧
        (crcRem s.cfg.poly r ≠ zero → s.crcCorr = false →
          exec (.crcDec bd xd bs) s = .next { s with
            b := s.b.set bd (strip r), x := s.x.set xd 3, crc := { s.crc with bad := s.crc.bad + 1 } })))

/-- 48_crc.md R302, R310, for blocks: for every legal G and message M, CENC(M) = (M ++ 0^W) XOR REM(M ++ 0^W) =
M ++ REM(M ++ 0^W), REM(CENC(M)) = 0^W and CDEC(CENC(M), corr) = (M, OK); one flipped bit gives a nonzero
remainder and is never OK: Corrupted with corr = 0, and with corr = 1 Corrected with M restored when it is the only
flip that gives remainder zero. -/
def Obligations.CrcCodewordsLeaveNoRemainder : Prop :=
  ∀ g m : Bits, LegalPoly g →
    crcEncode g m = xorTail (m ++ List.replicate g.length false) (crcRem g (m ++ List.replicate g.length false)) ∧
    crcEncode g m = m ++ crcRem g (m ++ List.replicate g.length false) ∧
    (crcEncode g m).length = m.length + g.length ∧
    crcRem g (crcEncode g m) = List.replicate g.length false ∧
    (∀ corr, crcDecode g (crcEncode g m) corr = (m, .ok)) ∧
    ∀ i, i < m.length + g.length →
      crcRem g (flipAt (crcEncode g m) i) ≠ List.replicate g.length false ∧
      (crcDecode g (flipAt (crcEncode g m) i) false).2 = .bad ∧
      (crcDecode g (flipAt (crcEncode g m) i) true).2 ≠ .ok ∧
      ((∀ j, j < m.length + g.length → j ≠ i →
          crcRem g (flipAt (flipAt (crcEncode g m) i) j) ≠ List.replicate g.length false) →
        crcDecode g (flipAt (crcEncode g m) i) true = (m, .fixed))

/-- 48_crc.md R307, R308: when no poll sees 1 and no I/O action fails, CRC.FENC writes CENC of each message block
of IN in order, zero-padded to ceil(E/8) bytes with E = 8n + W·ceil(8n/N), reports Success, leaves PROGRESS at 100
(unchanged for an empty IN, which gives an empty OUT) and polls once for each block. -/
def Obligations.CrcFilesHaveTheFormat : Prop :=
  Row 0xFFFFFFFF 0x63 (word 0x63 0 0 0 0 false) .crcFenc ∧
  ∀ s : State, Ready s → Quiet s.env → 1 ≤ s.crcN → LegalPoly s.cfg.poly →
    (crcFile s.cfg.poly s.crcN s.input).flatten.length =
      8 * s.input.length + s.cfg.poly.length * ceilDiv (8 * s.input.length) s.crcN ∧
    ∃ n, exec .crcFenc s = .next { s with
      output := pack (crcFile s.cfg.poly s.crcN s.input).flatten,
      progress := if s.input.isEmpty then s.progress else 100,
      report := .success,
      env := afterDraws s.env (ceilDiv (8 * s.input.length) s.crcN) n }

/-- 48_crc.md R309, R310, for files, damaged or not, when no poll sees 1 and no I/O action fails. Of any file
CRC.FDEC decodes the blocks of the n message bytes that the file's length gives, writes their message bits, counts
each outcome, Corrected and Corrupted blocks too, and reports Success, one Fail counted when the length is not that
of a file of n bytes. Of the file CRC.FENC writes for M, with the same G and N, it writes M back with every block OK,
the other counters 0; with extra bytes that make no further byte of M it decodes M and counts one Fail. -/
def Obligations.CrcFilesDecode : Prop :=
  Row 0xFFFFFFFF 0x64 (word 0x64 0 0 0 0 false) .crcFdec ∧
  ∀ s : State, Ready s → Quiet s.env → 1 ≤ s.crcN → LegalPoly s.cfg.poly →
    (∀ n ds, OriginalBytes s.cfg.poly.length s.crcN s.input.length n →
      ds = crcRead s.cfg.poly s.crcN s.crcCorr n s.input →
      ∃ d, exec .crcFdec s = .next { s with
        output := pack (ds.flatMap Prod.fst),
        progress := if n = 0 then s.progress
          else 100 * encodedBits s.cfg.poly.length s.crcN n / (8 * s.input.length),
        report := .success,
        crc := tally (ds.map Prod.snd)
          (if (encodedBits s.cfg.poly.length s.crcN n + 7) / 8 = s.input.length then 0 else 1),
        env := afterDraws s.env (ceilDiv (8 * n) s.crcN) d }) ∧
    (∀ m : List Byte, s.input = pack (crcFile s.cfg.poly s.crcN m).flatten →
      ∃ n, exec .crcFdec s = .next { s with
        output := m,
        progress := if m.isEmpty then s.progress
          else 100 * (crcFile s.cfg.poly s.crcN m).flatten.length / (8 * s.input.length),
        report := .success,
        crc := ⟨0, BitVec.ofNat 64 (ceilDiv (8 * m.length) s.crcN), 0, 0⟩,
        env := afterDraws s.env (ceilDiv (8 * m.length) s.crcN) n }) ∧
    (∀ m extra : List Byte, s.input = pack (crcFile s.cfg.poly s.crcN m).flatten ++ extra → extra ≠ [] →
      s.input.length < (8 * (m.length + 1) +
        s.cfg.poly.length * ceilDiv (8 * (m.length + 1)) s.crcN + 7) / 8 →
      ∃ p n, exec .crcFdec s = .next { s with
        output := m, progress := p, report := .success,
        crc := ⟨1, BitVec.ofNat 64 (ceilDiv (8 * m.length) s.crcN), 0, 0⟩,
        env := afterDraws s.env (ceilDiv (8 * m.length) s.crcN) n })

/-! ## Invariants -/

/-- The state the machine starts in has the invariant. -/
def Obligations.ResetMeetsTheInvariant : Prop := State.reset.Inv ∧ ∀ s : State, s.input.length < 2 ^ 64 → s.afterReset.Inv

/-- 44_code_tree.md R210, 10_state.md R43, R44: every step keeps the tree well formed (the root holds no symbol,
every leaf holds one, at most 511 nodes), the cursor on a node of it, and the codes of the table nonempty. -/
def Obligations.StepKeepsTheTreeInvariant : Prop :=
  ∀ s t : State, s.TreeInv → s.CodesInv → step s = .next t → t.TreeInv ∧ t.CodesInv

/-- 10_state.md R40, R41, 42_bit_streams.md R173, R176: every step keeps an open reader within IN, nothing pending
in a closed writer, and at most FLUSH_T whole bytes pending. -/
def Obligations.StepKeepsTheStreamInvariant : Prop :=
  ∀ s t : State, s.StreamInv → step s = .next t → t.StreamInv

/-- 10_state.md R26, R29, R42, 43_histogram.md R190: every step keeps IN shorter than 2^64 bytes, every count below
2^64, HAM_B unconfigured or a legal block size and PROGRESS at most 100. -/
def Obligations.StepKeepsTheValueRanges : Prop :=
  ∀ s t : State, s.RangeInv → step s = .next t → t.RangeInv

end Statements
end

