-- ==== Sys2Proof/Laws/Bits.lean ====
section
/-! SUPPORT. Bit sequences as numbers, packing into bytes, and the bits of byte sequences. -/

namespace Sys2Proof.Machine

/-! ## Numbers -/

theorem natOfBits_nil : natOfBits [] = 0 := rfl

theorem natOfBits_foldl (s : Bits) (a : Nat) :
    s.foldl (fun acc v => 2 * acc + v.toNat) a = a * 2 ^ s.length + natOfBits s := by
  induction s generalizing a with
  | nil => simp [natOfBits]
  | cons v s ih =>
    simp only [natOfBits, List.foldl_cons, List.length_cons]
    rw [ih, ih (2 * 0 + v.toNat)]
    ring

theorem natOfBits_cons (v : Bool) (s : Bits) : natOfBits (v :: s) = v.toNat * 2 ^ s.length + natOfBits s := by
  rw [natOfBits, List.foldl_cons, natOfBits_foldl]; simp

theorem natOfBits_append (s t : Bits) : natOfBits (s ++ t) = natOfBits s * 2 ^ t.length + natOfBits t := by
  rw [natOfBits, List.foldl_append, natOfBits_foldl]; rfl

theorem natOfBits_lt (s : Bits) : natOfBits s < 2 ^ s.length := by
  induction s with
  | nil => simp [natOfBits]
  | cons v s ih =>
    rw [natOfBits_cons, List.length_cons, pow_succ]
    cases v <;> simp <;> omega

theorem natOfBits_zeros (n : Nat) : natOfBits (bitRun n false) = 0 := by
  induction n with
  | zero => rfl
  | succ n ih => rw [bitRun, List.replicate_succ, natOfBits_cons]; simpa using ih

@[simp] theorem length_bitsOf (w v : Nat) : (bitsOf w v).length = w := by
  induction w with
  | zero => rfl
  | succ w ih => simp [bitsOf, ih]

/-- The w low bits of a number. -/
theorem natOfBits_bitsOf (w v : Nat) : natOfBits (bitsOf w v) = v % 2 ^ w := by
  induction w with
  | zero => simp [bitsOf, natOfBits, Nat.mod_one]
  | succ w ih =>
    rw [bitsOf, natOfBits_cons, ih, length_bitsOf, Nat.toNat_testBit, Nat.mod_pow_succ]
    ring

theorem bitsOf_natOfBits (s : Bits) : bitsOf s.length (natOfBits s) = s := by
  induction s with
  | nil => rfl
  | cons v s ih =>
    have hlt := natOfBits_lt s
    have hmod : ∀ n, n ≤ s.length → bitsOf n (v.toNat * 2 ^ s.length + natOfBits s) = bitsOf n (natOfBits s) := by
      intro n
      induction n with
      | zero => intros; rfl
      | succ n ihn =>
        intro hn
        rw [bitsOf, bitsOf, ihn (by omega), mul_comm, Nat.testBit_two_pow_mul_add _ hlt, if_pos (by omega)]
    rw [List.length_cons, bitsOf, natOfBits_cons, hmod _ le_rfl, ih, mul_comm, Nat.testBit_two_pow_mul_add _ hlt]
    cases v <;> simp

/-! ## Tail-aligned exclusive or -/

@[simp] theorem length_xorTail (s t : Bits) : (xorTail s t).length = max s.length t.length := by
  simp [xorTail]

/-! ## Packing -/

@[simp] theorem length_packCount (n : Nat) (s : Bits) : (packCount n s).length = n := by
  induction n generalizing s with
  | zero => rfl
  | succ n ih => simp [packCount, ih]

@[simp] theorem length_pack (s : Bits) : (pack s).length = (s.length + 7) / 8 := by
  simp [pack, ceilDiv]

theorem pack_nil : pack [] = [] := rfl

theorem packCount_append (n m : Nat) (s t : Bits) (h : s.length = 8 * n) :
    packCount (n + m) (s ++ t) = packCount n s ++ packCount m t := by
  induction n generalizing s with
  | zero => simp at h; simp [h, packCount]
  | succ n ih =>
    rw [show n + 1 + m = (n + m) + 1 by omega, packCount, packCount]
    rw [List.take_append_of_le_length (by omega), List.drop_append_of_le_length (by omega), ih _ (by simp; omega)]
    rfl

/-- Whole bytes pack by themselves (20_memory.md R62). -/
theorem pack_append (s t : Bits) (h : s.length % 8 = 0) : pack (s ++ t) = pack s ++ pack t := by
  have h8 : s.length = 8 * (s.length / 8) := by omega
  have e1 : ceilDiv (s ++ t).length 8 = s.length / 8 + ceilDiv t.length 8 := by
    simp only [ceilDiv, List.length_append]; omega
  have e2 : ceilDiv s.length 8 = s.length / 8 := by simp only [ceilDiv]; omega
  rw [pack, pack, pack, e1, e2, packCount_append _ _ _ _ h8]

/-! ## The bits of byte sequences -/

@[simp] theorem length_byteBits (v : Byte) : (byteBits v).length = 8 := length_bitsOf 8 _

@[simp] theorem streamBits_nil : streamBits [] = [] := rfl

theorem streamBits_cons (v : Byte) (m : List Byte) : streamBits (v :: m) = byteBits v ++ streamBits m := rfl

theorem streamBits_append (m n : List Byte) : streamBits (m ++ n) = streamBits m ++ streamBits n := by
  simp [streamBits]

@[simp] theorem length_streamBits (m : List Byte) : (streamBits m).length = 8 * m.length := by
  induction m with
  | nil => rfl
  | cons v m ih => rw [streamBits_cons]; simp [ih]; omega

/-- A byte is the number of its bits, most significant first (20_memory.md R63). -/
theorem natOfBits_byteBits (v : Byte) : natOfBits (byteBits v) = v.toNat := by
  rw [byteBits, natOfBits_bitsOf, Nat.mod_eq_of_lt v.isLt]

theorem byteOfBits_byteBits (v : Byte) : byteOfBits (byteBits v) = v := by
  simp [byteOfBits, natOfBits_byteBits]

/-- The bits of a byte packed from at most 8 bits: the bits, then zeros (10_state.md R22). -/
theorem byteBits_byteOfBits (s : Bits) (h : s.length ≤ 8) :
    byteBits (byteOfBits s) = s ++ bitRun (8 - s.length) false := by
  have hl : (s ++ bitRun (8 - s.length) false).length = 8 := by simp; omega
  have hlt := natOfBits_lt (s ++ bitRun (8 - s.length) false)
  rw [hl] at hlt
  rw [byteBits, byteOfBits, BitVec.toNat_ofNat, Nat.mod_eq_of_lt hlt]
  have := bitsOf_natOfBits (s ++ bitRun (8 - s.length) false)
  rwa [hl] at this

/-- Packing the bits of bytes gives the bytes. -/
theorem pack_streamBits (m : List Byte) : pack (streamBits m) = m := by
  induction m with
  | nil => rfl
  | cons v m ih =>
    rw [streamBits_cons, pack_append _ _ (by simp), ih]
    have : pack (byteBits v) = [v] := by
      simp only [pack, length_byteBits, ceilDiv]
      simp [packCount, List.take_of_length_le, byteOfBits_byteBits]
    rw [this]; rfl

/-- The bits of packed bytes when the sequence fills them. -/
theorem streamBits_pack (s : Bits) (h : s.length % 8 = 0) : streamBits (pack s) = s := by
  obtain ⟨n, hn⟩ : ∃ n, s.length = 8 * n := ⟨s.length / 8, by omega⟩
  induction n generalizing s with
  | zero => simp at hn; simp [hn, pack_nil]
  | succ n ih =>
    conv_lhs => rw [← List.take_append_drop 8 s]
    have ht : (s.take 8).length = 8 := by simp; omega
    rw [pack_append _ _ (by omega), streamBits_append, ih (s.drop 8) (by simp; omega) (by simp; omega)]
    have : pack (s.take 8) = [byteOfBits (s.take 8)] := by
      simp only [pack, ht, ceilDiv]; simp [packCount, List.take_take]
    rw [this, streamBits_cons, byteBits_byteOfBits _ (by omega), ht]
    simp

/-- MemRead below the end has the length asked for (20_memory.md R61). -/
theorem length_memRead (m : List Byte) (a n : Nat) (h : a + n ≤ 8 * m.length) : (memRead m a n).length = n := by
  simp [memRead]; omega

end Sys2Proof.Machine
end

