-- ==== Sys2Proof/Laws/CodeTree.lean ====
section
/-! SUPPORT. Code trees: paths, leaves, counts, and what building a tree from a table can answer. -/

namespace Sys2Proof.Machine

/-! ## Paths (44_code_tree.md R211) -/

@[simp] theorem Tree.at_nil (t : Tree) : t.at [] = t := rfl

theorem Tree.at_append (t : Tree) (p q : Bits) : t.at (p ++ q) = (t.at p).at q := by
  simp [Tree.at, List.foldl_append]

theorem Tree.at_snoc (t : Tree) (p : Bits) (v : Bool) : t.at (p ++ [v]) = (t.at p).child v := by
  rw [Tree.at_append]; rfl

@[simp] theorem Tree.at_node_cons (l r : Tree) (v : Bool) (p : Bits) :
    (Tree.node l r).at (v :: p) = (if v then r else l).at p := rfl

@[simp] theorem Tree.at_absent (p : Bits) : Tree.absent.at p = .absent := by
  induction p with
  | nil => rfl
  | cons v p ih => exact ih

@[simp] theorem Tree.at_leaf_cons (s : Byte) (v : Bool) (p : Bits) : (Tree.leaf s).at (v :: p) = .absent :=
  Tree.at_absent p

/-- The leaves with their paths are the nodes that are leaves. -/
theorem Tree.mem_leafPaths (t : Tree) (p : Bits) (s : Byte) : (p, s) ∈ t.leafPaths ↔ t.at p = .leaf s := by
  induction t generalizing p with
  | absent => simp [Tree.leafPaths]
  | leaf u =>
    cases p with
    | nil => simp [Tree.leafPaths, eq_comm]
    | cons v p => simp [Tree.leafPaths]
  | node l r ihl ihr =>
    cases p with
    | nil => simp [Tree.leafPaths]
    | cons v p => cases v <;> simp [Tree.leafPaths, ihl, ihr]

theorem Tree.leafPaths_symbols (t : Tree) : t.leafPaths.map Prod.snd = t.leaves := by
  induction t with
  | absent => rfl
  | leaf s => rfl
  | node l r ihl ihr => simp [Tree.leafPaths, Tree.leaves, ← ihl, ← ihr, Function.comp_def]

/-! ## Counts -/

theorem Tree.nodeCount_pos {t : Tree} (h : t.isAbsent = false) : 0 < t.nodeCount := by
  cases t <;> simp_all [Tree.isAbsent, Tree.nodeCount]

/-- Below the root, a full tree with m leaves has 2m − 1 nodes. -/
theorem Tree.nodeCount_fullBelow {t : Tree} (h : t.fullBelow = true) : t.nodeCount + 1 = 2 * t.leaves.length := by
  induction t with
  | absent => simp [Tree.fullBelow] at h
  | leaf s => rfl
  | node l r ihl ihr =>
    simp only [Tree.fullBelow, Bool.and_eq_true] at h
    have := ihl h.1; have := ihr h.2
    simp only [Tree.nodeCount, Tree.leaves, List.length_append]; omega

theorem Tree.isAbsent_of_fullBelow {t : Tree} (h : t.fullBelow = true) : t.isAbsent = false := by
  cases t <;> simp_all [Tree.fullBelow, Tree.isAbsent]

/-- Below the root, a full tree with m leaves has 4(m − 1) shape bits (44_code_tree.md R214). -/
theorem Tree.length_shapeBits_fullBelow {t : Tree} (h : t.fullBelow = true) :
    t.shapeBits.length + 4 = 4 * t.leaves.length := by
  induction t with
  | absent => simp [Tree.fullBelow] at h
  | leaf s => rfl
  | node l r ihl ihr =>
    simp only [Tree.fullBelow, Bool.and_eq_true] at h
    have := ihl h.1; have := ihr h.2
    simp only [Tree.shapeBits, Tree.isAbsent_of_fullBelow h.1, Tree.isAbsent_of_fullBelow h.2, Bool.false_eq_true,
      if_false, Tree.leaves, List.length_append, List.length_cons, List.length_nil]
    omega

theorem Tree.fullBelow_of_full {t : Tree} (h : t.full = true) : t.fullBelow = true := by
  cases t <;> simp_all [Tree.full, Tree.fullBelow]

/-! ## Building from a table (44_code_tree.md R212) -/

/-- Everything build-from-map can answer. -/
theorem treeOfCodes_cases (codes : Vector (Option Bits) 256) :
    (treeOfCodes codes = .error .emptyInput ∧ codeEntries codes = []) ∨
    (treeOfCodes codes = .error .conflictingCode ∧ Tree.rootOnly.insertAll (codeEntries codes) = none) ∨
    (∃ t, Tree.rootOnly.insertAll (codeEntries codes) = some t ∧
      treeOfCodes codes = .error .malformedTree ∧ maxNodes < (degenerateFix (codeEntries codes) t).nodeCount) ∨
    (∃ t, Tree.rootOnly.insertAll (codeEntries codes) = some t ∧
      treeOfCodes codes = .ok (degenerateFix (codeEntries codes) t) ∧
      (degenerateFix (codeEntries codes) t).nodeCount ≤ maxNodes) := by
  unfold treeOfCodes
  cases he : codeEntries codes with
  | nil => exact .inl ⟨rfl, rfl⟩
  | cons e es =>
    simp only [List.isEmpty_cons, Bool.false_eq_true, if_false]
    cases hi : Tree.rootOnly.insertAll (e :: es) with
    | none => exact .inr (.inl ⟨rfl, rfl⟩)
    | some t =>
      by_cases hn : (degenerateFix (e :: es) t).nodeCount > maxNodes
      · exact .inr (.inr (.inl ⟨t, rfl, by simp [hn], hn⟩))
      · exact .inr (.inr (.inr ⟨t, rfl, by simp [hn], by omega⟩))

/-- Inserting at a root leaves a root. -/
theorem Tree.insert_node {s : Byte} {c : Bits} {l r t : Tree} (h : (Tree.node l r).insert s c = some t) :
    ∃ l' r', t = .node l' r' := by
  cases c with
  | nil => simp [Tree.insert] at h
  | cons v c =>
    cases v <;> simp only [Tree.insert, Bool.false_eq_true, if_false, if_true, Option.map_eq_some_iff] at h <;>
      obtain ⟨u, _, rfl⟩ := h <;> exact ⟨_, _, rfl⟩

/-! ## Deserialization (44_code_tree.md R215) -/

/-- Everything CT.DESER over bits can answer. -/
theorem deserialize_cases (bits : Bits) :
    (∃ c, parseShape bits 1 ⟨.absent, .absent⟩ [] = .error c ∧ deserialize bits = .error c) ∨
    (∃ root rest, parseShape bits 1 ⟨.absent, .absent⟩ [] = .ok (root, rest) ∧
      (((root.left.fullBelow && root.right.fullBelow) = false ∧ deserialize bits = .error .malformedTree) ∨
      ((root.left.fullBelow && root.right.fullBelow) = true ∧
        (Shape.node root.left root.right).label rest = none ∧ deserialize bits = .error .endOfStream) ∨
      ((root.left.fullBelow && root.right.fullBelow) = true ∧
        ∃ t rest', (Shape.node root.left root.right).label rest = some (t, rest') ∧
          deserialize bits = .ok (t, bits.length - rest'.length)))) := by
  unfold deserialize
  cases hp : parseShape bits 1 ⟨.absent, .absent⟩ [] with
  | error c => exact .inl ⟨c, rfl, rfl⟩
  | ok p =>
    obtain ⟨root, rest⟩ := p
    refine .inr ⟨root, rest, rfl, ?_⟩
    cases hf : (root.left.fullBelow && root.right.fullBelow) with
    | false => exact .inl ⟨rfl, by simp [hf]⟩
    | true =>
      cases hl : (Shape.node root.left root.right).label rest with
      | none => exact .inr (.inl ⟨rfl, rfl, by simp [hf, hl]⟩)
      | some q =>
        obtain ⟨t, rest'⟩ := q
        exact .inr (.inr ⟨rfl, t, rest', rfl, by simp [hf, hl]⟩)

/-! ## Ordered histogram (43_histogram.md R196) -/

/-- The ordered histogram is a rearrangement of the symbols that occur. -/
theorem orderedHist_perm (h : Hist) : (orderedHist h).Perm (presentSymbols h) :=
  List.perm_insertionSort _ _

end Sys2Proof.Machine
end

