-- ==== Sys2Proof/Laws/Crc.lean ====
section
/-! SUPPORT. The CRC block functions: lengths, and the recovered length of a file. -/

namespace Sys2Proof.Machine

@[simp] theorem length_lastBits (w : Nat) (r : Bits) : (lastBits w r).length = w := by
  simp only [lastBits]
  split <;> simp <;> omega

/-- A remainder has W bits (48_crc.md R301). -/
@[simp] theorem length_crcRem (g d : Bits) : (crcRem g d).length = g.length := by simp [crcRem]

/-- A codeword has len(M) + W bits (48_crc.md R302). -/
@[simp] theorem length_crcEncode (g m : Bits) : (crcEncode g m).length = m.length + g.length := by simp [crcEncode]

/-- What the search for the original length answers (48_crc.md R309): the largest number up to n that qualifies. -/
theorem largestUpTo_spec (p : Nat → Bool) (n : Nat) :
    largestUpTo p n ≤ n ∧ (largestUpTo p n ≠ 0 → p (largestUpTo p n) = true) ∧
      ∀ m, largestUpTo p n < m → m ≤ n → p m = false := by
  induction n with
  | zero => simp [largestUpTo]; omega
  | succ n ih =>
    simp only [largestUpTo]
    cases hp : p (n + 1) with
    | true => simp [hp]; omega
    | false =>
      simp only [Bool.false_eq_true, if_false]
      refine ⟨by omega, ih.2.1, fun m h1 h2 => ?_⟩
      by_cases hm : m = n + 1
      · rw [hm]; exact hp
      · exact ih.2.2 m h1 (by omega)

/-- The block sizes cut all the bits (48_crc.md R307). -/
theorem sum_crcBlockSizes (n total : Nat) : (crcBlockSizes n total).sum = total := by
  simp only [crcBlockSizes, List.sum_append, List.sum_replicate, smul_eq_mul]
  have := Nat.div_add_mod total n
  split
  · simp; rw [Nat.mul_comm]; omega
  · simp; rw [Nat.mul_comm]; omega

end Sys2Proof.Machine
end

