-- ==== Sys2Proof/Laws/Decode.lean ====
section
/-! SUPPORT. What each field reads from a word of each format, and which words a reserved-bit test passes. -/

namespace Sys2Proof

theorem toNat_formatR (op : BitVec 8) (a b c d : Fin 16) (e : Bool) :
    (formatR op a b c d e).toNat =
      op.toNat * 2 ^ 24 + a.val * 2 ^ 20 + b.val * 2 ^ 16 + c.val * 2 ^ 12 + d.val * 2 ^ 8 + e.toNat * 2 ^ 7 := by
  have := op.isLt
  have := e.toNat_le
  simp only [formatR, BitVec.toNat_ofNat]
  omega

theorem toNat_formatI (op : BitVec 8) (a : Fin 16) (imm : BitVec 20) :
    (formatI op a imm).toNat = op.toNat * 2 ^ 24 + a.val * 2 ^ 20 + imm.toNat := by
  have := op.isLt
  have := imm.isLt
  simp only [formatI, BitVec.toNat_ofNat]
  omega

theorem toNat_formatS (op : BitVec 8) (a : Fin 16) (csr : BitVec 8) :
    (formatS op a csr).toNat = op.toNat * 2 ^ 24 + a.val * 2 ^ 20 + csr.toNat := by
  have := op.isLt
  have := csr.isLt
  simp only [formatS, BitVec.toNat_ofNat]
  omega

theorem toNat_formatN (op : BitVec 8) : (formatN op).toNat = op.toNat * 2 ^ 24 := by
  have := op.isLt
  simp only [formatN, BitVec.toNat_ofNat]
  omega

theorem fieldOp_eq {w : Word} {op : BitVec 8} (h : w.toNat / 2 ^ 24 = op.toNat) : fieldOp w = op := by
  rw [fieldOp, h, BitVec.ofNat_toNat, BitVec.setWidth_eq]

theorem fieldA_eq {w : Word} {a : Fin 16} (h : w.toNat / 2 ^ 20 % 16 = a.val) : fieldA w = a :=
  Fin.ext (by simpa [fieldA, Fin.ofNat] using h)

theorem fieldB_eq {w : Word} {b : Fin 16} (h : w.toNat / 2 ^ 16 % 16 = b.val) : fieldB w = b :=
  Fin.ext (by simpa [fieldB, Fin.ofNat] using h)

theorem fieldC_eq {w : Word} {c : Fin 16} (h : w.toNat / 2 ^ 12 % 16 = c.val) : fieldC w = c :=
  Fin.ext (by simpa [fieldC, Fin.ofNat] using h)

theorem fieldD_eq {w : Word} {d : Fin 16} (h : w.toNat / 2 ^ 8 % 16 = d.val) : fieldD w = d :=
  Fin.ext (by simpa [fieldD, Fin.ofNat] using h)

/-! ## Format R -/

section
variable (op : BitVec 8) (a b c d : Fin 16) (e : Bool)

@[simp] theorem fieldOp_formatR : fieldOp (formatR op a b c d e) = op :=
  fieldOp_eq (by have := e.toNat_le; rw [toNat_formatR]; omega)
@[simp] theorem fieldA_formatR : fieldA (formatR op a b c d e) = a :=
  fieldA_eq (by have := e.toNat_le; rw [toNat_formatR]; omega)
@[simp] theorem fieldB_formatR : fieldB (formatR op a b c d e) = b :=
  fieldB_eq (by have := e.toNat_le; rw [toNat_formatR]; omega)
@[simp] theorem fieldC_formatR : fieldC (formatR op a b c d e) = c :=
  fieldC_eq (by have := e.toNat_le; rw [toNat_formatR]; omega)
@[simp] theorem fieldD_formatR : fieldD (formatR op a b c d e) = d :=
  fieldD_eq (by have := e.toNat_le; rw [toNat_formatR]; omega)
@[simp] theorem fieldE_formatR : fieldE (formatR op a b c d e) = e := by
  simp only [fieldE, toNat_formatR]
  cases e <;> simp <;> omega

end

/-! ## Formats I, S, N -/

@[simp] theorem fieldOp_formatI (op : BitVec 8) (a : Fin 16) (imm : BitVec 20) :
    fieldOp (formatI op a imm) = op :=
  fieldOp_eq (by have := imm.isLt; rw [toNat_formatI]; omega)
@[simp] theorem fieldA_formatI (op : BitVec 8) (a : Fin 16) (imm : BitVec 20) : fieldA (formatI op a imm) = a :=
  fieldA_eq (by have := imm.isLt; rw [toNat_formatI]; omega)
@[simp] theorem fieldImm_formatI (op : BitVec 8) (a : Fin 16) (imm : BitVec 20) :
    fieldImm (formatI op a imm) = imm := by
  have := imm.isLt
  apply BitVec.eq_of_toNat_eq
  rw [fieldImm, toNat_formatI, BitVec.toNat_ofNat]
  omega

@[simp] theorem fieldOp_formatS (op : BitVec 8) (a : Fin 16) (csr : BitVec 8) : fieldOp (formatS op a csr) = op :=
  fieldOp_eq (by have := csr.isLt; rw [toNat_formatS]; omega)
@[simp] theorem fieldA_formatS (op : BitVec 8) (a : Fin 16) (csr : BitVec 8) : fieldA (formatS op a csr) = a :=
  fieldA_eq (by have := csr.isLt; rw [toNat_formatS]; omega)
@[simp] theorem fieldCsr_formatS (op : BitVec 8) (a : Fin 16) (csr : BitVec 8) :
    fieldCsr (formatS op a csr) = csr := by
  have := csr.isLt
  apply BitVec.eq_of_toNat_eq
  rw [fieldCsr, toNat_formatS, BitVec.toNat_ofNat]
  omega

@[simp] theorem fieldOp_formatN (op : BitVec 8) : fieldOp (formatN op) = op :=
  fieldOp_eq (by rw [toNat_formatN]; omega)

/-! ## Reserved bits -/

/-- A passed test: the reserved bits are 0. -/
theorem ifZero_of_zero {w : Word} {lo n : Nat} {i : Except DecodeError Instr}
    (h : w.toNat / 2 ^ lo % 2 ^ n = 0) : ifZero w lo n i = i := by
  simp [ifZero, h]

/-- The test answers a command only when the reserved bits are 0 and what follows answers it. -/
theorem ifZero_eq_ok {w : Word} {lo n : Nat} {r : Except DecodeError Instr} {i : Instr} :
    ifZero w lo n r = .ok i ↔ w.toNat / 2 ^ lo % 2 ^ n = 0 ∧ r = .ok i := by
  unfold ifZero; split <;> simp_all

end Sys2Proof
end

