-- ==== Sys2Proof/Laws/Ops.lean ====
section
/-! SUPPORT. One lemma per shared operation: fault entry, the halted block, draws, the writer, CSR writes, and the
canonical form of the memories. -/

namespace Sys2Proof.Machine

/-! ## Fault entry and the halted block -/

theorem halted_eq_false {s : State} (h : s.fault = none) : s.halted = false := by simp [State.halted, h]

theorem halted_eq_true {s : State} (h : s.fault ≠ none) : s.halted = true := by
  simpa [State.halted, Option.isSome_iff_ne_none] using h

/-- A command of a block that is not halted runs its body. -/
theorem unlessHalted_running {s : State} (h : s.fault = none) (body : Result) : s.unlessHalted body = body := by
  simp [State.unlessHalted, halted_eq_false h]

/-- A halted block ignores the command (60_exceptions.md R323). -/
theorem unlessHalted_halted {s : State} (h : s.fault ≠ none) (body : Result) : s.unlessHalted body = .next s := by
  simp [State.unlessHalted, halted_eq_true h]

/-- Fault entry writes the fault and nothing else (60_exceptions.md R322). -/
theorem raise_running {s : State} (h : s.fault = none) (c : Cause) : s.raise c = { s with fault := some c } := by
  simp [State.raise, halted_eq_false h]

/-- The first fault stays (10_state.md R45). -/
theorem raise_halted {s : State} (h : s.fault ≠ none) (c : Cause) : s.raise c = s := by
  simp [State.raise, halted_eq_true h]

theorem fatal_running {s : State} (h : s.fault = none) (c : Cause) :
    fatal c s = .next { s with fault := some c } := by rw [fatal, raise_running h]

/-! ## Draws -/

theorem Env.io_eq (e : Env) : e.io = (e.ioFails.headD false, { e with ioFails := e.ioFails.tail }) := by
  cases e with | mk c p f => cases f <;> rfl

theorem Env.poll_eq (e : Env) : e.poll = (e.polls.headD e.cancel, { e with polls := e.polls.tail }) := by
  cases e with | mk c p f => cases p <;> rfl

/-- An I/O action that does not fail. -/
theorem withIo_ok {s : State} (h : s.env.ioFails.headD false = false) (body : State → Result) :
    s.withIo body = body { s with env := { s.env with ioFails := s.env.ioFails.tail } } := by
  simp only [State.withIo, Env.io_eq, h, Bool.false_eq_true, if_false]

/-- An I/O action that fails: IOError (60_exceptions.md R330). -/
theorem withIo_fail {s : State} (hf : s.fault = none) (h : s.env.ioFails.headD false = true) (body : State → Result) :
    s.withIo body =
      .next { s with fault := some .ioError, env := { s.env with ioFails := s.env.ioFails.tail } } := by
  simp only [State.withIo, Env.io_eq, h, if_true]
  rw [fatal_running]
  exact hf

/-! ## The writer -/

/-- A write that flushes nothing (42_bit_streams.md R173). -/
theorem writeBits_kept {s : State} {v : Bits} (h : (s.writer.pend ++ v).length / 8 ≤ s.cfg.flushT) :
    s.writeBits v = .next { s with writer := { s.writer with pend := s.writer.pend ++ v } } := by
  simp only [State.writeBits, flushOf, gt_iff_lt, Nat.not_lt.mpr h, if_false]

/-- A write that flushes (42_bit_streams.md R173). -/
theorem writeBits_flushed {s : State} {v : Bits} (h : s.cfg.flushT < (s.writer.pend ++ v).length / 8) :
    s.writeBits v = s.withIo fun s' => .next { s' with
      output := s'.output ++ pack ((s.writer.pend ++ v).take (8 * ((s.writer.pend ++ v).length / 8))),
      writer := { s'.writer with pend := (s.writer.pend ++ v).drop (8 * ((s.writer.pend ++ v).length / 8)) } } := by
  simp only [State.writeBits, flushOf, gt_iff_lt, h, if_true]

/-- What stays pending after the flush rule is at most FLUSH_T whole bytes. -/
theorem flushOf_rest {flushT : Nat} {pend rest : Bits} {bytes : List Byte}
    (h : flushOf flushT pend = some (bytes, rest)) :
    flushT < pend.length / 8 ∧ bytes = pack (pend.take (8 * (pend.length / 8))) ∧
      rest = pend.drop (8 * (pend.length / 8)) ∧ rest.length < 8 := by
  simp only [flushOf] at h
  split at h
  · rename_i hq
    simp only [Option.some.injEq, Prod.mk.injEq] at h
    obtain ⟨rfl, rfl⟩ := h
    refine ⟨hq, rfl, rfl, ?_⟩
    rw [List.length_drop]; omega
  · simp at h

theorem flushOf_none {flushT : Nat} {pend : Bits} (h : flushOf flushT pend = none) : pend.length / 8 ≤ flushT := by
  simp only [flushOf] at h
  split at h
  · simp at h
  · omega

/-! ## File-level guards -/

theorem unlessUnitOpen_closed {s : State} (hr : s.reader.isOpen = false) (hw : s.writer.isOpen = false)
    (body : Result) : s.unlessUnitOpen body = body := by simp [State.unlessUnitOpen, hr, hw]

theorem unlessUnitOpen_open {s : State} (h : s.reader.isOpen = true ∨ s.writer.isOpen = true) (body : Result) :
    s.unlessUnitOpen body = .next (s.reportAs .failure) := by
  rcases h with h | h <;> simp [State.unlessUnitOpen, h]

/-! ## Memories -/

/-- The cells of a byte sequence are in canonical form, whatever was written to it (log entry 7): every memory
operation of the model (truncation, append, a new IN or OUT) yields a byte sequence. -/
theorem Memory.cells_wf (m : List Byte) : Memory.wf (Memory.cells m) = true := by
  simp only [Memory.wf, Memory.cells, beq_iff_eq, List.map_map, List.length_map, List.length_zipIdx]
  rw [show (Prod.fst ∘ fun p : Byte × Nat => (p.2, p.1)) = Prod.snd from rfl]
  rw [List.zipIdx_map_snd, List.range_eq_range']

/-- Appending keeps the bytes there were. -/
theorem Memory.byteAt_append (m bytes : List Byte) {a : Nat} (h : a < m.length) :
    Memory.byteAt (m ++ bytes) a = Memory.byteAt m a := by
  simp [Memory.byteAt, List.getElem?_append_left h]

/-- Appended bytes stand from the old length on. -/
theorem Memory.byteAt_appended (m bytes : List Byte) (j : Nat) :
    Memory.byteAt (m ++ bytes) (m.length + j) = bytes[j]? := by
  simp [Memory.byteAt, List.getElem?_append_right (Nat.le_add_right _ _)]

end Sys2Proof.Machine
end

