-- ==== Sys2Proof/Laws/FileLevel.lean ====
section
/-! SUPPORT. The actions of file-level bodies, one lemma per action and outcome. -/

namespace Sys2Proof.Machine

namespace FileM

/-! ## Sequencing -/

theorem bind_ok {α β : Type} {x : FileM α} {f : α → FileM β} {j j' : Job} {a : α} (h : x j = .ok a j') :
    (x >>= f) j = f a j' := by
  show EStateM.bind x f j = _
  simp [EStateM.bind, h]

theorem bind_error {α β : Type} {x : FileM α} {f : α → FileM β} {j j' : Job} {r : Report}
    (h : x j = .error r j') : (x >>= f) j = .error r j' := by
  show EStateM.bind x f j = _
  simp [EStateM.bind, h]

theorem pure_run {α : Type} (a : α) (j : Job) : (pure a : FileM α) j = .ok a j := rfl

theorem stop_run {α : Type} (r : Report) (j : Job) : (stop r : FileM α) j = .error r j := rfl

theorem setProgress_run (p : Nat) (j : Job) : setProgress p j = .ok () { j with progress := p } := rfl

theorem count_run (f : OutcomeCounts → OutcomeCounts) (j : Job) :
    count f j = .ok () { j with counts := f j.counts } := rfl

/-! ## Polls and I/O actions (60_exceptions.md R328, R330) -/

theorem poll_low {j : Job} (h : j.env.polls.headD j.env.cancel = false) :
    poll j = .ok () { j with env := { j.env with polls := j.env.polls.tail } } := by
  simp only [poll, Env.poll_eq, h, Bool.false_eq_true, if_false]

theorem poll_high {j : Job} (h : j.env.polls.headD j.env.cancel = true) :
    poll j = .error .cancelled { j with env := { j.env with polls := j.env.polls.tail } } := by
  simp only [poll, Env.poll_eq, h, if_true]

theorem io_ok {j : Job} (h : j.env.ioFails.headD false = false) :
    io j = .ok () { j with env := { j.env with ioFails := j.env.ioFails.tail } } := by
  simp only [io, Env.io_eq, h, Bool.false_eq_true, if_false]

theorem io_fail {j : Job} (h : j.env.ioFails.headD false = true) :
    io j = .error .failure { j with env := { j.env with ioFails := j.env.ioFails.tail } } := by
  simp only [io, Env.io_eq, h, if_true]

/-! ## Writes -/

/-- Everything a write does when no I/O action fails: the bits written so far, those in OUT and those pending,
grow by the new ones, at most one draw is taken, and nothing else changes (42_bit_streams.md R173, R177). -/
theorem write_ok (cfg : Config) (v : Bits) (j : Job) (h : ∀ f ∈ j.env.ioFails, f = false) :
    ∃ out pend n, write cfg v j =
        .ok () { j with out := out, pend := pend, env := { j.env with ioFails := j.env.ioFails.drop n } } ∧
      streamBits out ++ pend = streamBits j.out ++ j.pend ++ v := by
  have hd : j.env.ioFails.headD false = false := by
    cases hj : j.env.ioFails with
    | nil => rfl
    | cons f fs => exact h f (by simp [hj])
  have hw : write cfg v j = flush cfg { j with pend := j.pend ++ v } := rfl
  rw [hw]
  simp only [flush]
  cases hf : flushOf cfg.flushT (j.pend ++ v) with
  | none => exact ⟨j.out, j.pend ++ v, 0, by simp, by simp⟩
  | some p =>
    obtain ⟨bytes, rest⟩ := p
    obtain ⟨_, hb, hr, _⟩ := flushOf_rest hf
    refine ⟨j.out ++ bytes, rest, 1, ?_, ?_⟩
    · simp only [Env.io_eq, hd, Bool.false_eq_true, if_false, List.drop_one]
    · rw [streamBits_append, hb, hr, streamBits_pack _ (by simp; omega)]
      simp only [List.append_assoc, List.take_append_drop]

end FileM

/-! ## Closing and the wrapper (60_exceptions.md R326) -/

/-- Closing the private writer writes the packed form of all its bits. -/
theorem pack_written {out : List Byte} {pend w : Bits} (h : streamBits out ++ pend = w) :
    out ++ pack pend = pack w := by
  rw [← h, pack_append _ _ (by simp), pack_streamBits]

theorem Job.close_ok {j : Job} (h : j.env.ioFails.headD false = false) (why : Report) :
    j.close why =
      ({ j with out := j.out ++ pack j.pend, pend := [], env := { j.env with ioFails := j.env.ioFails.tail } },
        why) := by
  simp only [Job.close, Env.io_eq, h, Bool.false_eq_true, if_false]

theorem Job.close_fail {j : Job} (h : j.env.ioFails.headD false = true) (why : Report) :
    j.close why = ({ j with env := { j.env with ioFails := j.env.ioFails.tail } }, .failure) := by
  simp only [Job.close, Env.io_eq, h, if_true]

/-- The wrapper when the truncation of OUT does not fail. -/
theorem Job.runFile_opened {j : Job} (h : j.env.ioFails.headD false = false) (body : FileM Unit) :
    j.runFile body =
      match body { j with out := [], pend := [], env := { j.env with ioFails := j.env.ioFails.tail } } with
      | .ok _ jEnd => jEnd.close .success
      | .error why jEnd => jEnd.close why := by
  have hio : j.env.io.1 = false := by rw [Env.io_eq]; exact h
  have henv : j.env.io.2 = { j.env with ioFails := j.env.ioFails.tail } := by rw [Env.io_eq]
  unfold Job.runFile
  rw [hio, henv]
  rfl

/-- A failed truncation: Failure, and OUT as it was (log entry 12). -/
theorem Job.runFile_failed {j : Job} (h : j.env.ioFails.headD false = true) (body : FileM Unit) :
    j.runFile body = ({ j with env := { j.env with ioFails := j.env.ioFails.tail } }, .failure) := by
  simp only [Job.runFile, Env.io_eq, h, if_true]

end Sys2Proof.Machine
end

