-- ==== Sys2Proof/Laws/Hamming.lean ====
section
/-! SUPPORT. The Hamming block functions: lengths, and the outcomes of the decode function. -/

namespace Sys2Proof.Machine

@[simp] theorem length_placeData (n p : Nat) (msg : Bits) : (placeData n p msg).length = n := by
  induction n generalizing p msg with
  | zero => rfl
  | succ n ih => simp only [placeData]; split <;> simp [ih]

@[simp] theorem length_setParitySlots (syn p : Nat) (c : Bits) : (setParitySlots syn p c).length = c.length := by
  induction c generalizing p with
  | nil => rfl
  | cons v c ih => simp [setParitySlots, ih]

/-- A codeword has B bits (47_hamming.md R281). -/
@[simp] theorem length_hamEncode (blockSize : Nat) (msg : Bits) : (hamEncode blockSize msg).length = blockSize := by
  simp [hamEncode]

@[simp] theorem length_flipBit (c : Bits) (p : Nat) : (flipBit c p).length = c.length := by simp [flipBit]

/-- Flipping a bit twice restores the block. -/
theorem flipBit_flipBit (r : Bits) (p : Nat) : flipBit (flipBit r p) p = r := by
  apply List.ext_getElem?
  intro i
  simp only [flipBit, List.getElem?_modify, Option.map_eq_map, Option.map_map]
  cases r[i]? <;> by_cases h : p = i <;> simp [h]

theorem syndromeFrom_append (p : Nat) (c d : Bits) :
    syndromeFrom p (c ++ d) = syndromeFrom p c ^^^ syndromeFrom (p + c.length) d := by
  induction c generalizing p with
  | nil => simp [syndromeFrom]
  | cons v c ih =>
    rw [List.cons_append, syndromeFrom, syndromeFrom, ih, Nat.xor_assoc, List.length_cons,
      show p + 1 + c.length = p + (c.length + 1) by omega]

/-- The three outcomes of the decode function (47_hamming.md R282). -/
theorem hamDecode_cases (r : Bits) :
    (syndrome r = 0 ∧ hamDecode r = (dataBits 0 r, .ok)) ∨
    (syndrome r ≠ 0 ∧ parity r = true ∧ hamDecode r = (dataBits 0 (flipBit r (syndrome r)), .fixed)) ∨
    (syndrome r ≠ 0 ∧ parity r = false ∧ hamDecode r = (dataBits 0 r, .bad)) := by
  by_cases h : syndrome r = 0
  · exact .inl ⟨h, by simp [hamDecode, h]⟩
  · cases hp : parity r with
    | true => exact .inr (.inl ⟨h, rfl, by simp [hamDecode, h, hp]⟩)
    | false => exact .inr (.inr ⟨h, rfl, by simp [hamDecode, h, hp]⟩)

/-- Cutting bits into n slices of k bits keeps them all. -/
theorem flatten_slicesOf (k n : Nat) (bits : Bits) : (slicesOf k n bits).flatten = bits.take (n * k) := by
  induction n generalizing bits with
  | zero => simp [slicesOf]
  | succ n ih =>
    rw [slicesOf, List.flatten_cons, ih, Nat.succ_mul, Nat.add_comm, List.take_add]

@[simp] theorem length_slicesOf (k n : Nat) (bits : Bits) : (slicesOf k n bits).length = n := by
  induction n generalizing bits with
  | zero => rfl
  | succ n ih => simp [slicesOf, ih]

end Sys2Proof.Machine
end

