-- ==== Sys2Proof/Laws/PerInstr.lean ====
section
/-! SUPPORT. The per-instruction family of LAWS.json: the encoder puts the opcode of 30_encoding.md R86 into
`w[31:24]`. The numbers below are transcribed from R86, not read from the encoder. -/

namespace Sys2Proof.Laws

/-- The opcode column of 30_encoding.md R86. -/
def opcodeOf : Instr → BitVec 8
  | .nop => 0x01
  | .xLi _ _ => 0x02
  | .xLis _ _ => 0x03
  | .xMov _ _ => 0x04
  | .csrR _ _ => 0x05
  | .csrW _ _ => 0x06
  | .pbClear _ => 0x10
  | .pbTrunc _ _ => 0x11
  | .pbAppBit _ _ => 0x12
  | .pbAppByte _ _ => 0x13
  | .pbAppPart _ _ _ => 0x14
  | .pbAppBuf _ _ => 0x15
  | .pbGet _ _ _ _ => 0x16
  | .pbSet _ _ _ _ => 0x17
  | .pbSlice _ _ _ _ => 0x18
  | .pbPop _ _ => 0x19
  | .pbXor _ _ _ => 0x1A
  | .pbToInt _ _ => 0x1B
  | .pbFromInt _ _ _ => 0x1C
  | .pbPadR _ _ _ => 0x1D
  | .pbLen _ _ => 0x1E
  | .pbCopy _ _ => 0x1F
  | .srOpen => 0x20
  | .srRdBit _ => 0x21
  | .srRdN _ _ => 0x22
  | .srRdByte _ => 0x23
  | .srClose => 0x24
  | .swOpen => 0x28
  | .swWrBit _ => 0x29
  | .swWrByte _ => 0x2A
  | .swWrBuf _ => 0x2B
  | .swClose => 0x2C
  | .fhCount => 0x30
  | .fhGet _ _ => 0x31
  | .fhClear => 0x32
  | .fhDistinct _ => 0x33
  | .ctFromMap => 0x40
  | .ctToMap => 0x41
  | .ctSer => 0x42
  | .ctDeser => 0x43
  | .ctFeed _ _ => 0x44
  | .ctReset => 0x45
  | .ctCode _ _ => 0x46
  | .ctSetCode _ _ => 0x47
  | .sfBuild => 0x48
  | .hfBuild => 0x49
  | .cdCompress _ => 0x50
  | .cdDecompress => 0x51
  | .hmEnc _ _ => 0x58
  | .hmDec _ _ _ => 0x59
  | .hmFenc => 0x5A
  | .hmFdec => 0x5B
  | .crcRem _ _ => 0x60
  | .crcEnc _ _ => 0x61
  | .crcDec _ _ _ => 0x62
  | .crcFenc => 0x63
  | .crcFdec => 0x64

namespace HasOpcode

/-- The word of a command has its opcode in bits 31:24. -/
def Statement (i : Instr) : Prop := fieldOp (encode i) = opcodeOf i

theorem nop : Statement .nop := fieldOp_formatN _
theorem xLi : ∀ a0 a1, Statement (.xLi a0 a1) := fun _ _ => fieldOp_formatI _ _ _
theorem xLis : ∀ a0 a1, Statement (.xLis a0 a1) := fun _ _ => fieldOp_formatI _ _ _
theorem xMov : ∀ a0 a1, Statement (.xMov a0 a1) := fun _ _ => fieldOp_formatR _ _ _ _ _ _
theorem csrR : ∀ a0 a1, Statement (.csrR a0 a1) := fun _ _ => fieldOp_formatS _ _ _
theorem csrW : ∀ a0 a1, Statement (.csrW a0 a1) := fun _ _ => fieldOp_formatS _ _ _
theorem pbClear : ∀ a0, Statement (.pbClear a0) := fun _ => fieldOp_formatR _ _ _ _ _ _
theorem pbTrunc : ∀ a0 a1, Statement (.pbTrunc a0 a1) := fun _ _ => fieldOp_formatR _ _ _ _ _ _
theorem pbAppBit : ∀ a0 a1, Statement (.pbAppBit a0 a1) := fun _ _ => fieldOp_formatR _ _ _ _ _ _
theorem pbAppByte : ∀ a0 a1, Statement (.pbAppByte a0 a1) := fun _ _ => fieldOp_formatR _ _ _ _ _ _
theorem pbAppPart : ∀ a0 a1 a2, Statement (.pbAppPart a0 a1 a2) := fun _ _ _ => fieldOp_formatR _ _ _ _ _ _
theorem pbAppBuf : ∀ a0 a1, Statement (.pbAppBuf a0 a1) := fun _ _ => fieldOp_formatR _ _ _ _ _ _
theorem pbGet : ∀ a0 a1 a2 a3, Statement (.pbGet a0 a1 a2 a3) := fun _ _ _ _ => fieldOp_formatR _ _ _ _ _ _
theorem pbSet : ∀ a0 a1 a2 a3, Statement (.pbSet a0 a1 a2 a3) := fun _ _ _ _ => fieldOp_formatR _ _ _ _ _ _
theorem pbSlice : ∀ a0 a1 a2 a3, Statement (.pbSlice a0 a1 a2 a3) := fun _ _ _ _ => fieldOp_formatR _ _ _ _ _ _
theorem pbPop : ∀ a0 a1, Statement (.pbPop a0 a1) := fun _ _ => fieldOp_formatR _ _ _ _ _ _
theorem pbXor : ∀ a0 a1 a2, Statement (.pbXor a0 a1 a2) := fun _ _ _ => fieldOp_formatR _ _ _ _ _ _
theorem pbToInt : ∀ a0 a1, Statement (.pbToInt a0 a1) := fun _ _ => fieldOp_formatR _ _ _ _ _ _
theorem pbFromInt : ∀ a0 a1 a2, Statement (.pbFromInt a0 a1 a2) := fun _ _ _ => fieldOp_formatR _ _ _ _ _ _
theorem pbPadR : ∀ a0 a1 a2, Statement (.pbPadR a0 a1 a2) := fun _ _ _ => fieldOp_formatR _ _ _ _ _ _
theorem pbLen : ∀ a0 a1, Statement (.pbLen a0 a1) := fun _ _ => fieldOp_formatR _ _ _ _ _ _
theorem pbCopy : ∀ a0 a1, Statement (.pbCopy a0 a1) := fun _ _ => fieldOp_formatR _ _ _ _ _ _
theorem srOpen : Statement .srOpen := fieldOp_formatN _
theorem srRdBit : ∀ a0, Statement (.srRdBit a0) := fun _ => fieldOp_formatR _ _ _ _ _ _
theorem srRdN : ∀ a0 a1, Statement (.srRdN a0 a1) := fun _ _ => fieldOp_formatR _ _ _ _ _ _
theorem srRdByte : ∀ a0, Statement (.srRdByte a0) := fun _ => fieldOp_formatR _ _ _ _ _ _
theorem srClose : Statement .srClose := fieldOp_formatN _
theorem swOpen : Statement .swOpen := fieldOp_formatN _
theorem swWrBit : ∀ a0, Statement (.swWrBit a0) := fun _ => fieldOp_formatR _ _ _ _ _ _
theorem swWrByte : ∀ a0, Statement (.swWrByte a0) := fun _ => fieldOp_formatR _ _ _ _ _ _
theorem swWrBuf : ∀ a0, Statement (.swWrBuf a0) := fun _ => fieldOp_formatR _ _ _ _ _ _
theorem swClose : Statement .swClose := fieldOp_formatN _
theorem fhCount : Statement .fhCount := fieldOp_formatN _
theorem fhGet : ∀ a0 a1, Statement (.fhGet a0 a1) := fun _ _ => fieldOp_formatR _ _ _ _ _ _
theorem fhClear : Statement .fhClear := fieldOp_formatN _
theorem fhDistinct : ∀ a0, Statement (.fhDistinct a0) := fun _ => fieldOp_formatR _ _ _ _ _ _
theorem ctFromMap : Statement .ctFromMap := fieldOp_formatN _
theorem ctToMap : Statement .ctToMap := fieldOp_formatN _
theorem ctSer : Statement .ctSer := fieldOp_formatN _
theorem ctDeser : Statement .ctDeser := fieldOp_formatN _
theorem ctFeed : ∀ a0 a1, Statement (.ctFeed a0 a1) := fun _ _ => fieldOp_formatR _ _ _ _ _ _
theorem ctReset : Statement .ctReset := fieldOp_formatN _
theorem ctCode : ∀ a0 a1, Statement (.ctCode a0 a1) := fun _ _ => fieldOp_formatR _ _ _ _ _ _
theorem ctSetCode : ∀ a0 a1, Statement (.ctSetCode a0 a1) := fun _ _ => fieldOp_formatR _ _ _ _ _ _
theorem sfBuild : Statement .sfBuild := fieldOp_formatN _
theorem hfBuild : Statement .hfBuild := fieldOp_formatN _
theorem cdCompress : ∀ a0, Statement (.cdCompress a0) := fun _ => fieldOp_formatR _ _ _ _ _ _
theorem cdDecompress : Statement .cdDecompress := fieldOp_formatN _
theorem hmEnc : ∀ a0 a1, Statement (.hmEnc a0 a1) := fun _ _ => fieldOp_formatR _ _ _ _ _ _
theorem hmDec : ∀ a0 a1 a2, Statement (.hmDec a0 a1 a2) := fun _ _ _ => fieldOp_formatR _ _ _ _ _ _
theorem hmFenc : Statement .hmFenc := fieldOp_formatN _
theorem hmFdec : Statement .hmFdec := fieldOp_formatN _
theorem crcRem : ∀ a0 a1, Statement (.crcRem a0 a1) := fun _ _ => fieldOp_formatR _ _ _ _ _ _
theorem crcEnc : ∀ a0 a1, Statement (.crcEnc a0 a1) := fun _ _ => fieldOp_formatR _ _ _ _ _ _
theorem crcDec : ∀ a0 a1 a2, Statement (.crcDec a0 a1 a2) := fun _ _ _ => fieldOp_formatR _ _ _ _ _ _
theorem crcFenc : Statement .crcFenc := fieldOp_formatN _
theorem crcFdec : Statement .crcFdec := fieldOp_formatN _

end HasOpcode

end Sys2Proof.Laws
end

