-- ==== Sys2Proof/Laws/State.lean ====
section
/-! SUPPORT. One lemma per field of State and per named update of it, true by unfolding. -/

namespace Sys2Proof.Machine

variable (s : State)

/-! ## setX -/

@[simp] theorem setX_acts (r : XReg) (v : Nat) : (s.setX r v).acts = s.acts := rfl
@[simp] theorem setX_pc (r : XReg) (v : Nat) : (s.setX r v).pc = s.pc := rfl
@[simp] theorem setX_input (r : XReg) (v : Nat) : (s.setX r v).input = s.input := rfl
@[simp] theorem setX_output (r : XReg) (v : Nat) : (s.setX r v).output = s.output := rfl
@[simp] theorem setX_env (r : XReg) (v : Nat) : (s.setX r v).env = s.env := rfl
@[simp] theorem setX_cfg (r : XReg) (v : Nat) : (s.setX r v).cfg = s.cfg := rfl
@[simp] theorem setX_x (r : XReg) (v : Nat) : (s.setX r v).x = s.x.set r v := rfl
@[simp] theorem setX_b (r : XReg) (v : Nat) : (s.setX r v).b = s.b := rfl
@[simp] theorem setX_fault (r : XReg) (v : Nat) : (s.setX r v).fault = s.fault := rfl
@[simp] theorem setX_eos (r : XReg) (v : Nat) : (s.setX r v).eos = s.eos := rfl
@[simp] theorem setX_report (r : XReg) (v : Nat) : (s.setX r v).report = s.report := rfl
@[simp] theorem setX_hamB (r : XReg) (v : Nat) : (s.setX r v).hamB = s.hamB := rfl
@[simp] theorem setX_crcN (r : XReg) (v : Nat) : (s.setX r v).crcN = s.crcN := rfl
@[simp] theorem setX_crcCorr (r : XReg) (v : Nat) : (s.setX r v).crcCorr = s.crcCorr := rfl
@[simp] theorem setX_ham (r : XReg) (v : Nat) : (s.setX r v).ham = s.ham := rfl
@[simp] theorem setX_crc (r : XReg) (v : Nat) : (s.setX r v).crc = s.crc := rfl
@[simp] theorem setX_progress (r : XReg) (v : Nat) : (s.setX r v).progress = s.progress := rfl
@[simp] theorem setX_reader (r : XReg) (v : Nat) : (s.setX r v).reader = s.reader := rfl
@[simp] theorem setX_writer (r : XReg) (v : Nat) : (s.setX r v).writer = s.writer := rfl
@[simp] theorem setX_hist (r : XReg) (v : Nat) : (s.setX r v).hist = s.hist := rfl
@[simp] theorem setX_codes (r : XReg) (v : Nat) : (s.setX r v).codes = s.codes := rfl
@[simp] theorem setX_tree (r : XReg) (v : Nat) : (s.setX r v).tree = s.tree := rfl
@[simp] theorem setX_cur (r : XReg) (v : Nat) : (s.setX r v).cur = s.cur := rfl

/-! ## setB -/

@[simp] theorem setB_acts (r : BReg) (v : Bits) : (s.setB r v).acts = s.acts := rfl
@[simp] theorem setB_pc (r : BReg) (v : Bits) : (s.setB r v).pc = s.pc := rfl
@[simp] theorem setB_input (r : BReg) (v : Bits) : (s.setB r v).input = s.input := rfl
@[simp] theorem setB_output (r : BReg) (v : Bits) : (s.setB r v).output = s.output := rfl
@[simp] theorem setB_env (r : BReg) (v : Bits) : (s.setB r v).env = s.env := rfl
@[simp] theorem setB_cfg (r : BReg) (v : Bits) : (s.setB r v).cfg = s.cfg := rfl
@[simp] theorem setB_x (r : BReg) (v : Bits) : (s.setB r v).x = s.x := rfl
@[simp] theorem setB_b (r : BReg) (v : Bits) : (s.setB r v).b = s.b.set r v := rfl
@[simp] theorem setB_fault (r : BReg) (v : Bits) : (s.setB r v).fault = s.fault := rfl
@[simp] theorem setB_eos (r : BReg) (v : Bits) : (s.setB r v).eos = s.eos := rfl
@[simp] theorem setB_report (r : BReg) (v : Bits) : (s.setB r v).report = s.report := rfl
@[simp] theorem setB_hamB (r : BReg) (v : Bits) : (s.setB r v).hamB = s.hamB := rfl
@[simp] theorem setB_crcN (r : BReg) (v : Bits) : (s.setB r v).crcN = s.crcN := rfl
@[simp] theorem setB_crcCorr (r : BReg) (v : Bits) : (s.setB r v).crcCorr = s.crcCorr := rfl
@[simp] theorem setB_ham (r : BReg) (v : Bits) : (s.setB r v).ham = s.ham := rfl
@[simp] theorem setB_crc (r : BReg) (v : Bits) : (s.setB r v).crc = s.crc := rfl
@[simp] theorem setB_progress (r : BReg) (v : Bits) : (s.setB r v).progress = s.progress := rfl
@[simp] theorem setB_reader (r : BReg) (v : Bits) : (s.setB r v).reader = s.reader := rfl
@[simp] theorem setB_writer (r : BReg) (v : Bits) : (s.setB r v).writer = s.writer := rfl
@[simp] theorem setB_hist (r : BReg) (v : Bits) : (s.setB r v).hist = s.hist := rfl
@[simp] theorem setB_codes (r : BReg) (v : Bits) : (s.setB r v).codes = s.codes := rfl
@[simp] theorem setB_tree (r : BReg) (v : Bits) : (s.setB r v).tree = s.tree := rfl
@[simp] theorem setB_cur (r : BReg) (v : Bits) : (s.setB r v).cur = s.cur := rfl

/-! ## atEnd -/

@[simp] theorem atEnd_acts : (s.atEnd).acts = s.acts := rfl
@[simp] theorem atEnd_pc : (s.atEnd).pc = s.pc := rfl
@[simp] theorem atEnd_input : (s.atEnd).input = s.input := rfl
@[simp] theorem atEnd_output : (s.atEnd).output = s.output := rfl
@[simp] theorem atEnd_env : (s.atEnd).env = s.env := rfl
@[simp] theorem atEnd_cfg : (s.atEnd).cfg = s.cfg := rfl
@[simp] theorem atEnd_x : (s.atEnd).x = s.x := rfl
@[simp] theorem atEnd_b : (s.atEnd).b = s.b := rfl
@[simp] theorem atEnd_fault : (s.atEnd).fault = s.fault := rfl
@[simp] theorem atEnd_eos : (s.atEnd).eos = true := rfl
@[simp] theorem atEnd_report : (s.atEnd).report = s.report := rfl
@[simp] theorem atEnd_hamB : (s.atEnd).hamB = s.hamB := rfl
@[simp] theorem atEnd_crcN : (s.atEnd).crcN = s.crcN := rfl
@[simp] theorem atEnd_crcCorr : (s.atEnd).crcCorr = s.crcCorr := rfl
@[simp] theorem atEnd_ham : (s.atEnd).ham = s.ham := rfl
@[simp] theorem atEnd_crc : (s.atEnd).crc = s.crc := rfl
@[simp] theorem atEnd_progress : (s.atEnd).progress = s.progress := rfl
@[simp] theorem atEnd_reader : (s.atEnd).reader = s.reader := rfl
@[simp] theorem atEnd_writer : (s.atEnd).writer = s.writer := rfl
@[simp] theorem atEnd_hist : (s.atEnd).hist = s.hist := rfl
@[simp] theorem atEnd_codes : (s.atEnd).codes = s.codes := rfl
@[simp] theorem atEnd_tree : (s.atEnd).tree = s.tree := rfl
@[simp] theorem atEnd_cur : (s.atEnd).cur = s.cur := rfl

/-! ## consumed -/

@[simp] theorem consumed_acts (n : Nat) (e : Bool) : (s.consumed n e).acts = s.acts := rfl
@[simp] theorem consumed_pc (n : Nat) (e : Bool) : (s.consumed n e).pc = s.pc := rfl
@[simp] theorem consumed_input (n : Nat) (e : Bool) : (s.consumed n e).input = s.input := rfl
@[simp] theorem consumed_output (n : Nat) (e : Bool) : (s.consumed n e).output = s.output := rfl
@[simp] theorem consumed_env (n : Nat) (e : Bool) : (s.consumed n e).env = s.env := rfl
@[simp] theorem consumed_cfg (n : Nat) (e : Bool) : (s.consumed n e).cfg = s.cfg := rfl
@[simp] theorem consumed_x (n : Nat) (e : Bool) : (s.consumed n e).x = s.x := rfl
@[simp] theorem consumed_b (n : Nat) (e : Bool) : (s.consumed n e).b = s.b := rfl
@[simp] theorem consumed_fault (n : Nat) (e : Bool) : (s.consumed n e).fault = s.fault := rfl
@[simp] theorem consumed_eos (n : Nat) (e : Bool) : (s.consumed n e).eos = e := rfl
@[simp] theorem consumed_report (n : Nat) (e : Bool) : (s.consumed n e).report = s.report := rfl
@[simp] theorem consumed_hamB (n : Nat) (e : Bool) : (s.consumed n e).hamB = s.hamB := rfl
@[simp] theorem consumed_crcN (n : Nat) (e : Bool) : (s.consumed n e).crcN = s.crcN := rfl
@[simp] theorem consumed_crcCorr (n : Nat) (e : Bool) : (s.consumed n e).crcCorr = s.crcCorr := rfl
@[simp] theorem consumed_ham (n : Nat) (e : Bool) : (s.consumed n e).ham = s.ham := rfl
@[simp] theorem consumed_crc (n : Nat) (e : Bool) : (s.consumed n e).crc = s.crc := rfl
@[simp] theorem consumed_progress (n : Nat) (e : Bool) : (s.consumed n e).progress = s.progress := rfl
@[simp] theorem consumed_reader (n : Nat) (e : Bool) : (s.consumed n e).reader = ⟨s.reader.isOpen, s.reader.pos + n⟩ := rfl
@[simp] theorem consumed_writer (n : Nat) (e : Bool) : (s.consumed n e).writer = s.writer := rfl
@[simp] theorem consumed_hist (n : Nat) (e : Bool) : (s.consumed n e).hist = s.hist := rfl
@[simp] theorem consumed_codes (n : Nat) (e : Bool) : (s.consumed n e).codes = s.codes := rfl
@[simp] theorem consumed_tree (n : Nat) (e : Bool) : (s.consumed n e).tree = s.tree := rfl
@[simp] theorem consumed_cur (n : Nat) (e : Bool) : (s.consumed n e).cur = s.cur := rfl

/-! ## reportAs -/

@[simp] theorem reportAs_acts (r : Report) : (s.reportAs r).acts = s.acts := rfl
@[simp] theorem reportAs_pc (r : Report) : (s.reportAs r).pc = s.pc := rfl
@[simp] theorem reportAs_input (r : Report) : (s.reportAs r).input = s.input := rfl
@[simp] theorem reportAs_output (r : Report) : (s.reportAs r).output = s.output := rfl
@[simp] theorem reportAs_env (r : Report) : (s.reportAs r).env = s.env := rfl
@[simp] theorem reportAs_cfg (r : Report) : (s.reportAs r).cfg = s.cfg := rfl
@[simp] theorem reportAs_x (r : Report) : (s.reportAs r).x = s.x := rfl
@[simp] theorem reportAs_b (r : Report) : (s.reportAs r).b = s.b := rfl
@[simp] theorem reportAs_fault (r : Report) : (s.reportAs r).fault = s.fault := rfl
@[simp] theorem reportAs_eos (r : Report) : (s.reportAs r).eos = s.eos := rfl
@[simp] theorem reportAs_report (r : Report) : (s.reportAs r).report = r := rfl
@[simp] theorem reportAs_hamB (r : Report) : (s.reportAs r).hamB = s.hamB := rfl
@[simp] theorem reportAs_crcN (r : Report) : (s.reportAs r).crcN = s.crcN := rfl
@[simp] theorem reportAs_crcCorr (r : Report) : (s.reportAs r).crcCorr = s.crcCorr := rfl
@[simp] theorem reportAs_ham (r : Report) : (s.reportAs r).ham = s.ham := rfl
@[simp] theorem reportAs_crc (r : Report) : (s.reportAs r).crc = s.crc := rfl
@[simp] theorem reportAs_progress (r : Report) : (s.reportAs r).progress = s.progress := rfl
@[simp] theorem reportAs_reader (r : Report) : (s.reportAs r).reader = s.reader := rfl
@[simp] theorem reportAs_writer (r : Report) : (s.reportAs r).writer = s.writer := rfl
@[simp] theorem reportAs_hist (r : Report) : (s.reportAs r).hist = s.hist := rfl
@[simp] theorem reportAs_codes (r : Report) : (s.reportAs r).codes = s.codes := rfl
@[simp] theorem reportAs_tree (r : Report) : (s.reportAs r).tree = s.tree := rfl
@[simp] theorem reportAs_cur (r : Report) : (s.reportAs r).cur = s.cur := rfl

/-! ## takeAct -/

@[simp] theorem takeAct_acts (rest : List HostAct) : (s.takeAct rest).acts = rest := rfl
@[simp] theorem takeAct_pc (rest : List HostAct) : (s.takeAct rest).pc = s.pc := rfl
@[simp] theorem takeAct_input (rest : List HostAct) : (s.takeAct rest).input = s.input := rfl
@[simp] theorem takeAct_output (rest : List HostAct) : (s.takeAct rest).output = s.output := rfl
@[simp] theorem takeAct_env (rest : List HostAct) : (s.takeAct rest).env = s.env := rfl
@[simp] theorem takeAct_cfg (rest : List HostAct) : (s.takeAct rest).cfg = s.cfg := rfl
@[simp] theorem takeAct_x (rest : List HostAct) : (s.takeAct rest).x = s.x := rfl
@[simp] theorem takeAct_b (rest : List HostAct) : (s.takeAct rest).b = s.b := rfl
@[simp] theorem takeAct_fault (rest : List HostAct) : (s.takeAct rest).fault = s.fault := rfl
@[simp] theorem takeAct_eos (rest : List HostAct) : (s.takeAct rest).eos = s.eos := rfl
@[simp] theorem takeAct_report (rest : List HostAct) : (s.takeAct rest).report = s.report := rfl
@[simp] theorem takeAct_hamB (rest : List HostAct) : (s.takeAct rest).hamB = s.hamB := rfl
@[simp] theorem takeAct_crcN (rest : List HostAct) : (s.takeAct rest).crcN = s.crcN := rfl
@[simp] theorem takeAct_crcCorr (rest : List HostAct) : (s.takeAct rest).crcCorr = s.crcCorr := rfl
@[simp] theorem takeAct_ham (rest : List HostAct) : (s.takeAct rest).ham = s.ham := rfl
@[simp] theorem takeAct_crc (rest : List HostAct) : (s.takeAct rest).crc = s.crc := rfl
@[simp] theorem takeAct_progress (rest : List HostAct) : (s.takeAct rest).progress = s.progress := rfl
@[simp] theorem takeAct_reader (rest : List HostAct) : (s.takeAct rest).reader = s.reader := rfl
@[simp] theorem takeAct_writer (rest : List HostAct) : (s.takeAct rest).writer = s.writer := rfl
@[simp] theorem takeAct_hist (rest : List HostAct) : (s.takeAct rest).hist = s.hist := rfl
@[simp] theorem takeAct_codes (rest : List HostAct) : (s.takeAct rest).codes = s.codes := rfl
@[simp] theorem takeAct_tree (rest : List HostAct) : (s.takeAct rest).tree = s.tree := rfl
@[simp] theorem takeAct_cur (rest : List HostAct) : (s.takeAct rest).cur = s.cur := rfl

/-! ## takeCommand -/

@[simp] theorem takeCommand_acts (rest : List HostAct) : (s.takeCommand rest).acts = rest := rfl
@[simp] theorem takeCommand_pc (rest : List HostAct) : (s.takeCommand rest).pc = s.pc + 1 := rfl
@[simp] theorem takeCommand_input (rest : List HostAct) : (s.takeCommand rest).input = s.input := rfl
@[simp] theorem takeCommand_output (rest : List HostAct) : (s.takeCommand rest).output = s.output := rfl
@[simp] theorem takeCommand_env (rest : List HostAct) : (s.takeCommand rest).env = s.env := rfl
@[simp] theorem takeCommand_cfg (rest : List HostAct) : (s.takeCommand rest).cfg = s.cfg := rfl
@[simp] theorem takeCommand_x (rest : List HostAct) : (s.takeCommand rest).x = s.x := rfl
@[simp] theorem takeCommand_b (rest : List HostAct) : (s.takeCommand rest).b = s.b := rfl
@[simp] theorem takeCommand_fault (rest : List HostAct) : (s.takeCommand rest).fault = s.fault := rfl
@[simp] theorem takeCommand_eos (rest : List HostAct) : (s.takeCommand rest).eos = s.eos := rfl
@[simp] theorem takeCommand_report (rest : List HostAct) : (s.takeCommand rest).report = s.report := rfl
@[simp] theorem takeCommand_hamB (rest : List HostAct) : (s.takeCommand rest).hamB = s.hamB := rfl
@[simp] theorem takeCommand_crcN (rest : List HostAct) : (s.takeCommand rest).crcN = s.crcN := rfl
@[simp] theorem takeCommand_crcCorr (rest : List HostAct) : (s.takeCommand rest).crcCorr = s.crcCorr := rfl
@[simp] theorem takeCommand_ham (rest : List HostAct) : (s.takeCommand rest).ham = s.ham := rfl
@[simp] theorem takeCommand_crc (rest : List HostAct) : (s.takeCommand rest).crc = s.crc := rfl
@[simp] theorem takeCommand_progress (rest : List HostAct) : (s.takeCommand rest).progress = s.progress := rfl
@[simp] theorem takeCommand_reader (rest : List HostAct) : (s.takeCommand rest).reader = s.reader := rfl
@[simp] theorem takeCommand_writer (rest : List HostAct) : (s.takeCommand rest).writer = s.writer := rfl
@[simp] theorem takeCommand_hist (rest : List HostAct) : (s.takeCommand rest).hist = s.hist := rfl
@[simp] theorem takeCommand_codes (rest : List HostAct) : (s.takeCommand rest).codes = s.codes := rfl
@[simp] theorem takeCommand_tree (rest : List HostAct) : (s.takeCommand rest).tree = s.tree := rfl
@[simp] theorem takeCommand_cur (rest : List HostAct) : (s.takeCommand rest).cur = s.cur := rfl

/-! ## afterJob -/

@[simp] theorem afterJob_acts (e : Job × Report) : (s.afterJob e).acts = s.acts := rfl
@[simp] theorem afterJob_pc (e : Job × Report) : (s.afterJob e).pc = s.pc := rfl
@[simp] theorem afterJob_input (e : Job × Report) : (s.afterJob e).input = s.input := rfl
@[simp] theorem afterJob_output (e : Job × Report) : (s.afterJob e).output = e.1.out := rfl
@[simp] theorem afterJob_env (e : Job × Report) : (s.afterJob e).env = e.1.env := rfl
@[simp] theorem afterJob_cfg (e : Job × Report) : (s.afterJob e).cfg = s.cfg := rfl
@[simp] theorem afterJob_x (e : Job × Report) : (s.afterJob e).x = s.x := rfl
@[simp] theorem afterJob_b (e : Job × Report) : (s.afterJob e).b = s.b := rfl
@[simp] theorem afterJob_fault (e : Job × Report) : (s.afterJob e).fault = s.fault := rfl
@[simp] theorem afterJob_eos (e : Job × Report) : (s.afterJob e).eos = s.eos := rfl
@[simp] theorem afterJob_report (e : Job × Report) : (s.afterJob e).report = e.2 := rfl
@[simp] theorem afterJob_hamB (e : Job × Report) : (s.afterJob e).hamB = s.hamB := rfl
@[simp] theorem afterJob_crcN (e : Job × Report) : (s.afterJob e).crcN = s.crcN := rfl
@[simp] theorem afterJob_crcCorr (e : Job × Report) : (s.afterJob e).crcCorr = s.crcCorr := rfl
@[simp] theorem afterJob_ham (e : Job × Report) : (s.afterJob e).ham = s.ham := rfl
@[simp] theorem afterJob_crc (e : Job × Report) : (s.afterJob e).crc = s.crc := rfl
@[simp] theorem afterJob_progress (e : Job × Report) : (s.afterJob e).progress = e.1.progress := rfl
@[simp] theorem afterJob_reader (e : Job × Report) : (s.afterJob e).reader = s.reader := rfl
@[simp] theorem afterJob_writer (e : Job × Report) : (s.afterJob e).writer = s.writer := rfl
@[simp] theorem afterJob_hist (e : Job × Report) : (s.afterJob e).hist = s.hist := rfl
@[simp] theorem afterJob_codes (e : Job × Report) : (s.afterJob e).codes = s.codes := rfl
@[simp] theorem afterJob_tree (e : Job × Report) : (s.afterJob e).tree = s.tree := rfl
@[simp] theorem afterJob_cur (e : Job × Report) : (s.afterJob e).cur = s.cur := rfl

/-! ## afterHamJob -/

@[simp] theorem afterHamJob_acts (e : Job × Report) : (s.afterHamJob e).acts = s.acts := rfl
@[simp] theorem afterHamJob_pc (e : Job × Report) : (s.afterHamJob e).pc = s.pc := rfl
@[simp] theorem afterHamJob_input (e : Job × Report) : (s.afterHamJob e).input = s.input := rfl
@[simp] theorem afterHamJob_output (e : Job × Report) : (s.afterHamJob e).output = e.1.out := rfl
@[simp] theorem afterHamJob_env (e : Job × Report) : (s.afterHamJob e).env = e.1.env := rfl
@[simp] theorem afterHamJob_cfg (e : Job × Report) : (s.afterHamJob e).cfg = s.cfg := rfl
@[simp] theorem afterHamJob_x (e : Job × Report) : (s.afterHamJob e).x = s.x := rfl
@[simp] theorem afterHamJob_b (e : Job × Report) : (s.afterHamJob e).b = s.b := rfl
@[simp] theorem afterHamJob_fault (e : Job × Report) : (s.afterHamJob e).fault = s.fault := rfl
@[simp] theorem afterHamJob_eos (e : Job × Report) : (s.afterHamJob e).eos = s.eos := rfl
@[simp] theorem afterHamJob_report (e : Job × Report) : (s.afterHamJob e).report = e.2 := rfl
@[simp] theorem afterHamJob_hamB (e : Job × Report) : (s.afterHamJob e).hamB = s.hamB := rfl
@[simp] theorem afterHamJob_crcN (e : Job × Report) : (s.afterHamJob e).crcN = s.crcN := rfl
@[simp] theorem afterHamJob_crcCorr (e : Job × Report) : (s.afterHamJob e).crcCorr = s.crcCorr := rfl
@[simp] theorem afterHamJob_ham (e : Job × Report) : (s.afterHamJob e).ham = e.1.counts := rfl
@[simp] theorem afterHamJob_crc (e : Job × Report) : (s.afterHamJob e).crc = s.crc := rfl
@[simp] theorem afterHamJob_progress (e : Job × Report) : (s.afterHamJob e).progress = e.1.progress := rfl
@[simp] theorem afterHamJob_reader (e : Job × Report) : (s.afterHamJob e).reader = s.reader := rfl
@[simp] theorem afterHamJob_writer (e : Job × Report) : (s.afterHamJob e).writer = s.writer := rfl
@[simp] theorem afterHamJob_hist (e : Job × Report) : (s.afterHamJob e).hist = s.hist := rfl
@[simp] theorem afterHamJob_codes (e : Job × Report) : (s.afterHamJob e).codes = s.codes := rfl
@[simp] theorem afterHamJob_tree (e : Job × Report) : (s.afterHamJob e).tree = s.tree := rfl
@[simp] theorem afterHamJob_cur (e : Job × Report) : (s.afterHamJob e).cur = s.cur := rfl

/-! ## afterCrcJob -/

@[simp] theorem afterCrcJob_acts (e : Job × Report) : (s.afterCrcJob e).acts = s.acts := rfl
@[simp] theorem afterCrcJob_pc (e : Job × Report) : (s.afterCrcJob e).pc = s.pc := rfl
@[simp] theorem afterCrcJob_input (e : Job × Report) : (s.afterCrcJob e).input = s.input := rfl
@[simp] theorem afterCrcJob_output (e : Job × Report) : (s.afterCrcJob e).output = e.1.out := rfl
@[simp] theorem afterCrcJob_env (e : Job × Report) : (s.afterCrcJob e).env = e.1.env := rfl
@[simp] theorem afterCrcJob_cfg (e : Job × Report) : (s.afterCrcJob e).cfg = s.cfg := rfl
@[simp] theorem afterCrcJob_x (e : Job × Report) : (s.afterCrcJob e).x = s.x := rfl
@[simp] theorem afterCrcJob_b (e : Job × Report) : (s.afterCrcJob e).b = s.b := rfl
@[simp] theorem afterCrcJob_fault (e : Job × Report) : (s.afterCrcJob e).fault = s.fault := rfl
@[simp] theorem afterCrcJob_eos (e : Job × Report) : (s.afterCrcJob e).eos = s.eos := rfl
@[simp] theorem afterCrcJob_report (e : Job × Report) : (s.afterCrcJob e).report = e.2 := rfl
@[simp] theorem afterCrcJob_hamB (e : Job × Report) : (s.afterCrcJob e).hamB = s.hamB := rfl
@[simp] theorem afterCrcJob_crcN (e : Job × Report) : (s.afterCrcJob e).crcN = s.crcN := rfl
@[simp] theorem afterCrcJob_crcCorr (e : Job × Report) : (s.afterCrcJob e).crcCorr = s.crcCorr := rfl
@[simp] theorem afterCrcJob_ham (e : Job × Report) : (s.afterCrcJob e).ham = s.ham := rfl
@[simp] theorem afterCrcJob_crc (e : Job × Report) : (s.afterCrcJob e).crc = e.1.counts := rfl
@[simp] theorem afterCrcJob_progress (e : Job × Report) : (s.afterCrcJob e).progress = e.1.progress := rfl
@[simp] theorem afterCrcJob_reader (e : Job × Report) : (s.afterCrcJob e).reader = s.reader := rfl
@[simp] theorem afterCrcJob_writer (e : Job × Report) : (s.afterCrcJob e).writer = s.writer := rfl
@[simp] theorem afterCrcJob_hist (e : Job × Report) : (s.afterCrcJob e).hist = s.hist := rfl
@[simp] theorem afterCrcJob_codes (e : Job × Report) : (s.afterCrcJob e).codes = s.codes := rfl
@[simp] theorem afterCrcJob_tree (e : Job × Report) : (s.afterCrcJob e).tree = s.tree := rfl
@[simp] theorem afterCrcJob_cur (e : Job × Report) : (s.afterCrcJob e).cur = s.cur := rfl

/-! ## afterCount -/

@[simp] theorem afterCount_acts (j : Job) (h : Hist) (p : Nat) (r : Report) : (s.afterCount j h p r).acts = s.acts := rfl
@[simp] theorem afterCount_pc (j : Job) (h : Hist) (p : Nat) (r : Report) : (s.afterCount j h p r).pc = s.pc := rfl
@[simp] theorem afterCount_input (j : Job) (h : Hist) (p : Nat) (r : Report) : (s.afterCount j h p r).input = s.input := rfl
@[simp] theorem afterCount_output (j : Job) (h : Hist) (p : Nat) (r : Report) : (s.afterCount j h p r).output = s.output := rfl
@[simp] theorem afterCount_env (j : Job) (h : Hist) (p : Nat) (r : Report) : (s.afterCount j h p r).env = j.env := rfl
@[simp] theorem afterCount_cfg (j : Job) (h : Hist) (p : Nat) (r : Report) : (s.afterCount j h p r).cfg = s.cfg := rfl
@[simp] theorem afterCount_x (j : Job) (h : Hist) (p : Nat) (r : Report) : (s.afterCount j h p r).x = s.x := rfl
@[simp] theorem afterCount_b (j : Job) (h : Hist) (p : Nat) (r : Report) : (s.afterCount j h p r).b = s.b := rfl
@[simp] theorem afterCount_fault (j : Job) (h : Hist) (p : Nat) (r : Report) : (s.afterCount j h p r).fault = s.fault := rfl
@[simp] theorem afterCount_eos (j : Job) (h : Hist) (p : Nat) (r : Report) : (s.afterCount j h p r).eos = s.eos := rfl
@[simp] theorem afterCount_report (j : Job) (h : Hist) (p : Nat) (r : Report) : (s.afterCount j h p r).report = r := rfl
@[simp] theorem afterCount_hamB (j : Job) (h : Hist) (p : Nat) (r : Report) : (s.afterCount j h p r).hamB = s.hamB := rfl
@[simp] theorem afterCount_crcN (j : Job) (h : Hist) (p : Nat) (r : Report) : (s.afterCount j h p r).crcN = s.crcN := rfl
@[simp] theorem afterCount_crcCorr (j : Job) (h : Hist) (p : Nat) (r : Report) : (s.afterCount j h p r).crcCorr = s.crcCorr := rfl
@[simp] theorem afterCount_ham (j : Job) (h : Hist) (p : Nat) (r : Report) : (s.afterCount j h p r).ham = s.ham := rfl
@[simp] theorem afterCount_crc (j : Job) (h : Hist) (p : Nat) (r : Report) : (s.afterCount j h p r).crc = s.crc := rfl
@[simp] theorem afterCount_progress (j : Job) (h : Hist) (p : Nat) (r : Report) : (s.afterCount j h p r).progress = p := rfl
@[simp] theorem afterCount_reader (j : Job) (h : Hist) (p : Nat) (r : Report) : (s.afterCount j h p r).reader = s.reader := rfl
@[simp] theorem afterCount_writer (j : Job) (h : Hist) (p : Nat) (r : Report) : (s.afterCount j h p r).writer = s.writer := rfl
@[simp] theorem afterCount_hist (j : Job) (h : Hist) (p : Nat) (r : Report) : (s.afterCount j h p r).hist = h := rfl
@[simp] theorem afterCount_codes (j : Job) (h : Hist) (p : Nat) (r : Report) : (s.afterCount j h p r).codes = s.codes := rfl
@[simp] theorem afterCount_tree (j : Job) (h : Hist) (p : Nat) (r : Report) : (s.afterCount j h p r).tree = s.tree := rfl
@[simp] theorem afterCount_cur (j : Job) (h : Hist) (p : Nat) (r : Report) : (s.afterCount j h p r).cur = s.cur := rfl

/-! ## afterReset (70_reset_and_hazards.md R350) -/

@[simp] theorem afterReset_acts : s.afterReset.acts = s.acts := rfl
@[simp] theorem afterReset_pc : s.afterReset.pc = s.pc := rfl
@[simp] theorem afterReset_input : s.afterReset.input = s.input := rfl
@[simp] theorem afterReset_output : s.afterReset.output = s.output := rfl
@[simp] theorem afterReset_env : s.afterReset.env = s.env := rfl
@[simp] theorem afterReset_cfg : s.afterReset.cfg = s.cfg := rfl
@[simp] theorem afterReset_x : s.afterReset.x = Vector.replicate 16 0 := rfl
@[simp] theorem afterReset_b : s.afterReset.b = Vector.replicate 16 [] := rfl
@[simp] theorem afterReset_fault : s.afterReset.fault = none := rfl
@[simp] theorem afterReset_eos : s.afterReset.eos = false := rfl
@[simp] theorem afterReset_report : s.afterReset.report = .none := rfl
@[simp] theorem afterReset_hamB : s.afterReset.hamB = 0 := rfl
@[simp] theorem afterReset_crcN : s.afterReset.crcN = 0 := rfl
@[simp] theorem afterReset_crcCorr : s.afterReset.crcCorr = false := rfl
@[simp] theorem afterReset_ham : s.afterReset.ham = ⟨0, 0, 0, 0⟩ := rfl
@[simp] theorem afterReset_crc : s.afterReset.crc = ⟨0, 0, 0, 0⟩ := rfl
@[simp] theorem afterReset_progress : s.afterReset.progress = 0 := rfl
@[simp] theorem afterReset_reader : s.afterReset.reader = ⟨false, 0⟩ := rfl
@[simp] theorem afterReset_writer : s.afterReset.writer = ⟨false, []⟩ := rfl
@[simp] theorem afterReset_hist : s.afterReset.hist = Vector.replicate 256 0 := rfl
@[simp] theorem afterReset_codes : s.afterReset.codes = Vector.replicate 256 none := rfl
@[simp] theorem afterReset_tree : s.afterReset.tree = .rootOnly := rfl
@[simp] theorem afterReset_cur : s.afterReset.cur = [] := rfl

/-! ## raise (60_exceptions.md R322) -/

@[simp] theorem raise_acts (c : Cause) : (s.raise c).acts = s.acts := by unfold State.raise; split <;> rfl
@[simp] theorem raise_pc (c : Cause) : (s.raise c).pc = s.pc := by unfold State.raise; split <;> rfl
@[simp] theorem raise_input (c : Cause) : (s.raise c).input = s.input := by unfold State.raise; split <;> rfl
@[simp] theorem raise_output (c : Cause) : (s.raise c).output = s.output := by unfold State.raise; split <;> rfl
@[simp] theorem raise_env (c : Cause) : (s.raise c).env = s.env := by unfold State.raise; split <;> rfl
@[simp] theorem raise_cfg (c : Cause) : (s.raise c).cfg = s.cfg := by unfold State.raise; split <;> rfl
@[simp] theorem raise_x (c : Cause) : (s.raise c).x = s.x := by unfold State.raise; split <;> rfl
@[simp] theorem raise_b (c : Cause) : (s.raise c).b = s.b := by unfold State.raise; split <;> rfl
@[simp] theorem raise_fault (c : Cause) : (s.raise c).fault = s.fault.or (some c) := by
  unfold State.raise State.halted; cases h : s.fault <;> simp [h]
@[simp] theorem raise_eos (c : Cause) : (s.raise c).eos = s.eos := by unfold State.raise; split <;> rfl
@[simp] theorem raise_report (c : Cause) : (s.raise c).report = s.report := by unfold State.raise; split <;> rfl
@[simp] theorem raise_hamB (c : Cause) : (s.raise c).hamB = s.hamB := by unfold State.raise; split <;> rfl
@[simp] theorem raise_crcN (c : Cause) : (s.raise c).crcN = s.crcN := by unfold State.raise; split <;> rfl
@[simp] theorem raise_crcCorr (c : Cause) : (s.raise c).crcCorr = s.crcCorr := by unfold State.raise; split <;> rfl
@[simp] theorem raise_ham (c : Cause) : (s.raise c).ham = s.ham := by unfold State.raise; split <;> rfl
@[simp] theorem raise_crc (c : Cause) : (s.raise c).crc = s.crc := by unfold State.raise; split <;> rfl
@[simp] theorem raise_progress (c : Cause) : (s.raise c).progress = s.progress := by unfold State.raise; split <;> rfl
@[simp] theorem raise_reader (c : Cause) : (s.raise c).reader = s.reader := by unfold State.raise; split <;> rfl
@[simp] theorem raise_writer (c : Cause) : (s.raise c).writer = s.writer := by unfold State.raise; split <;> rfl
@[simp] theorem raise_hist (c : Cause) : (s.raise c).hist = s.hist := by unfold State.raise; split <;> rfl
@[simp] theorem raise_codes (c : Cause) : (s.raise c).codes = s.codes := by unfold State.raise; split <;> rfl
@[simp] theorem raise_tree (c : Cause) : (s.raise c).tree = s.tree := by unfold State.raise; split <;> rfl
@[simp] theorem raise_cur (c : Cause) : (s.raise c).cur = s.cur := by unfold State.raise; split <;> rfl

end Sys2Proof.Machine
end

