-- ==== Sys2Proof/Laws/Step.lean ====
section
/-! SUPPORT. Everything a step can do: one case for each act of the host. -/

namespace Sys2Proof.Machine

/-- The word an encoder of 32 bits puts at the front of the host's list is the word itself. -/
theorem withFetchWord_acts (s : State) (w : Word) :
    s.withFetchWord 32 w.toNat = { s with acts := .command w :: s.acts } := by
  have h : BitVec.ofNat 32 (w.toNat % 2 ^ 32) = w := by
    apply BitVec.eq_of_toNat_eq
    simpa using w.isLt
  simp only [State.withFetchWord, h]

/-- If a step answers a next state, it is the one the host's next act gives. -/
theorem step_cases {s t : State} (h : step s = .next t) :
    (s.acts = [] ∧ t = s) ∨
    (∃ w rest i, s.acts = .command w :: rest ∧ decode w = .ok i ∧ exec i (s.takeCommand rest) = .next t) ∨
    (∃ w rest e, s.acts = .command w :: rest ∧ decode w = .error e ∧
      t = (s.takeCommand rest).raise .illegalCommand) ∨
    (∃ rest, s.acts = .reset :: rest ∧ t = (s.takeAct rest).afterReset) ∨
    (∃ bytes rest, s.acts = .supplyIn bytes :: rest ∧ s.reader.isOpen = false ∧ bytes.length < 2 ^ 64 ∧
      t = { s.takeAct rest with input := bytes }) ∨
    (∃ bytes rest, s.acts = .supplyOut bytes :: rest ∧ s.writer.isOpen = false ∧
      t = { s.takeAct rest with output := bytes }) ∨
    (∃ level rest, s.acts = .setCancel level :: rest ∧
      t = { s.takeAct rest with env := { s.env with cancel := level } }) := by
  unfold step hostAct at h
  cases ha : s.acts with
  | nil =>
    rw [ha] at h
    exact .inl ⟨rfl, by simpa using h.symm⟩
  | cons a rest =>
    rw [ha] at h
    cases a with
    | command w =>
      simp only [runWord] at h
      cases hd : decode w with
      | ok i => rw [hd] at h; exact .inr (.inl ⟨w, rest, i, rfl, hd, h⟩)
      | error e =>
        rw [hd] at h
        exact .inr (.inr (.inl ⟨w, rest, e, rfl, hd, by simpa [fatal] using h.symm⟩))
    | reset => exact .inr (.inr (.inr (.inl ⟨rest, rfl, by simpa using h.symm⟩)))
    | supplyIn bytes =>
      simp only [supplyIn] at h
      split at h
      · simp at h
      · split at h
        · simp at h
        · rename_i h1 h2
          exact .inr (.inr (.inr (.inr (.inl
            ⟨bytes, rest, rfl, by simpa [State.takeAct] using h1, by omega, by simpa using h.symm⟩))))
    | supplyOut bytes =>
      simp only [supplyOut] at h
      split at h
      · simp at h
      · rename_i h1
        exact .inr (.inr (.inr (.inr (.inr (.inl
          ⟨bytes, rest, rfl, by simpa [State.takeAct] using h1, by simpa using h.symm⟩)))))
    | setCancel level =>
      simp only [setCancel] at h
      exact .inr (.inr (.inr (.inr (.inr (.inr ⟨level, rest, rfl, by simpa [State.takeAct] using h.symm⟩)))))

end Sys2Proof.Machine
end

