-- ==== Sys2Proof/Tests/Slice0.lean ====
section
/-! SUPPORT. Tests: well-formedness, decoding of words written out from the encodings, one command on a small state,
with results from the spec's examples (rules of spec/40 to spec/48) and from spec/95_test_vectors.md; and witnesses
for the hypotheses of the statements. -/

namespace Sys2Proof.Tests
set_option Elab.async false
open Sys2Proof.Machine Sys2Proof.Claims

/-! ## Well-formedness: a CSR number that names no CSR, or a read-only one in CSR.W, is refused -/

theorem test_wf_read_of_absent_csr : (Instr.csrR 1 0x1B).wellFormed = false := by decide
theorem test_wf_read_of_last_csr : (Instr.csrR 1 0x1A).wellFormed = true := by decide
theorem test_wf_write_of_absent_csr : (Instr.csrW 1 0x77).wellFormed = false := by decide
theorem test_wf_write_of_status : (Instr.csrW 1 0x00).wellFormed = false := by decide
theorem test_wf_write_of_hamK : (Instr.csrW 1 0x03).wellFormed = false := by decide
theorem test_wf_write_of_srBits : (Instr.csrW 1 0x10).wellFormed = false := by decide
theorem test_wf_write_of_counters : (Instr.csrW 1 0x08).wellFormed = true ∧ (Instr.csrW 1 0x0F).wellFormed = true := by
  decide

/-! ## Decoding: a word for every command, written out from its encoding -/

theorem test_decode_scalar :
    decode 0x01000000 = .ok .nop ∧ decode 0x023ABCDE = .ok (.xLi 3 0xABCDE) ∧
    decode 0x03100002 = .ok (.xLis 1 0x00002) ∧ decode 0x04520000 = .ok (.xMov 5 2) ∧
    decode 0x05300003 = .ok (.csrR 3 0x03) ∧ decode 0x06200002 = .ok (.csrW 2 0x02) := by decide

theorem test_decode_packed_bits :
    decode 0x10100000 = .ok (.pbClear 1) ∧ decode 0x11230000 = .ok (.pbTrunc 2 3) ∧
    decode 0x12010000 = .ok (.pbAppBit 0 1) ∧ decode 0x13010000 = .ok (.pbAppByte 0 1) ∧
    decode 0x14012000 = .ok (.pbAppPart 0 1 2) ∧ decode 0x15120000 = .ok (.pbAppBuf 1 2) ∧
    decode 0x16123080 = .ok (.pbGet 1 2 3 true) ∧ decode 0x17234000 = .ok (.pbSet 2 3 4 false) := by decide

theorem test_decode_packed_bits_rest :
    decode 0x18523400 = .ok (.pbSlice 5 2 3 4) ∧ decode 0x19120000 = .ok (.pbPop 1 2) ∧
    decode 0x1A312000 = .ok (.pbXor 3 1 2) ∧ decode 0x1B210000 = .ok (.pbToInt 2 1) ∧
    decode 0x1C312000 = .ok (.pbFromInt 3 1 2) ∧ decode 0x1D123000 = .ok (.pbPadR 1 2 3) ∧
    decode 0x1E120000 = .ok (.pbLen 1 2) ∧ decode 0x1F420000 = .ok (.pbCopy 4 2) := by decide

theorem test_decode_streams :
    decode 0x20000000 = .ok .srOpen ∧ decode 0x21100000 = .ok (.srRdBit 1) ∧
    decode 0x22120000 = .ok (.srRdN 1 2) ∧ decode 0x23300000 = .ok (.srRdByte 3) ∧
    decode 0x24000000 = .ok .srClose ∧ decode 0x28000000 = .ok .swOpen ∧
    decode 0x29100000 = .ok (.swWrBit 1) ∧ decode 0x2A200000 = .ok (.swWrByte 2) ∧
    decode 0x2B100000 = .ok (.swWrBuf 1) ∧ decode 0x2C000000 = .ok .swClose := by decide

theorem test_decode_histogram_and_tree :
    decode 0x30000000 = .ok .fhCount ∧ decode 0x31120000 = .ok (.fhGet 1 2) ∧
    decode 0x32000000 = .ok .fhClear ∧ decode 0x33100000 = .ok (.fhDistinct 1) ∧
    decode 0x40000000 = .ok .ctFromMap ∧ decode 0x41000000 = .ok .ctToMap ∧
    decode 0x42000000 = .ok .ctSer ∧ decode 0x43000000 = .ok .ctDeser ∧
    decode 0x44120000 = .ok (.ctFeed 1 2) ∧ decode 0x45000000 = .ok .ctReset ∧
    decode 0x46120000 = .ok (.ctCode 1 2) ∧ decode 0x47120000 = .ok (.ctSetCode 1 2) := by decide

theorem test_decode_coders :
    decode 0x48000000 = .ok .sfBuild ∧ decode 0x49000000 = .ok .hfBuild ∧
    decode 0x50100000 = .ok (.cdCompress 1) ∧ decode 0x51000000 = .ok .cdDecompress ∧
    decode 0x58210000 = .ok (.hmEnc 2 1) ∧ decode 0x59413000 = .ok (.hmDec 4 1 3) ∧
    decode 0x5A000000 = .ok .hmFenc ∧ decode 0x5B000000 = .ok .hmFdec ∧
    decode 0x60210000 = .ok (.crcRem 2 1) ∧ decode 0x61210000 = .ok (.crcEnc 2 1) ∧
    decode 0x62231000 = .ok (.crcDec 2 3 1) ∧ decode 0x63000000 = .ok .crcFenc ∧
    decode 0x64000000 = .ok .crcFdec := by decide

/-- spec/95_test_vectors.md section 2, illegal words. -/
theorem test_decode_illegal :
    decode 0x00000000 = .error .unassignedOpcode ∧ decode 0x07000000 = .error .unassignedOpcode ∧
    decode 0xFF000000 = .error .unassignedOpcode ∧ decode 0x01000001 = .error .reservedBit ∧
    decode 0x10110000 = .error .reservedBit ∧ decode 0x16213001 = .error .reservedBit ∧
    decode 0x05100100 = .error .reservedBit := by decide

/-- 30_encoding.md R80: the most significant byte comes first. -/
theorem test_decode_bytes :
    decodeBytes [0x02, 0x3A, 0xBC, 0xDE, 0x77] = .ok (.xLi 3 0xABCDE, [0x77]) ∧
    decodeBytes [0x02, 0x3A, 0xBC] = .error .truncated ∧
    decodeTableWord 32 0x04520000 = some (.xMov 5 2) := by decide

/-! ## One command on a small state -/

/-- The state after reset, with scalar registers. -/
def withX (l : List (XReg × Nat)) (s : State) : State := l.foldl (fun s p => s.setX p.1 p.2) s

/-- Buffer registers written with 0s and 1s. -/
def withB (l : List (BReg × List Nat)) (s : State) : State := l.foldl (fun s p => s.setB p.1 (p.2.map (· == 1))) s

def bits (l : List Nat) : Bits := l.map (· == 1)

def r0 : State := State.reset

/-- A field of the state after a command word. -/
def got {α : Type} (w : Word) (s : State) (f : State → α) : Option α :=
  match runWord w s with
  | .next t => some (f t)
  | _ => none

/-- A field of the state after several command words. -/
def gotAll {α : Type} : List Word → State → (State → α) → Option α
  | [], s, f => some (f s)
  | w :: ws, s, f =>
    match runWord w s with
    | .next t => gotAll ws t f
    | _ => none

def withIn (bytes : List Byte) : State := { r0 with input := bytes }

/-- Code tables. -/
def withT (l : List (Byte × List Nat)) (s : State) : State :=
  { s with codes := tableOf (l.map fun e => (e.1, bits e.2)) }

/-- H = the counts of a: 5, b: 2, c: 1, d: 1 (45_prefix_builders.md R242, R245). -/
def h5211 : State :=
  { r0 with hist := (((r0.hist.set 0x61 5).set 0x62 2).set 0x63 1).set 0x64 1 }

-- Scalars and CSRs (40_scalar_csr.md; vectors section 2)
theorem test_nop : runWord 0x01000000 r0 = .next r0 := by rfl
theorem test_xLi : got 0x023ABCDE r0 (·.x[3]) = some 703710 := by decide +kernel
theorem test_xLis_never_wraps :
    got 0x031FFFFF (withX [(1, 0xFFFFF)] r0) (·.x[1]) = some 1099511627775 := by decide +kernel
theorem test_xMov : got 0x04520000 (withX [(2, 7)] r0) (·.x[5]) = some 7 := by decide +kernel
theorem test_csrR_nodes : got 0x05100015 r0 (·.x[1]) = some 1 := by decide +kernel
theorem test_csrR_absent : got 0x0510001B r0 (·.status) = some 0x101 := by decide +kernel
theorem test_csrW_hamB :
    got 0x06200002 (withX [(2, 8)] r0) (fun t => (t.hamB, hamK t.hamB)) = some (8, 4) := by decide +kernel
theorem test_csrW_hamB_not_a_power : got 0x06200002 (withX [(2, 12)] r0) (·.status) = some 0x301 := by decide +kernel

-- The halted block (vectors section 2)
theorem test_halted :
    gotAll [0x00000000, 0x02100005, 0x05200000, 0x05300077] r0 (fun t => (t.x[1], t.x[2], t.x[3], t.status))
      = some (0, 0x101, 0, 0x101) := by decide +kernel

-- Packed bits (41_packed_bit_buffer.md; vectors section 3)
theorem test_pbClear : got 0x10100000 (withB [(1, [1, 0, 1])] r0) (·.b[1]) = some [] := by decide +kernel
theorem test_pbTrunc :
    got 0x11230000 (withX [(3, 2)] (withB [(2, [1, 0, 1, 1, 0])] r0)) (·.b[2]) = some (bits [1, 0]) := by decide +kernel
theorem test_pbTrunc_beyond :
    got 0x11120000 (withX [(2, 6)] (withB [(1, [1, 0, 1, 1, 0])] r0)) (·.status) = some 0x201 := by decide +kernel
theorem test_pbAppBit :
    got 0x12010000 (withX [(1, 1)] (withB [(0, [1, 0])] r0)) (·.b[0]) = some (bits [1, 0, 1]) := by decide +kernel
theorem test_pbAppByte :
    got 0x13010000 (withX [(1, 0x41)] (withB [(0, [1])] r0)) (·.b[0]) = some (bits [1, 0, 1, 0, 0, 0, 0, 0, 1]) := by
  decide +kernel
theorem test_pbAppPart_low_bits :
    got 0x14123000 (withX [(2, 0xB5), (3, 3)] r0) (·.b[1]) = some (bits [1, 0, 1]) := by decide +kernel
theorem test_pbAppPart_length_first :
    got 0x14123000 (withX [(2, 0x100), (3, 9)] r0) (·.status) = some 0x201 := by decide +kernel
theorem test_pbAppBuf_doubles :
    got 0x15110000 (withB [(1, [1, 0, 1, 1, 0])] r0) (·.b[1]) = some (bits [1, 0, 1, 1, 0, 1, 0, 1, 1, 0]) := by
  decide +kernel
theorem test_pbGet_from_end :
    got 0x16213080 (withX [(3, 5)] (withB [(1, [1, 0, 1, 1, 0])] r0)) (·.x[2]) = some 1 := by decide +kernel
theorem test_pbGet_from_end_zero :
    got 0x16213080 (withX [(3, 0)] (withB [(1, [1, 0, 1, 1, 0])] r0)) (·.status) = some 0x201 := by decide +kernel
theorem test_pbSet :
    got 0x17234000 (withX [(3, 0), (4, 0)] (withB [(2, [1, 0, 1, 1, 0])] r0)) (·.b[2])
      = some (bits [0, 0, 1, 1, 0]) := by decide +kernel
theorem test_pbSet_index_first :
    got 0x17123000 (withX [(2, 9), (3, 2)] (withB [(1, [1, 0, 1, 1, 0])] r0)) (·.status) = some 0x201 := by
  decide +kernel
theorem test_pbSlice :
    got 0x18213400 (withX [(3, 1), (4, 4)] (withB [(1, [1, 0, 1, 1, 0])] r0)) (·.b[2]) = some (bits [0, 1, 1]) := by
  decide +kernel
theorem test_pbSlice_reversed :
    got 0x18213400 (withX [(3, 4), (4, 3)] (withB [(1, [1, 0, 1, 1, 0])] r0)) (·.status) = some 0x201 := by
  decide +kernel
theorem test_pbPop :
    got 0x19120000 (withB [(2, [1, 0, 1, 1, 0])] r0) (fun t => (t.x[1], t.b[2])) = some (0, bits [1, 0, 1, 1]) := by
  decide +kernel
theorem test_pbXor :
    got 0x1A312000 (withB [(1, [1, 0, 1, 1, 0]), (2, [1, 1])] r0) (·.b[3]) = some (bits [1, 0, 1, 0, 1]) := by
  decide +kernel
theorem test_pbToInt : got 0x1B210000 (withB [(1, [0, 1, 0, 1])] r0) (·.x[2]) = some 5 := by decide +kernel
theorem test_pbFromInt :
    got 0x1C312000 (withX [(1, 5), (2, 4)] r0) (·.b[3]) = some (bits [0, 1, 0, 1]) := by decide +kernel
theorem test_pbFromInt_too_wide :
    got 0x1C123000 (withX [(2, 8), (3, 3)] r0) (·.status) = some 0x201 := by decide +kernel
theorem test_pbPadR :
    got 0x1D123000 (withX [(2, 0), (3, 3)] (withB [(1, [1])] r0)) (·.b[1]) = some (bits [1, 0, 0, 0]) := by
  decide +kernel
theorem test_pbLen : got 0x1E120000 (withB [(2, [1, 0, 1, 1, 0])] r0) (·.x[1]) = some 5 := by decide +kernel
theorem test_pbCopy :
    got 0x1F420000 (withB [(2, [1, 0, 1, 1, 0])] r0) (·.b[4]) = some (bits [1, 0, 1, 1, 0]) := by decide +kernel

-- Streams (42_bit_streams.md; vectors section 4)
theorem test_srOpen : got 0x20000000 r0 (fun t => (t.reader.pos, t.status)) = some (0, 0x20000) := by decide +kernel
theorem test_srRdBit :
    gotAll [0x20000000, 0x21100000] (withIn [0xA5, 0x0F]) (fun t => (t.x[1], t.reader.pos)) = some (1, 1) := by
  decide +kernel
theorem test_srRdBit_at_end : gotAll [0x20000000, 0x21100000] r0 (fun t => (t.x[1], t.eos)) = some (2, true) := by
  decide +kernel
theorem test_srRdN :
    gotAll [0x20000000, 0x21100000, 0x22120000] (withX [(2, 3)] (withIn [0xA5])) (fun t => (t.b[1], t.reader.pos))
      = some (bits [0, 1, 0], 4) := by decide +kernel
theorem test_srRdN_partial :
    got 0x22240000 (withX [(4, 5)] { withIn [0xA5, 0x0F] with reader := ⟨true, 13⟩ })
      (fun t => (t.b[2], t.reader.pos, t.eos)) = some (bits [1, 1, 1], 16, true) := by decide +kernel
theorem test_srRdByte_unaligned :
    got 0x23300000 { withIn [0xA5, 0x0F] with reader := ⟨true, 4⟩ } (fun t => (t.x[3], t.reader.pos))
      = some (0x50, 12) := by decide +kernel
theorem test_srRdByte_seven_left :
    got 0x23500000 { withIn [0xA5, 0x0F] with reader := ⟨true, 9⟩ } (fun t => (t.x[5], t.reader.pos, t.eos))
      = some (256, 9, true) := by decide +kernel
theorem test_srClose : gotAll [0x24000000, 0x24000000] r0 (·.status) = some 0 := by decide +kernel
theorem test_swOpen :
    got 0x28000000 { r0 with output := [1, 2] } (fun t => (t.output, t.status)) = some ([], 0x40000) := by decide +kernel
theorem test_swWrBit_closed : got 0x29100000 r0 (·.status) = some 0x601 := by decide +kernel
theorem test_swClose_pads :
    gotAll [0x28000000, 0x29100000, 0x2A200000, 0x2C000000] (withX [(1, 1), (2, 0x41)] r0) (·.output)
      = some [0xA0, 0x80] := by decide +kernel
theorem test_swWrByte_flushes :
    gotAll [0x28000000, 0x2A200000, 0x2A200000]
      (withX [(2, 0x41)] { r0 with cfg := { r0.cfg with flushT := 1 } }) (fun t => (t.output, t.writer.pend))
      = some ([0x41, 0x41], []) := by decide +kernel
theorem test_swWrBuf :
    gotAll [0x28000000, 0x2B100000] (withB [(1, [1, 0, 1])] r0) (fun t => (t.writer.pend, t.output))
      = some (bits [1, 0, 1], []) := by decide +kernel
/-- Vectors section 10: a failed read. -/
theorem test_srRdBit_io_error :
    got 0x21100000 { withIn [0xA5] with reader := ⟨true, 0⟩, env := ⟨false, [], [true]⟩ }
      (fun t => (t.status, t.reader.pos, t.x[1])) = some (0x20A01, 0, 0) := by decide +kernel

-- Histogram (43_histogram.md; vectors section 5)
theorem test_fhCount :
    got 0x30000000 (withIn [0x61, 0x62, 0x63, 0x61]) (fun t => (t.hist[0x61], t.hist[0x62], t.report, t.progress))
      = some (2, 1, .success, 100) := by decide +kernel
theorem test_fhCount_cancelled :
    got 0x30000000 { withIn [0x61] with env := ⟨true, [], []⟩ } (fun t => (t.hist[0x61], t.report, t.progress))
      = some (0, .cancelled, 0) := by decide +kernel
theorem test_fhGet : got 0x31120000 (withX [(2, 0x61)] h5211) (·.x[1]) = some 5 := by decide +kernel
theorem test_fhClear : got 0x32000000 h5211 (·.hist[0x61]) = some 0 := by decide +kernel
theorem test_fhDistinct : got 0x33100000 h5211 (·.x[1]) = some 4 := by decide +kernel

-- Code tree (44_code_tree.md; vectors section 6)
/-- The tree of {0x61: 0, 0x62: 10, 0x63: 11}. -/
def tree3 : Machine.Tree := .node (.leaf 0x61) (.node (.leaf 0x62) (.leaf 0x63))

theorem test_ctFromMap :
    got 0x40000000 (withT [(0x61, [0]), (0x62, [1, 0]), (0x63, [1, 1])] r0) (·.tree) = some tree3 := by decide +kernel
theorem test_ctFromMap_conflict :
    got 0x40000000 (withT [(0x61, [0, 1]), (0x62, [0])] r0) (·.status) = some 0x401 := by decide +kernel
theorem test_ctToMap_first_leaf :
    got 0x41000000 { r0 with tree := .node (.leaf 0x61) (.leaf 0x61) } (fun t => (t.codes[0x61], t.codes[0x62]))
      = some (some (bits [0]), none) := by decide +kernel
theorem test_ctSer :
    gotAll [0x28000000, 0x42000000, 0x2C000000] { r0 with tree := tree3 } (·.output)
      = some [0x4B, 0x61, 0x62, 0x63] := by decide +kernel
theorem test_ctDeser :
    gotAll [0x20000000, 0x43000000] (withIn [0x4B, 0x61, 0x62, 0x63]) (fun t => (t.tree, t.reader.pos))
      = some (tree3, 32) := by decide +kernel
theorem test_ctDeser_third_child :
    gotAll [0x20000000, 0x43000000] (withIn [0x28]) (fun t => (t.status, t.reader.pos)) = some (0x20901, 0) := by
  decide +kernel
theorem test_ctFeed :
    gotAll [0x44120000, 0x44130000] (withX [(2, 1)] { r0 with tree := tree3 }) (fun t => (t.x[1], t.cur))
      = some (0x62, []) := by decide +kernel
theorem test_ctReset : got 0x45000000 { r0 with tree := tree3, cur := [true] } (·.cur) = some [] := by decide +kernel
theorem test_ctCode :
    got 0x46120000 (withX [(2, 0x62)] (withT [(0x62, [1, 0])] r0)) (·.b[1]) = some (bits [1, 0]) := by decide +kernel
theorem test_ctSetCode :
    got 0x47120000 (withX [(1, 0x61)] (withB [(2, [0])] r0)) (·.codes[0x61]) = some (some (bits [0])) := by
  decide +kernel

-- Builders (45_prefix_builders.md R242, R245)
theorem test_sfBuild :
    got 0x48000000 h5211 (fun t => (t.codes[0x61], t.codes[0x62], t.codes[0x63], t.codes[0x64]))
      = some (some (bits [0]), some (bits [1, 0]), some (bits [1, 1, 0]), some (bits [1, 1, 1])) := by decide +kernel
theorem test_hfBuild :
    gotAll [0x49000000, 0x41000000] h5211 (fun t => (t.codes[0x61], t.codes[0x62], t.codes[0x63], t.codes[0x64]))
      = some (some (bits [1]), some (bits [0, 0]), some (bits [0, 1, 0]), some (bits [0, 1, 1])) := by decide +kernel

-- Compression (46_compression.md R261, R262)
theorem test_cdCompress :
    got 0x50100000 (withX [(1, 0)] (withIn [0x61, 0x61, 0x62])) (fun t => (t.output, t.report))
      = some ([0x4A, 0xC2, 0xC4, 0x40], .success) := by decide +kernel
theorem test_cdDecompress :
    got 0x51000000 (withIn [0x4A, 0xC2, 0xC4, 0x40]) (fun t => (t.output, t.report))
      = some ([0x61, 0x61, 0x62], .success) := by decide +kernel

-- Hamming (47_hamming.md R283, R284, R286, R287)
theorem test_hmEnc :
    got 0x58210000 { withB [(1, [1, 0, 1, 1])] r0 with hamB := 8 } (·.b[2])
      = some (bits [0, 0, 1, 1, 0, 0, 1, 1]) := by decide +kernel
theorem test_hmDec_corrects :
    got 0x59413000 { withB [(3, [1, 0, 0, 1, 1, 1, 1, 0, 1, 0, 1, 0, 1, 0, 0, 1])] r0 with hamB := 16 }
      (fun t => (t.b[4], t.x[1], t.ham.fixed))
      = some (bits [1, 0, 1, 0, 0, 1, 0, 1, 0, 0, 1], 2, 1) := by decide +kernel
theorem test_hmFenc :
    got 0x5A000000 { withIn [0xA5] with hamB := 8 } (·.output) = some [0x00, 0x00, 0x00, 0x00, 0x5A, 0xA5] := by
  decide +kernel
theorem test_hmFdec :
    got 0x5B000000 { withIn [0x00, 0x00, 0x00, 0x00, 0x5A, 0xA5] with hamB := 8 }
      (fun t => (t.output, t.ham, t.report)) = some ([0xA5], ⟨0, 6, 0, 0⟩, .success) := by decide +kernel

-- CRC (48_crc.md R304–R309), G = 1011
theorem test_crcRem :
    got 0x60210000 (withB [(1, [1, 1, 0, 1, 0, 0, 0, 0])] r0) (·.b[2]) = some (bits [0, 0, 1, 0]) := by decide +kernel
theorem test_crcEnc :
    got 0x61210000 (withB [(1, [1, 1, 0, 1])] r0) (·.b[2]) = some (bits [1, 1, 0, 1, 0, 0, 1, 0]) := by decide +kernel
theorem test_crcDec_corrects :
    got 0x62231000 { withB [(1, [1, 1, 1, 1, 0, 0, 1, 0])] r0 with crcCorr := true }
      (fun t => (t.b[2], t.x[3], t.crc.fixed)) = some (bits [1, 1, 0, 1], 2, 1) := by decide +kernel
theorem test_crcFenc :
    got 0x63000000 { withIn [0xA5] with crcN := 4 } (·.output) = some [0xA6, 0x53] := by decide +kernel
theorem test_crcFdec :
    got 0x64000000 { withIn [0xA6, 0x53] with crcN := 4 } (fun t => (t.output, t.crc.ok)) = some ([0xA5], 2) := by
  decide +kernel

-- A step runs the word that withFetchWord places
theorem test_step_runs_the_placed_word :
    step (State.reset.withFetchWord 32 0x023ABCDE) = .next { State.reset.setX 3 703710 with pc := 1 } := by rfl


/-! ## Witnesses: for each statement with hypotheses, concrete states and operands that meet them, each clause at
boundary values. No theorem here says what the machine does; the tests above do. -/

/-- A halted block. -/
def halted : State := { r0 with fault := some .ioError }

/-- A block whose next I/O action fails. -/
def failing (s : State) : State := { s with env := { s.env with ioFails := [true] } }

theorem witness_EncodeAndDecodeAreInverse :
    decode 0x02000000 = .ok (.xLi 0 0) ∧ decode 0x02FFFFFF = .ok (.xLi 15 0xFFFFF) := by decide

theorem witness_IllegalWordsOnlyRaiseIllegalCommand_word : ¬ LegalWord 0x01000001 ∧ r0.fault = none := by
  unfold LegalWord; decide +kernel
theorem witness_IllegalWordsOnlyRaiseIllegalCommand_opcodes :
    ∀ op ∈ [0x07, 0x0F, 0x25, 0x27, 0x2D, 0x2F, 0x34, 0x3F, 0x4A, 0x4F, 0x52, 0x57, 0x5C, 0x5F, 0x65, 0xFF],
      (BitVec.ofNat 32 (op * 2 ^ 24)).toNat / 2 ^ 24 ∈
        List.range' 0x07 9 ++ List.range' 0x25 3 ++ List.range' 0x2D 3 ++ List.range' 0x34 12 ++
        List.range' 0x4A 6 ++ List.range' 0x52 6 ++ List.range' 0x5C 4 ++ List.range' 0x65 155 := by decide +kernel

theorem witness_StepRunsTheDecodedCommand :
    (∃ s : State, s.acts = .command 0x01000000 :: [] ∧ decode 0x01000000 = .ok .nop) ∧
    (∃ s : State, s.acts = .command 0 :: [] ∧ s.fault = none ∧ ¬ LegalWord 0) :=
  ⟨⟨{ r0 with acts := [.command 0x01000000] }, rfl, by decide⟩,
    ⟨{ r0 with acts := [.command 0] }, rfl, rfl, by unfold LegalWord; decide +kernel⟩⟩

theorem witness_StepTakesTheOtherHostActs_reader :
    ({ r0 with acts := [.supplyIn [1]] } : State).reader.isOpen = false ∧ [1].length < 2 ^ 64 ∧
    ({ r0 with acts := [.supplyIn [1]], reader := ⟨true, 0⟩ } : State).reader.isOpen = true := by decide
theorem witness_StepTakesTheOtherHostActs_long : ∃ bytes : List Byte, 2 ^ 64 ≤ bytes.length :=
  ⟨List.replicate (2 ^ 64) 0, by rw [List.length_replicate]⟩
theorem witness_StepTakesTheOtherHostActs_writer :
    ({ r0 with acts := [.supplyOut [1]] } : State).writer.isOpen = false ∧
    ({ r0 with acts := [.supplyOut [1]], writer := ⟨true, []⟩ } : State).writer.isOpen = true ∧
    ({ r0 with acts := [.reset] } : State).acts = [.reset] ∧ r0.acts = [] := by decide

theorem witness_CommandsAnswerNextAndKeepTheIndex :
    ({ r0 with acts := [.command 0] } : State).acts = .command 0 :: [] := rfl

/-- Also for CommandsWriteOnlyTheirRegisters, CommandsWriteOnlyTheirUnits, CommandsStoreOnlyByAppending:
a command that answers a next state, with a fault and without. -/
theorem witness_FaultEntryHasNoOtherEffect :
    r0.fault = none ∧ exec (.pbPop 1 2) r0 = .next (raised r0 .outOfRange) ∧
    (failing { withIn [1] with reader := ⟨true, 0⟩ }).fault = none ∧
    exec (.srRdBit 1) (failing { withIn [1] with reader := ⟨true, 0⟩ }) =
      .next (ioRaised (failing { withIn [1] with reader := ⟨true, 0⟩ })) :=
  ⟨rfl, rfl, rfl, rfl⟩
theorem witness_CommandsWriteOnlyTheirRegisters :
    exec (.xLi 3 5) r0 = .next (r0.setX 3 5) ∧ destX (.xLi 3 5) ≠ some 0 ∧ destX (.xLi 3 5) ≠ some 15 ∧
    destB (.xLi 3 5) ≠ some 0 := ⟨rfl, by decide, by decide, by decide⟩
theorem witness_CommandsWriteOnlyTheirUnits :
    exec .nop r0 = .next r0 ∧ reporting .nop = false ∧ readsStream .nop = false ∧ writesWriter .nop = false :=
  ⟨rfl, rfl, rfl, rfl⟩
theorem witness_CommandsStoreOnlyByAppending :
    exec .nop r0 = .next r0 ∧ writesWriter .nop = false ∧ fileLevel .nop = false ∧ appendsOut .swClose = true ∧
    (∃ t, exec .swClose { r0 with writer := ⟨true, [true]⟩, output := [7] } = .next t) ∧
    0 < ({ r0 with writer := ⟨true, [true]⟩, output := [7] } : State).output.length ∧
    (∃ t, exec .swOpen { r0 with output := [7] } = .next t) :=
  ⟨rfl, rfl, rfl, rfl, ⟨_, rfl⟩, by decide, ⟨_, rfl⟩⟩
theorem witness_FileLevelCommandsKeepTheUnitState :
    fileLevel .cdDecompress = true ∧ r0.fault = none ∧
    exec .cdDecompress r0 = .next { r0 with report := .emptyInput } ∧
    ({ r0 with report := .emptyInput } : State).fault = none := ⟨rfl, rfl, rfl, rfl⟩

theorem witness_HaltedBlockIgnoresCommands :
    halted.fault ≠ none ∧ (∀ xd csr, csrExists csr = true → decode 0x02100005 ≠ .ok (.csrR xd csr)) ∧
    csrExists 0x1A = true ∧ decode 0x05F0001A = .ok (.csrR 15 0x1A) ∧
    csrExists 0x1B = false ∧ decode 0x05F0001B = .ok (.csrR 15 0x1B) :=
  ⟨by decide, fun _ _ _ h => by rw [show decode 0x02100005 = .ok (.xLi 1 5) by decide] at h; simp at h,
    by decide, by decide, by decide, by decide⟩

theorem witness_OnlyResetClearsTheFault :
    halted.fault = some .ioError ∧ step halted = .next halted ∧ (∀ rest, halted.acts ≠ .reset :: rest) ∧
    ({ halted with acts := [.reset] } : State).acts = .reset :: [] :=
  ⟨rfl, rfl, fun _ h => (List.cons_ne_nil _ _ h.symm), rfl⟩

/-! Registers -/

theorem witness_CsrReadGivesTheListedValue :
    (0x00, 0) ∈ csrTable r0 ∧ (0x1A, 1048576) ∈ csrTable r0 ∧ 0x1A < (0x1B : BitVec 8).toNat ∧
    0x1A < (0xFF : BitVec 8).toNat ∧ r0.fault = none ∧ halted.fault ≠ none := by decide +kernel

theorem witness_CsrWriteChecksThenWrites_numbers :
    r0.fault = none ∧
    (∀ n ∈ [0x00, 0x01, 0x03, 0x06, 0x07, 0x10, 0x1A, 0x1B, 0xFF],
      n ∉ [(0x02 : BitVec 8), 0x04, 0x05, 0x08, 0x09, 0x0A, 0x0B, 0x0C, 0x0D, 0x0E, 0x0F]) ∧
    (0x08 : BitVec 8).toNat ≤ 0x08 ∧ (0x0F : BitVec 8).toNat ≤ 0x0F := by decide +kernel
theorem witness_CsrWriteChecksThenWrites_hamB :
    (∃ m, 2 ≤ m ∧ m ≤ 16 ∧ (withX [(1, 4)] r0).x[1] = 2 ^ m) ∧
    (∃ m, 2 ≤ m ∧ m ≤ 16 ∧ (withX [(1, 65536)] r0).x[1] = 2 ^ m) ∧
    ¬ (∃ m, 2 ≤ m ∧ m ≤ 16 ∧ (withX [(1, 2)] r0).x[1] = 2 ^ m) := by
  have two : (withX [(1, 2)] r0).x[1] = 2 ^ 1 := by decide +kernel
  refine ⟨⟨2, by decide +kernel⟩, ⟨16, by decide +kernel⟩, ?_⟩
  rintro ⟨m, h2, -, h⟩
  rw [two] at h
  have := Nat.pow_right_injective (le_refl 2) h
  omega
theorem witness_CsrWriteChecksThenWrites_values :
    1 ≤ (withX [(1, 1)] r0).x[1] ∧ r0.x[1] = 0 ∧ (withX [(1, 1)] r0).x[1] ≤ 1 ∧ 1 < (withX [(1, 2)] r0).x[1] ∧
    2 ^ 64 ≤ (withX [(1, 2 ^ 64)] r0).x[1] ∧ (withX [(1, 2 ^ 64 - 1)] r0).x[1] < 2 ^ 64 := by decide +kernel

/-- Also for ScalarCommandsMoveNumbers and BufferCommandsWithoutChecks. -/
theorem witness_ScalarCommandsMoveNumbers : r0.fault = none := rfl
theorem witness_BufferCommandsWithoutChecks : r0.fault = none := rfl

/-! Packed bits: the buffer 10110 in b[1] -/

def r10110 : State := withB [(1, [1, 0, 1, 1, 0])] r0

theorem witness_TruncSliceAndPopStayWithinTheBuffer_trunc :
    r10110.fault = none ∧ (withX [(2, 5)] r10110).x[2] ≤ (withX [(2, 5)] r10110).b[1].length ∧
    (withX [(2, 6)] r10110).b[1].length < (withX [(2, 6)] r10110).x[2] := by decide +kernel
theorem witness_TruncSliceAndPopStayWithinTheBuffer_slice :
    (let s := withX [(2, 5), (3, 5)] r10110
     s.b[1] = bits [1, 0, 1, 1, 0] ++ [] ++ [] ∧ s.x[2] = (bits [1, 0, 1, 1, 0]).length ∧
        s.x[3] = (bits [1, 0, 1, 1, 0]).length + ([] : Bits).length) ∧
    (let s := withX [(2, 1), (3, 4)] r10110
     s.b[1] = bits [1] ++ bits [0, 1, 1] ++ bits [0] ∧ s.x[2] = (bits [1]).length ∧
        s.x[3] = (bits [1]).length + (bits [0, 1, 1]).length) ∧
    (withX [(2, 3), (3, 2)] r10110).x[3] < (withX [(2, 3), (3, 2)] r10110).x[2] ∧
    (withX [(3, 6)] r10110).b[1].length < (withX [(3, 6)] r10110).x[3] := by decide +kernel
theorem witness_TruncSliceAndPopStayWithinTheBuffer_pop :
    r10110.b[1] = bits [1, 0, 1, 1] ++ [false] ∧ r0.b[1] = [] := by decide +kernel

theorem witness_AppendCommandsCheckTheirOperands :
    r0.fault = none ∧ r0.x[1] = false.toNat ∧ (withX [(1, 1)] r0).x[1] = true.toNat ∧
    1 < (withX [(1, 2)] r0).x[1] ∧ (withX [(1, 255)] r0).x[1] ≤ 255 ∧ 255 < (withX [(1, 256)] r0).x[1] := by
  decide +kernel
theorem witness_AppendCommandsCheckTheirOperands_part :
    (let s := withX [(1, 255), (2, 8)] r0; 1 ≤ s.x[2] ∧ s.x[2] ≤ 8 ∧ s.x[1] ≤ 255) ∧
    (let s := withX [(1, 0), (2, 1)] r0; 1 ≤ s.x[2] ∧ s.x[2] ≤ 8 ∧ s.x[1] ≤ 255) ∧
    r0.x[2] < 1 ∧ 8 < (withX [(2, 9)] r0).x[2] ∧
    (let s := withX [(1, 256), (2, 1)] r0; 1 ≤ s.x[2] ∧ s.x[2] ≤ 8 ∧ 255 < s.x[1]) := by decide +kernel

theorem witness_GetAndSetResolveTheIndex_start :
    r10110.b[1] = [] ++ true :: bits [0, 1, 1, 0] ∧ r10110.x[3] = (if false then 5 else ([] : Bits).length) ∧
    r10110.b[1] = bits [1, 0, 1, 1] ++ false :: [] ∧ (withX [(3, 4)] r10110).x[3] = (bits [1, 0, 1, 1]).length ∧
    r10110.b[1].length ≤ (withX [(3, 5)] r10110).x[3] := by decide +kernel
theorem witness_GetAndSetResolveTheIndex_end :
    (withX [(3, 1)] r10110).x[3] = ([] : Bits).length + 1 ∧
    (withX [(3, 5)] r10110).x[3] = (bits [0, 1, 1, 0]).length + 1 ∧
    r10110.x[3] < 1 ∧ r10110.b[1].length < (withX [(3, 6)] r10110).x[3] ∧
    1 < (withX [(4, 2)] r10110).x[4] ∧ (withX [(4, 1)] r10110).x[4] = true.toNat := by decide +kernel

theorem witness_IntegerConversionIsExact :
    0 < 2 ^ 0 ∧ 255 < 2 ^ 8 ∧ r0.fault = none ∧
    (let s := withX [(2, 15), (3, 4)] r0; s.x[2] < 2 ^ s.x[3]) ∧
    (let s := withX [(2, 16), (3, 4)] r0; 2 ^ s.x[3] ≤ s.x[2]) := by decide +kernel
theorem witness_XorAlignsAtTheTail :
    (bits [1, 0]).length = (bits [1, 1]).length ∧ ([] : Bits).length = ([] : Bits).length ∧ r0.fault = none := by
  decide

/-! Bytes and streams -/

theorem witness_PackedFormPutsTheFirstBitHighest :
    (pack (bits [1, 0, 1]))[0 / 8]? = some 0xA0 ∧ (pack (bits [1, 0, 1]))[7 / 8]? = some 0xA0 := by decide
theorem witness_MemReadGivesBitsHighFirst :
    3 + 13 ≤ 8 * ([0xA5, 0x0F] : List Byte).length ∧ 12 < 13 ∧ 16 + 0 ≤ 8 * ([0xA5, 0x0F] : List Byte).length := by
  decide

theorem witness_StreamUnitsOpenAndClose :
    r0.fault = none ∧ ioFailsNext r0 = false ∧ ioFailsNext (failing r0) = true ∧
    ({ r0 with writer := ⟨true, [true]⟩ } : State).writer.isOpen = true ∧
    (failing { r0 with writer := ⟨true, [true]⟩ }).writer.isOpen = true ∧ r0.writer.isOpen = false := by decide

/-- A reader at bit `p` of a two-byte IN. -/
def reading (p : Nat) : State := { withIn [0xA5, 0x0F] with reader := ⟨true, p⟩ }

theorem witness_ReaderReadsAtAnyPosition_bit :
    (reading 0).fault = none ∧ r0.reader.isOpen = false ∧ (reading 0).reader.isOpen = true ∧
    8 * (reading 16).input.length ≤ (reading 16).reader.pos ∧
    (reading 15).reader.pos < 8 * (reading 15).input.length ∧ ioFailsNext (reading 15) = false ∧
    (failing (reading 15)).reader.pos < 8 * (failing (reading 15)).input.length ∧
    ioFailsNext (failing (reading 15)) = true := by decide
theorem witness_ReaderReadsAtAnyPosition_bits :
    (let s := withX [(2, 16)] (reading 0); s.reader.pos + s.x[2] ≤ 8 * s.input.length) ∧
    (let s := withX [(2, 17)] (reading 0);
      8 * s.input.length < s.reader.pos + s.x[2] ∧ s.reader.pos ≤ 8 * s.input.length) ∧
    (let s := withX [(2, 1)] (reading 16);
      8 * s.input.length < s.reader.pos + s.x[2] ∧ s.reader.pos ≤ 8 * s.input.length) := by decide +kernel
theorem witness_ReaderReadsAtAnyPosition_byte :
    8 * (reading 9).input.length < (reading 9).reader.pos + 8 ∧
    (reading 8).reader.pos + 8 ≤ 8 * (reading 8).input.length ∧ ioFailsNext (reading 8) = false ∧
    (failing (reading 8)).reader.pos + 8 ≤ 8 * (failing (reading 8)).input.length ∧
    ioFailsNext (failing (reading 8)) = true := by decide

/-- An open writer that flushes when more than one whole byte is pending. -/
def writing (pend : List Nat) : State :=
  { r0 with writer := ⟨true, bits pend⟩, cfg := { r0.cfg with flushT := 1 } }

theorem witness_WriterAppendsAndFlushes :
    (writing []).fault = none ∧ r0.writer.isOpen = false ∧ (writing []).writer.isOpen = true ∧
    1 < (withX [(1, 2)] (writing [])).x[1] ∧ 255 < (withX [(1, 256)] (writing [])).x[1] ∧
    (writing []).x[1] = false.toNat ∧ (withX [(1, 255)] (writing [])).x[1] ≤ 255 := by decide +kernel
theorem witness_WriterAppendsAndFlushes_flush :
    ¬ Flushes (writing [1, 0, 1, 0, 1, 0, 1]) (bitsOf 8 0x41) ∧
    Flushes (writing [1, 0, 1, 0, 1, 0, 1, 0]) (bitsOf 8 0x41) ∧
    ioFailsNext (writing [1, 0, 1, 0, 1, 0, 1, 0]) = false ∧
    Flushes (failing (writing [1, 0, 1, 0, 1, 0, 1, 0])) (bitsOf 8 0x41) ∧
    ioFailsNext (failing (writing [1, 0, 1, 0, 1, 0, 1, 0])) = true := by
  unfold Flushes; decide +kernel

/-- Other commands stand between the writes, and change the operand of one. -/
theorem witness_WrittenBitsReachOutWhole :
    (∀ i ∈ [Instr.xLi 1 1, .swWrBit 1, .pbAppBit 1 1, .swWrBuf 1], i ≠ .swOpen ∧ i ≠ .swClose) ∧
    r10110.fault = none ∧
    ∃ opened, exec .swOpen r10110 = .next opened ∧ opened.fault = none ∧
      (∃ t, runAll [.xLi 1 1, .swWrBit 1, .pbAppBit 1 1, .swWrBuf 1] opened = .next t ∧ t.fault = none) ∧
      (∃ t, runAll ([.xLi 1 1, .swWrBit 1, .pbAppBit 1 1, .swWrBuf 1] ++ [.swClose]) opened = .next t ∧
        t.fault = none) ∧
      writtenAlong [.xLi 1 1, .swWrBit 1, .pbAppBit 1 1, .swWrBuf 1] opened = bits [1, 1, 0, 1, 1, 0, 1] :=
  ⟨by decide, rfl, _, rfl, rfl, ⟨_, rfl, rfl⟩, ⟨_, rfl, rfl⟩, by decide +kernel⟩

/-! Histogram and tables -/

theorem quiet_reset : Quiet r0.env := ⟨rfl, by simp [r0, State.reset], by simp [r0, State.reset]⟩

/-- IN of three bytes, two a chunk: two chunks. -/
def chunks2 (polls ioFails : List Bool) : State :=
  { withIn [1, 2, 3] with env := ⟨false, polls, ioFails⟩, cfg := { r0.cfg with chunkBytes := 2 } }

/-- Each end of the command at its first and its last chunk: a listed 1, the level 1 after the list, a failed read. -/
theorem witness_CountGivesTheBytesOfIn :
    (chunks2 [] []).fault = none ∧ 1 ≤ (chunks2 [] []).cfg.chunkBytes ∧
    ceilDiv (chunks2 [] []).input.length (chunks2 [] []).cfg.chunkBytes = 2 ∧
    (∀ j, j < 2 → pollSees (chunks2 [] []).env j = false ∧ failsAt (chunks2 [] []).env j = false) ∧
    (∀ s ∈ [chunks2 [true] [], { chunks2 [] [] with env := ⟨true, [], []⟩ }], pollSees s.env 0 = true) ∧
    (∀ s ∈ [chunks2 [false, true] [false, true], { chunks2 [] [] with env := ⟨true, [false], []⟩ }],
      (∀ j, j < 1 → pollSees s.env j = false ∧ failsAt s.env j = false) ∧ pollSees s.env 1 = true) ∧
    (pollSees (chunks2 [] [true]).env 0 = false ∧ failsAt (chunks2 [] [true]).env 0 = true) ∧
    ((∀ j, j < 1 → pollSees (chunks2 [] [false, true]).env j = false ∧
        failsAt (chunks2 [] [false, true]).env j = false) ∧
      pollSees (chunks2 [] [false, true]).env 1 = false ∧ failsAt (chunks2 [] [false, true]).env 1 = true) := by
  decide

theorem witness_TablesAreReadAndWrittenBySymbol :
    r0.fault = none ∧ (withX [(2, 255)] r0).x[2] = (255#8).toNat ∧ 255 < (withX [(2, 256)] r0).x[2] ∧
    (withT [(255, [1, 0])] r0).codes[(255#8).toFin] = some (bits [1, 0]) ∧ r0.codes[(255#8).toFin] = none ∧
    r0.b[1] = [] ∧ r10110.b[1] ≠ [] := by decide +kernel

theorem witness_OrderedHistogramIsSorted :
    orderedHist h5211.hist = [(0x61, 5), (0x62, 2), (0x63, 1), (0x64, 1)] := by decide +kernel

/-! Code tree -/

theorem witness_FromMapBuildsPrefixFreeTables_empty : ∀ v : Fin 256, r0.codes[v] = none := by
  simp [r0, State.reset]
theorem witness_FromMapBuildsPrefixFreeTables_conflict :
    ¬ PrefixFree (withT [(0x61, [0, 1]), (0x62, [0])] r0).codes ∧
    (∃ v : Fin 256, ({ r0 with codes := r0.codes.set 7 (some []) } : State).codes[v] = some []) := by
  refine ⟨fun h => h 0x62 0x61 (bits [0]) (bits [0, 1]) (by decide) (by decide +kernel) (by decide +kernel) ?_, 7, ?_⟩
  · decide
  · decide +kernel
theorem witness_FromMapBuildsPrefixFreeTables_single : OnlyZeroCode (withT [(0x61, [0])] r0).codes 0x61 := by
  intro u
  have all : ∀ u : Fin 256, (withT [(0x61, [0])] r0).codes[u] = if u = 0x61 then some [false] else none := by
    intro u
    simp only [withT, tableOf, bits, List.map, List.foldl, Fin.getElem_fin, Vector.getElem_set,
      Vector.getElem_replicate]
    by_cases h : u = 0x61
    · subst h; rfl
    · have : ¬ (BitVec.toFin (0x61 : Byte)).val = u.val := fun e => h (Fin.ext e.symm)
      rw [if_neg this, if_neg h]
  have hu := all u.toFin
  by_cases h : u = 0x61
  · subst h; simpa using hu
  · have : u.toFin ≠ 0x61 := fun e => h (by apply BitVec.eq_of_toFin_eq; exact e)
    rw [if_neg this] at hu
    rw [if_neg h]
    exact hu

/-- A table with one code is prefix-free. -/
theorem prefixFree_single (v : Byte) (c : Bits) :
    PrefixFree (({ r0 with codes := r0.codes.set v.toFin (some c) } : State).codes) := by
  intro a b ca cb hab ha hb
  simp only [r0, State.reset, Fin.getElem_fin, Vector.getElem_set, Vector.getElem_replicate] at ha hb
  split at ha <;> split at hb
  · exact absurd (Fin.ext (by omega)) hab
  all_goals simp at ha hb

/-- The table {7: code of n 1s}: its tree has n + 1 nodes. -/
def ones (n : Nat) : State := { r0 with codes := r0.codes.set 7 (some (List.replicate n true)) }

theorem witness_FromMapBuildsPrefixFreeTables_other (n : Nat) (hn : 0 < n) :
    (∃ v : Fin 256, (ones n).codes[v] ≠ none) ∧ (∀ v : Fin 256, (ones n).codes[v] ≠ some []) ∧
    PrefixFree (ones n).codes ∧ (∀ v, ¬ OnlyZeroCode (ones n).codes v) := by
  refine ⟨⟨7, by simp [ones]⟩, fun v => ?_, prefixFree_single 7 _, fun v h => ?_⟩
  · simp only [ones, Fin.getElem_fin, Vector.getElem_set]
    split
    · cases n <;> simp_all [List.replicate]
    · simp [r0, State.reset]
  · have h7 := h 7
    cases n with
    | zero => omega
    | succ n => exact absurd h7 (by simp [ones, List.replicate])
theorem witness_FromMapBuildsPrefixFreeTables_most_nodes :
    (match treeOfCodes (ones 510).codes with | .ok t => t.nodeCount == 511 | .error _ => false) = true := by
  decide +kernel

theorem witness_ToMapTakesTheFirstLeaf : r0.fault = none := rfl

theorem fullTree_tree3 : FullTree tree3 := by unfold FullTree; decide

theorem witness_SerWritesShapeThenLeaves :
    r0.writer.isOpen = false ∧ (writing []).fault = none ∧ (writing []).writer.isOpen = true ∧
    (writing []).tree.full = false ∧ ({ writing [] with tree := tree3 } : State).tree.full = true ∧
    tree3.full = true ∧ (Machine.Tree.leaf 0x61) ≠ .absent := by decide

/-- The bits of a full tree are more than 16. -/
theorem serialize_long (t : Machine.Tree) (h : FullTree t) : 16 ≤ t.serialize.length := by
  have below : ∀ u : Machine.Tree, u.fullBelow = true → 8 ≤ (u.leaves.flatMap byteBits).length := by
    intro u
    induction u with
    | absent => simp [Tree.fullBelow]
    | leaf v => intro _; decide +revert
    | node l r hl hr =>
      intro hf
      simp only [Tree.fullBelow, Bool.and_eq_true] at hf
      have := hl hf.1
      simp only [Tree.leaves, List.flatMap_append, List.length_append]
      omega
  cases t with
  | absent => simp [FullTree, Tree.full] at h
  | leaf v => simp [FullTree, Tree.full] at h
  | node l r =>
    obtain ⟨hf, -⟩ := h
    simp only [Tree.full, Bool.and_eq_true] at hf
    have := below l hf.1
    have := below r hf.2
    simp only [Tree.serialize, Tree.leaves, List.flatMap_append, List.length_append]
    omega

theorem witness_DeserAcceptsExactlySerializations :
    (reading 16).fault = none ∧ r0.reader.isOpen = false ∧ (reading 16).reader.isOpen = true ∧
    8 * (reading 16).input.length ≤ (reading 16).reader.pos ∧
    (failing (reading 15)).reader.pos < 8 * (failing (reading 15)).input.length ∧
    ioFailsNext (failing (reading 15)) = true ∧ ioFailsNext (reading 15) = false := by decide
theorem witness_DeserAcceptsExactlySerializations_tree :
    FullTree tree3 ∧
    (streamBits [0x4B, 0x61, 0x62, 0x63]).drop 0 = tree3.serialize ++ [] ∧
    (streamBits [0x09, 0x6C, 0x2C, 0x4C, 0x60]).drop 3 = tree3.serialize ++ bits [0, 0, 0, 0, 0] :=
  ⟨fullTree_tree3, by decide, by decide⟩
theorem witness_DeserAcceptsExactlySerializations_none :
    (reading 8).reader.pos < 8 * (reading 8).input.length ∧
    ∀ (t : Machine.Tree) (rest : Bits), FullTree t → (streamBits (reading 8).input).drop 8 ≠ t.serialize ++ rest := by
  refine ⟨by decide, fun t rest h e => ?_⟩
  have hl := congrArg List.length e
  have := serialize_long t h
  rw [show ((streamBits (reading 8).input).drop 8).length = 8 by decide, List.length_append] at hl
  omega

theorem witness_TreeRoundTripKeepsEveryCode :
    FullTree tree3 ∧
    (let s : State := { writing [] with tree := tree3 }
     s.fault = none ∧ s.writer.isOpen = true ∧ ioFailsNext s = false ∧ s.tree = tree3) ∧
    (let s : State := { withIn [0x4B, 0x61, 0x62, 0x63] with reader := ⟨true, 0⟩ }
     s.fault = none ∧ s.reader.isOpen = true ∧ ioFailsNext s = false ∧
       (streamBits s.input).drop s.reader.pos = tree3.serialize ++ []) ∧
    (∃ u, exec .ctToMap { r0 with tree := tree3 } = .next u ∧ u.codes[(0x63#8).toFin] = some (bits [1, 1])) :=
  ⟨fullTree_tree3, by decide, by decide, ⟨_, rfl, by decide +kernel⟩⟩

theorem witness_FeedWalksTheTree :
    (let s : State := { r0 with tree := tree3 }
     s.fault = none ∧ 1 < (withX [(2, 2)] s).x[2] ∧ s.x[2] = false.toNat ∧
       s.tree.at (s.cur ++ [false]) = .leaf 0x61 ∧
       s.tree.at (s.cur ++ [true]) = .node (.leaf 0x62) (.leaf 0x63)) ∧
    r0.tree.at (r0.cur ++ [true]) = .absent := by decide +kernel

/-! Builders -/

theorem witness_ShannonFanoSplitsAtTheBestBalance :
    orderedHist r0.hist = [] ∧ orderedHist (r0.hist.set 0xFF 1) = [(0xFF, 1)] ∧
    2 ≤ (orderedHist ((r0.hist.set 0xFF 1).set 0 1)).length ∧ r0.fault = none := by decide +kernel
theorem witness_HuffmanMergesTheSmallestKeys :
    orderedHist r0.hist = [] ∧ orderedHist (r0.hist.set 0xFF 1) = [(0xFF, 1)] ∧
    2 ≤ (orderedHist ((r0.hist.set 0xFF 1).set 0 1)).length ∧ r0.fault = none := by decide +kernel
theorem witness_BuildersGiveCompletePrefixCodes :
    (∃ v : Fin 256, 0 < h5211.hist[v]) ∧ (∃ v : Fin 256, 0 < (r0.hist.set 0xFF 1)[v]) :=
  ⟨⟨0x61, by decide +kernel⟩, ⟨0xFF, by decide +kernel⟩⟩

/-! File-level commands -/

theorem ready_reset : Ready r0 := ⟨rfl, rfl, rfl⟩

theorem witness_FileCommandsCheckBeforeRunning :
    r0.fault = none ∧ 1 < (withX [(1, 2)] r0).x[1] ∧ r0.hamB = 0 ∧ r0.crcN = 0 ∧
    (reading 0).reader.isOpen = true ∧ (writing []).writer.isOpen = true ∧ (withX [(1, 1)] (reading 0)).x[1] ≤ 1 ∧
    ({ reading 0 with hamB := 4, crcN := 1 } : State).hamB ≠ 0 ∧
    ({ reading 0 with hamB := 4, crcN := 1 } : State).crcN ≠ 0 ∧
    r0.reader.isOpen = false ∧ r0.writer.isOpen = false ∧ r0.input = [] := by decide +kernel

theorem hamSize_4 : HamSize 4 := ⟨2, by decide⟩
theorem hamSize_8 : HamSize 8 := ⟨3, by decide⟩
theorem hamSize_65536 : HamSize 65536 := ⟨16, by decide⟩
theorem legalPoly_shortest : LegalPoly (bits [1, 1]) := by unfold LegalPoly; decide
theorem legalPoly_1011 : LegalPoly (bits [1, 0, 1, 1]) := by unfold LegalPoly; decide

/-- A block with B = 8, N = 4 and FLUSH_T = 1, in the environment `e`; `alg` in x[1]. -/
def filing (alg : Nat) (bytes : List Byte) (e : Env) : State :=
  { withX [(1, alg)] (withIn bytes) with hamB := 8, crcN := 4, env := e, cfg := { r0.cfg with flushT := 1 } }

/-- What CD.COMPRESS builds for the one byte A5, by Shannon-Fano and by Huffman. -/
theorem builds_one_byte (alg : Nat) (h : alg = 0 ∨ alg = 1) : ∃ tree codes, Builds alg [0xA5] tree codes := by
  have count : ∀ v : Byte, (r0.hist.set 0xA5 1)[v.toFin] = ([0xA5] : List Byte).count v := by
    intro v
    have : v.toNat = 165 ↔ v = 0xA5 := by rw [BitVec.toNat_eq]; simp
    simp [r0, State.reset, Vector.getElem_set, List.count_singleton]
    grind
  let codes := r0.codes.set 0xA5 (some [false])
  let tree := Machine.Tree.node (.leaf 0xA5) (.leaf 0xA5)
  let s : State := { r0 with hist := r0.hist.set 0xA5 1 }
  have sf : sfTable s.hist = some codes := Option.map_injective (fun _ _ => Vector.toList_inj.mp)
    (by decide +kernel : (sfTable s.hist).map Vector.toList = (some codes).map Vector.toList)
  have ct : treeOfCodes codes = .ok tree := by rfl
  have hf : hufTree s.hist = some tree := by decide +kernel
  refine ⟨tree, codes, ?_⟩
  rcases h with rfl | rfl
  · refine ⟨s, { s with codes := codes }, { s with codes := codes, tree := tree }, rfl, count, ?_, rfl, ?_, rfl, rfl,
      rfl⟩
    · change execSfBuild s = _
      simp only [execSfBuild, sf]; rfl
    · change execCtFromMap { s with codes := codes } = _
      simp only [execCtFromMap, ct]; rfl
  · refine ⟨s, { s with tree := tree }, { s with codes := codes, tree := tree }, rfl, count, ?_, rfl, ?_, rfl, rfl, rfl⟩
    · change execHfBuild s = _
      simp only [execHfBuild, hf]; rfl
    · have : codesOfTree tree = codes := Vector.toList_inj.mp (by decide +kernel)
      change Host.Outcome.next { s with tree := tree, codes := codesOfTree tree } = _
      rw [this]

/-- Also for CompressedFilesDecompress. -/
theorem witness_CompressWritesTheFormat :
    Ready (withIn [0x61, 0x61, 0x62]) ∧ Quiet (withIn [0x61, 0x61, 0x62]).env ∧
    (withX [(1, 0)] (withIn [0x61, 0x61, 0x62])).x[1] ≤ 1 ∧ (withX [(1, 1)] (withIn [0])).x[1] ≤ 1 ∧
    (withIn [0]).input ≠ [] ∧ 1 ≤ (withIn [0]).cfg.chunkBytes ∧ 1 ≤ (chunks2 [] []).cfg.chunkBytes :=
  ⟨⟨rfl, rfl, rfl⟩, quiet_reset, by decide +kernel, by decide +kernel, by decide, by decide, by decide⟩
theorem witness_CompressedFilesDecompress :
    got 0x50100000 (withIn [0x61, 0x61, 0x62]) (·.output) = some (withIn [0x4A, 0xC2, 0xC4, 0x40]).input ∧
    Ready (withIn [0x4A, 0xC2, 0xC4, 0x40]) ∧ Quiet (withIn [0x4A, 0xC2, 0xC4, 0x40]).env :=
  ⟨by decide +kernel, ⟨rfl, rfl, rfl⟩, quiet_reset⟩

/-- Symbols 62 61 with the tree of {61: 0, 62: 10, 63: 11}, then a partial code 1, then a padding bit 1; an empty
payload with five padding bits, not all 0. -/
theorem witness_DecompressWritesTheCodedBytes :
    Ready (withIn [0xE9, 0x6C, 0x2C, 0x4C, 0x73]) ∧ Quiet (withIn [0xE9, 0x6C, 0x2C, 0x4C, 0x73]).env ∧
    FullTree tree3 ∧ (∀ e ∈ [(bits [1, 0], (0x62 : Byte)), (bits [0], 0x61)], tree3.at e.1 = .leaf e.2) ∧
    (tree3.at (bits [1])).isNode = true ∧ (tree3.at []).isNode = true ∧
    streamBits [0xE9, 0x6C, 0x2C, 0x4C, 0x73] =
      compressedBits tree3 ([(bits [1, 0], (0x62 : Byte)), (bits [0], 0x61)].flatMap Prod.fst ++ bits [1]) ++
        bits [1] ∧
    streamBits [0x69, 0x6C, 0x2C, 0x4C, 0x69] = compressedBits tree3 [] ++ bits [0, 1, 0, 0, 1] :=
  ⟨⟨rfl, rfl, rfl⟩, quiet_reset, fullTree_tree3, by decide, by decide, by decide, by decide +kernel,
    by decide +kernel⟩
theorem witness_DecompressWritesTheCodedBytes_noTree :
    Ready (withIn [0xA5]) ∧ (withIn [0xA5]).input ≠ [] ∧
    ∀ (t : Machine.Tree) (rest : Bits), FullTree t → (streamBits (withIn [0xA5]).input).drop 3 ≠ t.serialize ++ rest := by
  refine ⟨⟨rfl, rfl, rfl⟩, by decide, fun t rest h e => ?_⟩
  have hl := congrArg List.length e
  have := serialize_long t h
  rw [show ((streamBits (withIn [0xA5]).input).drop 3).length = 5 by decide, List.length_append] at hl
  omega
/-- The tree takes 32 bits; F = 1 leaves 33 bits for F and tree, F = 3 the 35 they need. -/
theorem witness_DecompressWritesTheCodedBytes_cut :
    (streamBits [0x29, 0x6C, 0x2C, 0x4C, 0x60]).drop 3 = tree3.serialize ++ bits [0, 0, 0, 0, 0] ∧
    natOfBits ((streamBits [0x29, 0x6C, 0x2C, 0x4C, 0x60]).take 3) = 1 ∧
    8 * (5 - 1) + (if 1 = 0 then 8 else 1) < 3 + tree3.serialize.length ∧
    ¬ 8 * (5 - 1) + (if 3 = 0 then 8 else 3) < 3 + tree3.serialize.length := by decide

/-- A course of each of the eight forms, from a ready state; the file decompressed ends with a padding bit 1. -/
theorem witness_FirstPollCancelsAndFirstFailureReports (e : Env) :
    (∀ alg bytes, Ready (filing alg bytes e)) ∧
    (∀ alg, alg = 0 ∨ alg = 1 → ∃ es, Course (filing alg [0xA5] e) (.cdCompress 1) es .success) ∧
    (∃ es, Course (filing 0 [0xE9, 0x6C, 0x2C, 0x4C, 0x73] e) .cdDecompress es .success) ∧
    Course (filing 0 [0xA5] e) .cdDecompress [.read, .read] .failure ∧
    Course (filing 0 [0x29, 0x6C, 0x2C, 0x4C, 0x60] e) .cdDecompress [.read, .read] .failure ∧
    Course (filing 0 [0xA5] e) .hmFenc (hamEncodeEvents 8 [0xA5]) .success ∧
    (∃ es r, Course (filing 0 [0, 0, 0, 0, 0x5A, 0xA5] e) .hmFdec es r) ∧
    (∃ es, Course (filing 0 [0xA5] e) .crcFenc es .success) ∧
    (∃ es, Course (filing 0 [0xA6, 0x53] e) .crcFdec es .success) := by
  refine ⟨fun _ _ => ⟨rfl, rfl, rfl⟩, fun alg h => ?_, ?_, ?_, ?_, .hamEncode hamSize_8,
    ⟨_, _, .hamDecode hamSize_8⟩, ⟨_, .crcEncode (show 1 ≤ 4 by decide) legalPoly_1011⟩,
    ⟨_, .crcDecode 1 (show 1 ≤ 4 by decide) legalPoly_1011
      (show OriginalBytes 4 4 2 1 by unfold OriginalBytes; decide)⟩⟩
  · obtain ⟨tree, codes, hb⟩ := builds_one_byte alg h
    exact ⟨_, .compress 1 tree codes (show alg ≤ 1 by omega) nofun (show 1 ≤ 1048576 by decide)
      (show Builds alg [0xA5] tree codes from hb)⟩
  · exact ⟨_, .decompress tree3 [(bits [1, 0], 0x62), (bits [0], 0x61)] (bits [1]) (bits [1])
      (show 1 ≤ 1048576 by decide) fullTree_tree3 (by decide) (by decide)
      (show streamBits [0xE9, 0x6C, 0x2C, 0x4C, 0x73] = _ by decide +kernel) (by decide)⟩
  · exact .noTree nofun witness_DecompressWritesTheCodedBytes_noTree.2.2
  · exact .cutTree tree3 (bits [0, 0, 0, 0, 0]) nofun fullTree_tree3
      (show (streamBits [0x29, 0x6C, 0x2C, 0x4C, 0x60]).drop 3 = _ by decide)
      witness_DecompressWritesTheCodedBytes_cut.2.2.1

/-- The ends of HM.FENC of the byte A5 with B = 8: its own; a 1 at the first poll and at the last, which the level of
the signal gives after the list; a failing read of the first and of the last body block; a failing flush at the
second and at the last block. -/
theorem witness_FirstPollCancelsAndFirstFailureReports_ends :
    let es := hamEncodeEvents 8 [0xA5]
    let quietUntil := fun (e : Env) (pre : List Event) =>
      (∀ j, j < pollCount pre → pollSees e j = false) ∧ (∀ j, j < ioCount 1 pre → failsAt e j = false)
    ioFailsNext (filing 0 [0xA5] ⟨false, [], [true]⟩) = true ∧
    quietUntil ⟨false, [], []⟩ es ∧
    (es = [] ++ .poll :: es.drop 1 ∧ pollSees ⟨false, [true], []⟩ 0 = true) ∧
    (es = es.take 16 ++ .poll :: es.drop 17 ∧ quietUntil ⟨true, List.replicate 5 false, []⟩ (es.take 16) ∧
      pollSees ⟨true, List.replicate 5 false, []⟩ (pollCount (es.take 16)) = true) ∧
    (∀ n ∈ [13, 17], es = es.take n ++ .read :: es.drop (n + 1) ∧
      (let e : Env := ⟨false, [], List.replicate (ioCount 1 (es.take n)) false ++ [true]⟩
       quietUntil e (es.take n) ∧ failsAt e (ioCount 1 (es.take n)) = true)) ∧
    (∀ n ∈ [4, 18], ∃ v, es = es.take n ++ .write v :: es.drop (n + 1) ∧
      1 < (pendCount 1 (es.take n) + v.length) / 8 ∧
      (let e : Env := ⟨false, [], List.replicate (ioCount 1 (es.take n)) false ++ [true]⟩
       quietUntil e (es.take n) ∧ failsAt e (ioCount 1 (es.take n)) = true)) := by
  refine ⟨by decide, by decide +kernel, by decide +kernel, by decide +kernel, by decide +kernel, ?_⟩
  intro n hn
  simp only [List.mem_cons, List.not_mem_nil, or_false] at hn
  rcases hn with rfl | rfl
  · exact ⟨_, by rfl, by decide +kernel, by decide +kernel⟩
  · exact ⟨_, by rfl, by decide +kernel, by decide +kernel⟩

/-! Hamming -/

theorem witness_HammingBlockCommands :
    r0.fault = none ∧ r0.hamB = 0 ∧
    (let s : State := { withB [(1, [1, 0, 1])] r0 with hamB := 8 }
     s.hamB ≠ 0 ∧ s.b[1].length ≠ infoBits s.hamB ∧ s.b[1].length ≠ s.hamB) ∧
    HamSize 4 ∧ (bits [1]).length = infoBits 4 ∧ HamSize 65536 ∧ infoBits 65536 = 65519 := by
  refine ⟨rfl, rfl, by decide +kernel, hamSize_4, by decide, hamSize_65536, by decide⟩
theorem witness_HammingBlockCommands_outcomes :
    xorOfPositions (bits [0, 0, 1, 1, 0, 0, 1, 1]) = 0 ∧
    (xorOfPositions (bits [0, 0, 1, 1, 0, 0, 1, 0]) = 7 ∧ oddParity (bits [0, 0, 1, 1, 0, 0, 1, 0]) = true) ∧
    (xorOfPositions (bits [1, 0, 1, 1, 0, 0, 1, 0]) ≠ 0 ∧ oddParity (bits [1, 0, 1, 1, 0, 0, 1, 0]) = false) := by
  decide
theorem witness_HammingCorrectsOneAndDetectsTwo :
    HamSize 4 ∧ (bits [1]).length = infoBits 4 ∧ HamSize 65536 ∧
    (List.replicate 65519 true).length = infoBits 65536 ∧ 1 ≤ 3 ∧ 3 < 4 ∧ 0 < 4 ∧ 0 ≠ 3 :=
  ⟨hamSize_4, by decide, hamSize_65536, by rw [List.length_replicate]; decide, by decide⟩
theorem witness_HammingFilesHaveTheFormat :
    Ready { withIn [0xA5] with hamB := 8 } ∧ Quiet ({ withIn [0xA5] with hamB := 8 } : State).env ∧ HamSize 8 ∧
    HamSize 4 ∧ HamSize 65536 :=
  ⟨⟨rfl, rfl, rfl⟩, quiet_reset, ⟨3, by decide⟩, hamSize_4, hamSize_65536⟩
/-- The vector of 47_hamming.md R286, and the empty message. -/
theorem witness_HammingFilesDecode :
    [0x00, 0x00, 0x00, 0x00, 0x5A, 0xA5] = pack (hamFile 8 [0xA5]).flatten ∧
    [0x00, 0x00, 0x00, 0x00] = pack (hamFile 8 []).flatten ∧
    (0 < ([0xFF] : List Byte).length ∧ 8 * ([0xFF] : List Byte).length < 16) ∧ HamSize 16 ∧ r0.input = [] :=
  ⟨by decide +kernel, by decide +kernel, by decide, ⟨4, by decide⟩, rfl⟩
/-- One flip at p = 1 or at p = B − 1 in some of the blocks. -/
theorem witness_HammingFilesDecode_flips :
    let flips : List (Option Nat) := [some 1, none, some 7, none, some 1, some 7]
    flips.length = (hamFile 8 [0xA5]).length ∧ (∀ p, some p ∈ flips → 1 ≤ p ∧ p < 8) ∧
    [0x40, 0x00, 0x01, 0x00, 0x1A, 0xA4] = pack ((List.zipWith
      (fun c f => match f with | some p => flipAt c p | none => c) (hamFile 8 [0xA5]) flips).flatten) := by
  refine ⟨by decide +kernel, fun p hp => ?_, by decide +kernel⟩
  simp only [List.mem_cons, Option.some.injEq, reduceCtorEq, List.not_mem_nil, false_or, or_false] at hp
  omega
/-- Two flips in a block, the body missing, the field cut short, O ≥ k, and the overflow block missing (B = 16, O = 10).
-/
theorem witness_HammingFilesDecode_damaged :
    (let ds := hamRead 8 [0x00, 0x00, 0x00, 0x00, 0x6A, 0xA5]
     fieldCount 8 ≤ ds.length ∧ overflowOf 8 ds < infoBits 8 ∧ overflowOf 8 ds = 0 ∧
       ds.map Prod.snd = [.ok, .ok, .ok, .ok, .bad, .ok]) ∧
    (let ds := hamRead 8 [0x00, 0x00, 0x00, 0x00]
     fieldCount 8 ≤ ds.length ∧ overflowOf 8 ds < infoBits 8 ∧ overflowOf 8 ds = 0) ∧
    (hamRead 8 [0x00, 0x00, 0x00]).length < fieldCount 8 ∧
    (let ds := hamRead 8 [0x00, 0x00, 0x00, 0x99]
     fieldCount 8 ≤ ds.length ∧ infoBits 8 ≤ overflowOf 8 ds) ∧
    (let ds := hamRead 16 (pack ([bits [0, 0, 0, 0, 0, 0, 0, 0, 0, 0, 0], bits [0, 1, 0, 1, 0, 0, 0, 0, 0, 0, 0]].map
       (hamEncode 16)).flatten)
     ds.length = fieldCount 16 ∧ 0 < overflowOf 16 ds ∧ overflowOf 16 ds < infoBits 16) := by
  decide +kernel

/-! CRC -/

theorem witness_CrcRemainderIsTheResidue : LegalPoly (bits [1, 1]) ∧ LegalPoly (bits [1, 0, 1, 1]) :=
  ⟨legalPoly_shortest, legalPoly_1011⟩
theorem witness_CrcBlockCommands :
    r0.fault = none ∧ LegalPoly r0.cfg.poly ∧ (bits [1, 1, 0]).length < r0.cfg.poly.length ∧
    r0.cfg.poly.length ≤ (bits [0, 0, 0, 0]).length ∧
    crcRem r0.cfg.poly (bits [1, 1, 0, 1, 0, 0, 1, 0]) = List.replicate r0.cfg.poly.length false ∧
    crcRem r0.cfg.poly (bits [1, 1, 1, 1, 0, 0, 1, 0]) ≠ List.replicate r0.cfg.poly.length false :=
  ⟨rfl, legalPoly_1011, by decide, by decide, by decide, by decide⟩
/-- With the period 7 of 1011 a block of 8 bits has two candidates for a flip at either end, one elsewhere. -/
theorem witness_CrcBlockCommands_candidates :
    (let r := bits [1, 1, 1, 1, 0, 0, 1, 0]
     2 < r.length ∧ crcRem (bits [1, 0, 1, 1]) (flipAt r 2) = List.replicate 4 false ∧
       ∀ j, j < r.length → crcRem (bits [1, 0, 1, 1]) (flipAt r j) = List.replicate 4 false → j = 2) ∧
    (let r := bits [0, 1, 0, 1, 0, 0, 1, 0]
     crcRem (bits [1, 0, 1, 1]) r ≠ List.replicate 4 false ∧
       ¬ ∃ i, i < r.length ∧ crcRem (bits [1, 0, 1, 1]) (flipAt r i) = List.replicate 4 false ∧
         ∀ j, j < r.length → crcRem (bits [1, 0, 1, 1]) (flipAt r j) = List.replicate 4 false → j = i) := by
  decide +kernel
theorem witness_CrcCodewordsLeaveNoRemainder :
    LegalPoly (bits [1, 0, 1, 1]) ∧ 0 < (bits [1, 1, 0, 1]).length + (bits [1, 0, 1, 1]).length ∧
    7 < (bits [1, 1, 0, 1]).length + (bits [1, 0, 1, 1]).length ∧
    ∀ j, j < 8 → j ≠ 2 →
      crcRem (bits [1, 0, 1, 1]) (flipAt (flipAt (crcEncode (bits [1, 0, 1, 1]) (bits [1, 1, 0, 1])) 2) j)
        ≠ List.replicate 4 false :=
  ⟨legalPoly_1011, by decide, by decide, by decide +kernel⟩
theorem witness_CrcFilesHaveTheFormat :
    Ready { withIn [0xA5] with crcN := 4 } ∧ Quiet ({ withIn [0xA5] with crcN := 4 } : State).env ∧
    1 ≤ ({ withIn [0xA5] with crcN := 1 } : State).crcN ∧ LegalPoly r0.cfg.poly :=
  ⟨⟨rfl, rfl, rfl⟩, quiet_reset, by decide, legalPoly_1011⟩
/-- The vector of 48_crc.md R308, an empty message, and one extra byte. -/
theorem witness_CrcFilesDecode :
    [0xA6, 0x53] = pack (crcFile (bits [1, 0, 1, 1]) 4 [0xA5]).flatten ∧
    [] = pack (crcFile (bits [1, 0, 1, 1]) 4 []).flatten ∧
    ([0xA6, 0x53, 0x00] : List Byte) = pack (crcFile (bits [1, 0, 1, 1]) 4 [0xA5]).flatten ++ [0x00] ∧
    3 < (8 * (1 + 1) + 4 * ceilDiv (8 * (1 + 1)) 4 + 7) / 8 := by decide +kernel
/-- W = 4 and N = 4: E(1) = 16 bits. A whole file with a Corrected and a Corrupted block, one with an extra byte, and
one too short for a byte of message. -/
theorem witness_CrcFilesDecode_damaged :
    OriginalBytes 4 4 2 1 ∧ OriginalBytes 4 4 3 1 ∧ OriginalBytes 4 4 1 0 ∧ OriginalBytes 4 4 0 0 ∧
    (crcRead (bits [1, 0, 1, 1]) 4 true 1 [0x26, 0x51]).map Prod.snd = [.bad, .fixed] ∧
    (crcRead (bits [1, 0, 1, 1]) 4 false 1 [0xA6, 0x51]).map Prod.snd = [.ok, .bad] := by
  unfold OriginalBytes; decide +kernel

/-! Invariants: a run's state, with a tree, a cursor below the root, open units and pending bits -/

def working : State :=
  { reading 3 with
    writer := ⟨true, bits [1, 0, 1]⟩, tree := tree3, cur := bits [1], codes := r0.codes.set 7 (some (bits [1]))
    hist := r0.hist.set 7 (2 ^ 64 - 1), hamB := 65536, progress := 100 }

theorem codesInv_working : working.CodesInv := by
  intro v
  simp only [working, r0, State.reset, Fin.getElem_fin, Vector.getElem_set, Vector.getElem_replicate]
  split <;> simp [bits]
theorem counts_working (v : Fin 256) : working.hist[v] < 2 ^ 64 := by
  simp only [working, r0, State.reset, Fin.getElem_fin, Vector.getElem_set, Vector.getElem_replicate]
  split <;> simp

theorem witness_ResetMeetsTheInvariant : r0.input.length < 2 ^ 64 := by decide
theorem witness_StepKeepsTheTreeInvariant :
    working.TreeInv ∧ working.CodesInv ∧ step working = .next working :=
  ⟨⟨by decide, by decide⟩, codesInv_working, rfl⟩
theorem witness_StepKeepsTheStreamInvariant : working.StreamInv ∧ step working = .next working :=
  ⟨⟨by decide, by decide, by decide⟩, rfl⟩
theorem witness_StepKeepsTheValueRanges : working.RangeInv ∧ step working = .next working :=
  ⟨⟨by decide, counts_working, by decide, by decide⟩, rfl⟩

end Sys2Proof.Tests
end

section
/-! SUPPORT. The state family (10_state.md). What each command can do to the state, said once for all commands:
`exec` always answers a next state, and `Effect` lists the shapes it can have (`exec_effect`). The frames and the
invariants over all commands are short case analyses of it. Then the packed byte form and the STATUS word. -/

namespace Sys2Proof.Machine
open Sys2Proof.Claims

/-! ## The shapes of a next state -/

/-- The registers after a command `i` in a state `s`: only the destinations may differ (30_encoding.md R86). -/
structure OnlyDest (i : Instr) (s : State) (x : Vector Nat 16) (b : Vector Bits 16) : Prop where
  x : ∀ r : XReg, destX i ≠ some r → x[r] = s.x[r]
  b : ∀ r : BReg, destB i ≠ some r → b[r] = s.b[r]

/-- What the command `i` can make of the state `s`: one constructor for each set of fields that some commands write,
with the commands that may do it and what holds of the values written. A constructor leaves every field it does not
name, so a frame is read off the constructors that name its field. -/
inductive Effect (i : Instr) (s : State) : State → Prop
  /-- NOP, a closed writer closed again, and every command but CSR.R in a halted block. -/
  | idle : Effect i s s
  /-- A fatal fault, before or after the command's one draw (60_exceptions.md R322, R330). -/
  | faulted {e : Env} (c : Cause) (draw : e = s.env ∨ e = s.env.io.2) :
      Effect i s { s with env := e, fault := s.fault.or (some c) }
  /-- The scalar commands and the commands on buffers alone. -/
  | registers {x b} (regs : OnlyDest i s x b) : Effect i s { s with x := x, b := b }
  /-- CSR.R; a read of CANCEL is a draw (60_exceptions.md R328). -/
  | csrRead {x e} (cmd : ∃ r n, i = .csrR r n) (regs : OnlyDest i s x s.b) : Effect i s { s with x := x, env := e }
  /-- CSR.W with a value that 40_scalar_csr.md R106 accepts. -/
  | csrWritten {hamB crcN crcCorr ham crc} (cmd : ∃ r n, i = .csrW r n)
      (legal : hamB = s.hamB ∨ hamBLegal hamB = true) :
      Effect i s { s with hamB := hamB, crcN := crcN, crcCorr := crcCorr, ham := ham, crc := crc }
  | readerOpened (cmd : i = .srOpen) : Effect i s { s with reader := ⟨true, 0⟩, eos := false }
  /-- A read command of the reader unit, at the end of IN with n = 0 (42_bit_streams.md R162–R164). -/
  | streamRead {e eos x b n} (cmd : readsStream i = true) (regs : OnlyDest i s x b)
      (within : s.reader.pos ≤ 8 * s.input.length → s.reader.pos + n ≤ 8 * s.input.length) :
      Effect i s
        { s with env := e, x := x, b := b, eos := eos, reader := { s.reader with pos := s.reader.pos + n } }
  | readerClosed (cmd : i = .srClose) : Effect i s { s with reader := { s.reader with isOpen := false } }
  | writerOpened {e} (cmd : i = .swOpen) : Effect i s { s with env := e, output := [], writer := ⟨true, []⟩ }
  /-- Bits appended to the open writer, flushed or not (42_bit_streams.md R173). -/
  | appended {e out pend} (cmd : appendsOut i = true) (isOpen : s.writer.isOpen = true) (keeps : s.output <+: out)
      (bound : pend.length / 8 ≤ s.cfg.flushT) :
      Effect i s { s with env := e, output := out, writer := { s.writer with pend := pend } }
  | writerClosed {e out} (cmd : i = .swClose) (keeps : s.output <+: out) :
      Effect i s { s with env := e, output := out, writer := ⟨false, []⟩ }
  /-- FH.COUNT, whatever it reports. -/
  | counted {e h p r} (cmd : i = .fhCount) (counts : ∀ v : Fin 256, h[v] ≤ s.input.length)
      (percent : s.progress ≤ 100 → p ≤ 100) :
      Effect i s { s with env := e, hist := h, progress := p, report := r }
  | histCleared (cmd : i = .fhClear) : Effect i s { s with hist := Vector.replicate 256 0 }
  | codesWritten {codes} (cmd : i = .ctToMap ∨ i = .sfBuild ∨ ∃ r n, i = .ctSetCode r n) :
      Effect i s { s with codes := codes }
  | treeBuilt {t} (cmd : i = .ctFromMap ∨ i = .hfBuild) : Effect i s { s with tree := t, cur := [] }
  /-- CT.DESER with a tree read off IN (44_code_tree.md R215). -/
  | treeRead {e t n} (cmd : i = .ctDeser)
      (within : s.reader.pos ≤ 8 * s.input.length → s.reader.pos + n ≤ 8 * s.input.length) :
      Effect i s
        { s with env := e, tree := t, cur := [], reader := { s.reader with pos := s.reader.pos + n } }
  | cursorMoved {x cur} (cmd : i = .ctReset ∨ ∃ r v, i = .ctFeed r v) (regs : OnlyDest i s x s.b) :
      Effect i s { s with x := x, cur := cur }
  | hamDecoded {x b ham} (cmd : ∃ d r n, i = .hmDec d r n) (regs : OnlyDest i s x b) :
      Effect i s { s with x := x, b := b, ham := ham }
  | crcDecoded {x b crc} (cmd : ∃ d r n, i = .crcDec d r n) (regs : OnlyDest i s x b) :
      Effect i s { s with x := x, b := b, crc := crc }
  /-- A file-level command past its fatal checks, whatever it reports (60_exceptions.md R326). -/
  | filed {e out p r ham crc} (cmd : fileLevel i = true) (hamKept : i ≠ .hmFdec → ham = s.ham)
      (crcKept : i ≠ .crcFdec → crc = s.crc) (percent : s.progress ≤ 100 → p ≤ 100) :
      Effect i s { s with env := e, output := out, progress := p, report := r, ham := ham, crc := crc }

/-! ## Register writes -/

section
variable {i : Instr} {s : State}

theorem OnlyDest.refl : OnlyDest i s s.x s.b := ⟨fun _ _ => rfl, fun _ _ => rfl⟩

theorem OnlyDest.setX {x b} {r : XReg} {v : Nat} (h : OnlyDest i s x b) (hr : destX i = some r) :
    OnlyDest i s (x.set r v) b where
  x q hq := by
    have hne : (r : Nat) ≠ q := fun e => hq (by rw [hr, Fin.ext e])
    rw [← h.x q hq]
    exact Vector.getElem_set_ne _ _ hne
  b := h.b

theorem OnlyDest.setB {x b} {r : BReg} {v : Bits} (h : OnlyDest i s x b) (hr : destB i = some r) :
    OnlyDest i s x (b.set r v) where
  x := h.x
  b q hq := by
    have hne : (r : Nat) ≠ q := fun e => hq (by rw [hr, Fin.ext e])
    rw [← h.b q hq]
    exact Vector.getElem_set_ne _ _ hne

theorem Effect.setX {r : XReg} {v : Nat} (hr : destX i = some r) : Effect i s (s.setX r v) :=
  .registers (OnlyDest.refl.setX hr)

theorem Effect.setB {r : BReg} {v : Bits} (hr : destB i = some r) : Effect i s (s.setB r v) :=
  .registers (OnlyDest.refl.setB hr)

end

/-- Fault entry, whether or not the block is halted: the first fault stays (10_state.md R45). -/
theorem raise_eq (s : State) (c : Cause) : s.raise c = { s with fault := s.fault.or (some c) } := by
  unfold State.raise State.halted
  cases hf : s.fault with
  | none => rfl
  | some d => rw [Option.isSome_some, if_pos rfl, Option.some_or, ← hf]

/-! ## Answering a next state -/

/-- The outcome is a next state, and it satisfies `P`. -/
def Answers (r : Result) (P : State → Prop) : Prop := ∃ t, r = .next t ∧ P t

namespace Answers

theorem next {t : State} {P : State → Prop} (h : P t) : Answers (.next t) P := ⟨t, rfl, h⟩

theorem ite {p : Prop} [Decidable p] {a b : Result} {P : State → Prop} (ha : p → Answers a P)
    (hb : ¬p → Answers b P) : Answers (if p then a else b) P := by
  split
  · exact ha ‹_›
  · exact hb ‹_›

variable {i : Instr} {s : State}

/-- Fault entry, and no draw. -/
theorem faulted (c : Cause) : Answers (fatal c s) (Effect i s) := by
  rw [fatal, raise_eq]
  exact next (.faulted c (.inl rfl))

/-- Fault entry after the command's draw. -/
theorem faultedAfterDraw (c : Cause) : Answers (fatal c { s with env := s.env.io.2 }) (Effect i s) := by
  rw [fatal, raise_eq]
  exact next (.faulted c (.inr rfl))

theorem unlessHalted {body : Result} (h : Answers body (Effect i s)) :
    Answers (s.unlessHalted body) (Effect i s) :=
  ite (fun _ => next .idle) fun _ => h

theorem withIo {body : State → Result} (h : Answers (body { s with env := s.env.io.2 }) (Effect i s)) :
    Answers (s.withIo body) (Effect i s) :=
  ite (fun _ => faultedAfterDraw _) fun _ => h

/-- A write that the flush rule leaves pending or sends to OUT (42_bit_streams.md R173). -/
theorem writeBits {v : Bits} (cmd : appendsOut i = true) (isOpen : s.writer.isOpen = true) :
    Answers (s.writeBits v) (Effect i s) := by
  by_cases h : (s.writer.pend ++ v).length / 8 ≤ s.cfg.flushT
  · rw [writeBits_kept h]
    exact next (.appended (e := s.env) cmd isOpen List.prefix_rfl h)
  · rw [writeBits_flushed (by omega)]
    refine withIo (next (.appended cmd isOpen (List.prefix_append _ _) ?_))
    rw [List.length_drop]
    omega

/-- A file-level command refused because a unit is open reports Failure (60_exceptions.md R326). -/
theorem unlessUnitOpen {body : Result} (cmd : fileLevel i = true) (h : Answers body (Effect i s)) :
    Answers (s.unlessUnitOpen body) (Effect i s) :=
  ite (fun _ => next (.filed cmd (fun _ => rfl) (fun _ => rfl) id)) fun _ => h

end Answers

/-! ## PROGRESS in the file-level bodies (60_exceptions.md R329) -/

/-- Where a body leaves its job, whether it ends with a value or early with a report. -/
def FileM.endJob {α : Type} : EStateM.Result Report Job α → Job
  | .ok _ j => j
  | .error _ j => j

/-- The body leaves PROGRESS at most 100 when it finds it so. -/
def FileM.KeepsPercent {α : Type} (x : FileM α) : Prop :=
  ∀ j : Job, j.progress ≤ 100 → (FileM.endJob (x j)).progress ≤ 100

namespace FileM.KeepsPercent
variable {α β : Type}

theorem bind {x : FileM α} {f : α → FileM β} (hx : x.KeepsPercent) (hf : ∀ a, (f a).KeepsPercent) :
    (x >>= f).KeepsPercent := by
  intro j hj
  have hxj := hx j hj
  cases h : x j with
  | ok a j' =>
    rw [h] at hxj
    rw [bind_ok h]
    exact hf a j' hxj
  | error r j' =>
    rw [h] at hxj
    rw [bind_error h]
    exact hxj

theorem ite {p : Prop} [Decidable p] {x y : FileM α} (hx : p → x.KeepsPercent) (hy : ¬p → y.KeepsPercent) :
    (if p then x else y).KeepsPercent := by
  split
  · exact hx ‹_›
  · exact hy ‹_›

theorem pure (a : α) : (Pure.pure a : FileM α).KeepsPercent := fun _ hj => hj

theorem stop (r : Report) : (FileM.stop r : FileM α).KeepsPercent := fun _ hj => hj

theorem count (f : OutcomeCounts → OutcomeCounts) : (FileM.count f).KeepsPercent := fun _ hj => hj

theorem setProgress {p : Nat} (hp : p ≤ 100) : (FileM.setProgress p).KeepsPercent := fun _ _ => hp

theorem poll : FileM.poll.KeepsPercent := by
  intro j hj
  unfold FileM.poll
  cases j.env.poll.1 <;> exact hj

theorem io : FileM.io.KeepsPercent := by
  intro j hj
  unfold FileM.io
  cases j.env.io.1 <;> exact hj

theorem flush (cfg : Config) : (FileM.flush cfg).KeepsPercent := by
  intro j hj
  unfold FileM.flush
  split
  · exact hj
  · cases j.env.io.1 <;> exact hj

theorem write (cfg : Config) (v : Bits) : (FileM.write cfg v).KeepsPercent :=
  bind (fun _ hj => hj) fun _ => flush cfg

end FileM.KeepsPercent

/-- The wrapper of the file-level commands writes no PROGRESS of its own. -/
theorem Job.runFile_percent (j : Job) {body : FileM Unit} (hb : body.KeepsPercent) (hj : j.progress ≤ 100) :
    (j.runFile body).1.progress ≤ 100 := by
  have hclose : ∀ (k : Job) (why : Report), (k.close why).1.progress = k.progress := by
    intro k why
    unfold Job.close
    cases k.env.io.1 <;> rfl
  unfold Job.runFile
  cases j.env.io.1 with
  | true => exact hj
  | false =>
    have hbj := hb { j with env := j.env.io.2, out := [], pend := [] } hj
    simp only [Bool.false_eq_true, if_false]
    split
    · next h => rw [hclose]; rw [h] at hbj; exact hbj
    · next h => rw [hclose]; rw [h] at hbj; exact hbj

theorem percent_le_hundred {done total : Nat} (h : done ≤ total) : 100 * done / total ≤ 100 :=
  Nat.div_le_of_le_mul (by omega)

/-! ### The histogram pass -/

theorem length_flatten_chunksOf (size n : Nat) (bytes : List Byte) :
    (chunksOf size n bytes).flatten.length ≤ bytes.length := by
  induction n generalizing bytes with
  | zero => exact Nat.zero_le _
  | succ n ih =>
    have := ih (bytes.drop size)
    simp only [chunksOf, List.flatten_cons, List.length_append, List.length_take, List.length_drop] at *
    omega

theorem length_flatten_chunksOfIn (cfg : Config) (inp : List Byte) :
    (chunksOfIn cfg inp).flatten.length ≤ inp.length :=
  length_flatten_chunksOf _ _ _

theorem countChunks_percent {total done : Nat} {chunks : List (List Byte)} (h : Hist)
    (hle : done + chunks.flatten.length ≤ total) : (countChunks total done chunks h).KeepsPercent := by
  induction chunks generalizing done h with
  | nil => exact .pure h
  | cons chunk rest ih =>
    simp only [List.flatten_cons, List.length_append] at hle
    exact .bind .poll fun _ => .bind .io fun _ => .bind (.setProgress (percent_le_hundred (by omega))) fun _ =>
      ih _ (by omega)

theorem countPass_percent (cfg : Config) (inp : List Byte) : (countPass cfg inp).KeepsPercent :=
  countChunks_percent _ (by rw [Nat.zero_add]; exact length_flatten_chunksOfIn cfg inp)

theorem FileM.bind_eq_ok {α β : Type} {x : FileM α} {f : α → FileM β} {j j'' : Job} {b : β}
    (h : (x >>= f) j = .ok b j'') : ∃ a j', x j = .ok a j' ∧ f a j' = .ok b j'' := by
  cases hx : x j with
  | ok a j' => exact ⟨a, j', rfl, by rwa [bind_ok hx] at h⟩
  | error r j' => rw [bind_error hx] at h; cases h

/-- A pass that ends with a histogram has counted every byte of its chunks. -/
theorem countChunks_ok {total done : Nat} {chunks : List (List Byte)} {h h' : Hist} {j j' : Job}
    (hrun : countChunks total done chunks h j = .ok h' j') : h' = chunks.flatten.foldl tally h := by
  induction chunks generalizing done h j with
  | nil => cases hrun; rfl
  | cons chunk rest ih =>
    obtain ⟨_, _, _, hrun⟩ := FileM.bind_eq_ok hrun
    obtain ⟨_, _, _, hrun⟩ := FileM.bind_eq_ok hrun
    obtain ⟨_, _, _, hrun⟩ := FileM.bind_eq_ok hrun
    rw [ih hrun, List.flatten_cons, List.foldl_append]

/-- Each byte counted adds at most 1 to a count. -/
theorem foldl_tally_le (bytes : List Byte) (h : Hist) (v : Fin 256) :
    (bytes.foldl tally h)[v] ≤ h[v] + bytes.length := by
  induction bytes generalizing h with
  | nil => exact le_rfl
  | cons b bytes ih =>
    have hstep : (tally h b)[v] ≤ h[v] + 1 := by
      simp only [tally, Fin.getElem_fin, Vector.getElem_set]
      split
      · next e => simp only [e, le_refl]
      · omega
    have := ih (tally h b)
    rw [List.foldl_cons, List.length_cons]
    omega

theorem countPass_counts {cfg : Config} {inp : List Byte} {h : Hist} {j j' : Job}
    (hrun : countPass cfg inp j = .ok h j') (v : Fin 256) : h[v] ≤ inp.length := by
  rw [countChunks_ok hrun]
  have hlen := length_flatten_chunksOfIn cfg inp
  have hle := foldl_tally_le (chunksOfIn cfg inp).flatten (Vector.replicate 256 0) v
  simp only [Fin.getElem_fin, Vector.getElem_replicate] at *
  omega

/-! ### Compression -/

theorem substBytes_percent (cfg : Config) (codes : Vector (Option Bits) 256) (bytes : List Byte) :
    (substBytes cfg codes bytes).KeepsPercent := by
  induction bytes with
  | nil => exact .pure ()
  | cons v rest ih =>
    refine .bind .io fun _ => ?_
    split
    · exact .stop _
    · exact .bind (.write _ _) fun _ => ih

theorem substChunks_percent (cfg : Config) (codes : Vector (Option Bits) 256) {total done : Nat}
    {chunks : List (List Byte)} (hle : done + chunks.flatten.length ≤ total) :
    (substChunks cfg codes total done chunks).KeepsPercent := by
  induction chunks generalizing done with
  | nil => exact .pure ()
  | cons chunk rest ih =>
    simp only [List.flatten_cons, List.length_append] at hle
    exact .bind .poll fun _ => .bind (substBytes_percent cfg codes chunk) fun _ =>
      .bind (.setProgress (percent_le_hundred (by omega))) fun _ => ih (by omega)

theorem compressBody_percent (cfg : Config) (inp : List Byte) (alg : Algorithm) :
    (compressBody cfg inp alg).KeepsPercent := by
  refine .bind (countPass_percent cfg inp) fun h => ?_
  split
  · exact .stop _
  · refine .bind (.write _ _) fun _ => .bind (.write _ _) fun _ => .bind (.setProgress (Nat.zero_le _)) fun _ => ?_
    exact substChunks_percent _ _ (by rw [Nat.zero_add]; exact length_flatten_chunksOfIn cfg inp)

theorem feedPayload_percent (cfg : Config) (root : Tree) {total j : Nat} (cur : Tree) {bits : Bits}
    (hle : j + bits.length ≤ total) : (feedPayload cfg root total j cur bits).KeepsPercent := by
  induction bits generalizing j cur with
  | nil => exact .pure ()
  | cons v rest ih =>
    rw [List.length_cons] at hle
    have hpoll : (payloadPoll cfg j total).KeepsPercent :=
      .ite (fun _ => .bind .poll fun _ => .setProgress (percent_le_hundred (by omega))) fun _ => .pure ()
    refine .bind hpoll fun _ => .bind .io fun _ => ?_
    split
    · exact .stop _
    · exact .bind (.write _ _) fun _ => ih _ (by omega)
    · exact ih _ (by omega)

theorem decompressBody_percent (cfg : Config) (inp : List Byte) : (decompressBody cfg inp).KeepsPercent := by
  refine .bind .io fun _ => .bind .io fun _ => ?_
  split
  · exact .stop _
  · exact .ite (fun _ => .stop _) fun _ =>
      .bind (feedPayload_percent _ _ _ (Nat.zero_add _).le) fun _ => .setProgress le_rfl

/-! ### Hamming files -/

theorem hamEncodeBlocks_percent (cfg : Config) (blockSize : Nat) {total done : Nat} {blks : List (Bits × Nat)}
    (hle : done + (blks.map Prod.snd).sum ≤ total) :
    (hamEncodeBlocks cfg blockSize total done blks).KeepsPercent := by
  induction blks generalizing done with
  | nil => exact .pure ()
  | cons blk rest ih =>
    rw [List.map_cons, List.sum_cons] at hle
    have hread : (readCarried blk.2).KeepsPercent := .ite (fun _ => .io) fun _ => .pure ()
    have hpercent : percentOf (done + blk.2) total ≤ 100 := by
      unfold percentOf
      split
      · exact le_rfl
      · exact percent_le_hundred (by omega)
    exact .bind .poll fun _ => .bind hread fun _ => .bind (.write _ _) fun _ =>
      .bind (.setProgress hpercent) fun _ => ih (by omega)

/-- The blocks of a Hamming file carry the bits of IN, each once (47_hamming.md R285). -/
theorem sum_carried_hamFileBlocks (k : Nat) (m : Bits) :
    ((hamFileBlocks k m).map Prod.snd).sum = m.length := by
  have hdm := Nat.mod_add_div m.length k
  have hbody : ((slicesOf k (m.length / k) (m.drop (m.length % k))).map fun _ => k).sum = k * (m.length / k) := by
    simp [Nat.mul_comm]
  simp only [hamFileBlocks, List.map_append, List.map_map, Function.comp_def, List.sum_append, hbody]
  split <;> simp <;> omega

theorem hamEncodeBody_percent (cfg : Config) (blockSize : Nat) (inp : List Byte) :
    (hamEncodeBody cfg blockSize inp).KeepsPercent :=
  hamEncodeBlocks_percent _ _ (by rw [sum_carried_hamFileBlocks, length_streamBits, Nat.zero_add])

theorem hamNextBlock_percent (blockSize : Nat) (inp : List Byte) (pos : Nat) :
    (hamNextBlock blockSize inp pos).KeepsPercent :=
  .bind .poll fun _ => .ite (fun _ => .pure _) fun _ =>
    .bind (.bind .io fun _ => .bind (.count _) fun _ => .bind (.setProgress (percent_le_hundred (by omega))) fun _ =>
      .pure _) fun _ => .pure _

theorem hamReadField_percent (blockSize : Nat) (inp : List Byte) (n pos : Nat) (f : Bits) :
    (hamReadField blockSize inp n pos f).KeepsPercent := by
  induction n generalizing pos f with
  | zero => exact .pure f
  | succ n ih =>
    refine .bind (hamNextBlock_percent _ _ _) fun d => ?_
    cases d with
    | none => exact .stop _
    | some d => exact ih _ _

theorem hamDecodeBlocks_percent (cfg : Config) (blockSize : Nat) (inp : List Byte) (n pos : Nat) :
    (hamDecodeBlocks cfg blockSize inp n pos).KeepsPercent := by
  induction n generalizing pos with
  | zero => exact .pure ()
  | succ n ih =>
    refine .bind (hamNextBlock_percent _ _ _) fun d => ?_
    cases d with
    | none => exact .stop _
    | some d => exact .bind (.write _ _) fun _ => ih _

theorem hamDecodeRest_percent (cfg : Config) (blockSize : Nat) (inp : List Byte) (pos : Nat) :
    (hamDecodeRest cfg blockSize inp pos).KeepsPercent :=
  .bind (hamDecodeBlocks_percent _ _ _ _ _) fun _ => .ite (fun _ => .count _) fun _ => .pure ()

theorem hamDecodeBody_percent (cfg : Config) (blockSize : Nat) (inp : List Byte) :
    (hamDecodeBody cfg blockSize inp).KeepsPercent := by
  refine .bind (hamReadField_percent _ _ _ _ _) fun f => .ite (fun _ => .stop _) fun _ => .ite (fun _ => ?_) fun _ =>
    hamDecodeRest_percent _ _ _ _
  refine .bind (hamNextBlock_percent _ _ _) fun d => ?_
  cases d with
  | none => exact .stop _
  | some d => exact .bind (.write _ _) fun _ => hamDecodeRest_percent _ _ _ _

/-! ### CRC files -/

theorem crcEncodeBlocks_percent (cfg : Config) (inp : List Byte) {pos : Nat} {sizes : List Nat}
    (hle : pos + sizes.sum ≤ 8 * inp.length) : (crcEncodeBlocks cfg inp pos sizes).KeepsPercent := by
  induction sizes generalizing pos with
  | nil => exact .pure ()
  | cons size rest ih =>
    rw [List.sum_cons] at hle
    exact .bind .poll fun _ => .bind .io fun _ => .bind (.write _ _) fun _ =>
      .bind (.setProgress (percent_le_hundred (by omega))) fun _ => ih (by omega)

theorem crcDecodeBlocks_percent (cfg : Config) (corr : Bool) (inp : List Byte) {pos : Nat} {sizes : List Nat}
    (hle : pos + (sizes.sum + cfg.poly.length * sizes.length) ≤ 8 * inp.length) :
    (crcDecodeBlocks cfg corr inp pos sizes).KeepsPercent := by
  induction sizes generalizing pos with
  | nil => exact .pure ()
  | cons size rest ih =>
    rw [List.sum_cons, List.length_cons, Nat.mul_add_one] at hle
    exact .bind .poll fun _ => .bind .io fun _ => .bind (.count _) fun _ => .bind (.write _ _) fun _ =>
      .bind (.setProgress (percent_le_hundred (by omega))) fun _ => ih (by omega)

/-- There are no more than ceil(total/N) message blocks (48_crc.md R307). -/
theorem length_crcBlockSizes_le {n : Nat} (hn : n ≠ 0) (total : Nat) :
    (crcBlockSizes n total).length ≤ ceilDiv total n := by
  rw [ceilDiv, Nat.le_div_iff_mul_le (by omega), crcBlockSizes, List.length_append, List.length_replicate]
  have hdm := Nat.div_add_mod' total n
  split
  · rw [List.length_singleton, Nat.succ_mul]; omega
  · rw [List.length_nil, Nat.add_zero]; omega

/-- The blocks that CRC.FDEC decodes are within IN (48_crc.md R309). -/
theorem crcEncodedBits_originalBytes {n : Nat} (hn : n ≠ 0) (w f : Nat) :
    crcEncodedBits w n (crcOriginalBytes w n f) ≤ 8 * f := by
  obtain ⟨-, hsat, -⟩ := largestUpTo_spec (fun b => crcFileBytes w n b ≤ f) f
  unfold crcOriginalBytes
  generalize largestUpTo (fun b => crcFileBytes w n b ≤ f) f = b at *
  rcases eq_or_ne b 0 with rfl | hb
  · have : ceilDiv 0 n = 0 := Nat.div_eq_of_lt (by omega)
    rw [crcEncodedBits, Nat.mul_zero, this]
    omega
  · have := of_decide_eq_true (hsat hb)
    rw [crcFileBytes, ceilDiv] at this
    omega

theorem crcDecodeBody_percent (cfg : Config) {n : Nat} (hn : n ≠ 0) (corr : Bool) (inp : List Byte) :
    (crcDecodeBody cfg n corr inp).KeepsPercent := by
  refine .bind (crcDecodeBlocks_percent cfg corr inp ?_) fun _ => .ite (fun _ => .count _) fun _ => .pure ()
  have hbits := crcEncodedBits_originalBytes hn cfg.poly.length inp.length
  rw [crcEncodedBits] at hbits
  have hblocks := Nat.mul_le_mul_left cfg.poly.length
    (length_crcBlockSizes_le hn (8 * crcOriginalBytes cfg.poly.length n inp.length))
  rw [sum_crcBlockSizes]
  omega

/-! ## The CSR commands -/

section
variable (s : State)

theorem counterWrite_ok {v : Nat} {put : BitVec 64 → State} {t : State} (h : counterWrite v put = .ok t) :
    ∃ n, t = put n := by
  unfold counterWrite at h
  split at h
  · exact ⟨_, (Except.ok.inj h).symm⟩
  · cases h

/-- What an accepted write of a CSR changes: configuration and counters, HAM_B to a legal size (R105, R106). -/
theorem csrWrite_ok {s t : State} {c : Csr} {v : Nat} (h : s.csrWrite c v = .ok t) :
    ∃ hamB crcN crcCorr ham crc, (hamB = s.hamB ∨ hamBLegal hamB = true) ∧
      t = { s with hamB := hamB, crcN := crcN, crcCorr := crcCorr, ham := ham, crc := crc } := by
  cases c with
  | hamB =>
    simp only [State.csrWrite] at h
    split at h
    · next legal => exact ⟨v, _, _, _, _, .inr legal, (Except.ok.inj h).symm⟩
    · cases h
  | crcN =>
    simp only [State.csrWrite] at h
    split at h
    · exact ⟨_, v, _, _, _, .inl rfl, (Except.ok.inj h).symm⟩
    · cases h
  | crcCorr =>
    simp only [State.csrWrite] at h
    split at h
    · exact ⟨_, _, _, _, _, .inl rfl, (Except.ok.inj h).symm⟩
    · cases h
  | hamFail | hamOk | hamOne | hamTwo | crcFail | crcOk | crcCorrected | crcCorrupted =>
    obtain ⟨n, rfl⟩ := counterWrite_ok h
    exact ⟨_, _, _, _, _, .inl rfl, rfl⟩
  | _ => cases h

theorem csrR_effect (xd : XReg) (csr : BitVec 8) : Answers (exec (.csrR xd csr) s) (Effect (.csrR xd csr) s) := by
  change Answers (execCsrR xd csr s) _
  unfold execCsrR
  split
  · exact .faulted _
  · exact .next (.csrRead ⟨_, _, rfl⟩ (OnlyDest.refl.setX rfl))

theorem csrW_effect (xs : XReg) (csr : BitVec 8) : Answers (exec (.csrW xs csr) s) (Effect (.csrW xs csr) s) := by
  refine .unlessHalted ?_
  split
  · exact .faulted _
  · split
    · exact .faulted _
    · next h =>
      obtain ⟨_, _, _, _, _, legal, rfl⟩ := csrWrite_ok h
      exact .next (.csrWritten ⟨_, _, rfl⟩ legal)

/-! ## The stream units -/

theorem srRdBit_effect (xd : XReg) : Answers (exec (.srRdBit xd) s) (Effect (.srRdBit xd) s) :=
  .unlessHalted <| .ite (fun _ => .faulted _) fun _ => .ite
    (fun _ => .next (.streamRead (n := 0) rfl (OnlyDest.refl.setX rfl) id))
    fun _ => .withIo (.next (.streamRead rfl (OnlyDest.refl.setX rfl) (by omega)))

theorem srRdN_effect (bd : BReg) (xn : XReg) : Answers (exec (.srRdN bd xn) s) (Effect (.srRdN bd xn) s) :=
  .unlessHalted <| .ite (fun _ => .faulted _) fun _ =>
    .withIo (.next (.streamRead rfl (OnlyDest.refl.setB rfl) (by simp only [State.bitsLeft]; omega)))

theorem srRdByte_effect (xd : XReg) : Answers (exec (.srRdByte xd) s) (Effect (.srRdByte xd) s) :=
  .unlessHalted <| .ite (fun _ => .faulted _) fun _ => .ite
    (fun _ => .next (.streamRead (n := 0) rfl (OnlyDest.refl.setX rfl) id))
    fun h => .withIo (.next (.streamRead rfl (OnlyDest.refl.setX rfl) (by simp only [State.bitsLeft] at h; omega)))

theorem swWrBit_effect (xv : XReg) : Answers (exec (.swWrBit xv) s) (Effect (.swWrBit xv) s) := by
  refine .unlessHalted (.ite (fun _ => .faulted _) fun hopen => ?_)
  split
  · exact .faulted _
  · exact .writeBits rfl (by simpa using hopen)

theorem swWrByte_effect (xv : XReg) : Answers (exec (.swWrByte xv) s) (Effect (.swWrByte xv) s) := by
  refine .unlessHalted (.ite (fun _ => .faulted _) fun hopen => ?_)
  split
  · exact .faulted _
  · exact .writeBits rfl (by simpa using hopen)

theorem swWrBuf_effect (bs : BReg) : Answers (exec (.swWrBuf bs) s) (Effect (.swWrBuf bs) s) :=
  .unlessHalted <| .ite (fun _ => .faulted _) fun hopen => .writeBits rfl (by simpa using hopen)

theorem swClose_effect : Answers (exec .swClose s) (Effect .swClose s) :=
  .unlessHalted <| .ite (fun _ => .withIo (.next (.writerClosed rfl (List.prefix_append _ _)))) fun _ => .next .idle

/-! ## The histogram and the builders -/

theorem fhCount_effect : Answers (exec .fhCount s) (Effect .fhCount s) := by
  have hpercent := countPass_percent s.cfg s.input (s.job s.ham)
  have hzero : ∀ v : Fin 256, (Vector.replicate 256 0)[v] ≤ s.input.length := fun v => by simp
  refine .unlessHalted ?_
  split
  · next hrun =>
    rw [hrun] at hpercent
    exact .next (.counted rfl (countPass_counts hrun) hpercent)
  · exact .next (.counted rfl hzero fun _ => Nat.zero_le _)
  · next hrun =>
    rw [hrun] at hpercent
    exact .next (.counted rfl hzero hpercent)

theorem sfBuild_effect : Answers (exec .sfBuild s) (Effect .sfBuild s) := by
  refine .unlessHalted ?_
  split
  · exact .faulted _
  · exact .next (.codesWritten (.inr (.inl rfl)))

theorem hfBuild_effect : Answers (exec .hfBuild s) (Effect .hfBuild s) := by
  refine .unlessHalted ?_
  split
  · exact .faulted _
  · exact .next (.treeBuilt (.inr rfl))

/-! ## The code tree -/

theorem ctFromMap_effect : Answers (exec .ctFromMap s) (Effect .ctFromMap s) := by
  refine .unlessHalted ?_
  split
  · exact .faulted _
  · exact .next (.treeBuilt (.inl rfl))

theorem ctSer_effect : Answers (exec .ctSer s) (Effect .ctSer s) :=
  .unlessHalted <| .ite (fun _ => .faulted _) fun hopen => .ite (fun _ => .faulted _) fun _ =>
    .writeBits rfl (by simpa using hopen)

/-- CT.DESER consumes bits that are there (44_code_tree.md R215). -/
theorem deserialize_used_le {bits : Bits} {t : Tree} {used : Nat} (h : deserialize bits = .ok (t, used)) :
    used ≤ bits.length := by
  obtain ⟨c, -, he⟩ | ⟨root, rest, -, ⟨-, he⟩ | ⟨-, -, he⟩ | ⟨-, t', rest', -, he⟩⟩ := deserialize_cases bits
  · cases he.symm.trans h
  · cases he.symm.trans h
  · cases he.symm.trans h
  · cases he.symm.trans h
    exact Nat.sub_le _ _

theorem ctDeser_effect : Answers (exec .ctDeser s) (Effect .ctDeser s) := by
  refine .unlessHalted (.ite (fun _ => .faulted _) fun _ => .ite (fun _ => .faulted _) fun _ => .withIo ?_)
  split
  · exact .faultedAfterDraw _
  · next h =>
    have hused := deserialize_used_le h
    simp only [State.readerBits, List.length_drop, length_streamBits] at hused
    exact .next (.treeRead rfl (by omega))

theorem ctFeed_effect (xd xv : XReg) : Answers (exec (.ctFeed xd xv) s) (Effect (.ctFeed xd xv) s) := by
  refine .unlessHalted ?_
  split
  · exact .faulted _
  · split
    · exact .faulted _
    · exact .next (.cursorMoved (.inr ⟨_, _, rfl⟩) (OnlyDest.refl.setX rfl))
    · exact .next (.cursorMoved (.inr ⟨_, _, rfl⟩) (OnlyDest.refl.setX rfl))

theorem ctSetCode_effect (xs : XReg) (bs : BReg) :
    Answers (exec (.ctSetCode xs bs) s) (Effect (.ctSetCode xs bs) s) := by
  refine .unlessHalted ?_
  split
  · exact .faulted _
  · exact .next (.codesWritten (.inr (.inr ⟨_, _, rfl⟩)))

/-! ## The block coders and the file-level commands -/

theorem hmDec_effect (bd : BReg) (xd : XReg) (bs : BReg) :
    Answers (exec (.hmDec bd xd bs) s) (Effect (.hmDec bd xd bs) s) :=
  .unlessHalted <| .ite (fun _ => .faulted _) fun _ => .ite (fun _ => .faulted _) fun _ =>
    .next (.hamDecoded ⟨_, _, _, rfl⟩ ((OnlyDest.refl.setB rfl).setX rfl))

theorem crcDec_effect (bd : BReg) (xd : XReg) (bs : BReg) :
    Answers (exec (.crcDec bd xd bs) s) (Effect (.crcDec bd xd bs) s) :=
  .unlessHalted <| .ite (fun _ => .faulted _) fun _ =>
    .next (.crcDecoded ⟨_, _, _, rfl⟩ ((OnlyDest.refl.setB rfl).setX rfl))

variable {s} in
/-- The run of a file-level command that counts no outcomes. -/
theorem Effect.file {i : Instr} {counts : OutcomeCounts} {body : FileM Unit} (cmd : fileLevel i = true)
    (hb : body.KeepsPercent) : Effect i s (s.afterJob ((s.job counts).runFile body)) :=
  .filed cmd (fun _ => rfl) (fun _ => rfl) (Job.runFile_percent (s.job counts) hb)

variable {s} in
/-- A report that stands before the run of a file-level command. -/
theorem Effect.report {i : Instr} {r : Report} (cmd : fileLevel i = true) : Effect i s (s.reportAs r) :=
  .filed cmd (fun _ => rfl) (fun _ => rfl) id

theorem cdCompress_effect (xalg : XReg) : Answers (exec (.cdCompress xalg) s) (Effect (.cdCompress xalg) s) := by
  refine .unlessHalted ?_
  split
  · exact .faulted _
  · exact .unlessUnitOpen rfl (.ite (fun _ => .next (.report rfl)) fun _ =>
      .next (.file rfl (compressBody_percent _ _ _)))

theorem cdDecompress_effect : Answers (exec .cdDecompress s) (Effect .cdDecompress s) :=
  .unlessHalted <| .unlessUnitOpen rfl <| .ite (fun _ => .next (.report rfl)) fun _ =>
    .next (.file rfl (decompressBody_percent _ _))

theorem hmFenc_effect : Answers (exec .hmFenc s) (Effect .hmFenc s) :=
  .unlessHalted <| .ite (fun _ => .faulted _) fun _ => .unlessUnitOpen rfl <|
    .next (.file rfl (hamEncodeBody_percent _ _ _))

theorem hmFdec_effect : Answers (exec .hmFdec s) (Effect .hmFdec s) :=
  .unlessHalted <| .ite (fun _ => .faulted _) fun _ => .unlessUnitOpen rfl <|
    .next (.filed rfl (absurd rfl) (fun _ => rfl) (Job.runFile_percent (s.job .zero) (hamDecodeBody_percent _ _ _)))

theorem crcFenc_effect : Answers (exec .crcFenc s) (Effect .crcFenc s) :=
  .unlessHalted <| .ite (fun _ => .faulted _) fun _ => .unlessUnitOpen rfl <|
    .next (.file rfl (crcEncodeBlocks_percent _ _ (by rw [sum_crcBlockSizes, Nat.zero_add])))

theorem crcFdec_effect : Answers (exec .crcFdec s) (Effect .crcFdec s) :=
  .unlessHalted <| .ite (fun _ => .faulted _) fun hn => .unlessUnitOpen rfl <|
    .next (.filed rfl (fun _ => rfl) (absurd rfl)
      (Job.runFile_percent (s.job .zero) (crcDecodeBody_percent _ hn _ _)))

/-! ## All commands -/

/-- Every command answers a next state, one of the shapes that `Effect` lists for it. -/
theorem exec_effect (i : Instr) (s : State) : Answers (exec i s) (Effect i s) := by
  cases i with
  | nop => exact .unlessHalted (.next .idle)
  | xLi | xLis | xMov | pbToInt | pbLen | fhDistinct => exact .unlessHalted (.next (.setX rfl))
  | csrR xd csr => exact csrR_effect s xd csr
  | csrW xs csr => exact csrW_effect s xs csr
  | pbClear | pbAppBuf | pbXor | pbCopy | crcRem | crcEnc => exact .unlessHalted (.next (.setB rfl))
  | pbTrunc | pbFromInt => exact .unlessHalted (.ite (fun _ => .faulted _) fun _ => .next (.setB rfl))
  | pbAppPart | hmEnc =>
    exact .unlessHalted (.ite (fun _ => .faulted _) fun _ => .ite (fun _ => .faulted _) fun _ => .next (.setB rfl))
  | pbSlice => exact .unlessHalted (.ite (fun _ => .next (.setB rfl)) fun _ => .faulted _)
  | pbAppBit | pbAppByte | pbPadR =>
    refine .unlessHalted ?_
    split
    · exact .faulted _
    · exact .next (.setB rfl)
  | pbGet | fhGet =>
    refine .unlessHalted ?_
    split
    · exact .faulted _
    · exact .next (.setX rfl)
  | pbSet | ctCode =>
    refine .unlessHalted ?_
    split
    · exact .faulted _
    · split
      · exact .faulted _
      · exact .next (.setB rfl)
  | pbPop =>
    refine .unlessHalted ?_
    split
    · exact .faulted _
    · exact .next (.registers ((OnlyDest.refl.setB rfl).setX rfl))
  | srOpen => exact .unlessHalted (.next (.readerOpened rfl))
  | srRdBit xd => exact srRdBit_effect s xd
  | srRdN bd xn => exact srRdN_effect s bd xn
  | srRdByte xd => exact srRdByte_effect s xd
  | srClose => exact .unlessHalted (.next (.readerClosed rfl))
  | swOpen => exact .unlessHalted (.withIo (.next (.writerOpened rfl)))
  | swWrBit xv => exact swWrBit_effect s xv
  | swWrByte xv => exact swWrByte_effect s xv
  | swWrBuf bs => exact swWrBuf_effect s bs
  | swClose => exact swClose_effect s
  | fhCount => exact fhCount_effect s
  | fhClear => exact .unlessHalted (.next (.histCleared rfl))
  | ctFromMap => exact ctFromMap_effect s
  | ctToMap => exact .unlessHalted (.next (.codesWritten (.inl rfl)))
  | ctSer => exact ctSer_effect s
  | ctDeser => exact ctDeser_effect s
  | ctFeed xd xv => exact ctFeed_effect s xd xv
  | ctReset => exact .unlessHalted (.next (.cursorMoved (.inl rfl) .refl))
  | ctSetCode xs bs => exact ctSetCode_effect s xs bs
  | sfBuild => exact sfBuild_effect s
  | hfBuild => exact hfBuild_effect s
  | cdCompress xalg => exact cdCompress_effect s xalg
  | cdDecompress => exact cdDecompress_effect s
  | hmDec bd xd bs => exact hmDec_effect s bd xd bs
  | hmFenc => exact hmFenc_effect s
  | hmFdec => exact hmFdec_effect s
  | crcDec bd xd bs => exact crcDec_effect s bd xd bs
  | crcFenc => exact crcFenc_effect s
  | crcFdec => exact crcFdec_effect s

end

/-! ## Frames and invariants of the commands -/

section
variable {i : Instr} {s t : State}

/-- If a command answers a next state, it is one of the shapes listed for it. -/
theorem effect_of_exec (h : exec i s = .next t) : Effect i s t := by
  obtain ⟨u, hu, heff⟩ := exec_effect i s
  cases hu.symm.trans h
  exact heff

namespace Effect

/-- No command touches the index of the next command, the host's list, IN or the parameters. -/
theorem host_kept (h : Effect i s t) : t.pc = s.pc ∧ t.acts = s.acts ∧ t.input = s.input ∧ t.cfg = s.cfg := by
  cases h <;> exact ⟨rfl, rfl, rfl, rfl⟩

/-- No command clears or replaces a fault. -/
theorem fault_kept {c : Cause} (h : Effect i s t) (hc : s.fault = some c) : t.fault = some c := by
  cases h with
  | faulted d _ => rw [hc]; rfl
  | _ => exact hc

theorem report_kept (h : Effect i s t) (hi : reporting i = false) :
    t.report = s.report ∧ t.progress = s.progress := by
  cases h with
  | counted cmd => simp [reporting, cmd] at hi
  | filed cmd => simp [reporting, cmd] at hi
  | _ => exact ⟨rfl, rfl⟩

theorem config_kept (h : Effect i s t) (hw : ∀ r n, i ≠ .csrW r n) :
    t.hamB = s.hamB ∧ t.crcN = s.crcN ∧ t.crcCorr = s.crcCorr := by
  cases h with
  | csrWritten cmd => obtain ⟨r, n, hi⟩ := cmd; exact absurd hi (hw r n)
  | _ => exact ⟨rfl, rfl, rfl⟩

theorem ham_kept (h : Effect i s t) (hw : ∀ r n, i ≠ .csrW r n) (hd : ∀ d r k, i ≠ .hmDec d r k)
    (hf : i ≠ .hmFdec) : t.ham = s.ham := by
  cases h with
  | csrWritten cmd => obtain ⟨r, n, hi⟩ := cmd; exact absurd hi (hw r n)
  | hamDecoded cmd => obtain ⟨d, r, k, hi⟩ := cmd; exact absurd hi (hd d r k)
  | filed _ hamKept => exact hamKept hf
  | _ => rfl

theorem crc_kept (h : Effect i s t) (hw : ∀ r n, i ≠ .csrW r n) (hd : ∀ d r k, i ≠ .crcDec d r k)
    (hf : i ≠ .crcFdec) : t.crc = s.crc := by
  cases h with
  | csrWritten cmd => obtain ⟨r, n, hi⟩ := cmd; exact absurd hi (hw r n)
  | crcDecoded cmd => obtain ⟨d, r, k, hi⟩ := cmd; exact absurd hi (hd d r k)
  | filed _ _ crcKept => exact crcKept hf
  | _ => rfl

theorem hist_kept (h : Effect i s t) (hcount : i ≠ .fhCount) (hclear : i ≠ .fhClear) : t.hist = s.hist := by
  cases h with
  | counted cmd => exact absurd cmd hcount
  | histCleared cmd => exact absurd cmd hclear
  | _ => rfl

theorem codes_kept (h : Effect i s t) (hmap : i ≠ .ctToMap) (hsf : i ≠ .sfBuild) (hset : ∀ r n, i ≠ .ctSetCode r n) :
    t.codes = s.codes := by
  cases h with
  | codesWritten cmd =>
    obtain hi | hi | ⟨r, n, hi⟩ := cmd
    · exact absurd hi hmap
    · exact absurd hi hsf
    · exact absurd hi (hset r n)
  | _ => rfl

theorem tree_kept (h : Effect i s t) (hmap : i ≠ .ctFromMap) (hdeser : i ≠ .ctDeser) (hhf : i ≠ .hfBuild) :
    t.tree = s.tree := by
  cases h with
  | treeBuilt cmd => exact absurd cmd (not_or_intro hmap hhf)
  | treeRead cmd => exact absurd cmd hdeser
  | _ => rfl

theorem cur_kept (h : Effect i s t) (hmap : i ≠ .ctFromMap) (hdeser : i ≠ .ctDeser) (hhf : i ≠ .hfBuild)
    (hreset : i ≠ .ctReset) (hfeed : ∀ r v, i ≠ .ctFeed r v) : t.cur = s.cur := by
  cases h with
  | treeBuilt cmd => exact absurd cmd (not_or_intro hmap hhf)
  | treeRead cmd => exact absurd cmd hdeser
  | cursorMoved cmd =>
    obtain hi | ⟨r, v, hi⟩ := cmd
    · exact absurd hi hreset
    · exact absurd hi (hfeed r v)
  | _ => rfl

theorem readerOpen_kept (h : Effect i s t) (hopen : i ≠ .srOpen) (hclose : i ≠ .srClose) :
    t.reader.isOpen = s.reader.isOpen := by
  cases h with
  | readerOpened cmd => exact absurd cmd hopen
  | readerClosed cmd => exact absurd cmd hclose
  | _ => rfl

theorem eos_kept (h : Effect i s t) (hopen : i ≠ .srOpen) (hread : readsStream i = false) : t.eos = s.eos := by
  cases h with
  | readerOpened cmd => exact absurd cmd hopen
  | streamRead cmd => exact absurd cmd (by simp [hread])
  | _ => rfl

theorem pos_kept (h : Effect i s t) (hopen : i ≠ .srOpen) (hread : readsStream i = false) (hdeser : i ≠ .ctDeser) :
    t.reader.pos = s.reader.pos := by
  cases h with
  | readerOpened cmd => exact absurd cmd hopen
  | streamRead cmd => exact absurd cmd (by simp [hread])
  | treeRead cmd => exact absurd cmd hdeser
  | _ => rfl

theorem writerOpen_kept (h : Effect i s t) (hopen : i ≠ .swOpen) (hclose : i ≠ .swClose) :
    t.writer.isOpen = s.writer.isOpen := by
  cases h with
  | writerOpened cmd => exact absurd cmd hopen
  | writerClosed cmd => exact absurd cmd hclose
  | _ => rfl

theorem pend_kept (h : Effect i s t) (hw : writesWriter i = false) : t.writer.pend = s.writer.pend := by
  cases h with
  | writerOpened cmd => simp [writesWriter, cmd] at hw
  | appended cmd => simp [writesWriter, cmd] at hw
  | writerClosed cmd => simp [writesWriter, appendsOut, cmd] at hw
  | _ => rfl

theorem streamInv (h : Effect i s t) (hs : s.StreamInv) : t.StreamInv := by
  obtain ⟨within, closed, bound⟩ := hs
  cases h with
  | readerOpened => exact ⟨fun _ => Nat.zero_le _, closed, bound⟩
  | streamRead _ _ hpos => exact ⟨fun hopen => hpos (within hopen), closed, bound⟩
  | readerClosed => exact ⟨nofun, closed, bound⟩
  | writerOpened => exact ⟨within, nofun, by simp⟩
  | appended _ hopen _ hpend => exact ⟨within, fun hclosed => absurd (hopen.symm.trans hclosed) nofun, hpend⟩
  | writerClosed => exact ⟨within, fun _ => rfl, by simp⟩
  | treeRead _ hpos => exact ⟨fun hopen => hpos (within hopen), closed, bound⟩
  | _ => exact ⟨within, closed, bound⟩

theorem rangeInv (h : Effect i s t) (hs : s.RangeInv) : t.RangeInv := by
  obtain ⟨short, counts, hamB, percent⟩ := hs
  cases h with
  | csrWritten _ legal => exact ⟨short, counts, legal.elim (fun e => e ▸ hamB) .inr, percent⟩
  | counted _ hcounts hp => exact ⟨short, fun v => (hcounts v).trans_lt short, hamB, hp percent⟩
  | histCleared => exact ⟨short, fun v => by simp, hamB, percent⟩
  | filed _ _ _ hp => exact ⟨short, counts, hamB, hp percent⟩
  | _ => exact ⟨short, counts, hamB, percent⟩

end Effect
end

/-! ## The packed byte form (10_state.md R22) -/

/-- Bit k of `bits_w(v)` is bit w − 1 − k of the number. -/
theorem getD_bitsOf {w k : Nat} (v : Nat) (hk : k < w) : (bitsOf w v).getD k false = v.testBit (w - 1 - k) := by
  induction w generalizing k with
  | zero => exact absurd hk (Nat.not_lt_zero k)
  | succ w ih =>
    cases k with
    | zero => rfl
    | succ k =>
      rw [bitsOf, List.getD_cons_succ, ih (by omega)]
      congr 1
      omega

/-- Bit j of a byte sequence is bit 7 − (j mod 8) of byte j/8 (20_memory.md R60). -/
theorem getD_streamBits {m : List Byte} {j : Nat} {v : Byte} (h : m[j / 8]? = some v) :
    (streamBits m).getD j false = v.toNat.testBit (7 - j % 8) := by
  induction m generalizing j with
  | nil => simp at h
  | cons u m ih =>
    rw [streamBits_cons]
    by_cases hj : j < 8
    · rw [Nat.div_eq_of_lt hj] at h
      cases h
      rw [List.getD_append _ _ _ _ (by simpa using hj), byteBits, getD_bitsOf _ hj, Nat.mod_eq_of_lt hj]
    · have hm : m[(j - 8) / 8]? = some v := by
        rwa [show j / 8 = (j - 8) / 8 + 1 by omega, List.getElem?_cons_succ] at h
      rw [List.getD_append_right _ _ _ _ (by simp; omega), length_byteBits, ih hm]
      congr 2
      omega

/-- A last partial byte unpacks to its bits and zeros. -/
theorem streamBits_pack_partial {s : Bits} (hs : s.length < 8) :
    streamBits (pack s) = s ++ List.replicate ((8 - s.length % 8) % 8) false := by
  rcases Nat.eq_zero_or_pos s.length with h0 | hpos
  · simp [List.eq_nil_of_length_eq_zero h0, pack_nil]
  · have hpack : pack s = [byteOfBits s] := by
      rw [pack, ceilDiv, show (s.length + 8 - 1) / 8 = 1 by omega, packCount, packCount, List.take_of_length_le hs.le]
    rw [hpack, streamBits_cons, streamBits_nil, List.append_nil, byteBits_byteOfBits _ hs.le,
      show (8 - s.length % 8) % 8 = 8 - s.length by omega]

/-- Unpacking gives the sequence, zero-padded to whole bytes. -/
theorem streamBits_pack_padded (s : Bits) :
    streamBits (pack s) = s ++ List.replicate ((8 - s.length % 8) % 8) false := by
  have hwhole : (s.take (8 * (s.length / 8))).length % 8 = 0 := by
    rw [List.length_take]
    omega
  have hrest : (s.drop (8 * (s.length / 8))).length = s.length % 8 := by
    rw [List.length_drop]
    omega
  calc streamBits (pack s)
      = s.take (8 * (s.length / 8)) ++ streamBits (pack (s.drop (8 * (s.length / 8)))) := by
        conv_lhs => rw [← List.take_append_drop (8 * (s.length / 8)) s]
        rw [pack_append _ _ hwhole, streamBits_append, streamBits_pack _ hwhole]
    _ = s ++ List.replicate ((8 - s.length % 8) % 8) false := by
        rw [streamBits_pack_partial (by omega), hrest, Nat.mod_mod, ← List.append_assoc, List.take_append_drop]

/-- Zeros after a sequence do not show in its bits. -/
theorem getD_append_zeros (s : Bits) (n j : Nat) : (s ++ List.replicate n false).getD j false = s.getD j false := by
  rcases Nat.lt_or_ge j s.length with hj | hj
  · exact List.getD_append _ _ _ _ hj
  · rw [List.getD_append_right _ _ _ _ hj, List.getD_eq_default s _ hj, List.getD_eq_getElem?_getD,
      List.getElem?_replicate]
    split <;> rfl

/-! ## The STATUS word (10_state.md R27) -/

theorem causeCode_lt (c : Option Cause) : causeCode c < 2 ^ 8 := by
  rcases c with _ | c
  · decide
  · cases c <;> decide

theorem testBit_eq_of_div_mod {n k : Nat} {v : Bool} (h : n / 2 ^ k % 2 = v.toNat) : n.testBit k = v := by
  rw [Nat.testBit_eq_decide_div_mod_eq, h]
  cases v <;> rfl

/-! ## The obligations -/

/-- Settles O59: the commands by `Effect.streamInv`; of the host's other acts only reset and another IN could matter,
and IN changes only under a closed reader. -/
theorem stepKeepsTheStreamInvariant : Obligations.StepKeepsTheStreamInvariant := by
  intro s t hs h
  have ⟨within, closed, bound⟩ := hs
  obtain ⟨-, rfl⟩ | ⟨w, rest, i, -, -, hexec⟩ | ⟨w, rest, e, -, -, rfl⟩ | ⟨rest, -, rfl⟩ |
    ⟨bytes, rest, -, hclosed, -, rfl⟩ | ⟨bytes, rest, -, -, rfl⟩ | ⟨level, rest, -, rfl⟩ := step_cases h
  · exact hs
  · exact (effect_of_exec hexec).streamInv ⟨within, closed, bound⟩
  · rw [raise_eq]
    exact ⟨within, closed, bound⟩
  · exact ⟨nofun, fun _ => rfl, by simp⟩
  · exact ⟨fun hopen => absurd (hopen.symm.trans hclosed) nofun, closed, bound⟩
  · exact ⟨within, closed, bound⟩
  · exact ⟨within, closed, bound⟩

/-- Settles O60: the commands by `Effect.rangeInv`, a supplied IN by the host's bound of 2^64 bytes. -/
theorem stepKeepsTheValueRanges : Obligations.StepKeepsTheValueRanges := by
  intro s t hs h
  have ⟨short, counts, hamB, percent⟩ := hs
  obtain ⟨-, rfl⟩ | ⟨w, rest, i, -, -, hexec⟩ | ⟨w, rest, e, -, -, rfl⟩ | ⟨rest, -, rfl⟩ |
    ⟨bytes, rest, -, -, hlen, rfl⟩ | ⟨bytes, rest, -, -, rfl⟩ | ⟨level, rest, -, rfl⟩ := step_cases h
  · exact hs
  · exact (effect_of_exec hexec).rangeInv ⟨short, counts, hamB, percent⟩
  · rw [raise_eq]
    exact ⟨short, counts, hamB, percent⟩
  · exact ⟨short, fun v => by simp, .inl rfl, Nat.zero_le _⟩
  · exact ⟨hlen, counts, hamB, percent⟩
  · exact ⟨short, counts, hamB, percent⟩
  · exact ⟨short, counts, hamB, percent⟩

/-- A step over a command word, legal or not, is that word run on the state with the command taken. -/
theorem step_command {s : State} {w : Word} {rest : List HostAct} (h : s.acts = .command w :: rest) :
    step s = runWord w (s.takeCommand rest) := by
  unfold step hostAct
  rw [h]

/-- A word, legal or not, leaves the host's index and list. -/
theorem runWord_host (w : Word) (s : State) :
    ∃ t, runWord w s = .next t ∧ t.pc = s.pc ∧ t.acts = s.acts := by
  unfold runWord
  split
  · next i _ =>
    obtain ⟨t, ht, heff⟩ := exec_effect i s
    obtain ⟨hpc, hacts, -, -⟩ := heff.host_kept
    exact ⟨t, ht, hpc, hacts⟩
  · exact ⟨_, rfl, raise_pc _ _, raise_acts _ _⟩

/-- Settles O6: `exec_effect` for the commands, `takeCommand` for the one step of the index. -/
theorem commandsAnswerNextAndKeepTheIndex : Obligations.CommandsAnswerNextAndKeepTheIndex := by
  refine ⟨fun i s => ?_, fun s w rest hacts => ?_⟩
  · obtain ⟨t, ht, heff⟩ := exec_effect i s
    exact ⟨t, ht, heff.host_kept⟩
  · rw [step_command hacts]
    exact runWord_host w (s.takeCommand rest)

/-- Settles O10: no command and no act of the host but reset writes a held fault. -/
theorem onlyResetClearsTheFault : Obligations.OnlyResetClearsTheFault := by
  refine ⟨fun s t c hc h hreset => ?_, fun s rest hacts => ⟨(s.takeAct rest).afterReset, ?_, rfl⟩⟩
  · obtain ⟨-, rfl⟩ | ⟨w, rest, i, -, -, hexec⟩ | ⟨w, rest, e, -, -, rfl⟩ | ⟨rest, hacts, -⟩ |
      ⟨bytes, rest, -, -, -, rfl⟩ | ⟨bytes, rest, -, -, rfl⟩ | ⟨level, rest, -, rfl⟩ := step_cases h
    · exact hc
    · exact (effect_of_exec hexec).fault_kept hc
    · rw [raise_fault, takeCommand_fault, hc, Option.some_or]
    · exact absurd hacts (hreset rest)
    · exact hc
    · exact hc
    · exact hc
  · unfold step hostAct
    rw [hacts]

/-- Settles O12: each conjunct is a frame lemma of `Effect`. -/
theorem commandsWriteOnlyTheirUnits : Obligations.CommandsWriteOnlyTheirUnits := by
  intro i s t hexec
  have h := effect_of_exec hexec
  exact ⟨h.report_kept, h.config_kept, h.ham_kept, h.crc_kept, h.hist_kept, h.codes_kept,
    fun hmap hdeser hhf => ⟨h.tree_kept hmap hdeser hhf, h.cur_kept hmap hdeser hhf⟩, h.readerOpen_kept,
    fun hopen hread => ⟨h.eos_kept hopen hread, h.pos_kept hopen hread⟩, h.writerOpen_kept, h.pend_kept⟩

/-- Settles O25: the bits of the packed form by `streamBits_pack_padded`, read at the place `getD_streamBits`
names. -/
theorem packedFormPutsTheFirstBitHighest : Obligations.PackedFormPutsTheFirstBitHighest := by
  refine ⟨length_pack, fun s j v hv => ?_, streamBits_pack_padded, pack_streamBits⟩
  rw [← getD_streamBits hv, streamBits_pack_padded, getD_append_zeros]

/-- Settles O15: `State.status` is a sum of fields, each below the weight of the next one, so each is read back. -/
theorem statusWordHasTheListedFields : Obligations.StatusWordHasTheListedFields := by
  refine ⟨fun s => ?_, rfl⟩
  have hc := causeCode_lt s.fault
  have hf := s.fault.isSome.toNat_le
  have he := s.eos.toNat_le
  have hr := s.reader.isOpen.toNat_le
  have hw := s.writer.isOpen.toNat_le
  have hstatus : s.status = s.fault.isSome.toNat + causeCode s.fault * 2 ^ 8 + s.eos.toNat * 2 ^ 16
    + s.reader.isOpen.toNat * 2 ^ 17 + s.writer.isOpen.toNat * 2 ^ 18 := rfl
  refine ⟨testBit_eq_of_div_mod ?_, ?_, testBit_eq_of_div_mod ?_, testBit_eq_of_div_mod ?_, testBit_eq_of_div_mod ?_,
    fun n hn => ?_⟩
  · omega
  · omega
  · omega
  · omega
  · omega
  · obtain ⟨h1, h7⟩ | h19 := hn
    · apply testBit_eq_of_div_mod
      interval_cases n <;> simp only [Bool.toNat_false] <;> omega
    · have hlt : s.status < 2 ^ 19 := by omega
      exact Nat.testBit_eq_false_of_lt (hlt.trans_le (Nat.pow_le_pow_right (by omega) h19))

end Sys2Proof.Machine
end


section
/-! SUPPORT. The memory family (20_memory.md). What a command can do to OUT, read off the shapes of `Effect`, and the
bits that MemRead gives. -/

namespace Sys2Proof.Machine
open Sys2Proof.Claims

/-! ## Commands and OUT (20_memory.md R60, R62) -/

/-- The commands that append to OUT are unit commands. -/
theorem fileLevel_of_appendsOut {i : Instr} (h : appendsOut i = true) : fileLevel i = false := by
  cases i with
  | swWrBit | swWrByte | swWrBuf | swClose | ctSer => rfl
  | _ => cases h

namespace Effect
variable {i : Instr} {s t : State}

theorem output_kept (h : Effect i s t) (hw : writesWriter i = false) (hf : fileLevel i = false) :
    t.output = s.output := by
  cases h with
  | writerOpened cmd => simp [writesWriter, cmd] at hw
  | appended cmd => simp [writesWriter, cmd] at hw
  | writerClosed cmd => simp [writesWriter, appendsOut, cmd] at hw
  | filed cmd => simp [cmd] at hf
  | _ => rfl

theorem output_prefix (h : Effect i s t) (ha : appendsOut i = true) : s.output <+: t.output := by
  cases h with
  | appended _ _ keeps => exact keeps
  | writerClosed _ keeps => exact keeps
  | writerOpened cmd => simp [appendsOut, cmd] at ha
  | filed cmd => simp [fileLevel_of_appendsOut ha] at cmd
  | _ => exact List.prefix_rfl

theorem output_swOpen (h : Effect .swOpen s t) : t.output = [] ∨ t.output = s.output := by
  cases h with
  | writerOpened => exact .inl rfl
  | appended cmd => cases cmd
  | writerClosed cmd => cases cmd
  | filed cmd => cases cmd
  | _ => exact .inr rfl

end Effect

/-- A longer memory with the same start has the same bytes below the old length. -/
theorem Memory.byteAt_prefix {m m' : List Byte} {a : Nat} (h : m <+: m') (ha : a < m.length) :
    Memory.byteAt m' a = Memory.byteAt m a := by
  obtain ⟨bytes, rfl⟩ := h
  exact Memory.byteAt_append m bytes ha

/-! ## MemRead (20_memory.md R61) -/

/-- Bit j of MemRead is bit a + j of the sequence. -/
theorem getElem?_memRead {m : List Byte} {a n j : Nat} (hj : j < n) :
    (memRead m a n)[j]? = (streamBits m)[a + j]? := by
  rw [memRead, List.getElem?_take_of_lt hj, List.getElem?_drop]

/-- Below the end of a byte sequence every bit is there, and its byte. -/
theorem getElem?_streamBits {m : List Byte} {j : Nat} (hj : j < 8 * m.length) :
    ∃ v, m[j / 8]? = some v ∧ (streamBits m)[j]? = some (v.toNat.testBit (7 - j % 8)) := by
  have hbyte : m[j / 8]? = some m[j / 8] := List.getElem?_eq_getElem (by omega)
  have hbit : j < (streamBits m).length := by rwa [length_streamBits]
  refine ⟨_, hbyte, ?_⟩
  rw [← getD_streamBits hbyte, List.getElem?_eq_getElem hbit, List.getD_eq_getElem _ _ hbit]

/-! ## The obligations -/

/-- Settles O13: each conjunct is a frame lemma of `Effect` about IN or OUT. -/
theorem commandsStoreOnlyByAppending : Obligations.CommandsStoreOnlyByAppending := by
  intro i s t hexec
  have h := effect_of_exec hexec
  obtain ⟨-, -, hinput, -⟩ := h.host_kept
  refine ⟨fun a => by rw [hinput], fun hw hf a => by rw [h.output_kept hw hf], fun happ a ha => ?_, fun hopen => ?_⟩
  · exact Memory.byteAt_prefix (h.output_prefix happ) ha
  · subst hopen
    exact h.output_swOpen

/-- Settles O26: a bit of MemRead is a bit of IN, below its end by the bound. -/
theorem memReadGivesBitsHighFirst : Obligations.MemReadGivesBitsHighFirst := by
  intro m a n hbound
  refine ⟨length_memRead m a n hbound, fun j hj => ?_⟩
  rw [getElem?_memRead hj]
  exact getElem?_streamBits (by omega)

end Sys2Proof.Machine
end

section
/-! SUPPORT. The encoding family (30_encoding.md). A word is its fields and reserved bits, the opcode map's masks test
those bits, and so the decoder's answer to a word is right: a command whose word it is, or no command for a word
that no row of the map selects. -/

namespace Sys2Proof
open Sys2Proof.Claims Sys2Proof.Machine

/-! ## Masks of bit ranges -/

/-- A mask of n bits from bit lo on keeps those bits in place. -/
theorem and_bitRange (x lo n : Nat) : x &&& (2 ^ n - 1) * 2 ^ lo = x / 2 ^ lo % 2 ^ n * 2 ^ lo := by
  refine Nat.eq_of_testBit_eq fun j => ?_
  simp only [Nat.testBit_and, Nat.testBit_mul_two_pow, Nat.testBit_two_pow_sub_one, Nat.testBit_mod_two_pow,
    Nat.testBit_div_two_pow]
  by_cases h : lo ≤ j <;> simp [h, Bool.and_comm]

theorem and_bitRange_eq_zero {x lo n : Nat} : x &&& (2 ^ n - 1) * 2 ^ lo = 0 ↔ x / 2 ^ lo % 2 ^ n = 0 := by
  rw [and_bitRange, mul_eq_zero, or_iff_left (Nat.two_pow_pos lo).ne']

/-- A mask of the opcode byte and lower bits keeps the opcode and those bits. -/
theorem and_rowMask (w : Word) {m : Nat} (hm : m < 2 ^ 24) :
    w.toNat &&& (0xFF * 2 ^ 24 + m) = w.toNat / 2 ^ 24 * 2 ^ 24 + (w.toNat &&& m) := by
  have hw := w.isLt
  have hlow : w.toNat &&& m < 2 ^ 24 := Nat.and_le_right.trans_lt hm
  have hop : w.toNat &&& 2 ^ 24 * 0xFF = 2 ^ 24 * (w.toNat / 2 ^ 24) := by
    have h := and_bitRange w.toNat 24 8
    rw [Nat.mod_eq_of_lt (by omega), mul_comm _ (2 ^ 24), mul_comm _ (2 ^ 24)] at h
    exact h
  rw [mul_comm, Nat.two_pow_add_eq_or_of_lt hm, Nat.and_or_distrib_left, hop, ← Nat.two_pow_add_eq_or_of_lt hlow,
    mul_comm]

/-! ## A word is its fields and its reserved bits (30_encoding.md R81–R84) -/

theorem toNat_fieldOp (w : Word) : (fieldOp w).toNat = w.toNat / 2 ^ 24 := by
  have := w.isLt
  rw [fieldOp, BitVec.toNat_ofNat]
  omega

theorem toNat_fieldE (w : Word) : (fieldE w).toNat = w.toNat / 2 ^ 7 % 2 := by
  unfold fieldE
  obtain h | h := Nat.mod_two_eq_zero_or_one (w.toNat / 2 ^ 7) <;> rw [h] <;> rfl

section
variable {w : Word} {op : BitVec 8} (hop : fieldOp w = op)
include hop

theorem formatR_fields (h : w.toNat % 2 ^ 7 = 0) :
    formatR op (fieldA w) (fieldB w) (fieldC w) (fieldD w) (fieldE w) = w := by
  apply BitVec.eq_of_toNat_eq
  rw [toNat_formatR, ← hop, toNat_fieldOp, toNat_fieldE]
  simp only [fieldA, fieldB, fieldC, fieldD, Fin.ofNat]
  omega

theorem formatR_fields_abce (h : w.toNat / 2 ^ 0 % 2 ^ 7 = 0) (h' : w.toNat / 2 ^ 8 % 2 ^ 4 = 0) :
    formatR op (fieldA w) (fieldB w) (fieldC w) 0 (fieldE w) = w := by
  have hD : fieldD w = 0 := fieldD_eq h'
  have hw := formatR_fields hop (by omega)
  rwa [hD] at hw

theorem formatR_fields_abcd (h : w.toNat / 2 ^ 0 % 2 ^ 8 = 0) :
    formatR op (fieldA w) (fieldB w) (fieldC w) (fieldD w) false = w := by
  have hE : fieldE w = false := by rw [← Bool.toNat_eq_zero, toNat_fieldE]; omega
  have hw := formatR_fields hop (by omega)
  rwa [hE] at hw

theorem formatR_fields_abc (h : w.toNat / 2 ^ 0 % 2 ^ 12 = 0) :
    formatR op (fieldA w) (fieldB w) (fieldC w) 0 false = w := by
  have hD : fieldD w = 0 := fieldD_eq (by simp only [Fin.val_zero]; omega)
  have hw := formatR_fields_abcd hop (by omega)
  rwa [hD] at hw

theorem formatR_fields_ab (h : w.toNat / 2 ^ 0 % 2 ^ 16 = 0) : formatR op (fieldA w) (fieldB w) 0 0 false = w := by
  have hC : fieldC w = 0 := fieldC_eq (by simp only [Fin.val_zero]; omega)
  have hw := formatR_fields_abc hop (by omega)
  rwa [hC] at hw

theorem formatR_fields_a (h : w.toNat / 2 ^ 0 % 2 ^ 20 = 0) : formatR op (fieldA w) 0 0 0 false = w := by
  have hB : fieldB w = 0 := fieldB_eq (by simp only [Fin.val_zero]; omega)
  have hw := formatR_fields_ab hop (by omega)
  rwa [hB] at hw

theorem formatI_fields : formatI op (fieldA w) (fieldImm w) = w := by
  apply BitVec.eq_of_toNat_eq
  rw [toNat_formatI, ← hop, toNat_fieldOp]
  simp only [fieldA, fieldImm, Fin.ofNat, BitVec.toNat_ofNat]
  omega

theorem formatS_fields (h : w.toNat / 2 ^ 8 % 2 ^ 12 = 0) : formatS op (fieldA w) (fieldCsr w) = w := by
  apply BitVec.eq_of_toNat_eq
  rw [toNat_formatS, ← hop, toNat_fieldOp]
  simp only [fieldA, fieldCsr, Fin.ofNat, BitVec.toNat_ofNat]
  omega

theorem formatN_fields (h : w.toNat / 2 ^ 0 % 2 ^ 24 = 0) : formatN op = w := by
  apply BitVec.eq_of_toNat_eq
  rw [toNat_formatN, ← hop, toNat_fieldOp]
  omega

end

/-! ## The opcode map (30_encoding.md R86) -/

/-- A row is the only one of its opcode, and its mask holds the whole opcode byte. -/
theorem opcodeMap_rows : ∀ row ∈ opcodeMap,
    opcodeMap.lookup row.1 = some row.2 ∧ row.1 < 2 ^ 8 ∧ row.2 = 0xFF * 2 ^ 24 + row.2 % 2 ^ 24 := by
  decide +kernel

theorem mem_opcodeMap_iff {op mask : Nat} : (op, mask) ∈ opcodeMap ↔ opcodeMap.lookup op = some mask := by
  refine ⟨fun h => (opcodeMap_rows _ h).1, fun h => ?_⟩
  obtain ⟨before, after, hmap, -⟩ := List.lookup_eq_some_iff.1 h
  simp [hmap]

/-- A row selects the words with its opcode whose reserved bits are 0. -/
theorem selects_iff {w : Word} {row : Nat × Nat} (hrow : row ∈ opcodeMap) :
    w &&& BitVec.ofNat 32 row.2 = BitVec.ofNat 32 (row.1 * 2 ^ 24) ↔
      (fieldOp w).toNat = row.1 ∧ w.toNat &&& row.2 % 2 ^ 24 = 0 := by
  obtain ⟨-, hop, hmask⟩ := opcodeMap_rows row hrow
  have hm : row.2 % 2 ^ 24 < 2 ^ 24 := Nat.mod_lt _ (by omega)
  have hlow : w.toNat &&& row.2 % 2 ^ 24 < 2 ^ 24 := Nat.and_le_right.trans_lt hm
  rw [BitVec.toNat_eq, BitVec.toNat_and, BitVec.toNat_ofNat, BitVec.toNat_ofNat,
    Nat.mod_eq_of_lt (by omega : row.2 < 2 ^ 32), Nat.mod_eq_of_lt (by omega : row.1 * 2 ^ 24 < 2 ^ 32),
    toNat_fieldOp]
  conv_lhs => rw [hmask, and_rowMask w hm]
  omega

/-- The reserved bits of an opcode's format, if the map has the opcode. -/
def reservedMask (op : BitVec 8) : Option Nat := (opcodeMap.lookup op.toNat).map (· % 2 ^ 24)

theorem reservedMask_eq_none {op : BitVec 8} (h : ∀ row ∈ opcodeMap, op ≠ BitVec.ofNat 8 row.1) :
    reservedMask op = none := by
  rw [reservedMask, Option.map_eq_none_iff, List.lookup_eq_none_iff]
  intro row hrow
  simpa using fun heq => h row hrow (by rw [← heq, BitVec.ofNat_toNat, BitVec.setWidth_eq])

/-- The legal words are those with an opcode of the map and no reserved bit set: the complement of R87. -/
theorem legalWord_iff {w : Word} : LegalWord w ↔ ∃ m, reservedMask (fieldOp w) = some m ∧ w.toNat &&& m = 0 := by
  simp only [reservedMask, Option.map_eq_some_iff, exists_exists_and_eq_and, ← mem_opcodeMap_iff]
  constructor
  · rintro ⟨row, hrow, hsel⟩
    obtain ⟨hop, hm⟩ := (selects_iff hrow).1 hsel
    exact ⟨row.2, hop ▸ hrow, hm⟩
  · rintro ⟨mask, hrow, hm⟩
    exact ⟨_, hrow, (selects_iff hrow).2 ⟨rfl, hm⟩⟩

/-- The opcode ranges that R87 leaves unassigned hold no opcode of the map. -/
theorem unassigned_not_mapped : ∀ row ∈ opcodeMap, row.1 ∉
    List.range' 0x07 9 ++ List.range' 0x25 3 ++ List.range' 0x2D 3 ++ List.range' 0x34 12 ++
    List.range' 0x4A 6 ++ List.range' 0x52 6 ++ List.range' 0x5C 4 ++ List.range' 0x65 155 := by
  simp only [List.mem_append, List.mem_range'_1]
  decide

/-! ## The decoder's answers are right -/

theorem ifZero_eq_error {w : Word} {lo n : Nat} (r : Except DecodeError Instr) (h : w.toNat / 2 ^ lo % 2 ^ n ≠ 0) :
    ifZero w lo n r = .error .reservedBit := if_neg h

/-- What the decoder's answer to a word has to be: for a legal word its command, for another word none. -/
def RightAnswer (w : Word) : Except DecodeError Instr → Prop
  | .ok i => encode i = w ∧ LegalWord w
  | .error _ => ¬ LegalWord w

namespace RightAnswer

theorem of_unassigned {w : Word} {e : DecodeError} (h : reservedMask (fieldOp w) = none) :
    RightAnswer w (.error e) := by
  intro hlegal
  obtain ⟨m, hm, -⟩ := legalWord_iff.1 hlegal
  rw [h] at hm
  contradiction

theorem of_ifZero {w : Word} {op : BitVec 8} {lo n : Nat} {i : Instr} (hop : fieldOp w = op)
    (hrow : reservedMask op = some ((2 ^ n - 1) * 2 ^ lo)) (henc : w.toNat / 2 ^ lo % 2 ^ n = 0 → encode i = w) :
    RightAnswer w (ifZero w lo n (.ok i)) := by
  have hlegal : LegalWord w ↔ w.toNat / 2 ^ lo % 2 ^ n = 0 := by
    simp [legalWord_iff, hop, hrow, and_bitRange_eq_zero]
  by_cases hz : w.toNat / 2 ^ lo % 2 ^ n = 0
  · rw [ifZero_of_zero hz]
    exact ⟨henc hz, hlegal.2 hz⟩
  · rw [ifZero_eq_error _ hz]
    exact mt hlegal.1 hz

theorem of_ifZero_ifZero {w : Word} {op : BitVec 8} {lo n lo' n' : Nat} {i : Instr} (hop : fieldOp w = op)
    (hrow : reservedMask op = some ((2 ^ n - 1) * 2 ^ lo ||| (2 ^ n' - 1) * 2 ^ lo'))
    (henc : w.toNat / 2 ^ lo % 2 ^ n = 0 → w.toNat / 2 ^ lo' % 2 ^ n' = 0 → encode i = w) :
    RightAnswer w (ifZero w lo n (ifZero w lo' n' (.ok i))) := by
  have hlegal : LegalWord w ↔ w.toNat / 2 ^ lo % 2 ^ n = 0 ∧ w.toNat / 2 ^ lo' % 2 ^ n' = 0 := by
    simp [legalWord_iff, hop, hrow, Nat.and_or_distrib_left, Nat.or_eq_zero_iff, and_bitRange_eq_zero]
  by_cases hz : w.toNat / 2 ^ lo % 2 ^ n = 0
  · rw [ifZero_of_zero hz]
    by_cases hz' : w.toNat / 2 ^ lo' % 2 ^ n' = 0
    · rw [ifZero_of_zero hz']
      exact ⟨henc hz hz', hlegal.2 ⟨hz, hz'⟩⟩
    · rw [ifZero_eq_error _ hz']
      exact fun h => hz' (hlegal.1 h).2
  · rw [ifZero_eq_error _ hz]
    exact fun h => hz (hlegal.1 h).1

/-! One lemma per format and set of used fields: a row's arm of the decoder is right when the row has that format's
reserved bits and the encoder lays the command out in that format. -/

section
variable {w : Word} {op : BitVec 8} {i : Instr} (hop : fieldOp w = op)
include hop

theorem of_formatN (hrow : reservedMask op = some 0xFFFFFF ∧ encode i = formatN op) :
    RightAnswer w (ifZero w 0 24 (.ok i)) :=
  of_ifZero hop hrow.1 fun hz => hrow.2.trans (formatN_fields hop hz)

theorem of_formatI (hrow : reservedMask op = some 0 ∧ encode i = formatI op (fieldA w) (fieldImm w)) :
    RightAnswer w (.ok i) :=
  ⟨hrow.2.trans (formatI_fields hop), legalWord_iff.2 ⟨0, hop ▸ hrow.1, Nat.and_zero _⟩⟩

theorem of_formatS (hrow : reservedMask op = some 0x0FFF00 ∧ encode i = formatS op (fieldA w) (fieldCsr w)) :
    RightAnswer w (ifZero w 8 12 (.ok i)) :=
  of_ifZero hop hrow.1 fun hz => hrow.2.trans (formatS_fields hop hz)

theorem of_formatR_a (hrow : reservedMask op = some 0x0FFFFF ∧ encode i = formatR op (fieldA w) 0 0 0 false) :
    RightAnswer w (ifZero w 0 20 (.ok i)) :=
  of_ifZero hop hrow.1 fun hz => hrow.2.trans (formatR_fields_a hop hz)

theorem of_formatR_ab
    (hrow : reservedMask op = some 0x00FFFF ∧ encode i = formatR op (fieldA w) (fieldB w) 0 0 false) :
    RightAnswer w (ifZero w 0 16 (.ok i)) :=
  of_ifZero hop hrow.1 fun hz => hrow.2.trans (formatR_fields_ab hop hz)

theorem of_formatR_abc
    (hrow : reservedMask op = some 0x000FFF ∧ encode i = formatR op (fieldA w) (fieldB w) (fieldC w) 0 false) :
    RightAnswer w (ifZero w 0 12 (.ok i)) :=
  of_ifZero hop hrow.1 fun hz => hrow.2.trans (formatR_fields_abc hop hz)

theorem of_formatR_abcd (hrow : reservedMask op = some 0x0000FF ∧
      encode i = formatR op (fieldA w) (fieldB w) (fieldC w) (fieldD w) false) :
    RightAnswer w (ifZero w 0 8 (.ok i)) :=
  of_ifZero hop hrow.1 fun hz => hrow.2.trans (formatR_fields_abcd hop hz)

theorem of_formatR_abce (hrow : reservedMask op = some 0x000F7F ∧
      encode i = formatR op (fieldA w) (fieldB w) (fieldC w) 0 (fieldE w)) :
    RightAnswer w (ifZero w 0 7 (ifZero w 8 4 (.ok i))) :=
  of_ifZero_ifZero hop hrow.1 fun hz hz' => hrow.2.trans (formatR_fields_abce hop hz hz')

end
end RightAnswer

/-- The split is that of `decode`: the last arm takes the opcodes without a row, each other arm is the row of one
opcode. The formats differ in their reserved-bit tests, so each line takes the rows of one format; what it leaves of a
row, its mask in the map and its layout in the encoder, is computed. -/
theorem rightAnswer_decode (w : Word) : RightAnswer w (decode w) := by
  unfold decode
  split
  case h_58 =>
    refine .of_unassigned (reservedMask_eq_none ?_)
    simp only [opcodeMap, List.cons_append, List.nil_append, List.forall_mem_cons]
    and_intros
    any_goals assumption
    exact fun _ hnil => absurd hnil List.not_mem_nil
  all_goals rename_i hop
  any_goals with_reducible refine RightAnswer.of_formatN hop ?_
  any_goals with_reducible refine RightAnswer.of_formatI hop ?_
  any_goals with_reducible refine RightAnswer.of_formatS hop ?_
  any_goals with_reducible refine RightAnswer.of_formatR_a hop ?_
  any_goals with_reducible refine RightAnswer.of_formatR_ab hop ?_
  any_goals with_reducible refine RightAnswer.of_formatR_abc hop ?_
  any_goals with_reducible refine RightAnswer.of_formatR_abcd hop ?_
  any_goals with_reducible refine RightAnswer.of_formatR_abce hop ?_
  all_goals exact ⟨by decide +kernel, rfl⟩

theorem encode_of_decode {w : Word} {i : Instr} (h : decode w = .ok i) : encode i = w := by
  have hright := rightAnswer_decode w
  rw [h] at hright
  exact hright.1

theorem legalWord_iff_decode {w : Word} : LegalWord w ↔ ∃ i, decode w = .ok i := by
  have hright := rightAnswer_decode w
  cases h : decode w with
  | ok i =>
    rw [h] at hright
    exact ⟨fun _ => ⟨i, rfl⟩, fun _ => hright.2⟩
  | error e =>
    rw [h] at hright
    exact ⟨fun hlegal => absurd hlegal hright, fun ⟨i, hi⟩ => nomatch hi⟩

theorem not_legalWord_of_reservedMask {w : Word} (h : reservedMask (fieldOp w) = none) : ¬ LegalWord w :=
  RightAnswer.of_unassigned (e := .unassignedOpcode) h

/-! ## The decoder on the words of the encoder

One lemma per format and set of used fields. `arm` is the decoder's arm of the opcode, read off for any word. -/

section
variable {op : BitVec 8} {a b c d : Fin 16}

theorem decode_formatN {i : Instr} (arm : ∀ w, fieldOp w = op → decode w = ifZero w 0 24 (.ok i)) :
    decode (formatN op) = .ok i := by
  rw [arm _ (fieldOp_formatN op)]
  exact ifZero_of_zero (by rw [toNat_formatN]; omega)

theorem decode_formatI {imm : BitVec 20} {cmd : Fin 16 → BitVec 20 → Instr}
    (arm : ∀ w, fieldOp w = op → decode w = .ok (cmd (fieldA w) (fieldImm w))) :
    decode (formatI op a imm) = .ok (cmd a imm) := by
  rw [arm _ (fieldOp_formatI ..), fieldA_formatI, fieldImm_formatI]

theorem decode_formatS {csr : BitVec 8} {cmd : Fin 16 → BitVec 8 → Instr}
    (arm : ∀ w, fieldOp w = op → decode w = ifZero w 8 12 (.ok (cmd (fieldA w) (fieldCsr w)))) :
    decode (formatS op a csr) = .ok (cmd a csr) := by
  rw [arm _ (fieldOp_formatS ..), fieldA_formatS, fieldCsr_formatS]
  exact ifZero_of_zero (by have := csr.isLt; rw [toNat_formatS]; omega)

theorem decode_formatR_a {cmd : Fin 16 → Instr}
    (arm : ∀ w, fieldOp w = op → decode w = ifZero w 0 20 (.ok (cmd (fieldA w)))) :
    decode (formatR op a 0 0 0 false) = .ok (cmd a) := by
  rw [arm _ (fieldOp_formatR ..), fieldA_formatR]
  exact ifZero_of_zero (by rw [toNat_formatR, Fin.val_zero, Bool.toNat_false]; omega)

theorem decode_formatR_ab {cmd : Fin 16 → Fin 16 → Instr}
    (arm : ∀ w, fieldOp w = op → decode w = ifZero w 0 16 (.ok (cmd (fieldA w) (fieldB w)))) :
    decode (formatR op a b 0 0 false) = .ok (cmd a b) := by
  rw [arm _ (fieldOp_formatR ..), fieldA_formatR, fieldB_formatR]
  exact ifZero_of_zero (by rw [toNat_formatR, Fin.val_zero, Bool.toNat_false]; omega)

theorem decode_formatR_abc {cmd : Fin 16 → Fin 16 → Fin 16 → Instr}
    (arm : ∀ w, fieldOp w = op → decode w = ifZero w 0 12 (.ok (cmd (fieldA w) (fieldB w) (fieldC w)))) :
    decode (formatR op a b c 0 false) = .ok (cmd a b c) := by
  rw [arm _ (fieldOp_formatR ..), fieldA_formatR, fieldB_formatR, fieldC_formatR]
  exact ifZero_of_zero (by rw [toNat_formatR, Fin.val_zero, Bool.toNat_false]; omega)

theorem decode_formatR_abcd {cmd : Fin 16 → Fin 16 → Fin 16 → Fin 16 → Instr}
    (arm : ∀ w, fieldOp w = op → decode w = ifZero w 0 8 (.ok (cmd (fieldA w) (fieldB w) (fieldC w) (fieldD w)))) :
    decode (formatR op a b c d false) = .ok (cmd a b c d) := by
  rw [arm _ (fieldOp_formatR ..), fieldA_formatR, fieldB_formatR, fieldC_formatR, fieldD_formatR]
  exact ifZero_of_zero (by rw [toNat_formatR, Bool.toNat_false]; omega)

theorem decode_formatR_abce {e : Bool} {cmd : Fin 16 → Fin 16 → Fin 16 → Bool → Instr}
    (arm : ∀ w, fieldOp w = op →
      decode w = ifZero w 0 7 (ifZero w 8 4 (.ok (cmd (fieldA w) (fieldB w) (fieldC w) (fieldE w))))) :
    decode (formatR op a b c 0 e) = .ok (cmd a b c e) := by
  have he := e.toNat_le
  rw [arm _ (fieldOp_formatR ..), fieldA_formatR, fieldB_formatR, fieldC_formatR, fieldE_formatR,
    ifZero_of_zero (by rw [toNat_formatR, Fin.val_zero]; omega)]
  exact ifZero_of_zero (by rw [toNat_formatR, Fin.val_zero]; omega)

end

theorem decode_encode (i : Instr) : decode (encode i) = .ok i := by
  cases i with
  | nop | srOpen | srClose | swOpen | swClose | fhCount | fhClear | ctFromMap | ctToMap | ctSer | ctDeser | ctReset
  | sfBuild | hfBuild | cdDecompress | hmFenc | hmFdec | crcFenc | crcFdec =>
    exact decode_formatN fun w hop => by rw [decode, hop]; rfl
  | xLi | xLis => exact decode_formatI fun w hop => by rw [decode, hop]; rfl
  | csrR | csrW => exact decode_formatS fun w hop => by rw [decode, hop]; rfl
  | pbClear | srRdBit | srRdByte | swWrBit | swWrByte | swWrBuf | fhDistinct | cdCompress =>
    exact decode_formatR_a fun w hop => by rw [decode, hop]; rfl
  | xMov | pbTrunc | pbAppBit | pbAppByte | pbAppBuf | pbPop | pbToInt | pbLen | pbCopy | srRdN | fhGet | ctFeed
  | ctCode | ctSetCode | hmEnc | crcRem | crcEnc =>
    exact decode_formatR_ab fun w hop => by rw [decode, hop]; rfl
  | pbAppPart | pbXor | pbFromInt | pbPadR | hmDec | crcDec =>
    exact decode_formatR_abc fun w hop => by rw [decode, hop]; rfl
  | pbSlice => exact decode_formatR_abcd fun w hop => by rw [decode, hop]; rfl
  | pbGet | pbSet => exact decode_formatR_abce fun w hop => by rw [decode, hop]; rfl

/-! ## Words as bytes (30_encoding.md R80) -/

/-- The four bytes of a word, put together again, are the word. -/
theorem wordOfBytes_wordBytes (w : Word) :
    wordOfBytes (BitVec.ofNat 8 (w.toNat / 2 ^ 24)) (BitVec.ofNat 8 (w.toNat / 2 ^ 16))
      (BitVec.ofNat 8 (w.toNat / 2 ^ 8)) (BitVec.ofNat 8 w.toNat) = w := by
  have := w.isLt
  apply BitVec.eq_of_toNat_eq
  simp only [wordOfBytes, BitVec.toNat_ofNat]
  omega

/-- Four bytes decode as their word does, and what follows them is left. The kernel must not evaluate the decoder on a
word that is not closed: the definition is unfolded as a function, and the decoder in it is made opaque. -/
theorem decodeBytes_of_decode {b3 b2 b1 b0 : Byte} {rest : List Byte} {i : Instr}
    (h : decode (wordOfBytes b3 b2 b1 b0) = .ok i) : decodeBytes (b3 :: b2 :: b1 :: b0 :: rest) = .ok (i, rest) := by
  obtain ⟨dec, hdec⟩ : ∃ dec, dec = decode := ⟨_, rfl⟩
  conv_lhs =>
    fun
    delta decodeBytes
    rw [← hdec]
  rw [← hdec] at h
  simp only [h]

theorem decodeBytes_encode (i : Instr) (rest : List Byte) :
    decodeBytes (wordBytes (encode i) ++ rest) = .ok (i, rest) := by
  have h := decode_encode i
  rw [← wordOfBytes_wordBytes (encode i)] at h
  exact decodeBytes_of_decode h

/-- The word of a row of spec/opcode_table.json decodes as its bytes do. The definition is unfolded
as a function, as in `decodeBytes_of_decode`. -/
theorem decodeTableWord_of_decodeBytes {w : Word} {i : Instr} (h : decodeBytes (wordBytes w) = .ok (i, [])) :
    decodeTableWord 32 w.toNat = some i := by
  have hword : BitVec.ofNat 32 (w.toNat % 2 ^ 32) = w := by
    rw [Nat.mod_eq_of_lt w.isLt, BitVec.ofNat_toNat, BitVec.setWidth_eq]
  conv_lhs =>
    fun
    fun
    delta decodeTableWord
  rw [hword, h]

theorem decodeTableWord_encode (i : Instr) : decodeTableWord 32 (encode i).toNat = some i := by
  have hbytes := decodeBytes_encode i []
  rw [List.append_nil] at hbytes
  exact decodeTableWord_of_decodeBytes hbytes

/-! ## The obligations -/

/-- Settles O1: `decode_encode` per format, its converse from `rightAnswer_decode`. -/
theorem encodeAndDecodeAreInverse : Obligations.EncodeAndDecodeAreInverse :=
  ⟨decode_encode, decodeBytes_encode, fun _ _ => encode_of_decode, decodeTableWord_encode⟩

/-- Settles O2: the legal words by `rightAnswer_decode`, the illegal opcodes by the lookup in the map. -/
theorem illegalWordsOnlyRaiseIllegalCommand : Obligations.IllegalWordsOnlyRaiseIllegalCommand := by
  have hzero : ¬ LegalWord 0 := not_legalWord_of_reservedMask (by decide)
  refine ⟨fun w => legalWord_iff_decode, fun w s hw hs => ?_, hzero, fun w hw => ?_⟩
  · rw [runWord]
    cases h : decode w with
    | ok i => exact absurd (legalWord_iff_decode.2 ⟨i, h⟩) hw
    | error e => exact fatal_running hs _
  · rintro ⟨row, hrow, hsel⟩
    obtain ⟨hop, -⟩ := (selects_iff hrow).1 hsel
    rw [← toNat_fieldOp, hop] at hw
    exact unassigned_not_mapped row hrow hw

/-- Settles O3: the decoder evaluated on fifteen closed words. -/
theorem specExampleWordsDecode : Obligations.SpecExampleWordsDecode := by
  unfold Obligations.SpecExampleWordsDecode
  decide

end Sys2Proof
end

section
/-! SUPPORT. The rows of the opcode map (30_encoding.md R86) as `Row` states them of a command's word: one lemma per
word format. -/

namespace Sys2Proof
open Sys2Proof.Claims Sys2Proof.Machine

/-! ## The words as drawn and as encoded (30_encoding.md R81–R84) -/

theorem toNat_append_add {m n : Nat} (x : BitVec m) (y : BitVec n) : (x ++ y).toNat = x.toNat * 2 ^ n + y.toNat := by
  rw [BitVec.toNat_append, Nat.shiftLeft_eq, mul_comm, Nat.two_pow_add_eq_or_of_lt y.isLt]

theorem toNat_nib (r : Fin 16) : (nib r).toNat = r.val := Nat.mod_eq_of_lt r.isLt

theorem word_eq_formatR (op : BitVec 8) (a b c d : Fin 16) (e : Bool) : word op a b c d e = formatR op a b c d e := by
  apply BitVec.eq_of_toNat_eq
  rw [toNat_formatR]
  simp only [word, toNat_append_add, toNat_nib, BitVec.toNat_ofBool, BitVec.toNat_ofNat]
  omega

theorem wordI_eq_formatI (op : BitVec 8) (a : Fin 16) (imm : BitVec 20) : wordI op a imm = formatI op a imm := by
  apply BitVec.eq_of_toNat_eq
  rw [toNat_formatI]
  simp only [wordI, toNat_append_add, toNat_nib]
  omega

theorem wordS_eq_formatS (op : BitVec 8) (a : Fin 16) (csr : BitVec 8) : wordS op a csr = formatS op a csr := by
  apply BitVec.eq_of_toNat_eq
  rw [toNat_formatS]
  simp only [wordS, toNat_append_add, toNat_nib, BitVec.toNat_ofNat]
  omega

/-! ## Rows -/

theorem toNat_opMatch (op : BitVec 8) : (opMatch op).toNat = op.toNat * 2 ^ 24 := by
  rw [opMatch, toNat_append_add, BitVec.toNat_ofNat, Nat.zero_mod, Nat.add_zero]

/-- The mask of the opcode byte selects by the opcode alone. -/
theorem fieldOp_of_and_opcodeByte {w : Word} {op : BitVec 8} (h : w &&& 0xFF000000 = opMatch op) : fieldOp w = op := by
  have hsel := congrArg BitVec.toNat h
  rw [BitVec.toNat_and, toNat_opMatch] at hsel
  have hop : w.toNat / 2 ^ 24 * 2 ^ 24 + (w.toNat &&& 0) = op.toNat * 2 ^ 24 :=
    (and_rowMask w (by omega)).symm.trans hsel
  rw [Nat.and_zero] at hop
  exact fieldOp_eq (by omega)

section
variable {mask : Word} {op : BitVec 8} {i : Instr} (hrow : (op.toNat, mask.toNat) ∈ opcodeMap)
include hrow

/-- Among the words of its opcode, a row selects the legal ones. -/
theorem and_mask_eq_opMatch_iff {w : Word} (hop : fieldOp w = op) : w &&& mask = opMatch op ↔ LegalWord w := by
  have hsel := selects_iff (w := w) hrow
  rw [BitVec.ofNat_toNat, BitVec.setWidth_eq, ← toNat_opMatch, BitVec.ofNat_toNat, BitVec.setWidth_eq] at hsel
  simp [hsel, legalWord_iff, reservedMask, hop, mem_opcodeMap_iff.1 hrow]

/-- The row of a command: its word is legal and decodes to it, and the words with its opcode that the mask refuses are
illegal. -/
theorem row_encode (hop : fieldOp (encode i) = op) : Row mask op (encode i) i where
  selects := (and_mask_eq_opMatch_iff hrow hop).2 (legalWord_iff_decode.2 ⟨i, decode_encode i⟩)
  decodes := decode_encode i
  reserved v hv hnot := by
    rw [Ne, and_mask_eq_opMatch_iff hrow (fieldOp_of_and_opcodeByte hv), legalWord_iff_decode] at hnot
    cases h : decode v with
    | ok j => exact absurd ⟨j, h⟩ hnot
    | error e => exact ⟨e, rfl⟩

theorem row_word {a b c d : Fin 16} {e : Bool} (henc : encode i = formatR op a b c d e) :
    Row mask op (word op a b c d e) i := by
  rw [word_eq_formatR, ← henc]
  exact row_encode hrow (by rw [henc, fieldOp_formatR])

theorem row_wordI {a : Fin 16} {imm : BitVec 20} (henc : encode i = formatI op a imm) :
    Row mask op (wordI op a imm) i := by
  rw [wordI_eq_formatI, ← henc]
  exact row_encode hrow (by rw [henc, fieldOp_formatI])

theorem row_wordS {a : Fin 16} {csr : BitVec 8} (henc : encode i = formatS op a csr) :
    Row mask op (wordS op a csr) i := by
  rw [wordS_eq_formatS, ← henc]
  exact row_encode hrow (by rw [henc, fieldOp_formatS])

end
end Sys2Proof
end

section
/-! SUPPORT. The scalar and CSR family (40_scalar_csr.md). What CSR.R and CSR.W do for the CSR a number names, and what
a write of each kind of CSR answers. -/

namespace Sys2Proof.Machine
open Sys2Proof.Claims

/-! ## CSR numbers (10_state.md R26) -/

/-- No CSR has a number past 0x1A. -/
theorem csrOfNum_absent {csr : BitVec 8} (h : 0x1A < csr.toNat) : csrOfNum csr = none := by
  unfold csrOfNum
  split
  case h_28 => rfl
  all_goals exact absurd h (by decide)

/-- A row of the table names a CSR other than CANCEL, whose read gives the row's value and draws nothing. -/
theorem csrOfNum_of_mem_csrTable (s : State) : ∀ row ∈ csrTable s,
    ∃ c, csrOfNum row.1 = some c ∧ s.csrValue c = row.2 ∧ s.envAfterRead c = s.env := by
  simp only [csrTable, List.cons_append, List.nil_append, List.forall_mem_cons, List.not_mem_nil, false_implies,
    implies_true, and_true]
  and_intros
  all_goals exact ⟨_, rfl, rfl, rfl⟩

/-! ## CSR.R (R104) -/

section
variable {s : State} {xd : XReg} {csr : BitVec 8} {c : Csr}

theorem exec_csrR_present (hc : csrOfNum csr = some c) :
    exec (.csrR xd csr) s = .next { s.setX xd (s.csrValue c) with env := s.envAfterRead c } := by
  simp only [exec, execCsrR, hc]

theorem exec_csrR_absent (hc : csrOfNum csr = none) : exec (.csrR xd csr) s = fatal .illegalCommand s := by
  simp only [exec, execCsrR, hc]

end

/-! ## What the write of a CSR answers (R105, R106) -/

/-- A present CSR that is not read-write refuses every value. -/
theorem csrWrite_readOnly {csr : BitVec 8} {c : Csr} (hc : csrOfNum csr = some c)
    (hro : csr ∉ [0x02, 0x04, 0x05, 0x08, 0x09, 0x0A, 0x0B, 0x0C, 0x0D, 0x0E, 0x0F]) (s : State) (v : Nat) :
    s.csrWrite c v = .error .illegalCommand := by
  unfold csrOfNum at hc
  split at hc <;> cases hc
  any_goals rfl
  all_goals exact absurd (by decide) hro

theorem hamBLegal_iff {v : Nat} : hamBLegal v = true ↔ ∃ m, 2 ≤ m ∧ m ≤ 16 ∧ v = 2 ^ m := by
  simp only [hamBLegal, Bool.and_eq_true, decide_eq_true_eq, beq_iff_eq]
  constructor
  · rintro ⟨⟨hlo, hhi⟩, hpow⟩
    rw [← hpow] at hlo hhi
    exact ⟨v.log2, (Nat.pow_le_pow_iff_right (n := 2) one_lt_two).1 hlo,
      (Nat.pow_le_pow_iff_right (m := 16) one_lt_two).1 hhi, hpow.symm⟩
  · rintro ⟨m, hlo, hhi, rfl⟩
    exact ⟨⟨Nat.pow_le_pow_right two_pos hlo, Nat.pow_le_pow_right two_pos hhi⟩, by rw [Nat.log2_two_pow]⟩

theorem bitOperand_of_le_one {v : Nat} (h : v ≤ 1) : bitOperand v = some (v == 1) := by
  obtain rfl | rfl := Nat.le_one_iff_eq_zero_or_eq_one.1 h <;> rfl

theorem bitOperand_of_one_lt {v : Nat} (h : 1 < v) : bitOperand v = none := by
  unfold bitOperand
  split
  · omega
  · omega
  · rfl

theorem counterWrite_of_lt {v : Nat} (h : v < 2 ^ 64) (put : BitVec 64 → State) :
    counterWrite v put = .ok (put (BitVec.ofNat 64 v)) := by
  rw [counterWrite, counterOperand, if_pos h]

theorem counterWrite_of_le {v : Nat} (h : 2 ^ 64 ≤ v) (put : BitVec 64 → State) :
    counterWrite v put = .error .invalidValue := by
  rw [counterWrite, counterOperand, if_neg (Nat.not_lt.2 h)]

/-- The CSRs 0x08–0x0F are the outcome counters. -/
theorem csrOfNum_counter {csr : BitVec 8} (hlo : 0x08 ≤ csr.toNat) (hhi : csr.toNat ≤ 0x0F) (s : State) (v : Nat) :
    ∃ c put, csrOfNum csr = some c ∧ s.csrWrite c v = counterWrite v put := by
  have hcsr : csr = 0x08 ∨ csr = 0x09 ∨ csr = 0x0A ∨ csr = 0x0B ∨ csr = 0x0C ∨ csr = 0x0D ∨ csr = 0x0E ∨
      csr = 0x0F := by bv_omega
  obtain rfl | rfl | rfl | rfl | rfl | rfl | rfl | rfl := hcsr <;> exact ⟨_, _, rfl, rfl⟩

/-! ## CSR.W (R105, R106) -/

section
variable {s t : State} {xs : XReg} {csr : BitVec 8} {c : Csr} (hs : s.fault = none)
include hs

theorem exec_csrW_absent (hc : csrOfNum csr = none) :
    exec (.csrW xs csr) s = .next (raised s .illegalCommand) := by
  simp only [exec, execCsrW, unlessHalted_running hs, hc]
  exact fatal_running hs _

theorem exec_csrW_ok (hc : csrOfNum csr = some c) (hw : s.csrWrite c s.x[xs] = .ok t) :
    exec (.csrW xs csr) s = .next t := by
  simp only [exec, execCsrW, unlessHalted_running hs, hc, hw]

theorem exec_csrW_error {cause : Cause} (hc : csrOfNum csr = some c) (hw : s.csrWrite c s.x[xs] = .error cause) :
    exec (.csrW xs csr) s = .next (raised s cause) := by
  simp only [exec, execCsrW, unlessHalted_running hs, hc, hw]
  exact fatal_running hs _

theorem exec_csrW_counter {put : BitVec 64 → State} (hv : s.x[xs] < 2 ^ 64) (hc : csrOfNum csr = some c)
    (hw : s.csrWrite c s.x[xs] = counterWrite s.x[xs] put) :
    exec (.csrW xs csr) s = .next (put (BitVec.ofNat 64 s.x[xs])) :=
  exec_csrW_ok hs hc (hw.trans (counterWrite_of_lt hv put))

end

/-! ## NOP (R100) -/

/-- A command without an effect leaves the state, halted or not. -/
theorem unlessHalted_self (s : State) : s.unlessHalted (.next s) = .next s := ite_self _

/-! ## The obligations -/

/-- Settles O16: the CSR a number names is found in the table, at CANCEL, or nowhere. -/
theorem csrReadGivesTheListedValue : Obligations.CsrReadGivesTheListedValue := by
  intro xd csr
  refine ⟨row_wordS (by decide) rfl, fun s => ⟨fun v hrow => ?_, fun hcancel => ?_, fun hnone hs => ?_,
    fun hnone hs => ?_⟩⟩
  · obtain ⟨c, hc, hvalue, henv⟩ := csrOfNum_of_mem_csrTable s _ hrow
    rw [exec_csrR_present hc, hvalue, henv]
    rfl
  · subst hcancel
    rw [exec_csrR_present (c := .cancel) rfl, State.csrValue, State.envAfterRead, Env.poll_eq]
    rfl
  · exact (exec_csrR_absent (csrOfNum_absent hnone)).trans (fatal_running hs _)
  · rw [exec_csrR_absent (csrOfNum_absent hnone), fatal, raise_halted hs]

/-- Settles O17: the CSR decides between absent, read-only, configuration and counter, the value within each. -/
theorem csrWriteChecksThenWrites : Obligations.CsrWriteChecksThenWrites := by
  intro xs csr
  refine ⟨row_wordS (by decide) rfl, fun s hs => ⟨fun hro => ?_, fun h hv => ?_, fun h hv => ?_, fun h hv => ?_,
    fun h hv => ?_, fun h hv => ?_, fun h hv => ?_, fun hlo hhi hv => ?_, fun hv => ?_⟩⟩
  · cases hc : csrOfNum csr with
    | none => exact exec_csrW_absent hs hc
    | some c => exact exec_csrW_error hs hc (csrWrite_readOnly hc hro s _)
  · exact exec_csrW_ok hs (c := .hamB) (h ▸ rfl) (if_pos (hamBLegal_iff.2 hv))
  · exact exec_csrW_error hs (c := .hamB) (h ▸ rfl) (if_neg (mt hamBLegal_iff.1 hv))
  · exact exec_csrW_ok hs (c := .crcN) (h ▸ rfl) (if_pos hv)
  · exact exec_csrW_error hs (c := .crcN) (h ▸ rfl) (if_neg (by omega))
  · exact exec_csrW_ok hs (c := .crcCorr) (h ▸ rfl) (by rw [State.csrWrite, bitOperand_of_le_one hv])
  · exact exec_csrW_error hs (c := .crcCorr) (h ▸ rfl) (by rw [State.csrWrite, bitOperand_of_one_lt hv])
  · obtain ⟨c, put, hc, hw⟩ := csrOfNum_counter hlo hhi s s.x[xs]
    exact exec_csrW_error hs hc (hw.trans (counterWrite_of_le hv put))
  · exact ⟨fun h => exec_csrW_counter hs hv (c := .hamFail) (h ▸ rfl) rfl,
      fun h => exec_csrW_counter hs hv (c := .hamOk) (h ▸ rfl) rfl,
      fun h => exec_csrW_counter hs hv (c := .hamOne) (h ▸ rfl) rfl,
      fun h => exec_csrW_counter hs hv (c := .hamTwo) (h ▸ rfl) rfl,
      fun h => exec_csrW_counter hs hv (c := .crcFail) (h ▸ rfl) rfl,
      fun h => exec_csrW_counter hs hv (c := .crcOk) (h ▸ rfl) rfl,
      fun h => exec_csrW_counter hs hv (c := .crcCorrected) (h ▸ rfl) rfl,
      fun h => exec_csrW_counter hs hv (c := .crcCorrupted) (h ▸ rfl) rfl⟩

/-- Settles O18: a block that is not halted runs the body of each command, and NOP's body is the state itself. -/
theorem scalarCommandsMoveNumbers : Obligations.ScalarCommandsMoveNumbers :=
  ⟨⟨row_word (by decide) rfl, unlessHalted_self⟩,
    fun _ _ => ⟨row_wordI (by decide) rfl, fun _ hs => unlessHalted_running hs _⟩,
    fun _ _ => ⟨row_wordI (by decide) rfl, fun _ hs => unlessHalted_running hs _⟩,
    fun _ _ => ⟨row_word (by decide) rfl, fun _ hs => unlessHalted_running hs _⟩⟩

end Sys2Proof.Machine
end

section
/-! SUPPORT. The packed-bit buffer family (41_packed_bit_buffer.md). Bit sequences as numbers and their tail-aligned
exclusive or, what the operand forms answer, and from them the commands on buffers. -/

namespace Sys2Proof.Machine
open Sys2Proof.Claims

/-! ## Registers (41_packed_bit_buffer.md R120) -/

/-- Whatever a command does, of the registers it writes only its destinations. -/
theorem Effect.onlyDest {i : Instr} {s t : State} (h : Effect i s t) : OnlyDest i s t.x t.b := by
  cases h with
  | registers regs => exact regs
  | csrRead _ regs => exact regs
  | streamRead _ regs => exact regs
  | cursorMoved _ regs => exact regs
  | hamDecoded _ regs => exact regs
  | crcDecoded _ regs => exact regs
  | _ => exact .refl

/-! ## Bit sequences as numbers (00_scope.md R7) -/

/-- `int(s)` as the sum of 00_scope.md R7. -/
theorem natOfBits_eq_sum (s : Bits) : natOfBits s =
    ((List.range s.length).map fun j => (s.getD j false).toNat * 2 ^ (s.length - 1 - j)).sum := by
  induction s with
  | nil => rfl
  | cons v s ih =>
    rw [natOfBits_cons, ih, List.length_cons, List.sum_range_succ']
    simp only [List.getD_cons_zero, List.getD_cons_succ, Nat.succ_eq_add_one, Nat.add_sub_cancel, Nat.sub_zero,
      Nat.sub_sub, Nat.add_comm 1]

theorem natOfBits_bitsOf_of_lt {w v : Nat} (h : v < 2 ^ w) : natOfBits (bitsOf w v) = v := by
  rw [natOfBits_bitsOf, Nat.mod_eq_of_lt h]

/-- Zeros at the front do not change the number. -/
theorem natOfBits_zeros_append (n : Nat) (s : Bits) : natOfBits (bitRun n false ++ s) = natOfBits s := by
  rw [natOfBits_append, natOfBits_zeros, Nat.zero_mul, Nat.zero_add]

/-! ## Exclusive or (41_packed_bit_buffer.md R132) -/

theorem zipWith_xor_bitsOf (w m n : Nat) : List.zipWith Bool.xor (bitsOf w m) (bitsOf w n) = bitsOf w (m ^^^ n) := by
  induction w with
  | zero => rfl
  | succ w ih => rw [bitsOf, bitsOf, bitsOf, List.zipWith_cons_cons, ih, Nat.testBit_xor]

/-- For sequences of one length, bit by bit is number by number. -/
theorem natOfBits_zipWith_xor {s t : Bits} (h : s.length = t.length) :
    natOfBits (List.zipWith Bool.xor s t) = natOfBits s ^^^ natOfBits t := by
  have ht := natOfBits_lt t
  rw [← h] at ht
  calc natOfBits (List.zipWith Bool.xor s t)
      = natOfBits (bitsOf s.length (natOfBits s ^^^ natOfBits t)) := by
        rw [← zipWith_xor_bitsOf, bitsOf_natOfBits, h, bitsOf_natOfBits]
    _ = natOfBits s ^^^ natOfBits t := natOfBits_bitsOf_of_lt (Nat.xor_lt_two_pow (natOfBits_lt s) ht)

theorem natOfBits_xorTail (s t : Bits) : natOfBits (xorTail s t) = natOfBits s ^^^ natOfBits t := by
  rw [xorTail, natOfBits_zipWith_xor (by simp), natOfBits_zeros_append, natOfBits_zeros_append]

theorem xorTail_self (s : Bits) : xorTail s s = List.replicate s.length false := by
  simp [xorTail, List.zipWith_self]

theorem xorTail_comm (s t : Bits) : xorTail s t = xorTail t s := by
  rw [xorTail, xorTail, Nat.max_comm, List.zipWith_comm_of_comm Bool.xor_comm]

theorem zipWith_xor_zeros (s : Bits) : List.zipWith Bool.xor s (bitRun s.length false) = s := by
  induction s with
  | nil => rfl
  | cons v s ih => rw [bitRun, List.length_cons, List.replicate_succ, List.zipWith_cons_cons, ih, Bool.xor_false]

/-- The bits of the longer operand before the tail of the other's length stay as they are. -/
theorem xorTail_append_left (u : Bits) {s t : Bits} (h : s.length = t.length) :
    xorTail (u ++ s) t = u ++ List.zipWith Bool.xor s t := by
  have hmax : max (u ++ s).length t.length = u.length + t.length := by rw [List.length_append]; omega
  have hlong : u.length + t.length - (u ++ s).length = 0 := by rw [List.length_append]; omega
  rw [xorTail, hmax, hlong, Nat.add_sub_cancel, bitRun, List.replicate_zero, List.nil_append,
    List.zipWith_append (List.length_replicate ..).symm, zipWith_xor_zeros]

theorem xorTail_append_right (u : Bits) {s t : Bits} (h : s.length = t.length) :
    xorTail t (u ++ s) = u ++ List.zipWith Bool.xor t s := by
  rw [xorTail_comm, xorTail_append_left u h, List.zipWith_comm_of_comm Bool.xor_comm]

/-! ## Operand forms (41_packed_bit_buffer.md R123, R124, R127) -/

theorem bitOperand_toNat (v : Bool) : bitOperand v.toNat = some v := by cases v <;> rfl

theorem byteOperand_of_le {v : Nat} (h : v ≤ 255) : byteOperand v = some (BitVec.ofNat 8 v) := if_pos h

theorem byteOperand_of_lt {v : Nat} (h : 255 < v) : byteOperand v = none := if_neg (Nat.not_le.2 h)

theorem byteBits_ofNat {v : Nat} (h : v ≤ 255) : byteBits (BitVec.ofNat 8 v) = bitsOf 8 v := by
  rw [byteBits, BitVec.toNat_ofNat, Nat.mod_eq_of_lt (by omega)]

/-- The index of a bit, from either end: as many bits stand before it, or after it and itself. -/
theorem resolveIndex_of_split {pre suf : Bits} {v e : Bool} {i : Nat}
    (h : i = if e then suf.length + 1 else pre.length) :
    resolveIndex (pre ++ v :: suf).length i e = some pre.length := by
  subst h
  cases e with
  | false => simp [resolveIndex]
  | true =>
    simp [resolveIndex]
    omega

theorem resolveIndex_out {len i : Nat} {e : Bool} (h : if e then i < 1 ∨ len < i else len ≤ i) :
    resolveIndex len i e = none := by
  cases e with
  | false => exact if_pos h
  | true => exact if_pos h

/-! ## Commands with operand checks

What the body of a command answers is what the command answers, in a block that is not halted. -/

section
variable {s : State} {body : Result} (hs : s.fault = none)
include hs

theorem unlessHalted_eq {r : Result} (h : body = r) : s.unlessHalted body = r :=
  (unlessHalted_running hs body).trans h

theorem unlessHalted_eq_raised {c : Cause} (h : body = fatal c s) : s.unlessHalted body = .next (raised s c) :=
  unlessHalted_eq hs (h.trans (fatal_running hs c))

end

/-! ## Ranges and bits found by splitting the buffer (41_packed_bit_buffer.md R128–R131) -/

/-- PB.SLICE of the range between a prefix and a suffix (R130). -/
theorem exec_pbSlice_middle {s : State} {bd bs : BReg} {xa xe : XReg} {pre mid suf : Bits} (hs : s.fault = none)
    (hb : s.b[bs] = pre ++ mid ++ suf) (ha : s.x[xa] = pre.length) (he : s.x[xe] = pre.length + mid.length) :
    exec (.pbSlice bd bs xa xe) s = .next (s.setB bd mid) := by
  have hrange : s.x[xa] ≤ s.x[xe] ∧ s.x[xe] ≤ s.b[bs].length := by
    rw [hb, ha, he, List.length_append, List.length_append]
    omega
  have hmid : (s.b[bs].drop s.x[xa]).take (s.x[xe] - s.x[xa]) = mid := by
    rw [hb, ha, he, List.append_assoc, List.drop_left, Nat.add_sub_cancel_left, List.take_left]
  refine unlessHalted_eq hs ((if_pos hrange).trans ?_)
  rw [hmid]

/-- PB.POP of a buffer with a last bit (R131). -/
theorem exec_pbPop_concat {s : State} {xd : XReg} {bd : BReg} {rest : Bits} {v : Bool} (hs : s.fault = none)
    (hb : s.b[bd] = rest ++ [v]) : exec (.pbPop xd bd) s = .next ((s.setB bd rest).setX xd v.toNat) := by
  refine unlessHalted_eq hs ?_
  rw [hb, List.getLast?_concat, List.dropLast_concat]

/-- PB.GET of a bit between the bits before and after it (R128). -/
theorem exec_pbGet_split {s : State} {xd xi : XReg} {bs : BReg} {e : Bool} {pre suf : Bits} {v : Bool}
    (hs : s.fault = none) (hb : s.b[bs] = pre ++ v :: suf)
    (hi : s.x[xi] = if e then suf.length + 1 else pre.length) :
    exec (.pbGet xd bs xi e) s = .next (s.setX xd v.toNat) := by
  have hbit : (pre ++ v :: suf).getD pre.length false = v := by simp
  refine unlessHalted_eq hs ?_
  simp only [hb, resolveIndex_of_split hi, hbit]

/-- PB.SET of a bit between the bits before and after it (R129). -/
theorem exec_pbSet_split {s : State} {xi xv : XReg} {bd : BReg} {e : Bool} {pre suf : Bits} {u v : Bool}
    (hs : s.fault = none) (hb : s.b[bd] = pre ++ u :: suf)
    (hi : s.x[xi] = if e then suf.length + 1 else pre.length) (hv : s.x[xv] = v.toNat) :
    exec (.pbSet bd xi xv e) s = .next (s.setB bd (pre ++ v :: suf)) := by
  have hset : (pre ++ u :: suf).set pre.length v = pre ++ v :: suf := by simp
  refine unlessHalted_eq hs ?_
  simp only [hb, resolveIndex_of_split hi, hv, bitOperand_toNat, hset]

/-! ## The obligations -/

/-- Settles O11: `Effect.onlyDest`. -/
theorem commandsWriteOnlyTheirRegisters : Obligations.CommandsWriteOnlyTheirRegisters := by
  intro i s t hexec
  obtain ⟨hx, hb⟩ := (effect_of_exec hexec).onlyDest
  exact ⟨hx, hb⟩

/-- Settles O23: the sum by induction on the sequence, the conversions by the inverse laws of `bitsOf`. -/
theorem integerConversionIsExact : Obligations.IntegerConversionIsExact :=
  ⟨natOfBits_eq_sum, fun w v hv => ⟨length_bitsOf w v, natOfBits_bitsOf_of_lt hv⟩,
    fun s => ⟨natOfBits_lt s, bitsOf_natOfBits s⟩,
    fun _ _ => ⟨row_word (by decide) rfl, fun _ hs => unlessHalted_running hs _⟩,
    fun _ _ _ => ⟨row_word (by decide) rfl, fun _ hs => ⟨fun hv => unlessHalted_eq hs (if_neg (Nat.not_le.2 hv)),
      fun hv => unlessHalted_eq_raised hs (if_pos hv)⟩⟩⟩

/-- Settles O24: both operands are padded to one length, where the exclusive or is bit by bit. -/
theorem xorAlignsAtTheTail : Obligations.XorAlignsAtTheTail :=
  ⟨fun s t => ⟨length_xorTail s t, natOfBits_xorTail s t, xorTail_self s⟩,
    fun _ u _ h => ⟨xorTail_append_left u h, xorTail_append_right u h⟩,
    fun _ _ _ => ⟨row_word (by decide) rfl, fun _ hs => unlessHalted_running hs _⟩⟩

/-- Settles O19: a block that is not halted runs the body of each command. -/
theorem bufferCommandsWithoutChecks : Obligations.BufferCommandsWithoutChecks :=
  ⟨fun _ => ⟨row_word (by decide) rfl, fun _ hs => unlessHalted_running hs _⟩,
    fun _ _ => ⟨row_word (by decide) rfl, fun _ hs => unlessHalted_running hs _⟩,
    fun _ _ => ⟨row_word (by decide) rfl, fun _ hs => unlessHalted_running hs _⟩,
    fun _ _ => ⟨row_word (by decide) rfl, fun _ hs => unlessHalted_running hs _⟩⟩

/-- Settles O20: each command's check decides, and the range or the last bit is found by splitting the buffer. -/
theorem truncSliceAndPopStayWithinTheBuffer : Obligations.TruncSliceAndPopStayWithinTheBuffer := by
  refine ⟨fun bd xn => ⟨row_word (by decide) rfl, fun s hs => ⟨fun hn => ?_, fun hn => ?_⟩⟩,
    fun bd bs xa xe => ⟨row_word (by decide) rfl, fun s hs => ⟨fun pre mid suf hb ha he => ?_, fun hout => ?_⟩⟩,
    fun xd bd => ⟨row_word (by decide) rfl, fun s hs => ⟨fun rest v hb => ?_, fun hb => ?_⟩⟩⟩
  · exact unlessHalted_eq hs (if_neg (Nat.not_lt.2 hn))
  · exact unlessHalted_eq_raised hs (if_pos hn)
  · exact exec_pbSlice_middle hs hb ha he
  · exact unlessHalted_eq_raised hs (if_neg (by omega))
  · exact exec_pbPop_concat hs hb
  · exact unlessHalted_eq_raised hs (by rw [hb, List.getLast?_nil])

/-- Settles O21: the operand forms decide, PB.APPPART's length before its value. -/
theorem appendCommandsCheckTheirOperands : Obligations.AppendCommandsCheckTheirOperands := by
  refine ⟨fun bd xv => ⟨row_word (by decide) rfl, fun s hs => ⟨fun v hv => ?_, fun hv => ?_⟩⟩,
    fun bd xv => ⟨row_word (by decide) rfl, fun s hs => ⟨fun hv => ?_, fun hv => ?_⟩⟩,
    fun bd xv xl => ⟨row_word (by decide) rfl, fun s hs =>
      ⟨fun hlo hhi hv => ?_, fun hl => ?_, fun hlo hhi hv => ?_⟩⟩,
    fun bd xv xn => ⟨row_word (by decide) rfl, fun s hs => ⟨fun v hv => ?_, fun hv => ?_⟩⟩⟩
  · exact unlessHalted_eq hs (by rw [hv, bitOperand_toNat]; rfl)
  · exact unlessHalted_eq_raised hs (by rw [bitOperand_of_one_lt hv])
  · exact unlessHalted_eq hs (by rw [byteOperand_of_le hv, ← byteBits_ofNat hv]; rfl)
  · exact unlessHalted_eq_raised hs (by rw [byteOperand_of_lt hv])
  · exact unlessHalted_eq hs ((if_neg (by omega)).trans (if_neg (Nat.not_lt.2 hv)))
  · exact unlessHalted_eq_raised hs (if_pos hl)
  · exact unlessHalted_eq_raised hs ((if_neg (by omega)).trans (if_pos hv))
  · exact unlessHalted_eq hs (by rw [hv, bitOperand_toNat]; rfl)
  · exact unlessHalted_eq_raised hs (by rw [bitOperand_of_one_lt hv])

/-- Settles O22: the index is resolved first; the bit it names stands between the bits before and after it. -/
theorem getAndSetResolveTheIndex : Obligations.GetAndSetResolveTheIndex := by
  refine ⟨fun xd bs xi e => ⟨row_word (by decide) rfl, fun s hs => ⟨fun pre v suf hb hi => ?_, fun hout => ?_⟩⟩,
    fun bd xi xv e => ⟨row_word (by decide) rfl, fun s hs =>
      ⟨fun pre u suf hb hi => ⟨fun v hv => ?_, fun hv => ?_⟩, fun hout => ?_⟩⟩⟩
  · exact exec_pbGet_split hs hb hi
  · exact unlessHalted_eq_raised hs (by rw [resolveIndex_out hout])
  · exact exec_pbSet_split hs hb hi hv
  · exact unlessHalted_eq_raised hs (by rw [hb, resolveIndex_of_split hi, bitOperand_of_one_lt hv])
  · exact unlessHalted_eq_raised hs (by rw [resolveIndex_out hout])

end Sys2Proof.Machine
end

section
/-! SUPPORT. The bit stream family (42_bit_streams.md). What the flush rule makes of a write, the unit commands behind
their checks, and the bits that have reached the writer, kept in order by every command while it is open. -/

namespace Sys2Proof.Machine
open Sys2Proof.Claims

/-! ## Commands that complete -/

section
variable {s t : State}

/-- A fault entry is not the outcome of a command that leaves FAULT clear. -/
theorem fault_ne_none_of_raised {c : Cause} (h : (.next (raised s c) : Result) = .next t) : t.fault ≠ none := by
  cases h
  nofun

/-- A command that completes past its I/O action drew no failure (60_exceptions.md R330). -/
theorem withIo_completed {body : State → Result} (hs : s.fault = none) (h : s.withIo body = .next t)
    (ht : t.fault = none) : body { s with env := afterIo s } = .next t := by
  cases hio : ioFailsNext s with
  | false => exact (withIo_ok hio body).symm.trans h
  | true =>
    cases (withIo_fail hs hio body).symm.trans h
    cases ht

end

/-! ## The check of an open unit (R160, R170) -/

section
variable {s : State} {isOpen : Bool} {body : Result} (hs : s.fault = none)
include hs

/-- A closed unit faults, before anything else is looked at. -/
theorem unlessHalted_closed (ho : isOpen = false) :
    s.unlessHalted (if !isOpen then fatal .streamClosed s else body) = .next (raised s .streamClosed) :=
  unlessHalted_eq_raised hs (if_pos (by rw [ho]; rfl))

/-- An open unit passes on to the body. -/
theorem unlessHalted_open (ho : isOpen = true) :
    s.unlessHalted (if !isOpen then fatal .streamClosed s else body) = body :=
  unlessHalted_eq hs (if_neg (by rw [ho]; decide))

end

/-! ## The reader (R160, R162–R164) -/

/-- A read of an open reader, after its draw. -/
theorem consumed_open {s : State} (h : s.reader.isOpen = true) (e : Env) (n : Nat) (eos : Bool) :
    State.consumed { s with env := e } n eos =
      { s with env := e, reader := ⟨true, s.reader.pos + n⟩, eos := eos } := by
  simp only [State.consumed, h]

/-- Before the end of a byte sequence, MemRead of one bit gives one. -/
theorem memRead_one {m : List Byte} {a : Nat} (h : a < 8 * m.length) : ∃ v, memRead m a 1 = [v] :=
  List.length_eq_one_iff.1 (length_memRead m a 1 h)

theorem natOfBits_singleton (v : Bool) : natOfBits [v] = v.toNat := by cases v <;> rfl

section
variable {s : State} (hs : s.fault = none) (ho : s.reader.isOpen = true)
include hs ho

/-- SR.RDBIT before the end of IN (R162). -/
theorem exec_srRdBit_next {xd : XReg} {v : Bool} (hpos : s.reader.pos < 8 * s.input.length)
    (hio : ioFailsNext s = false) (hv : memRead s.input s.reader.pos 1 = [v]) :
    exec (.srRdBit xd) s = .next { s with
      x := s.x.set xd v.toNat, reader := ⟨true, s.reader.pos + 1⟩, eos := false, env := afterIo s } := by
  refine ((unlessHalted_open hs ho).trans (if_neg (Nat.not_le.2 hpos))).trans ((withIo_ok hio _).trans ?_)
  rw [consumed_open ho, hv, natOfBits_singleton]
  rfl

/-- SR.RDN reads the bits asked for, or those there are (R163). -/
theorem exec_srRdN {bd : BReg} {xn : XReg} {m : Nat} {eos : Bool} (hio : ioFailsNext s = false)
    (hm : min s.x[xn] s.bitsLeft = m) (heos : decide (m < s.x[xn]) = eos) :
    exec (.srRdN bd xn) s = .next { s with
      b := s.b.set bd (memRead s.input s.reader.pos m),
      reader := ⟨true, s.reader.pos + m⟩, eos := eos, env := afterIo s } := by
  subst hm heos
  refine (unlessHalted_open hs ho).trans ((withIo_ok hio _).trans ?_)
  dsimp only
  rw [consumed_open ho]
  rfl

/-- SR.RDBYTE with a whole byte left (R164). -/
theorem exec_srRdByte_next {xd : XReg} (hleft : ¬ s.bitsLeft < 8) (hio : ioFailsNext s = false) :
    exec (.srRdByte xd) s = .next { s with
      x := s.x.set xd (natOfBits (memRead s.input s.reader.pos 8)),
      reader := ⟨true, s.reader.pos + 8⟩, eos := false, env := afterIo s } := by
  refine ((unlessHalted_open hs ho).trans (if_neg hleft)).trans ((withIo_ok hio _).trans ?_)
  rw [consumed_open ho]
  rfl

end

/-! ## The flush rule (R173) -/

section
variable {s t : State} {v : Bits} {i : Instr}

theorem writeBits_of_not_flushes (h : ¬ Flushes s v) : s.writeBits v = .next (afterWrite s v) := by
  have hq := Nat.not_lt.1 h
  rw [writeBits_kept hq, afterWrite, if_pos hq]

theorem writeBits_of_io_ok (h : ioFailsNext s = false) : s.writeBits v = .next (afterWrite s v) := by
  by_cases hq : Flushes s v
  · rw [writeBits_flushed hq, withIo_ok h, afterWrite, if_neg (Nat.not_le.2 hq)]
    rfl
  · exact writeBits_of_not_flushes hq

theorem writeBits_of_flush_fails (hs : s.fault = none) (hq : Flushes s v) (h : ioFailsNext s = true) :
    s.writeBits v = .next (ioRaised s) := (writeBits_flushed hq).trans (withIo_fail hs h _)

/-- A command that hands bits to the open writer does what the flush rule says. -/
theorem writes_of_exec_eq (hs : s.fault = none) (h : exec i s = s.writeBits v) : Writes i s v :=
  ⟨fun hio => h.trans (writeBits_of_io_ok hio), fun hq => h.trans (writeBits_of_not_flushes hq),
    fun hq hio => h.trans (writeBits_of_flush_fails hs hq hio)⟩

/-- A write command that completes leaves the state after its write. -/
theorem eq_afterWrite_of_completed (hw : Writes i s v) (h : exec i s = .next t) (ht : t.fault = none) :
    t = afterWrite s v := by
  obtain ⟨hok, hkept, hfails⟩ := hw
  cases hio : ioFailsNext s with
  | false =>
    cases (hok hio).symm.trans h
    rfl
  | true =>
    by_cases hq : Flushes s v
    · cases (hfails hq hio).symm.trans h
      cases ht
    · cases (hkept hq).symm.trans h
      rfl

end

/-! ## The write commands (R170, R172, R174, R175, 44_code_tree.md R214) -/

section
variable {s : State} (hs : s.fault = none) (ho : s.writer.isOpen = true)
include hs ho

theorem exec_swWrBit_ok {xv : XReg} {v : Bool} (hv : bitOperand s.x[xv] = some v) :
    exec (.swWrBit xv) s = s.writeBits [v] := (unlessHalted_open hs ho).trans (by rw [hv])

theorem exec_swWrBit_invalid {xv : XReg} (hv : 1 < s.x[xv]) :
    exec (.swWrBit xv) s = .next (raised s .invalidValue) :=
  (unlessHalted_open hs ho).trans (by rw [bitOperand_of_one_lt hv]; exact fatal_running hs _)

theorem exec_swWrByte_ok {xv : XReg} (hv : s.x[xv] ≤ 255) :
    exec (.swWrByte xv) s = s.writeBits (bitsOf 8 s.x[xv]) :=
  (unlessHalted_open hs ho).trans (by rw [byteOperand_of_le hv, ← byteBits_ofNat hv])

theorem exec_swWrByte_invalid {xv : XReg} (hv : 255 < s.x[xv]) :
    exec (.swWrByte xv) s = .next (raised s .invalidValue) :=
  (unlessHalted_open hs ho).trans (by rw [byteOperand_of_lt hv]; exact fatal_running hs _)

theorem exec_swWrBuf {bs : BReg} : exec (.swWrBuf bs) s = s.writeBits s.b[bs] := unlessHalted_open hs ho

theorem exec_ctSer_full (hfull : s.tree.full = true) : exec .ctSer s = s.writeBits s.tree.serialize :=
  (unlessHalted_open hs ho).trans (if_neg (by simp [hfull]))

theorem exec_ctSer_malformed (hfull : s.tree.full = false) : exec .ctSer s = .next (raised s .malformedTree) :=
  (unlessHalted_open hs ho).trans ((if_pos (by simp [hfull])).trans (fatal_running hs _))

/-- Between opening and closing the writer, a command of the writer unit writes its bits or faults. -/
theorem writes_or_raised {i : Instr} (hi : writesWriter i = true) (hopen : i ≠ .swOpen) (hclose : i ≠ .swClose) :
    Writes i s (bitsWritten s i) ∨ ∃ c, exec i s = .next (raised s c) := by
  cases i with
  | swOpen => exact absurd rfl hopen
  | swClose => exact absurd rfl hclose
  | swWrBit xv =>
    rcases Nat.lt_or_ge 1 s.x[xv] with hv | hv
    · exact .inr ⟨_, exec_swWrBit_invalid hs ho hv⟩
    · exact .inl (writes_of_exec_eq hs (exec_swWrBit_ok hs ho (bitOperand_of_le_one hv)))
  | swWrByte xv =>
    rcases Nat.lt_or_ge 255 s.x[xv] with hv | hv
    · exact .inr ⟨_, exec_swWrByte_invalid hs ho hv⟩
    · exact .inl (writes_of_exec_eq hs (exec_swWrByte_ok hs ho hv))
  | swWrBuf bs => exact .inl (writes_of_exec_eq hs (exec_swWrBuf hs ho))
  | ctSer =>
    cases hfull : s.tree.full with
    | false => exact .inr ⟨_, exec_ctSer_malformed hs ho hfull⟩
    | true => exact .inl (writes_of_exec_eq hs (exec_ctSer_full hs ho hfull))
  | _ => cases hi

end

/-! ## File-level commands while a unit is open (60_exceptions.md R326) -/

section
variable {s : State} (hs : s.fault = none) (hunit : s.reader.isOpen = true ∨ s.writer.isOpen = true)
include hs hunit

/-- The refusal of an open unit comes behind the check that the command's CSR is configured. -/
theorem unlessHalted_configured_unitOpen {csr : Nat} {cause : Cause} {body : Result} :
    s.unlessHalted (if csr = 0 then fatal cause s else s.unlessUnitOpen body) = .next (s.reportAs .failure) ∨
      ∃ c, s.unlessHalted (if csr = 0 then fatal cause s else s.unlessUnitOpen body) = .next (raised s c) := by
  by_cases h : csr = 0
  · exact .inr ⟨cause, unlessHalted_eq_raised hs (if_pos h)⟩
  · exact .inl (unlessHalted_eq hs ((if_neg h).trans (unlessUnitOpen_open hunit body)))

/-- While a unit is open a file-level command reports Failure and does nothing else, or its fatal check comes first. -/
theorem exec_fileLevel_unitOpen {i : Instr} (hi : fileLevel i = true) :
    exec i s = .next (s.reportAs .failure) ∨ ∃ c, exec i s = .next (raised s c) := by
  cases i with
  | cdCompress xalg =>
    cases halg : algorithmOperand s.x[xalg] with
    | none => exact .inr ⟨_, unlessHalted_eq_raised hs (by rw [halg])⟩
    | some alg => exact .inl (unlessHalted_eq hs (by rw [halg]; exact unlessUnitOpen_open hunit _))
  | cdDecompress => exact .inl (unlessHalted_eq hs (unlessUnitOpen_open hunit _))
  | hmFenc => exact unlessHalted_configured_unitOpen hs hunit
  | hmFdec => exact unlessHalted_configured_unitOpen hs hunit
  | crcFenc => exact unlessHalted_configured_unitOpen hs hunit
  | crcFdec => exact unlessHalted_configured_unitOpen hs hunit
  | _ => cases hi

end

/-! ## The bits that have reached the writer (R178) -/

/-- The bits in OUT and those pending behind them. -/
def State.written (s : State) : Bits := streamBits s.output ++ s.writer.pend

theorem length_written (s : State) : s.written.length = 8 * s.output.length + s.writer.pend.length := by
  rw [State.written, List.length_append, length_streamBits]

/-- A write adds its bits behind those written before, flushed or not. -/
theorem written_afterWrite (s : State) (v : Bits) : (afterWrite s v).written = s.written ++ v := by
  rw [afterWrite]
  split
  · exact (List.append_assoc _ _ _).symm
  · rw [State.written, streamBits_append, streamBits_pack _ (by rw [List.length_take]; omega), List.append_assoc,
      List.take_append_drop, ← List.append_assoc]
    rfl

theorem bitsWritten_eq_nil {i : Instr} (h : writesWriter i = false) (s : State) : bitsWritten s i = [] := by
  cases i with
  | swWrBit | swWrByte | swWrBuf | ctSer => cases h
  | _ => rfl

section
variable {s t : State} {i : Instr} (hs : s.fault = none) (ho : s.writer.isOpen = true)
include hs ho

/-- While the writer is open, OUT is the writer's alone: a file-level command that completes leaves it. -/
theorem output_kept_of_writerOpen (hw : writesWriter i = false) (h : exec i s = .next t) (ht : t.fault = none) :
    t.output = s.output := by
  cases hf : fileLevel i with
  | false => exact (effect_of_exec h).output_kept hw hf
  | true =>
    obtain hreport | ⟨c, hraised⟩ := exec_fileLevel_unitOpen hs (.inr ho) hf
    · cases hreport.symm.trans h
      rfl
    · exact absurd ht (fault_ne_none_of_raised (hraised.symm.trans h))

/-- A command that completes adds the bits it writes and no others. -/
theorem written_exec (hopen : i ≠ .swOpen) (hclose : i ≠ .swClose) (h : exec i s = .next t) (ht : t.fault = none) :
    t.written = s.written ++ bitsWritten s i := by
  cases hw : writesWriter i with
  | false =>
    rw [bitsWritten_eq_nil hw, List.append_nil, State.written, output_kept_of_writerOpen hs ho hw h ht,
      (effect_of_exec h).pend_kept hw]
    rfl
  | true =>
    obtain hwrites | ⟨c, hraised⟩ := writes_or_raised hs ho hw hopen hclose
    · rw [eq_afterWrite_of_completed hwrites h ht, written_afterWrite]
    · exact absurd ht (fault_ne_none_of_raised (hraised.symm.trans h))

end

/-! ## Runs of commands -/

section
variable {s t u : State} {i : Instr} {is js : List Instr}

theorem runAll_cons_eq_next : runAll (i :: is) s = .next t ↔ ∃ u, exec i s = .next u ∧ runAll is u = .next t := by
  obtain ⟨u, hu, -⟩ := exec_effect i s
  simp [runAll, hu]

theorem runAll_append_eq_next :
    runAll (is ++ js) s = .next t ↔ ∃ u, runAll is s = .next u ∧ runAll js u = .next t := by
  induction is generalizing s with
  | nil => simp [runAll]
  | cons i is ih =>
    rw [List.cons_append, runAll_cons_eq_next]
    simp only [ih, runAll_cons_eq_next]
    constructor
    · rintro ⟨r, hr, u, hu, ht⟩
      exact ⟨u, ⟨r, hr, hu⟩, ht⟩
    · rintro ⟨u, ⟨r, hr, hu⟩, ht⟩
      exact ⟨r, hr, u, hu, ht⟩

theorem writtenAlong_cons (h : exec i s = .next u) :
    writtenAlong (i :: is) s = bitsWritten s i ++ writtenAlong is u := by rw [writtenAlong, h]

/-- A run that ends without a fault has met none (10_state.md R45). -/
theorem fault_eq_none_of_runAll (h : runAll is s = .next t) (ht : t.fault = none) : s.fault = none := by
  induction is generalizing s with
  | nil =>
    cases h
    exact ht
  | cons i is ih =>
    obtain ⟨u, hu, hrest⟩ := runAll_cons_eq_next.1 h
    cases hf : s.fault with
    | none => rfl
    | some c => exact absurd (ih hrest) (by rw [(effect_of_exec hu).fault_kept hf]; nofun)

/-- Along a run that neither opens nor closes the writer, it stays open and its bits are those written. -/
theorem written_runAll (his : ∀ i ∈ is, i ≠ .swOpen ∧ i ≠ .swClose) (ho : s.writer.isOpen = true)
    (h : runAll is s = .next t) (ht : t.fault = none) :
    t.writer.isOpen = true ∧ t.written = s.written ++ writtenAlong is s := by
  induction is generalizing s with
  | nil =>
    cases h
    exact ⟨ho, (List.append_nil _).symm⟩
  | cons i is ih =>
    obtain ⟨u, hu, hrest⟩ := runAll_cons_eq_next.1 h
    obtain ⟨⟨hopen, hclose⟩, his⟩ := List.forall_mem_cons.1 his
    have huopen : u.writer.isOpen = true := ((effect_of_exec hu).writerOpen_kept hopen hclose).trans ho
    obtain ⟨htopen, hwritten⟩ := ih his huopen hrest
    refine ⟨htopen, ?_⟩
    rw [hwritten, writtenAlong_cons hu, ← List.append_assoc,
      written_exec (fault_eq_none_of_runAll h ht) ho hopen hclose hu (fault_eq_none_of_runAll hrest ht)]

end

/-! ## Opening and closing the writer (R171, R176) -/

section
variable {s t : State} (hs : s.fault = none)
include hs

/-- SW.OPEN starts with nothing written. -/
theorem written_swOpen (h : exec .swOpen s = .next t) (ht : t.fault = none) :
    t.writer.isOpen = true ∧ t.written = [] := by
  cases withIo_completed hs ((unlessHalted_running hs _).symm.trans h) ht
  exact ⟨rfl, rfl⟩

/-- SW.CLOSE leaves in OUT the packed form of the bits written. -/
theorem output_swClose (ho : s.writer.isOpen = true) (h : exec .swClose s = .next t) (ht : t.fault = none) :
    t.output = pack s.written := by
  cases withIo_completed hs ((unlessHalted_eq hs (if_pos ho)).symm.trans h) ht
  exact pack_written rfl

end

/-! ## The obligations -/

/-- Settles O27: each command's check, then its I/O action, decide. -/
theorem streamUnitsOpenAndClose : Obligations.StreamUnitsOpenAndClose := by
  refine ⟨⟨row_word (by decide) rfl, fun s hs => unlessHalted_running hs _⟩,
    ⟨row_word (by decide) rfl, fun s hs => unlessHalted_running hs _⟩,
    ⟨row_word (by decide) rfl, fun s hs => ⟨fun hio => ?_, fun hio => ?_⟩⟩,
    ⟨row_word (by decide) rfl, fun s hs => ⟨fun ho hio => ?_, fun ho hio => ?_, fun ho => ?_⟩⟩⟩
  · exact unlessHalted_eq hs (withIo_ok hio _)
  · exact unlessHalted_eq hs (withIo_fail hs hio _)
  · exact unlessHalted_eq hs ((if_pos ho).trans (withIo_ok hio _))
  · exact unlessHalted_eq hs ((if_pos ho).trans (withIo_fail hs hio _))
  · exact unlessHalted_eq hs (if_neg (by simp [ho]))

/-- Settles O28: the open check, the end of IN and the I/O action decide, in that order but for SR.RDN, which draws
at the end of IN too. -/
theorem readerReadsAtAnyPosition : Obligations.ReaderReadsAtAnyPosition := by
  refine ⟨fun xd => ⟨row_word (by decide) rfl, fun s hs => ⟨unlessHalted_closed hs, fun ho hend => ?_,
      fun ho hpos hio => ?_, fun ho hpos hio => ?_⟩⟩,
    fun bd xn => ⟨row_word (by decide) rfl, fun s hs => ⟨unlessHalted_closed hs, fun ho hio => ?_,
      fun ho hio => ⟨fun hall => ?_, fun hsome hpos => ?_⟩⟩⟩,
    fun xd => ⟨row_word (by decide) rfl, fun s hs => ⟨unlessHalted_closed hs, fun ho hend => ?_,
      fun ho hpos hio => ?_, fun ho hpos hio => ?_⟩⟩⟩
  · exact (unlessHalted_open hs ho).trans (if_pos hend)
  · exact ((unlessHalted_open hs ho).trans (if_neg (Nat.not_le.2 hpos))).trans (withIo_fail hs hio _)
  · obtain ⟨v, hv⟩ := memRead_one hpos
    exact ⟨v, hv, exec_srRdBit_next hs ho hpos hio hv⟩
  · exact (unlessHalted_open hs ho).trans (withIo_fail hs hio _)
  · have hm : min s.x[xn] s.bitsLeft = s.x[xn] := by rw [State.bitsLeft]; omega
    exact exec_srRdN hs ho hio hm (decide_eq_false (Nat.lt_irrefl _))
  · have hm : min s.x[xn] s.bitsLeft = 8 * s.input.length - s.reader.pos := by rw [State.bitsLeft]; omega
    have hlt : 8 * s.input.length - s.reader.pos < s.x[xn] := by omega
    rw [exec_srRdN hs ho hio hm (decide_eq_true hlt), Nat.add_sub_cancel' hpos]
  · exact (unlessHalted_open hs ho).trans (if_pos (by rw [State.bitsLeft]; omega))
  · exact ((unlessHalted_open hs ho).trans (if_neg (by rw [State.bitsLeft]; omega))).trans (withIo_fail hs hio _)
  · exact exec_srRdByte_next hs ho (by rw [State.bitsLeft]; omega) hio

/-- Settles O29: the open check, then the operand form, then the flush rule decide. -/
theorem writerAppendsAndFlushes : Obligations.WriterAppendsAndFlushes :=
  ⟨fun _ => ⟨row_word (by decide) rfl, fun _ hs => ⟨unlessHalted_closed hs, fun ho => exec_swWrBit_invalid hs ho,
      fun ho _ hv => writes_of_exec_eq hs (exec_swWrBit_ok hs ho (by rw [hv, bitOperand_toNat]))⟩⟩,
    fun _ => ⟨row_word (by decide) rfl, fun _ hs => ⟨unlessHalted_closed hs, fun ho => exec_swWrByte_invalid hs ho,
      fun ho hv => writes_of_exec_eq hs (exec_swWrByte_ok hs ho hv)⟩⟩,
    fun _ => ⟨row_word (by decide) rfl, fun _ hs => ⟨unlessHalted_closed hs,
      fun ho => writes_of_exec_eq hs (exec_swWrBuf hs ho)⟩⟩⟩

/-- Settles O30: the bits in OUT and pending are, from SW.OPEN on, those written, and SW.CLOSE packs them. -/
theorem writtenBitsReachOutWhole : Obligations.WrittenBitsReachOutWhole := by
  intro is s opened t his hs hopen hf
  obtain ⟨ho, hnil⟩ := written_swOpen hs hopen hf
  refine ⟨fun h ht => ?_, fun h ht => ?_⟩
  · obtain ⟨-, hwritten⟩ := written_runAll his ho h ht
    rw [← length_written, hwritten, hnil, List.nil_append]
  · obtain ⟨u, hu, hlast⟩ := runAll_append_eq_next.1 h
    have huf := fault_eq_none_of_runAll hlast ht
    obtain ⟨v, hclose, hend⟩ := runAll_cons_eq_next.1 hlast
    cases hend
    obtain ⟨huo, hwritten⟩ := written_runAll his ho hu huf
    rw [output_swClose huf huo hclose ht, hwritten, hnil, List.nil_append]

end Sys2Proof.Machine
end

section
/-! SUPPORT. The histogram family (43_histogram.md). Tables listed in symbol order, the order of the ordered histogram,
draws by their number, and the histogram pass chunk by chunk. -/

namespace Sys2Proof.Machine
open Sys2Proof.Claims

/-! ## Tables in symbol order -/

theorem byteOperand_toNat (v : Byte) : byteOperand v.toNat = some v := by
  rw [byteOperand_of_le (by omega), BitVec.ofNat_toNat, BitVec.setWidth_eq]

theorem toList_eq_map_finRange {α : Type} {n : Nat} (t : Vector α n) :
    t.toList = (List.finRange n).map fun v => t[v] :=
  List.ext_getElem (by simp) (by simp)

theorem zipIdx_toList {α : Type} {n : Nat} (t : Vector α n) :
    t.toList.zipIdx = (List.finRange n).map fun v => (t[v], v.val) :=
  List.ext_getElem (by simp) (by simp)

/-- The count of FH.DISTINCT (R195). -/
theorem countP_toList (h : Hist) :
    h.toList.countP (· > 0) = ((List.finRange 256).filter fun v => 0 < h[v]).length := by
  rw [toList_eq_map_finRange, List.countP_map, List.countP_eq_length_filter]
  rfl

/-! ## The ordered histogram (R196) -/

theorem presentSymbols_eq (h : Hist) :
    presentSymbols h = ((List.finRange 256).filter fun v => 0 < h[v]).map fun v => (BitVec.ofFin v, h[v]) := by
  rw [presentSymbols, zipIdx_toList, List.filterMap_map, ← List.filterMap_eq_map, List.filterMap_filter]
  refine List.filterMap_congr fun v _ => ?_
  have hsymbol : BitVec.ofNat 8 v.val = BitVec.ofFin v := BitVec.eq_of_toNat_eq (Nat.mod_eq_of_lt v.isLt)
  simp [hsymbol]

theorem mem_orderedHist {h : Hist} {v : Byte} {n : Nat} : (v, n) ∈ orderedHist h ↔ n = h[v.toFin] ∧ 0 < n := by
  rw [(orderedHist_perm h).mem_iff, presentSymbols_eq]
  simp only [List.mem_map, List.mem_filter, List.mem_finRange, true_and, decide_eq_true_eq, Prod.mk.injEq]
  constructor
  · rintro ⟨u, hpos, rfl, rfl⟩
    exact ⟨rfl, hpos⟩
  · rintro ⟨rfl, hpos⟩
    exact ⟨v.toFin, hpos, rfl, rfl⟩

theorem nodup_orderedHist (h : Hist) : (orderedHist h).Nodup := by
  rw [(orderedHist_perm h).nodup_iff, presentSymbols_eq]
  refine ((List.nodup_finRange 256).filter _).map fun u v huv => ?_
  exact congrArg BitVec.toFin (congrArg Prod.fst huv)

theorem pairwise_histBefore_orderedHist (h : Hist) : (orderedHist h).Pairwise histBefore := by
  have total : Std.Total histBefore := ⟨fun p q => by unfold histBefore; omega⟩
  have trans : IsTrans (Byte × Nat) histBefore := ⟨fun p q r hpq hqr => by unfold histBefore at *; omega⟩
  exact List.pairwise_insertionSort histBefore _

/-- Only an entry itself ties with it. -/
theorem histBefore_strict {p q : Byte × Nat} (hne : p ≠ q) (hpq : histBefore p q) :
    q.2 < p.2 ∨ (p.2 = q.2 ∧ p.1.toNat < q.1.toNat) := by
  obtain hgt | ⟨hcount, hsymbol⟩ := hpq
  · exact .inl hgt
  · exact .inr ⟨hcount, lt_of_le_of_ne hsymbol fun e => hne (Prod.ext (BitVec.eq_of_toNat_eq e) hcount)⟩

/-! ## Draws by number (60_exceptions.md R328, R330) -/

@[simp] theorem afterDraws_zero (e : Env) : afterDraws e 0 0 = e := rfl

@[simp] theorem afterDraws_afterDraws (e : Env) (p n p' n' : Nat) :
    afterDraws (afterDraws e p n) p' n' = afterDraws e (p + p') (n + n') := by
  simp [afterDraws]

@[simp] theorem pollSees_afterDraws (e : Env) (p n j : Nat) : pollSees (afterDraws e p n) j = pollSees e (p + j) := by
  simp [pollSees, afterDraws, List.getD_eq_getElem?_getD]

@[simp] theorem failsAt_afterDraws (e : Env) (p n j : Nat) : failsAt (afterDraws e p n) j = failsAt e (n + j) := by
  simp [failsAt, afterDraws, List.getD_eq_getElem?_getD]

theorem Env.poll_eq_draw (e : Env) : e.poll = (pollSees e 0, afterDraws e 1 0) := by
  cases e with | mk c p f => cases p <;> rfl

theorem Env.io_eq_draw (e : Env) : e.io = (failsAt e 0, afterDraws e 0 1) := by
  cases e with | mk c p f => cases f <;> rfl

namespace FileM
variable {j : Job}

theorem poll_sees_false (h : pollSees j.env 0 = false) : poll j = .ok () { j with env := afterDraws j.env 1 0 } := by
  simp only [poll, Env.poll_eq_draw, h, Bool.false_eq_true, if_false]

theorem poll_sees_true (h : pollSees j.env 0 = true) :
    poll j = .error .cancelled { j with env := afterDraws j.env 1 0 } := by
  simp only [poll, Env.poll_eq_draw, h, if_true]

theorem io_succeeds (h : failsAt j.env 0 = false) : io j = .ok () { j with env := afterDraws j.env 0 1 } := by
  simp only [io, Env.io_eq_draw, h, Bool.false_eq_true, if_false]

theorem io_fails (h : failsAt j.env 0 = true) : io j = .error .failure { j with env := afterDraws j.env 0 1 } := by
  simp only [io, Env.io_eq_draw, h, if_true]

end FileM

/-! ## Chunks (R192) -/

theorem ceilDiv_le_iff {size n k : Nat} (hsize : 1 ≤ size) : ceilDiv n size ≤ k ↔ n ≤ k * size := by
  rw [Nat.mul_comm]
  exact ceilDiv_le_iff_le_mul hsize

/-- All the chunks together hold all the bytes. -/
theorem le_ceilDiv_mul {size : Nat} (hsize : 1 ≤ size) (n : Nat) : n ≤ ceilDiv n size * size :=
  (ceilDiv_le_iff hsize).1 le_rfl

/-! ## Counting bytes (R191) -/

theorem getElem_tally (h : Hist) (b v : Byte) :
    (tally h b)[v.toFin] = h[v.toFin] + if b = v then 1 else 0 := by
  have hne : b.toNat = v.toNat ↔ b = v := BitVec.toNat_inj
  by_cases hb : b = v
  · subst hb; simp [tally]
  · simp [tally, hb, hne]

/-- Counting bytes adds to H[v] the number of those equal to v. -/
theorem getElem_foldl_tally (bytes : List Byte) (h : Hist) (v : Byte) :
    (bytes.foldl tally h)[v.toFin] = h[v.toFin] + bytes.count v := by
  induction bytes generalizing h with
  | nil => rfl
  | cons b bytes ih =>
    rw [List.foldl_cons, ih, getElem_tally, List.count_cons, Nat.add_assoc, Nat.add_comm (bytes.count v)]
    simp only [beq_iff_eq]

/-! ## One chunk of the histogram pass (R191) -/

section
variable {total done : Nat} {chunk : List Byte} {rest : List (List Byte)} {h : Hist} {j : Job}

theorem countChunks_cons_counted (hpoll : pollSees j.env 0 = false) (hio : failsAt j.env 0 = false) :
    countChunks total done (chunk :: rest) h j =
      countChunks total (done + chunk.length) rest (chunk.foldl tally h)
        { j with env := afterDraws j.env 1 1, progress := 100 * (done + chunk.length) / total } := by
  rw [countChunks, FileM.bind_ok (FileM.poll_sees_false hpoll), FileM.bind_ok (FileM.io_succeeds (by simpa using hio)),
    FileM.bind_ok (FileM.setProgress_run _ _), afterDraws_afterDraws]

theorem countChunks_cons_cancelled (hpoll : pollSees j.env 0 = true) :
    countChunks total done (chunk :: rest) h j = .error .cancelled { j with env := afterDraws j.env 1 0 } := by
  rw [countChunks, FileM.bind_error (FileM.poll_sees_true hpoll)]

theorem countChunks_cons_failed (hpoll : pollSees j.env 0 = false) (hio : failsAt j.env 0 = true) :
    countChunks total done (chunk :: rest) h j = .error .failure { j with env := afterDraws j.env 1 1 } := by
  rw [countChunks, FileM.bind_ok (FileM.poll_sees_false hpoll), FileM.bind_error (FileM.io_fails (by simpa using hio)),
    afterDraws_afterDraws]

end

/-! ## The histogram pass (R191, R192) -/

/-- The job when `k` chunks of IN are counted: one poll and one read for each, and PROGRESS after the last of them. -/
def Job.afterChunks (j : Job) (cfg : Config) (inp : List Byte) (k : Nat) : Job :=
  { j with
    env := afterDraws j.env k k
    progress := if k = 0 then j.progress else 100 * min (k * cfg.chunkBytes) inp.length / inp.length }

@[simp] theorem Job.afterChunks_env (j : Job) (cfg : Config) (inp : List Byte) (k : Nat) :
    (j.afterChunks cfg inp k).env = afterDraws j.env k k := rfl

section
variable {cfg : Config} {inp : List Byte} {j : Job} {k : Nat}

/-- When no poll sees 1 and no read fails before chunk `k`, the pass comes to it with the bytes before it counted. -/
theorem countPass_eq (hk : k ≤ ceilDiv inp.length cfg.chunkBytes)
    (hquiet : ∀ i, i < k → pollSees j.env i = false ∧ failsAt j.env i = false) :
    countPass cfg inp j =
      countChunks inp.length (min (k * cfg.chunkBytes) inp.length)
        (chunksOf cfg.chunkBytes (ceilDiv inp.length cfg.chunkBytes - k) (inp.drop (k * cfg.chunkBytes)))
        ((inp.take (k * cfg.chunkBytes)).foldl tally (Vector.replicate 256 0)) (j.afterChunks cfg inp k) := by
  induction k with
  | zero => simp [countPass, chunksOfIn, Job.afterChunks]
  | succ k ih =>
    obtain ⟨hpoll, hio⟩ := hquiet k (Nat.lt_succ_self k)
    have hleft : ceilDiv inp.length cfg.chunkBytes - k = ceilDiv inp.length cfg.chunkBytes - (k + 1) + 1 := by omega
    have hdone : min (k * cfg.chunkBytes) inp.length + ((inp.drop (k * cfg.chunkBytes)).take cfg.chunkBytes).length =
        min ((k + 1) * cfg.chunkBytes) inp.length := by
      rw [List.length_take, List.length_drop, Nat.succ_mul]
      omega
    rw [ih (by omega) fun i hi => hquiet i (by omega), hleft, chunksOf,
      countChunks_cons_counted (by simpa using hpoll) (by simpa using hio), hdone,
      List.drop_drop, ← List.foldl_append, ← List.take_add, ← Nat.succ_mul]
    simp [Job.afterChunks]

theorem countPass_counted (hsize : 1 ≤ cfg.chunkBytes)
    (hquiet : ∀ i, i < ceilDiv inp.length cfg.chunkBytes → pollSees j.env i = false ∧ failsAt j.env i = false) :
    countPass cfg inp j = .ok (inp.foldl tally (Vector.replicate 256 0))
      (j.afterChunks cfg inp (ceilDiv inp.length cfg.chunkBytes)) := by
  rw [countPass_eq le_rfl hquiet, Nat.sub_self, List.take_of_length_le (le_ceilDiv_mul hsize _)]
  rfl

variable (hk : k < ceilDiv inp.length cfg.chunkBytes)
  (hquiet : ∀ i, i < k → pollSees j.env i = false ∧ failsAt j.env i = false)
include hk hquiet

/-- Chunk `k` is the next one of the pass. -/
theorem countPass_eq_cons : ∃ done chunk rest h,
    countPass cfg inp j = countChunks inp.length done (chunk :: rest) h (j.afterChunks cfg inp k) := by
  have hleft : ceilDiv inp.length cfg.chunkBytes - k = ceilDiv inp.length cfg.chunkBytes - (k + 1) + 1 := by omega
  rw [countPass_eq hk.le hquiet, hleft]
  exact ⟨_, _, _, _, rfl⟩

theorem countPass_cancelled (hpoll : pollSees j.env k = true) :
    countPass cfg inp j =
      .error .cancelled { j.afterChunks cfg inp k with env := afterDraws j.env (k + 1) k } := by
  obtain ⟨done, chunk, rest, h, hrun⟩ := countPass_eq_cons hk hquiet
  rw [hrun, countChunks_cons_cancelled (by simpa using hpoll), Job.afterChunks_env, afterDraws_afterDraws]
  rfl

theorem countPass_failed (hpoll : pollSees j.env k = false) (hio : failsAt j.env k = true) :
    countPass cfg inp j =
      .error .failure { j.afterChunks cfg inp k with env := afterDraws j.env (k + 1) (k + 1) } := by
  obtain ⟨done, chunk, rest, h, hrun⟩ := countPass_eq_cons hk hquiet
  rw [hrun, countChunks_cons_failed (by simpa using hpoll) (by simpa using hio), Job.afterChunks_env,
    afterDraws_afterDraws]

end

/-- PROGRESS after all chunks (R191): unchanged for an empty IN, which has none. -/
theorem progress_afterChunks_all (j : Job) {cfg : Config} (inp : List Byte) (hsize : 1 ≤ cfg.chunkBytes) :
    (j.afterChunks cfg inp (ceilDiv inp.length cfg.chunkBytes)).progress =
      if inp.isEmpty then j.progress else 100 := by
  have hzero : ceilDiv inp.length cfg.chunkBytes = 0 ↔ inp.isEmpty := by
    rw [← Nat.le_zero, ceilDiv_le_iff hsize]
    simp
  simp only [Job.afterChunks, hzero, Nat.min_eq_right (le_ceilDiv_mul hsize _)]
  split
  · rfl
  · next hne => exact Nat.mul_div_cancel _ (by simpa [List.length_pos_iff] using hne)

/-! ## The obligations -/

/-- Settles O31: the pass reaches chunk k with nothing but its polls and reads done; there the poll, then the read,
decide, and past the last chunk every byte of IN is counted. -/
theorem countGivesTheBytesOfIn : Obligations.CountGivesTheBytesOfIn := by
  refine ⟨row_word (by decide) rfl, fun s hs hsize => ⟨fun hquiet => ?_, fun k hk hquiet => ⟨fun hpoll => ?_,
    fun hpoll hio => ?_⟩⟩⟩
  · have hrun := countPass_counted (j := s.job s.ham) hsize hquiet
    refine ⟨s.input.foldl tally (Vector.replicate 256 0), fun v => ?_, unlessHalted_eq hs ?_⟩
    · rw [getElem_foldl_tally]
      simp
    · rw [hrun]
      simp only [progress_afterChunks_all _ _ hsize]
      rfl
  · have hrun := countPass_cancelled (j := s.job s.ham) hk hquiet hpoll
    exact unlessHalted_eq hs (by rw [hrun]; rfl)
  · have hrun := countPass_failed (j := s.job s.ham) hk hquiet hpoll hio
    have hdone := (lt_iff_lt_of_le_iff_le (ceilDiv_le_iff hsize)).1 hk
    refine unlessHalted_eq hs ?_
    rw [hrun]
    simp only [Job.afterChunks, Nat.min_eq_left hdone.le]
    rfl

/-- Settles O33: insertion sort by a total order, of entries that are all different. -/
theorem orderedHistogramIsSorted : Obligations.OrderedHistogramIsSorted := by
  refine fun h => ⟨fun v n => mem_orderedHist, ?_⟩
  exact (nodup_orderedHist h).imp₂ (fun p q => histBefore_strict) (pairwise_histBefore_orderedHist h)

/-- Settles O32: the symbol operand, then the entry of the table, decide. -/
theorem tablesAreReadAndWrittenBySymbol : Obligations.TablesAreReadAndWrittenBySymbol := by
  refine ⟨fun xd xs => ⟨row_word (by decide) rfl, fun s hs => ⟨fun v hv => ?_, fun hv => ?_⟩⟩,
    ⟨row_word (by decide) rfl, fun s hs => unlessHalted_running hs _⟩,
    fun xd => ⟨row_word (by decide) rfl, fun s hs => ?_⟩,
    fun bd xs => ⟨row_word (by decide) rfl, fun s hs => ⟨fun v c hv hc => ?_, fun v hv hc => ?_, fun hv => ?_⟩⟩,
    fun xs bs => ⟨row_word (by decide) rfl, fun s hs => ⟨fun v hv hb => ?_, fun v hv hb => ?_, fun hv => ?_⟩⟩⟩
  · exact unlessHalted_eq hs (by rw [hv, byteOperand_toNat]; rfl)
  · exact unlessHalted_eq_raised hs (by rw [byteOperand_of_lt hv])
  · exact unlessHalted_eq hs (by rw [countP_toList]; rfl)
  · exact unlessHalted_eq hs (by rw [hv, byteOperand_toNat]; simp only [hc]; rfl)
  · exact unlessHalted_eq_raised hs (by rw [hv, byteOperand_toNat]; simp only [hc])
  · exact unlessHalted_eq_raised hs (by rw [byteOperand_of_lt hv])
  · exact unlessHalted_eq hs (by rw [hv, byteOperand_toNat, hb]; rfl)
  · exact unlessHalted_eq hs (by rw [hv, byteOperand_toNat, List.isEmpty_eq_false_iff.2 hb]; rfl)
  · exact unlessHalted_eq_raised hs (by rw [byteOperand_of_lt hv])

end Sys2Proof.Machine
end

section
/-! SUPPORT. The code tree family (44_code_tree.md): serialization. The shape of a tree as the bits of its visit, what
the shape loop makes of such bits and from what bits it can have made a root, and the labelling of the leaves: so the
bits CT.DESER accepts are the serializations of full trees. -/

namespace Sys2Proof.Machine
open Sys2Proof.Claims

/-! ## Full trees (R210) -/

theorem Tree.exists_node_of_full {t : Tree} (h : t.full = true) :
    ∃ l r, t = .node l r ∧ l.fullBelow = true ∧ r.fullBelow = true := by
  cases t with
  | absent | leaf => exact absurd h (by simp [Tree.full])
  | node l r => exact ⟨l, r, rfl, by simpa [Tree.full] using h⟩

/-! ## Shapes -/

/-- The shape of a tree: the tree without its symbols. -/
def Tree.toShape : Tree → Shape
  | .absent => .absent
  | .leaf _ => .node .absent .absent
  | .node l r => .node l.toShape r.toShape

/-- The number of nodes of a shape. -/
def Shape.size : Shape → Nat
  | .absent => 0
  | .node l r => 1 + l.size + r.size

/-- The bits of the visit of a child: a 0 on the descent, its own children, a 1 on the return (R214). -/
def Shape.visit : Shape → Bits
  | .absent => []
  | .node l r => false :: (l.visit ++ r.visit ++ [true])

@[simp] theorem Tree.size_toShape (t : Tree) : t.toShape.size = t.nodeCount := by
  induction t with
  | absent | leaf => rfl
  | node l r ihl ihr => simp [Tree.toShape, Shape.size, Tree.nodeCount, ihl, ihr]

theorem Tree.visit_toShape (t : Tree) :
    t.toShape.visit = if t.isAbsent then [] else false :: t.shapeBits ++ [true] := by
  induction t with
  | absent | leaf => rfl
  | node l r ihl ihr => simp [Tree.toShape, Shape.visit, Tree.shapeBits, Tree.isAbsent, ihl, ihr]

/-- The shape bits of a root are the visits of its children. -/
theorem Tree.shapeBits_node (l r : Tree) : (Tree.node l r).shapeBits = l.toShape.visit ++ r.toShape.visit := by
  rw [Tree.shapeBits, Tree.visit_toShape, Tree.visit_toShape]

theorem Shape.fullBelow_node {l r : Shape} (h : (Shape.node l r).fullBelow = true) :
    (l = .absent ∧ r = .absent) ∨ (l.fullBelow = true ∧ r.fullBelow = true) := by
  cases l with
  | absent =>
    cases r with
    | absent => exact .inl ⟨rfl, rfl⟩
    | node => simp [Shape.fullBelow] at h
  | node => exact .inr (by simpa [Shape.fullBelow] using h)

theorem Shape.ne_absent_of_fullBelow {s : Shape} (h : s.fullBelow = true) : s ≠ .absent := by
  rintro rfl
  simp [Shape.fullBelow] at h

theorem Shape.exists_node_of_fullBelow {s : Shape} (h : s.fullBelow = true) : ∃ l r, s = .node l r := by
  cases s with
  | absent => exact absurd rfl (Shape.ne_absent_of_fullBelow h)
  | node l r => exact ⟨l, r, rfl⟩

theorem Shape.fullBelow_node_of_children {l r : Shape} (hl : l.fullBelow = true) (hr : r.fullBelow = true) :
    (Shape.node l r).fullBelow = true := by
  obtain ⟨a, b, rfl⟩ := Shape.exists_node_of_fullBelow hl
  rw [Shape.fullBelow, hl, hr]
  · rfl
  · nofun

/-- The shape of a full tree is full. -/
theorem Tree.fullBelow_toShape {t : Tree} (h : t.fullBelow = true) : t.toShape.fullBelow = true := by
  induction t with
  | absent => exact absurd h (by simp [Tree.fullBelow])
  | leaf => rfl
  | node l r ihl ihr =>
    simp only [Tree.fullBelow, Bool.and_eq_true] at h
    exact Shape.fullBelow_node_of_children (ihl h.1) (ihr h.2)

/-- A shape with more than one node is the shape of an inner node. -/
theorem Tree.exists_node_of_toShape {t : Tree} {l r : Shape} (h : t.toShape = .node l r) (hl : l ≠ .absent) :
    ∃ a b, t = .node a b := by
  cases t with
  | absent => cases h
  | leaf v =>
    cases h
    exact absurd rfl hl
  | node a b => exact ⟨a, b, rfl⟩

/-! ## The shape loop forwards (R215) -/

/-- Where the shape loop goes on after a return to `cur`: it leaves on a complete root. -/
def resumeShape (bits : Bits) (count : Nat) (cur : Pending) (stack : List Pending) : Except Cause (Pending × Bits) :=
  if stack.isEmpty && cur.complete then .ok (cur, bits) else parseShape bits count cur stack

/-- A node under construction with one more finished child. -/
def Pending.add (parent : Pending) (child : Shape) : Pending :=
  if parent.left = .absent then { parent with left := child } else { parent with right := child }

theorem Pending.add_first (l : Shape) : (⟨.absent, .absent⟩ : Pending).add l = ⟨l, .absent⟩ := rfl

theorem Pending.add_second {l : Shape} (hl : l ≠ .absent) (r : Shape) :
    (⟨l, .absent⟩ : Pending).add r = ⟨l, r⟩ := if_neg hl

theorem parseShape_return (bits : Bits) (count : Nat) (cur parent : Pending) (stack : List Pending) :
    parseShape (true :: bits) count cur (parent :: stack) =
      resumeShape bits count (parent.add (.node cur.left cur.right)) stack := rfl

theorem parseShape_descend {bits : Bits} {count : Nat} {cur : Pending} {stack : List Pending}
    (hcur : cur.complete = false) (hcount : count < maxNodes) :
    parseShape (false :: bits) count cur stack = parseShape bits (count + 1) ⟨.absent, .absent⟩ (cur :: stack) := by
  rw [parseShape, if_neg (by simp [hcur]), if_neg (by omega)]

/-- A return to a node below the root, or to an incomplete root, stays in the loop. -/
theorem resumeShape_eq_parseShape {bits : Bits} {count : Nat} {cur : Pending} {stack : List Pending}
    (h : stack ≠ [] ∨ cur.complete = false) :
    resumeShape bits count cur stack = parseShape bits count cur stack := by
  refine if_neg ?_
  obtain hstack | hcur := h
  · simp [hstack]
  · simp [hcur]

theorem Pending.complete_of_right_absent (l : Shape) : (⟨l, .absent⟩ : Pending).complete = false := by
  simp [Pending.complete]

/-- The shape loop reads the visit of a full child and adds the child to its parent. -/
theorem parseShape_visit {s : Shape} (hs : s.fullBelow = true) {bits : Bits} {count : Nat} {cur : Pending}
    {stack : List Pending} (hcur : cur.complete = false) (hcount : count + s.size ≤ maxNodes) :
    parseShape (s.visit ++ bits) count cur stack = resumeShape bits (count + s.size) (cur.add s) stack := by
  induction s generalizing bits count cur stack with
  | absent => exact absurd rfl (Shape.ne_absent_of_fullBelow hs)
  | node l r ihl ihr =>
    have hdescend : parseShape ((Shape.node l r).visit ++ bits) count cur stack =
        parseShape (l.visit ++ (r.visit ++ true :: bits)) (count + 1) ⟨.absent, .absent⟩ (cur :: stack) := by
      rw [← parseShape_descend hcur (by simp only [Shape.size] at hcount; omega)]
      simp [Shape.visit]
    simp only [Shape.size] at hcount
    rw [hdescend]
    obtain ⟨rfl, rfl⟩ | ⟨hl, hr⟩ := Shape.fullBelow_node hs
    · exact parseShape_return bits (count + 1) _ cur stack
    · have habsent := Shape.ne_absent_of_fullBelow hl
      rw [ihl hl rfl (by omega), resumeShape_eq_parseShape (.inl (by simp)), Pending.add_first,
        ihr hr (Pending.complete_of_right_absent l) (by omega), resumeShape_eq_parseShape (.inl (by simp)),
        Pending.add_second habsent, parseShape_return]
      congr 1
      simp only [Shape.size]
      omega

/-- The shape loop reads the shape bits of a full root, and no more. -/
theorem parseShape_root {l r : Shape} (hl : l.fullBelow = true) (hr : r.fullBelow = true) (rest : Bits)
    (hsize : (Shape.node l r).size ≤ maxNodes) :
    parseShape (l.visit ++ r.visit ++ rest) 1 ⟨.absent, .absent⟩ [] = .ok (⟨l, r⟩, rest) := by
  have hl' := Shape.ne_absent_of_fullBelow hl
  have hr' := Shape.ne_absent_of_fullBelow hr
  simp only [Shape.size] at hsize
  rw [List.append_assoc, parseShape_visit hl rfl (by omega), Pending.add_first,
    resumeShape_eq_parseShape (.inr (Pending.complete_of_right_absent l)),
    parseShape_visit hr (Pending.complete_of_right_absent l) (by omega), Pending.add_second hl']
  exact if_pos (by simp [Pending.complete, hl', hr'])

/-! ## The shape loop backwards (R215) -/

/-- The bits that lead to the node under construction `cur`: the visits of the finished children of its ancestors, a 0
on each descent, and the visits of its own. -/
def consumedBits (cur : Pending) : List Pending → Bits
  | [] => cur.left.visit ++ cur.right.visit
  | parent :: stack => consumedBits parent stack ++ false :: (cur.left.visit ++ cur.right.visit)

/-- The number of nodes of the tree under construction. -/
def nodesSoFar (cur : Pending) (stack : List Pending) : Nat :=
  ((cur :: stack).map fun p => (Shape.node p.left p.right).size).sum

/-- A node under construction has its left child before its right one. -/
def Pending.LeftFirst (p : Pending) : Prop := p.left = .absent → p.right = .absent

/-- An incomplete node that has its left child first has no right child. -/
theorem Pending.right_absent_of_incomplete {p : Pending} (h : p.LeftFirst) (hp : p.complete = false) :
    p.right = .absent := by
  by_cases hl : p.left = .absent
  · exact h hl
  · simpa [Pending.complete, hl] using hp

theorem Pending.leftFirst_add {p : Pending} (hright : p.right = .absent) (s : Shape) : (p.add s).LeftFirst := by
  unfold Pending.add Pending.LeftFirst
  split
  · exact fun _ => hright
  · next hl => exact fun h => absurd h hl

/-- Adding a child, to a node without a right one, adds its visit at the end. -/
theorem consumedBits_add {p : Pending} (hright : p.right = .absent) (s : Shape) (stack : List Pending) :
    consumedBits (p.add s) stack = consumedBits p stack ++ s.visit := by
  obtain ⟨l, r⟩ := p
  cases hright
  unfold Pending.add
  split
  · next hl =>
    cases hl
    cases stack <;> simp [consumedBits, Shape.visit]
  · cases stack <;> simp [consumedBits, Shape.visit]

theorem nodesSoFar_add {p : Pending} (hright : p.right = .absent) (s : Shape) (stack : List Pending) :
    nodesSoFar (p.add s) stack = nodesSoFar p stack + s.size := by
  obtain ⟨l, r⟩ := p
  cases hright
  unfold Pending.add
  split
  · next hl =>
    cases hl
    simp [nodesSoFar, Shape.size]
    omega
  · simp [nodesSoFar, Shape.size]
    omega

/-- What the shape loop has read when it answers a root: the visits of the root's children. -/
theorem parseShape_ok {bits rest : Bits} {count : Nat} {cur root : Pending} {stack : List Pending}
    (hcur : cur.LeftFirst) (hstack : ∀ p ∈ stack, p.right = .absent) (hcount : count = nodesSoFar cur stack)
    (hmax : count ≤ maxNodes) (h : parseShape bits count cur stack = .ok (root, rest)) :
    consumedBits cur stack ++ bits = root.left.visit ++ root.right.visit ++ rest ∧
      (Shape.node root.left root.right).size ≤ maxNodes := by
  induction bits generalizing count cur stack with
  | nil => simp [parseShape] at h
  | cons v bits ih =>
    cases v with
    | false =>
      rw [parseShape] at h
      split at h
      · cases h
      · next hincomplete =>
        split at h
        · cases h
        · next hroom =>
          have hright := Pending.right_absent_of_incomplete hcur (by simpa using hincomplete)
          have hnew := ih (cur := ⟨.absent, .absent⟩) (stack := cur :: stack) (fun _ => rfl)
            (by simpa [hright] using hstack) (by rw [hcount]; simp [nodesSoFar, Shape.size]; omega) (by omega) h
          simpa [consumedBits, Shape.visit] using hnew
    | true =>
      cases stack with
      | nil => simp [parseShape] at h
      | cons parent stack =>
        obtain ⟨hparent, hstack⟩ := List.forall_mem_cons.1 hstack
        have hnodes : count = nodesSoFar (parent.add (.node cur.left cur.right)) stack := by
          rw [nodesSoFar_add hparent, hcount]
          simp [nodesSoFar]
          omega
        have hbits : consumedBits cur (parent :: stack) ++ true :: bits =
            consumedBits (parent.add (.node cur.left cur.right)) stack ++ bits := by
          rw [consumedBits_add hparent]
          simp [consumedBits, Shape.visit]
        rw [hbits]
        rw [parseShape_return, resumeShape] at h
        split at h
        · next hleave =>
          simp only [Bool.and_eq_true, List.isEmpty_iff] at hleave
          obtain ⟨rfl, -⟩ := hleave
          cases h
          rw [hnodes] at hmax
          exact ⟨rfl, by simpa [nodesSoFar] using hmax⟩
        · exact ih (Pending.leftFirst_add hparent _) hstack hnodes hmax h

/-- The shape loop fails with EndOfStream or MalformedTree. -/
theorem parseShape_error {bits : Bits} {count : Nat} {cur : Pending} {stack : List Pending} {c : Cause}
    (h : parseShape bits count cur stack = .error c) : c = .endOfStream ∨ c = .malformedTree := by
  induction bits generalizing count cur stack with
  | nil =>
    cases h
    exact .inl rfl
  | cons v bits ih =>
    cases v with
    | false =>
      rw [parseShape] at h
      split at h
      · cases h
        exact .inr rfl
      · split at h
        · cases h
          exact .inr rfl
        · exact ih h
    | true =>
      cases stack with
      | nil =>
        cases h
        exact .inr rfl
      | cons parent stack =>
        rw [parseShape_return, resumeShape] at h
        split at h
        · cases h
        · exact ih h

/-! ## Labelling the leaves (R215) -/

theorem Shape.label_leaf {bits : Bits} (h : 8 ≤ bits.length) :
    (Shape.node .absent .absent).label bits = some (.leaf (byteOfBits (bits.take 8)), bits.drop 8) :=
  if_neg (Nat.not_lt.2 h)

theorem Shape.label_leaf_short {bits : Bits} (h : bits.length < 8) :
    (Shape.node .absent .absent).label bits = none := if_pos h

/-- An inner node is labelled child by child. -/
theorem Shape.label_node {l r : Shape} (hl : l.fullBelow = true) (bits : Bits) :
    (Shape.node l r).label bits = (l.label bits).bind fun p =>
      (r.label p.2).map fun q => (.node p.1 q.1, q.2) := by
  obtain ⟨a, b, rfl⟩ := Shape.exists_node_of_fullBelow hl
  rw [Shape.label]
  · cases (Shape.node a b).label bits with
    | none => rfl
    | some p => cases hr : r.label p.2 <;> simp [hr]
  · nofun

/-- The leaves' bytes label the shape of a full tree as they do the tree. -/
theorem Tree.label_toShape {t : Tree} (h : t.fullBelow = true) (rest : Bits) :
    t.toShape.label (t.leaves.flatMap byteBits ++ rest) = some (t, rest) := by
  induction t generalizing rest with
  | absent => exact absurd h (by simp [Tree.fullBelow])
  | leaf v =>
    have htake : (byteBits v ++ rest).take 8 = byteBits v := List.take_left' (length_byteBits v)
    have hdrop : (byteBits v ++ rest).drop 8 = rest := List.drop_left' (length_byteBits v)
    rw [Tree.leaves, List.flatMap_singleton, Tree.toShape, Shape.label_leaf (by simp), htake, hdrop,
      byteOfBits_byteBits]
  | node l r ihl ihr =>
    simp only [Tree.fullBelow, Bool.and_eq_true] at h
    obtain ⟨hl, hr⟩ := h
    rw [Tree.leaves, List.flatMap_append, List.append_assoc, Tree.toShape,
      Shape.label_node (Tree.fullBelow_toShape hl), ihl hl, Option.bind_some, ihr hr, Option.map_some]

/-- What a full shape is labelled with: the tree of that shape whose leaves' bytes stand first in the bits. -/
theorem Shape.label_some {s : Shape} (hs : s.fullBelow = true) {bits rest : Bits} {t : Tree}
    (h : s.label bits = some (t, rest)) :
    t.fullBelow = true ∧ t.toShape = s ∧ bits = t.leaves.flatMap byteBits ++ rest := by
  induction s generalizing bits rest t with
  | absent => exact absurd rfl (Shape.ne_absent_of_fullBelow hs)
  | node l r ihl ihr =>
    obtain ⟨rfl, rfl⟩ | ⟨hl, hr⟩ := Shape.fullBelow_node hs
    · by_cases hbits : bits.length < 8
      · rw [Shape.label_leaf_short hbits] at h
        cases h
      · rw [Shape.label_leaf (Nat.not_lt.1 hbits)] at h
        cases h
        have htake : (bits.take 8).length = 8 := by
          rw [List.length_take]
          omega
        refine ⟨rfl, rfl, ?_⟩
        rw [Tree.leaves, List.flatMap_singleton, byteBits_byteOfBits _ htake.le, htake]
        simp
    · rw [Shape.label_node hl, Option.bind_eq_some_iff] at h
      obtain ⟨⟨tl, mid⟩, hlabel, h⟩ := h
      obtain ⟨⟨tr, last⟩, hlabel', h⟩ := Option.map_eq_some_iff.1 h
      cases h
      obtain ⟨hfl, rfl, rfl⟩ := ihl hl hlabel
      obtain ⟨hfr, rfl, rfl⟩ := ihr hr hlabel'
      exact ⟨by rw [Tree.fullBelow, hfl, hfr]; rfl, rfl, by simp [Tree.leaves]⟩

/-! ## CT.DESER over bits (R215) -/

theorem deserialize_serialize {t : Tree} (ht : FullTree t) (rest : Bits) :
    deserialize (t.serialize ++ rest) = .ok (t, t.serialize.length) := by
  obtain ⟨hfull, hcount⟩ := ht
  obtain ⟨l, r, rfl, hl, hr⟩ := Tree.exists_node_of_full hfull
  have hl' := Tree.fullBelow_toShape hl
  have hr' := Tree.fullBelow_toShape hr
  rw [← Tree.size_toShape] at hcount
  have hparse := parseShape_root hl' hr' ((Tree.node l r).leaves.flatMap byteBits ++ rest) hcount
  have hlabel := Tree.label_toShape (Tree.fullBelow_of_full hfull) rest
  rw [Tree.toShape] at hlabel
  rw [deserialize, Tree.serialize, List.append_assoc, Tree.shapeBits_node, hparse]
  simp only [hl', hr', Bool.and_self, if_true, hlabel]
  rw [← List.append_assoc, List.length_append, Nat.add_sub_cancel]

theorem serialize_of_deserialize_ok {bits : Bits} {t : Tree} {used : Nat} (h : deserialize bits = .ok (t, used)) :
    FullTree t ∧ ∃ rest, bits = t.serialize ++ rest := by
  obtain ⟨c, -, he⟩ | ⟨root, rest, hparse, ⟨-, he⟩ | ⟨-, -, he⟩ | ⟨hfull, t', rest', hlabel, he⟩⟩ :=
    deserialize_cases bits
  · cases he.symm.trans h
  · cases he.symm.trans h
  · cases he.symm.trans h
  · cases he.symm.trans h
    obtain ⟨hl, hr⟩ := Bool.and_eq_true_iff.1 hfull
    obtain ⟨hbits, hsize⟩ := parseShape_ok (fun _ => rfl) (by simp) (by rfl) (by decide) hparse
    obtain ⟨ht, hshape, rfl⟩ := Shape.label_some (Shape.fullBelow_node_of_children hl hr) hlabel
    obtain ⟨a, b, rfl⟩ := Tree.exists_node_of_toShape hshape (Shape.ne_absent_of_fullBelow hl)
    have hcount : (Tree.node a b).nodeCount ≤ maxNodes := by rwa [← Tree.size_toShape, hshape]
    obtain ⟨hleft, hright⟩ := Shape.node.inj hshape
    refine ⟨⟨ht, hcount⟩, rest', ?_⟩
    rw [Tree.serialize, Tree.shapeBits_node, hleft, hright, List.append_assoc, ← hbits]
    rfl

theorem deserialize_error {bits : Bits} {c : Cause} (h : deserialize bits = .error c) :
    c = .endOfStream ∨ c = .malformedTree := by
  obtain ⟨d, hparse, he⟩ | ⟨root, rest, -, ⟨-, he⟩ | ⟨-, -, he⟩ | ⟨-, t, rest', -, he⟩⟩ := deserialize_cases bits
  · cases he.symm.trans h
    exact parseShape_error hparse
  · cases he.symm.trans h
    exact .inr rfl
  · cases he.symm.trans h
    exact .inl rfl
  · cases he.symm.trans h

/-- Bits that begin with no full tree's serialization are refused. -/
theorem deserialize_refuses {bits : Bits} (h : ∀ (t : Tree) (rest : Bits), FullTree t → bits ≠ t.serialize ++ rest) :
    ∃ c, deserialize bits = .error c ∧ (c = .endOfStream ∨ c = .malformedTree) := by
  cases hd : deserialize bits with
  | error c => exact ⟨c, rfl, deserialize_error hd⟩
  | ok p =>
    obtain ⟨ht, rest, hbits⟩ := serialize_of_deserialize_ok hd
    exact absurd hbits (h p.1 rest ht)

end Sys2Proof.Machine
end

section
/-! SUPPORT. The code tree family (44_code_tree.md): the serialization, decoding and table commands. What CT.DESER and
CT.FEED answer in each case, the feeding of a whole path, and the table that CT.TOMAP reads off the leaves. -/

namespace Sys2Proof.Machine
open Sys2Proof.Claims

theorem Tree.isAbsent_eq_false {t : Tree} (h : t ≠ .absent) : t.isAbsent = false := by
  cases t with
  | absent => exact absurd rfl h
  | leaf | node => rfl

/-! ## CT.DESER and CT.FEED as commands (R215, R216) -/

theorem readerBits_eq_nil_iff (s : State) : s.readerBits = [] ↔ 8 * s.input.length ≤ s.reader.pos := by
  rw [State.readerBits, List.drop_eq_nil_iff, length_streamBits]

section
variable {s : State} (hs : s.fault = none)
include hs

section
variable (ho : s.reader.isOpen = true)
include ho

theorem exec_ctDeser_atEnd (h : s.readerBits = []) : exec .ctDeser s = .next (raised s .endOfStream) :=
  (unlessHalted_open hs ho).trans ((if_pos (by rw [h]; rfl)).trans (fatal_running hs _))

theorem exec_ctDeser_ioFails (h : s.readerBits ≠ []) (hio : ioFailsNext s = true) :
    exec .ctDeser s = .next (ioRaised s) :=
  (unlessHalted_open hs ho).trans ((if_neg (by simpa using h)).trans (withIo_fail hs hio _))

theorem exec_ctDeser_ok (hio : ioFailsNext s = false) {t : Tree} {used : Nat}
    (h : deserialize s.readerBits = .ok (t, used)) :
    exec .ctDeser s = .next { s with
      tree := t, cur := [], reader := ⟨true, s.reader.pos + used⟩, env := afterIo s } := by
  have hbits : s.readerBits ≠ [] := fun hnil => by rw [hnil] at h; cases h
  refine (unlessHalted_open hs ho).trans ((if_neg (by simpa using hbits)).trans ((withIo_ok hio _).trans ?_))
  rw [State.readerBits] at h
  simp only [State.readerBits, h, ho]
  rfl

theorem exec_ctDeser_refused (hbits : s.readerBits ≠ []) (hio : ioFailsNext s = false) {c : Cause}
    (h : deserialize s.readerBits = .error c) : exec .ctDeser s = .next { raised s c with env := afterIo s } := by
  refine (unlessHalted_open hs ho).trans ((if_neg (by simpa using hbits)).trans ((withIo_ok hio _).trans ?_))
  rw [State.readerBits] at h
  simp only [State.readerBits, h]
  exact fatal_running (s := { s with env := afterIo s }) hs c

end

section
variable (xd : XReg) {xv : XReg} {v : Bool} (hv : s.x[xv] = v.toNat)
include hv

theorem exec_ctFeed_absent (h : s.tree.at (s.cur ++ [v]) = .absent) :
    exec (.ctFeed xd xv) s = .next (raised s .missingChild) :=
  unlessHalted_eq_raised hs (by rw [Tree.at_snoc] at h; simp only [hv, bitOperand_toNat, h])

theorem exec_ctFeed_leaf {sym : Byte} (h : s.tree.at (s.cur ++ [v]) = .leaf sym) :
    exec (.ctFeed xd xv) s = .next { s with x := s.x.set xd sym.toNat, cur := [] } :=
  unlessHalted_eq hs (by rw [Tree.at_snoc] at h; simp only [hv, bitOperand_toNat, h, State.setX])

theorem exec_ctFeed_node {l r : Tree} (h : s.tree.at (s.cur ++ [v]) = .node l r) :
    exec (.ctFeed xd xv) s = .next { s with x := s.x.set xd 256, cur := s.cur ++ [v] } :=
  unlessHalted_eq hs (by rw [Tree.at_snoc] at h; simp only [hv, bitOperand_toNat, h, State.setX])

end
end

/-- Every node above a leaf is an inner node. -/
theorem Tree.exists_node_of_at_cons {t : Tree} {v : Bool} {p : Bits} {sym : Byte} (h : t.at (v :: p) = .leaf sym) :
    ∃ l r, t = .node l r := by
  cases t with
  | absent => simp at h
  | leaf => simp at h
  | node l r => exact ⟨l, r, rfl⟩

theorem feedAll_cons {xd xv : XReg} {v : Bool} {p : Bits} {s t : State}
    (h : exec (.ctFeed xd xv) { s with x := s.x.set xv v.toNat } = .next t) (ht : t.fault = none) :
    feedAll xd xv (v :: p) s = (feedAll xd xv p t).map fun r => (t.x[xd] :: r.1, r.2) := by
  rw [feedAll, h]
  exact if_neg (by simp [ht])

/-- Feeding the bits from the cursor to a leaf gives 256 for every bit but the last and the leaf's symbol for the last,
and the cursor is at the root again (R216). -/
theorem feedAll_path {xd xv : XReg} {sym : Byte} {v : Bool} {p : Bits} {s : State} (hs : s.fault = none)
    (h : s.tree.at (s.cur ++ v :: p) = .leaf sym) :
    ∃ w, feedAll xd xv (v :: p) s = some (List.replicate p.length 256 ++ [sym.toNat], w) ∧
      w.tree = s.tree ∧ w.cur = [] := by
  have hv : (s.x.set xv v.toNat)[xv] = v.toNat := Vector.getElem_set_self _
  induction p generalizing v s with
  | nil =>
    have hfeed := exec_ctFeed_leaf (s := { s with x := s.x.set xv v.toNat }) hs xd hv h
    refine ⟨{ s with x := (s.x.set xv v.toNat).set xd sym.toNat, cur := [] }, ?_, rfl, rfl⟩
    rw [feedAll_cons hfeed hs]
    simp [feedAll]
  | cons v' p ih =>
    rw [List.append_cons] at h
    obtain ⟨l, r, hnode⟩ := Tree.exists_node_of_at_cons ((Tree.at_append ..).symm.trans h)
    have hfeed := exec_ctFeed_node (s := { s with x := s.x.set xv v.toNat }) hs xd hv hnode
    obtain ⟨w, hw, htree, hcur⟩ := ih (v := v')
      (s := { s with x := (s.x.set xv v.toNat).set xd 256, cur := s.cur ++ [v] }) hs h (Vector.getElem_set_self _)
    refine ⟨w, ?_, htree, hcur⟩
    rw [feedAll_cons hfeed hs, hw]
    simp [List.replicate_succ]

/-! ## CT.TOMAP (R213) -/

theorem getElem_putFirst (codes : Vector (Option Bits) 256) (e : Bits × Byte) (v : Byte) :
    (putFirst codes e)[v.toFin] = codes[v.toFin].or (if e.2 = v then some e.1 else none) := by
  have hne : e.2.toNat = v.toNat ↔ e.2 = v := BitVec.toNat_inj
  unfold putFirst
  by_cases hv : e.2 = v
  · subst hv
    cases h : codes[e.2.toFin] <;> simp [h]
  · cases h : codes[e.2.toFin] <;> simp [hv, hne]

/-- Entering leaves one by one leaves each symbol its code, or gives it that of its first leaf. -/
theorem getElem_foldl_putFirst (leaves : List (Bits × Byte)) (codes : Vector (Option Bits) 256) (v : Byte) :
    (leaves.foldl putFirst codes)[v.toFin] =
      codes[v.toFin].or ((leaves.find? fun e => e.2 == v).map Prod.fst) := by
  induction leaves generalizing codes with
  | nil => simp
  | cons e leaves ih =>
    rw [List.foldl_cons, ih, getElem_putFirst, List.find?_cons, Option.or_assoc]
    by_cases h : e.2 = v
    · simp [h]
    · simp [h, beq_eq_false_iff_ne.2 h]

theorem getElem_codesOfTree (t : Tree) (v : Byte) :
    (codesOfTree t)[v.toFin] = (t.leafPaths.find? fun e => e.2 == v).map Prod.fst := by
  rw [codesOfTree, getElem_foldl_putFirst]
  simp

/-- A code read off a tree is the path of a leaf that holds the symbol. -/
theorem at_of_getElem_codesOfTree {t : Tree} {v : Byte} {c : Bits} (h : (codesOfTree t)[v.toFin] = some c) :
    t.at c = .leaf v := by
  rw [getElem_codesOfTree, Option.map_eq_some_iff] at h
  obtain ⟨e, hfind, rfl⟩ := h
  have hv : e.2 = v := by simpa using List.find?_some hfind
  rw [← hv, ← Tree.mem_leafPaths]
  exact List.mem_of_find?_eq_some hfind

theorem exec_ctToMap {s : State} (hs : s.fault = none) :
    exec .ctToMap s = .next { s with codes := codesOfTree s.tree } := unlessHalted_running hs _

/-- The paths of the leaves in pre-order ascend as bit strings (R211). -/
theorem Tree.pairwise_leafPaths (t : Tree) : (t.leafPaths.map Prod.fst).Pairwise (· < ·) := by
  induction t with
  | absent => exact .nil
  | leaf v => exact List.pairwise_singleton _ _
  | node l r ihl ihr =>
    rw [List.pairwise_map] at ihl ihr
    simp only [Tree.leafPaths, List.pairwise_map, List.pairwise_append, List.cons_lt_cons_iff, List.forall_mem_map]
    simp [ihl, ihr]

/-! ## The obligations -/

/-- Settles O37: the bits that CT.DESER accepts are the serializations (`deserialize_serialize`,
`serialize_of_deserialize_ok`), and of its causes only two come from the bits. -/
theorem deserAcceptsExactlySerializations : Obligations.DeserAcceptsExactlySerializations := by
  refine ⟨row_word (by decide) rfl, fun s hs => ⟨unlessHalted_closed hs, fun ho hpos => ?_, fun ho hpos hio => ?_,
    fun ho hio t rest ht hbits => ?_, fun ho hpos hio hnone => ?_⟩⟩
  · exact exec_ctDeser_atEnd hs ho ((readerBits_eq_nil_iff s).2 hpos)
  · exact exec_ctDeser_ioFails hs ho (mt (readerBits_eq_nil_iff s).1 (Nat.not_le.2 hpos)) hio
  · exact exec_ctDeser_ok hs ho hio (by rw [State.readerBits, hbits, deserialize_serialize ht])
  · obtain ⟨c, hrefused, hc⟩ := deserialize_refuses hnone
    exact ⟨c, hc, exec_ctDeser_refused hs ho (mt (readerBits_eq_nil_iff s).1 (Nat.not_le.2 hpos)) hio hrefused⟩

/-- Settles O38: CT.SER writes the serialization, CT.DESER reads it back, and a code in the table is the path of a leaf
(`at_of_getElem_codesOfTree`), along which CT.FEED walks. -/
theorem treeRoundTripKeepsEveryCode : Obligations.TreeRoundTripKeepsEveryCode := by
  refine fun t ht => ⟨fun s hs ho hio htree => ?_, fun s rest hs ho hio hbits => ?_,
    fun s u v c xd xv hs htree hcur hmap hcode => ?_⟩
  · rw [exec_ctSer_full hs ho (by rw [htree, ht.1]), htree]
    exact writeBits_of_io_ok hio
  · exact ⟨_, exec_ctDeser_ok hs ho hio (by rw [State.readerBits, hbits, deserialize_serialize ht]), hs, rfl, rfl⟩
  · subst htree
    cases (exec_ctToMap hs).symm.trans hmap
    have hleaf := at_of_getElem_codesOfTree hcode
    cases c with
    | nil =>
      obtain ⟨l, r, hnode, -⟩ := Tree.exists_node_of_full ht.1
      cases hleaf.symm.trans hnode
    | cons b p =>
      obtain ⟨w, hw, htree, hend⟩ := feedAll_path (s := { s with codes := codesOfTree s.tree }) (xd := xd) (xv := xv)
        hs (by rwa [hcur, List.nil_append])
      exact ⟨w, hw, htree, hend, nofun⟩

/-- Settles O36: the writer's check, then the tree's; the lengths by the counts of a full tree, the bits of a descent
by the definition of the shape bits. -/
theorem serWritesShapeThenLeaves : Obligations.SerWritesShapeThenLeaves := by
  refine ⟨row_word (by decide) rfl, fun s hs => ⟨unlessHalted_closed hs, exec_ctSer_malformed hs,
    fun ho hfull => writes_of_exec_eq hs (exec_ctSer_full hs ho hfull)⟩, fun t ht => ?_, fun v => rfl,
    fun l r hl hr => ?_⟩
  · have hbelow := Tree.fullBelow_of_full ht
    have hshape := Tree.length_shapeBits_fullBelow hbelow
    have hsymbols : (t.leaves.flatMap byteBits).length = 8 * t.leaves.length := length_streamBits t.leaves
    refine ⟨rfl, hshape, ?_, Tree.nodeCount_fullBelow hbelow⟩
    rw [Tree.serialize, List.length_append]
    omega
  · simp [Tree.shapeBits, Tree.isAbsent_eq_false hl, Tree.isAbsent_eq_false hr]

/-- Settles O35: the leaf paths are the paths to leaves, in ascending order, and CT.TOMAP enters each unless its symbol
has a code. -/
theorem toMapTakesTheFirstLeaf : Obligations.ToMapTakesTheFirstLeaf :=
  ⟨fun t => ⟨t.pairwise_leafPaths, t.mem_leafPaths⟩, row_word (by decide) rfl,
    fun s hs => ⟨codesOfTree s.tree, getElem_codesOfTree s.tree, exec_ctToMap hs⟩⟩

/-- Settles O39: the bit operand, then the child of the cursor, decide; a path is walked from the root down. -/
theorem feedWalksTheTree : Obligations.FeedWalksTheTree := by
  refine ⟨fun xd xv => ⟨row_word (by decide) rfl, fun s hs => ⟨fun hv => ?_, fun v hv =>
      ⟨exec_ctFeed_absent hs xd hv, fun _ => exec_ctFeed_leaf hs xd hv, fun _ _ => exec_ctFeed_node hs xd hv⟩⟩⟩,
    ⟨row_word (by decide) rfl, fun s hs => unlessHalted_running hs _⟩, Tree.at_nil, fun l r v p => ?_⟩
  · exact unlessHalted_eq_raised hs (by rw [bitOperand_of_one_lt hv])
  · rw [Tree.at_node_cons]
    cases v <;> rfl

end Sys2Proof.Machine
end

section
/-! SUPPORT. The code tree family (44_code_tree.md): building a tree from a table. When the insertion of a code
succeeds and which leaves it leaves, for one code and for a list of entries, and the entries of a table. -/

namespace Sys2Proof.Machine
open Sys2Proof.Claims

/-! ## Clashing codes (R212) -/

/-- One code begins with the other, so one tree cannot have leaves at both. -/
def Clash (c d : Bits) : Prop := c <+: d ∨ d <+: c

theorem Clash.symm {c d : Bits} (h : Clash c d) : Clash d c := Or.symm h

@[simp] theorem clash_nil_left (c : Bits) : Clash [] c := .inl List.nil_prefix

@[simp] theorem clash_nil_right (c : Bits) : Clash c [] := .inr List.nil_prefix

@[simp] theorem clash_cons_cons (u v : Bool) (c d : Bits) : Clash (u :: c) (v :: d) ↔ u = v ∧ Clash c d := by
  simp only [Clash, List.cons_prefix_cons, eq_comm (a := v), ← and_or_left]

/-- No leaf of the tree is on the way of the code `c`, or below its end. -/
def Tree.Free (t : Tree) (c : Bits) : Prop := ∀ p v, t.at p = .leaf v → ¬ Clash p c

/-- Only the branch of its first bit matters to a code. -/
theorem Tree.free_node_cons (l r : Tree) (v : Bool) (c : Bits) :
    (Tree.node l r).Free (v :: c) ↔ (if v then r else l).Free c := by
  constructor
  · intro h p u hp hclash
    exact h (v :: p) u hp ((clash_cons_cons ..).2 ⟨rfl, hclash⟩)
  · intro h p u hp
    cases p with
    | nil => cases hp
    | cons b p =>
      rw [clash_cons_cons]
      rintro ⟨rfl, hclash⟩
      exact h p u hp hclash

theorem Tree.free_absent (c : Bits) : Tree.absent.Free c := by
  intro p v h
  simp at h

/-! ## Inserting a code (R212) -/

theorem Tree.insert_node_cons (s : Byte) (v : Bool) (c : Bits) (l r : Tree) :
    (Tree.node l r).insert s (v :: c) =
      ((if v then r else l).insert s c).map fun u => if v then .node l u else .node u r := by
  cases v <;> rfl

/-- A missing node is made as a node without children. -/
theorem Tree.insert_absent_cons (s : Byte) (v : Bool) (c : Bits) :
    Tree.absent.insert s (v :: c) = Tree.rootOnly.insert s (v :: c) := by
  cases v <;> rfl

/-- Inserting below a root or an inner node replaces the child on the code's first bit. -/
theorem Tree.insert_node_cons_eq_some {s : Byte} {v : Bool} {c : Bits} {l r t : Tree} :
    (Tree.node l r).insert s (v :: c) = some t ↔
      ∃ u, (if v then r else l).insert s c = some u ∧ t = if v then .node l u else .node u r := by
  rw [Tree.insert_node_cons, Option.map_eq_some_iff]
  simp only [eq_comm]

theorem Tree.at_rootOnly_ne_leaf (p : Bits) (v : Byte) : Tree.rootOnly.at p ≠ .leaf v := by
  cases p with
  | nil => nofun
  | cons b p => cases b <;> simp [Tree.rootOnly]

theorem Tree.wfBelow_node {l r : Tree} :
    (Tree.node l r).wfBelow = true ↔ (l ≠ .absent ∨ r ≠ .absent) ∧ l.wfBelow = true ∧ r.wfBelow = true := by
  cases l <;> cases r <;> simp [Tree.wfBelow, Tree.isAbsent]

/-- If a code of one bit or more is inserted, it is into an inner node, perhaps a new one without children, whose child
on the first bit is replaced. -/
theorem Tree.insert_cons_cases {s : Byte} {v : Bool} {c : Bits} {t t' : Tree} (h : t.insert s (v :: c) = some t') :
    ∃ l r u, (∀ p x, t.at p = .leaf x ↔ (Tree.node l r).at p = .leaf x) ∧
      (t.wfBelow = true → l.wfBelow = true ∧ r.wfBelow = true) ∧ (if v then r else l).insert s c = some u ∧
      t' = if v then .node l u else .node u r := by
  cases t with
  | absent =>
    rw [Tree.insert_absent_cons, Tree.rootOnly] at h
    obtain ⟨u, hu, rfl⟩ := Tree.insert_node_cons_eq_some.1 h
    refine ⟨_, _, u, fun p x => ?_, fun _ => ⟨rfl, rfl⟩, hu, rfl⟩
    exact iff_of_false (by simp) (Tree.at_rootOnly_ne_leaf p x)
  | leaf => cases h
  | node l r =>
    obtain ⟨u, hu, rfl⟩ := Tree.insert_node_cons_eq_some.1 h
    exact ⟨l, r, u, fun _ _ => .rfl, fun ht => (Tree.wfBelow_node.1 ht).2, hu, rfl⟩

/-- A path into a replaced child, and a path beside it. -/
theorem Tree.at_cons_replaced (l r u : Tree) (a b : Bool) (p : Bits) :
    (if b then Tree.node l u else .node u r).at (a :: p) =
      if a = b then u.at p else (Tree.node l r).at (a :: p) := by
  cases a <;> cases b <;> rfl

/-- The leaves after an insertion: the new one and those there were. -/
theorem Tree.at_insert {s : Byte} {c : Bits} {t t' : Tree} (h : t.insert s c = some t') (p : Bits) (v : Byte) :
    t'.at p = .leaf v ↔ (p = c ∧ v = s) ∨ t.at p = .leaf v := by
  induction c generalizing t t' p with
  | nil =>
    cases t with
    | absent =>
      cases h
      cases p <;> simp [eq_comm]
    | leaf | node => cases h
  | cons b c ih =>
    obtain ⟨l, r, u, hleaves, -, hu, rfl⟩ := Tree.insert_cons_cases h
    rw [hleaves]
    cases p with
    | nil => cases b <;> simp
    | cons a p =>
      rw [Tree.at_cons_replaced]
      split
      · next hab =>
        subst hab
        rw [ih hu, Tree.at_node_cons, List.cons.injEq, eq_self_iff_true, true_and]
      · next hab => simp [hab]

/-- After an insertion the new code is in the way too. -/
theorem Tree.free_insert {s : Byte} {c : Bits} {t t' : Tree} (h : t.insert s c = some t') (d : Bits) :
    t'.Free d ↔ ¬ Clash c d ∧ t.Free d := by
  simp only [Tree.Free, Tree.at_insert h]
  constructor
  · exact fun hfree => ⟨hfree c s (.inl ⟨rfl, rfl⟩), fun p v hp => hfree p v (.inr hp)⟩
  · rintro ⟨hnew, hold⟩ p v (⟨rfl, -⟩ | hp)
    · exact hnew
    · exact hold p v hp

/-- An insertion keeps a subtree well formed, and leaves one. -/
theorem Tree.wfBelow_insert {s : Byte} {c : Bits} {t t' : Tree} (ht : t.wfBelow = true) (h : t.insert s c = some t') :
    t'.wfBelow = true ∧ t' ≠ .absent := by
  induction c generalizing t t' with
  | nil =>
    cases t with
    | absent =>
      cases h
      exact ⟨rfl, nofun⟩
    | leaf | node => cases h
  | cons b c ih =>
    obtain ⟨l, r, u, -, hchildren, hu, rfl⟩ := Tree.insert_cons_cases h
    obtain ⟨hl, hr⟩ := hchildren ht
    obtain ⟨hwf, hne⟩ := ih (by cases b <;> assumption) hu
    cases b
    · exact ⟨Tree.wfBelow_node.2 ⟨.inl hne, hwf, hr⟩, nofun⟩
    · exact ⟨Tree.wfBelow_node.2 ⟨.inr hne, hl, hwf⟩, nofun⟩

/-- Below the root every node has a leaf under it or is one. -/
theorem Tree.exists_leaf_of_wfBelow {t : Tree} (ht : t.wfBelow = true) (hne : t ≠ .absent) :
    ∃ p v, t.at p = .leaf v := by
  induction t with
  | absent => exact absurd rfl hne
  | leaf v => exact ⟨[], v, rfl⟩
  | node l r ihl ihr =>
    obtain ⟨hl | hr, hwl, hwr⟩ := Tree.wfBelow_node.1 ht
    · obtain ⟨p, v, hp⟩ := ihl hwl hl
      exact ⟨false :: p, v, hp⟩
    · obtain ⟨p, v, hp⟩ := ihr hwr hr
      exact ⟨true :: p, v, hp⟩

/-- Every leaf is below the end of the empty code. -/
theorem Tree.free_nil_iff {t : Tree} (ht : t.wfBelow = true) : t.Free [] ↔ t = .absent := by
  constructor
  · intro h
    by_contra hne
    obtain ⟨p, v, hp⟩ := Tree.exists_leaf_of_wfBelow ht hne
    exact h p v hp (clash_nil_right p)
  · rintro rfl
    exact Tree.free_absent []

/-- Below the root an insertion succeeds exactly where no leaf is in the way. -/
theorem Tree.isSome_insert_iff (s : Byte) {c : Bits} {t : Tree} (ht : t.wfBelow = true) :
    (t.insert s c).isSome ↔ t.Free c := by
  induction c generalizing t with
  | nil =>
    rw [Tree.free_nil_iff ht]
    cases t <;> simp [Tree.insert]
  | cons v c ih =>
    cases t with
    | absent =>
      rw [Tree.insert_absent_cons, Tree.rootOnly, Tree.insert_node_cons, Option.isSome_map, ite_self, ih ht]
      exact iff_of_true (Tree.free_absent c) (Tree.free_absent (v :: c))
    | leaf u => exact iff_of_false nofun fun h => h [] u rfl (clash_nil_left _)
    | node l r =>
      obtain ⟨-, hl, hr⟩ := Tree.wfBelow_node.1 ht
      rw [Tree.insert_node_cons, Option.isSome_map, Tree.free_node_cons, ih (by cases v <;> assumption)]

/-- A root on which well-formed subtrees grow: what build-from-map works on. -/
def Tree.Grown (t : Tree) : Prop := ∃ l r, t = .node l r ∧ l.wfBelow = true ∧ r.wfBelow = true

theorem Tree.grown_rootOnly : Tree.rootOnly.Grown := ⟨_, _, rfl, rfl, rfl⟩

theorem Tree.isSome_insert_iff_of_grown (s : Byte) {c : Bits} {t : Tree} (ht : t.Grown) :
    (t.insert s c).isSome ↔ c ≠ [] ∧ t.Free c := by
  obtain ⟨l, r, rfl, hl, hr⟩ := ht
  cases c with
  | nil => simp [Tree.insert]
  | cons v c =>
    rw [Tree.insert_node_cons, Option.isSome_map, Tree.isSome_insert_iff s (by cases v <;> assumption),
      Tree.free_node_cons]
    simp

theorem Tree.Grown.insert {s : Byte} {c : Bits} {t t' : Tree} (ht : t.Grown) (h : t.insert s c = some t') :
    t'.Grown := by
  obtain ⟨l, r, rfl, hl, hr⟩ := ht
  cases c with
  | nil => cases h
  | cons v c =>
    obtain ⟨u, hu, rfl⟩ := Tree.insert_node_cons_eq_some.1 h
    obtain ⟨hwf, -⟩ := Tree.wfBelow_insert (by cases v <;> assumption) hu
    cases v
    · exact ⟨_, _, rfl, hwf, hr⟩
    · exact ⟨_, _, rfl, hl, hwf⟩

/-! ## Inserting a list of entries (R212) -/

theorem Tree.insertAll_cons (s : Byte) (c : Bits) (es : List (Byte × Bits)) (t : Tree) :
    Tree.insertAll ((s, c) :: es) t = (t.insert s c).bind (Tree.insertAll es) := by
  rw [Tree.insertAll]
  cases t.insert s c <;> rfl

theorem Tree.insertAll_cons_eq_some {e : Byte × Bits} {es : List (Byte × Bits)} {t t' : Tree} :
    Tree.insertAll (e :: es) t = some t' ↔ ∃ u, t.insert e.1 e.2 = some u ∧ u.insertAll es = some t' := by
  rw [Tree.insertAll_cons, Option.bind_eq_some_iff]

theorem Tree.Grown.insertAll {es : List (Byte × Bits)} {t t' : Tree} (ht : t.Grown) (h : t.insertAll es = some t') :
    t'.Grown := by
  induction es generalizing t with
  | nil =>
    cases h
    exact ht
  | cons e es ih =>
    obtain ⟨u, hu, h⟩ := Tree.insertAll_cons_eq_some.1 h
    exact ih (ht.insert hu) h

/-- The leaves after the insertions: the entries and the leaves there were. -/
theorem Tree.at_insertAll {es : List (Byte × Bits)} {t t' : Tree} (h : t.insertAll es = some t') (p : Bits) (v : Byte) :
    t'.at p = .leaf v ↔ (v, p) ∈ es ∨ t.at p = .leaf v := by
  induction es generalizing t with
  | nil =>
    cases h
    simp
  | cons e es ih =>
    obtain ⟨u, hu, h⟩ := Tree.insertAll_cons_eq_some.1 h
    rw [ih h, Tree.at_insert hu, List.mem_cons, Prod.ext_iff, and_comm (a := p = e.2)]
    tauto

/-- The insertions succeed exactly when no code is empty, clashes with another or with a leaf there was. -/
theorem Tree.isSome_insertAll_iff {es : List (Byte × Bits)} {t : Tree} (ht : t.Grown) :
    (t.insertAll es).isSome ↔
      (∀ e ∈ es, e.2 ≠ [] ∧ t.Free e.2) ∧ es.Pairwise fun e f => ¬ Clash e.2 f.2 := by
  induction es generalizing t with
  | nil => simp [Tree.insertAll]
  | cons e es ih =>
    rw [Tree.insertAll_cons, List.forall_mem_cons, List.pairwise_cons, ← Tree.isSome_insert_iff_of_grown e.1 ht]
    cases hu : t.insert e.1 e.2 with
    | none => simp
    | some u =>
      rw [Option.bind_some, ih (ht.insert hu)]
      simp only [Tree.free_insert hu, Option.isSome_some, true_and]
      grind

/-! ## The entries of a table (R212) -/

theorem codeEntries_eq (codes : Vector (Option Bits) 256) :
    codeEntries codes = (List.finRange 256).filterMap fun v => codes[v].map fun c => (BitVec.ofFin v, c) := by
  rw [codeEntries, zipIdx_toList, List.filterMap_map]
  refine List.filterMap_congr fun v _ => ?_
  have hsymbol : BitVec.ofNat 8 v.val = BitVec.ofFin v := BitVec.eq_of_toNat_eq (Nat.mod_eq_of_lt v.isLt)
  simp [hsymbol]

theorem mem_codeEntries {codes : Vector (Option Bits) 256} {v : Byte} {c : Bits} :
    (v, c) ∈ codeEntries codes ↔ codes[v.toFin] = some c := by
  rw [codeEntries_eq, List.mem_filterMap]
  simp only [List.mem_finRange, true_and, Option.map_eq_some_iff, Prod.mk.injEq]
  constructor
  · rintro ⟨u, d, hd, rfl, rfl⟩
    exact hd
  · intro h
    exact ⟨v.toFin, c, h, rfl, rfl⟩

/-- Each symbol has at most one entry. -/
theorem pairwise_codeEntries (codes : Vector (Option Bits) 256) :
    (codeEntries codes).Pairwise fun e f => e.1 ≠ f.1 := by
  rw [codeEntries_eq, List.pairwise_filterMap]
  refine (List.nodup_finRange 256).imp fun {u v} huv e he f hf => ?_
  obtain ⟨c, -, rfl⟩ := Option.map_eq_some_iff.1 he
  obtain ⟨d, -, rfl⟩ := Option.map_eq_some_iff.1 hf
  exact fun h => huv (congrArg BitVec.toFin h)

theorem codeEntries_eq_nil_iff {codes : Vector (Option Bits) 256} :
    codeEntries codes = [] ↔ ∀ v : Fin 256, codes[v] = none := by
  rw [List.eq_nil_iff_forall_not_mem]
  constructor
  · intro h v
    rw [Option.eq_none_iff_forall_ne_some]
    exact fun c hc => h (BitVec.ofFin v, c) (mem_codeEntries.2 hc)
  · intro h e he
    exact absurd (mem_codeEntries.1 he) (by simp [h e.1.toFin])

theorem codeEntries_eq_singleton_iff {codes : Vector (Option Bits) 256} {v : Byte} :
    codeEntries codes = [(v, [false])] ↔ OnlyZeroCode codes v := by
  constructor
  · intro h u
    refine Option.ext fun c => ?_
    rw [← mem_codeEntries, h]
    by_cases hu : u = v
    · simp [hu, eq_comm]
    · simp [hu]
  · intro h
    have hnodup : (codeEntries codes).Nodup :=
      (pairwise_codeEntries codes).imp fun hne heq => hne (congrArg Prod.fst heq)
    refine List.perm_singleton.1 ((List.perm_ext_iff_of_nodup hnodup (List.nodup_singleton _)).2 fun e => ?_)
    rw [mem_codeEntries, h e.1, List.mem_singleton, Prod.ext_iff]
    by_cases hu : e.1 = v
    · simp [hu, eq_comm]
    · simp [hu]

/-- A table is `PrefixFree` exactly when no two of its entries clash. -/
theorem prefixFree_iff_pairwise {codes : Vector (Option Bits) 256} :
    PrefixFree codes ↔ (codeEntries codes).Pairwise fun e f => ¬ Clash e.2 f.2 := by
  constructor
  · intro h
    refine (pairwise_codeEntries codes).imp_of_mem fun {e f} he hf hne => ?_
    have hne' : e.1.toFin ≠ f.1.toFin := fun heq => hne (BitVec.eq_of_toFin_eq heq)
    rw [Clash, not_or]
    exact ⟨h _ _ _ _ hne' (mem_codeEntries.1 he) (mem_codeEntries.1 hf),
      h _ _ _ _ hne'.symm (mem_codeEntries.1 hf) (mem_codeEntries.1 he)⟩
  · intro h u v c d huv hc hd hprefix
    have hsymm : Std.Symm fun e f : Byte × Bits => ¬ Clash e.2 f.2 := ⟨fun _ _ hef hfe => hef hfe.symm⟩
    have hu : (BitVec.ofFin u, c) ∈ codeEntries codes := mem_codeEntries.2 hc
    have hv : (BitVec.ofFin v, d) ∈ codeEntries codes := mem_codeEntries.2 hd
    exact h.forall hu hv (fun heq => huv (congrArg (fun e => e.1.toFin) heq)) (.inl hprefix)

/-- The insertions of a table's entries succeed exactly for a `PrefixFree` table without an empty code. -/
theorem isSome_insertAll_codeEntries (codes : Vector (Option Bits) 256) :
    (Tree.rootOnly.insertAll (codeEntries codes)).isSome ↔ (∀ v : Fin 256, codes[v] ≠ some []) ∧ PrefixFree codes := by
  rw [Tree.isSome_insertAll_iff Tree.grown_rootOnly, ← prefixFree_iff_pairwise]
  refine and_congr_left' ⟨fun h v hv => ?_, fun h e he => ⟨fun hnil => ?_, fun p v hp => ?_⟩⟩
  · exact (h (BitVec.ofFin v, []) (mem_codeEntries.2 hv)).1 rfl
  · exact h e.1.toFin (by rw [← hnil]; exact mem_codeEntries.1 he)
  · exact absurd hp (Tree.at_rootOnly_ne_leaf p v)

/-! ## Build-from-map (R212) -/

theorem degenerateFix_of_ne {es : List (Byte × Bits)} (h : ∀ v, es ≠ [(v, [false])]) (t : Tree) :
    degenerateFix es t = t := by
  unfold degenerateFix
  split
  · exact absurd rfl (h _)
  · rfl

theorem Tree.Grown.degenerateFix {t : Tree} (ht : t.Grown) (es : List (Byte × Bits)) : (degenerateFix es t).Grown := by
  unfold Machine.degenerateFix
  split
  · obtain ⟨l, r, h, hl, -⟩ := ht
    cases h
    exact ⟨_, _, rfl, hl, rfl⟩
  · exact ht

theorem treeOfCodes_eq_of_insertAll {codes : Vector (Option Bits) 256} {t : Tree} (hne : codeEntries codes ≠ [])
    (h : Tree.rootOnly.insertAll (codeEntries codes) = some t) :
    treeOfCodes codes =
      if maxNodes < (degenerateFix (codeEntries codes) t).nodeCount then .error .malformedTree
      else .ok (degenerateFix (codeEntries codes) t) := by
  rw [treeOfCodes, if_neg (by simpa using hne), h]

theorem treeOfCodes_of_conflict {codes : Vector (Option Bits) 256}
    (h : ¬ ((∀ v : Fin 256, codes[v] ≠ some []) ∧ PrefixFree codes)) : treeOfCodes codes = .error .conflictingCode := by
  rw [← isSome_insertAll_codeEntries, Option.not_isSome_iff_eq_none] at h
  have hne : codeEntries codes ≠ [] := fun hnil => by rw [hnil] at h; cases h
  rw [treeOfCodes, if_neg (by simpa using hne), h]

/-- The tree of the table {v: 0} (45_prefix_builders.md R243). -/
theorem treeOfCodes_of_onlyZeroCode {codes : Vector (Option Bits) 256} {v : Byte} (h : OnlyZeroCode codes v) :
    treeOfCodes codes = .ok (.node (.leaf v) (.leaf v)) := by
  rw [treeOfCodes, codeEntries_eq_singleton_iff.2 h]
  rfl

/-- A root on which a leaf grows has a child. -/
theorem Tree.Grown.wfBelow_of_leaf {t : Tree} (ht : t.Grown) {p : Bits} {v : Byte} (h : t.at p = .leaf v) :
    t.wfBelow = true := by
  obtain ⟨l, r, rfl, hl, hr⟩ := ht
  refine Tree.wfBelow_node.2 ⟨?_, hl, hr⟩
  by_contra hnone
  obtain ⟨rfl, rfl⟩ := not_or.1 hnone |>.imp not_not.1 not_not.1
  exact Tree.at_rootOnly_ne_leaf p v h

theorem exec_ctFromMap_ok {s : State} (hs : s.fault = none) {t : Tree} (h : treeOfCodes s.codes = .ok t) :
    exec .ctFromMap s = .next { s with tree := t, cur := [] } := unlessHalted_eq hs (by rw [h])

theorem exec_ctFromMap_error {s : State} (hs : s.fault = none) {c : Cause} (h : treeOfCodes s.codes = .error c) :
    exec .ctFromMap s = .next (raised s c) := unlessHalted_eq_raised hs (by rw [h])

/-- A tree built from a table is well formed. -/
theorem wf_of_treeOfCodes {codes : Vector (Option Bits) 256} {t : Tree} (h : treeOfCodes codes = .ok t) :
    t.wf = true := by
  obtain ⟨he, -⟩ | ⟨he, -⟩ | ⟨u, -, he, -⟩ | ⟨u, hu, he, hcount⟩ := treeOfCodes_cases codes
  · cases he.symm.trans h
  · cases he.symm.trans h
  · cases he.symm.trans h
  · cases he.symm.trans h
    obtain ⟨l, r, ht, hl, hr⟩ := (Tree.grown_rootOnly.insertAll hu).degenerateFix (codeEntries codes)
    rw [ht] at hcount ⊢
    simp [Tree.wf, hl, hr, hcount]

/-! ## The obligation -/

/-- Settles O34: the insertions succeed exactly for a `PrefixFree` table without an empty code
(`isSome_insertAll_codeEntries`), and the leaves they leave are the entries (`Tree.at_insertAll`). -/
theorem fromMapBuildsPrefixFreeTables : Obligations.FromMapBuildsPrefixFreeTables := by
  refine ⟨row_word (by decide) rfl, fun s hs => ⟨fun hnone => ?_, fun hconflict => ?_, fun v hv => ?_,
    fun hsome hcodes hfree hother => ?_⟩⟩
  · exact exec_ctFromMap_error hs (by rw [treeOfCodes, codeEntries_eq_nil_iff.2 hnone]; rfl)
  · refine exec_ctFromMap_error hs (treeOfCodes_of_conflict ?_)
    rintro ⟨hcodes, hfree⟩
    obtain ⟨v, hv⟩ | hclash := hconflict
    · exact hcodes v hv
    · exact hclash hfree
  · exact exec_ctFromMap_ok hs (treeOfCodes_of_onlyZeroCode hv)
  · obtain ⟨t, ht⟩ := Option.isSome_iff_exists.1 ((isSome_insertAll_codeEntries s.codes).2 ⟨hcodes, hfree⟩)
    have hne : codeEntries s.codes ≠ [] := mt codeEntries_eq_nil_iff.1 (not_forall.2 hsome)
    have hleaves (c : Bits) (v : Byte) : (c, v) ∈ t.leafPaths ↔ s.codes[v.toFin] = some c := by
      rw [Tree.mem_leafPaths, Tree.at_insertAll ht, mem_codeEntries, or_iff_left (Tree.at_rootOnly_ne_leaf c v)]
    have hgrown := Tree.grown_rootOnly.insertAll ht
    obtain ⟨v, hv⟩ := hsome
    obtain ⟨c, hc⟩ := Option.ne_none_iff_exists'.1 hv
    have hbuilt := treeOfCodes_eq_of_insertAll hne ht
    rw [degenerateFix_of_ne fun v => mt codeEntries_eq_singleton_iff.1 (hother v)] at hbuilt
    refine ⟨t, ?_, hgrown.wfBelow_of_leaf ((Tree.mem_leafPaths ..).1 ((hleaves c (BitVec.ofFin v)).2 hc)), hleaves,
      fun hcount => ?_, fun hcount => ?_⟩
    · obtain ⟨l, r, rfl, -⟩ := hgrown
      rfl
    · exact exec_ctFromMap_ok hs (hbuilt.trans (if_neg (Nat.not_lt.2 hcount)))
    · exact exec_ctFromMap_error hs (hbuilt.trans (if_pos hcount))

end Sys2Proof.Machine
end

section
/-! SUPPORT. The code tree family (44_code_tree.md): the invariant of R210. The trees that the commands make are well
formed, the codes they enter are not empty, and so every command and every act of the host keeps both. -/

namespace Sys2Proof.Machine
open Sys2Proof.Claims

/-! ## Full trees are well formed (R210) -/

theorem Tree.wfBelow_of_fullBelow {t : Tree} (h : t.fullBelow = true) : t.wfBelow = true := by
  induction t with
  | absent | leaf => rfl
  | node l r ihl ihr =>
    simp only [Tree.fullBelow, Bool.and_eq_true] at h
    obtain ⟨hl, hr⟩ := h
    refine Tree.wfBelow_node.2 ⟨.inl ?_, ihl hl, ihr hr⟩
    rintro rfl
    cases hl

theorem wf_of_fullTree {t : Tree} (h : FullTree t) : t.wf = true := by
  obtain ⟨hfull, hcount⟩ := h
  obtain ⟨l, r, rfl, hl, hr⟩ := Tree.exists_node_of_full hfull
  simp [Tree.wf, Tree.wfBelow_of_fullBelow hl, Tree.wfBelow_of_fullBelow hr, hcount, maxNodes]

theorem Tree.isNode_of_wf {t : Tree} (h : t.wf = true) : t.isNode = true := by
  cases t with
  | absent | leaf => cases h
  | node => rfl

/-! ## The tree of HF.BUILD (45_prefix_builders.md R244) -/

theorem poolInsert_perm (n : HufNode) (pool : List HufNode) : (poolInsert n pool).Perm (n :: pool) := by
  induction pool with
  | nil => exact .rfl
  | cons p ps ih =>
    rw [poolInsert]
    split
    · exact .rfl
    · exact (ih.cons p).trans (.swap n p ps)

theorem firstPool_perm (o : List (Byte × Nat)) :
    (firstPool o).Perm (o.zipIdx.map fun e => ⟨e.1.2, e.2, .leaf e.1.1⟩) := by
  rw [firstPool]
  induction o.zipIdx with
  | nil => exact .rfl
  | cons e es ih => exact (poolInsert_perm _ _).trans (ih.cons _)

/-- The number of leaves in a pool. -/
def poolLeaves (pool : List HufNode) : Nat := (pool.map fun n => n.tree.leaves.length).sum

/-- Merging a pool of full trees gives one full tree with all their leaves. -/
theorem hufMerge_full {fuel next : Nat} {pool : List HufNode} (hne : pool ≠ []) (hfuel : pool.length ≤ fuel + 1)
    (hpool : ∀ n ∈ pool, n.tree.fullBelow = true) :
    (hufMerge fuel next pool).fullBelow = true ∧ (hufMerge fuel next pool).leaves.length = poolLeaves pool := by
  induction fuel generalizing next pool with
  | zero =>
    obtain ⟨n, rfl⟩ := List.length_eq_one_iff.1 (by have := List.length_pos_iff.2 hne; omega : pool.length = 1)
    exact ⟨hpool n (by simp), by simp [poolLeaves, hufMerge]⟩
  | succ fuel ih =>
    cases pool with
    | nil => exact absurd rfl hne
    | cons n1 rest =>
      cases rest with
      | nil => exact ⟨hpool n1 (by simp), by simp [poolLeaves, hufMerge]⟩
      | cons n2 rest =>
        have hperm := poolInsert_perm ⟨n1.weight + n2.weight, next, .node n1.tree n2.tree⟩ rest
        rw [hufMerge]
        generalize poolInsert _ rest = merged at hperm ⊢
        have hlen := hperm.length_eq
        simp only [List.forall_mem_cons, List.length_cons] at hpool hfuel hlen
        obtain ⟨h1, h2, hrest⟩ := hpool
        have hmerged : ∀ n ∈ merged, n.tree.fullBelow = true := by
          intro n hn
          obtain rfl | hn := List.mem_cons.1 (hperm.mem_iff.1 hn)
          · simp [Tree.fullBelow, h1, h2]
          · exact hrest n hn
        obtain ⟨hfull, hleaves⟩ := ih (next := next + 1) (List.ne_nil_of_length_pos (by omega)) (by omega) hmerged
        refine ⟨hfull, hleaves.trans ?_⟩
        rw [poolLeaves, (hperm.map _).sum_eq]
        simp only [poolLeaves, List.map_cons, List.sum_cons, Tree.leaves, List.length_append, Nat.add_assoc]

theorem length_orderedHist_le (h : Hist) : (orderedHist h).length ≤ 256 := by
  rw [(orderedHist_perm h).length_eq, presentSymbols_eq, List.length_map]
  exact (List.length_filter_le _ _).trans_eq (List.length_finRange)

theorem Tree.full_of_leaves {t : Tree} (h : t.fullBelow = true) (hleaves : 2 ≤ t.leaves.length) : t.full = true := by
  cases t with
  | absent => cases h
  | leaf => simp [Tree.leaves] at hleaves
  | node => exact h

theorem two_le_length_of_ne {α : Type} {l : List α} (hnil : l ≠ []) (hone : ∀ e, l ≠ [e]) : 2 ≤ l.length := by
  rcases l with _ | ⟨e, _ | ⟨f, l⟩⟩
  · exact absurd rfl hnil
  · exact absurd rfl (hone e)
  · simp

theorem fullTree_hufMerge_firstPool {o : List (Byte × Nat)} (hmin : 2 ≤ o.length) (hmax : o.length ≤ 256) :
    FullTree (hufMerge o.length o.length (firstPool o)) := by
  have hperm := firstPool_perm o
  have hlen : (firstPool o).length = o.length := by simpa using hperm.length_eq
  have hcount : poolLeaves (firstPool o) = o.length := by
    rw [poolLeaves, (hperm.map _).sum_eq]
    simp [Tree.leaves, Function.comp_def]
  have hpool : ∀ n ∈ firstPool o, n.tree.fullBelow = true := by
    intro n hn
    obtain ⟨e, -, rfl⟩ := List.mem_map.1 (hperm.mem_iff.1 hn)
    rfl
  obtain ⟨hfull, hleaves⟩ := hufMerge_full (fuel := o.length) (next := o.length)
    (List.ne_nil_of_length_pos (by omega)) (by omega) hpool
  have hnodes := Tree.nodeCount_fullBelow hfull
  exact ⟨Tree.full_of_leaves hfull (by omega), by omega⟩

theorem fullTree_hufTree {h : Hist} {t : Tree} (ht : hufTree h = some t) : FullTree t := by
  have hmax := length_orderedHist_le h
  unfold hufTree at ht
  split at ht
  · cases ht
  · cases ht
    exact ⟨rfl, Nat.le_of_ble_eq_true rfl⟩
  · next hnil hone =>
    cases ht
    exact fullTree_hufMerge_firstPool (two_le_length_of_ne hnil hone) hmax

/-! ## The codes of SF.BUILD (45_prefix_builders.md R241) -/

theorem ne_nil_of_mem_sfCodes {fuel : Nat} {l : List (Byte × Nat)} (hfuel : fuel ≠ 0) (hl : 2 ≤ l.length)
    {e : Byte × Bits} (he : e ∈ sfCodes fuel l) : e.2 ≠ [] := by
  obtain ⟨fuel, rfl⟩ := Nat.exists_eq_succ_of_ne_zero hfuel
  rw [sfCodes, if_neg (by omega)] at he
  simp only [List.mem_append, List.mem_map] at he
  obtain ⟨d, -, rfl⟩ | ⟨d, -, rfl⟩ := he <;> simp

/-- Writing an entry that is not an empty code. -/
theorem set_ne_some_nil {codes : Vector (Option Bits) 256} (h : ∀ i : Fin 256, codes[i] ≠ some []) (j : Fin 256)
    {o : Option Bits} (ho : o ≠ some []) (i : Fin 256) : (codes.set j o)[i] ≠ some [] := by
  rw [Fin.getElem_fin, Vector.getElem_set]
  split
  · exact ho
  · exact h i

theorem tableOf_ne_some_nil {es : List (Byte × Bits)} (hes : ∀ e ∈ es, e.2 ≠ []) (i : Fin 256) :
    (tableOf es)[i] ≠ some [] := by
  rw [tableOf]
  have hempty : ∀ i : Fin 256, (Vector.replicate 256 (none : Option Bits))[i] ≠ some [] := by simp
  generalize Vector.replicate 256 (none : Option Bits) = codes at hempty
  induction es generalizing codes with
  | nil => exact hempty i
  | cons e es ih =>
    rw [List.forall_mem_cons] at hes
    exact ih hes.2 _ (set_ne_some_nil hempty _ (by simpa using hes.1))

theorem sfTable_ne_some_nil {h : Hist} {codes : Vector (Option Bits) 256} (hc : sfTable h = some codes) (i : Fin 256) :
    codes[i] ≠ some [] := by
  unfold sfTable at hc
  split at hc
  · cases hc
  · cases hc
    exact tableOf_ne_some_nil (by simp) i
  · next hnil hone =>
    cases hc
    have hlen := two_le_length_of_ne hnil hone
    exact tableOf_ne_some_nil (fun e => ne_nil_of_mem_sfCodes (by omega) hlen) i

/-! ## The commands and the invariant (R210) -/

theorem Answers.elim {r : Result} {P : State → Prop} {t : State} (h : Answers r P) (ht : r = .next t) : P t := by
  obtain ⟨u, hu, hP⟩ := h
  cases hu.symm.trans ht
  exact hP

/-- A command that a halted block ignores (60_exceptions.md R323) is left to look at in a block that is not halted. -/
theorem Answers.of_running {s : State} {r : Result} {P : State → Prop} (hs : P s)
    (hhalted : s.fault ≠ none → r = .next s) (h : s.fault = none → Answers r P) : Answers r P := by
  by_cases hf : s.fault = none
  · exact h hf
  · exact ⟨s, hhalted hf, hs⟩

theorem exists_eq_toNat_of_le_one {n : Nat} (h : n ≤ 1) : ∃ v : Bool, n = v.toNat :=
  ⟨n == 1, by interval_cases n <;> rfl⟩

/-- A new tree has the cursor at its root. -/
theorem State.TreeInv.of_root {s : State} (htree : s.tree.wf = true) (hcur : s.cur = []) : s.TreeInv :=
  ⟨htree, by rw [hcur]; exact Tree.isNode_of_wf htree⟩

section
variable {s : State} (hs : s.TreeInv)
include hs

theorem State.TreeInv.congr {t : State} (htree : t.tree = s.tree) (hcur : t.cur = s.cur) : t.TreeInv :=
  ⟨htree ▸ hs.tree, by rw [htree, hcur]; exact hs.cursor⟩

theorem ctFromMap_treeInv : Answers (exec .ctFromMap s) State.TreeInv := by
  refine .of_running hs (unlessHalted_halted · _) fun hf => ?_
  cases h : treeOfCodes s.codes with
  | error c => exact ⟨_, exec_ctFromMap_error hf h, hs.congr rfl rfl⟩
  | ok t => exact ⟨_, exec_ctFromMap_ok hf h, .of_root (wf_of_treeOfCodes h) rfl⟩

theorem ctDeser_treeInv : Answers (exec .ctDeser s) State.TreeInv := by
  refine .of_running hs (unlessHalted_halted · _) fun hf => ?_
  cases ho : s.reader.isOpen with
  | false => exact ⟨_, unlessHalted_closed hf ho, hs.congr rfl rfl⟩
  | true =>
    by_cases hbits : s.readerBits = []
    · exact ⟨_, exec_ctDeser_atEnd hf ho hbits, hs.congr rfl rfl⟩
    · cases hio : ioFailsNext s with
      | true => exact ⟨_, exec_ctDeser_ioFails hf ho hbits hio, hs.congr rfl rfl⟩
      | false =>
        cases h : deserialize s.readerBits with
        | error c => exact ⟨_, exec_ctDeser_refused hf ho hbits hio h, hs.congr rfl rfl⟩
        | ok p =>
          obtain ⟨hfull, -⟩ := serialize_of_deserialize_ok h
          exact ⟨_, exec_ctDeser_ok hf ho hio h, .of_root (wf_of_fullTree hfull) rfl⟩

/-- CT.FEED leaves the cursor on an inner node, or moves it to the root. -/
theorem ctFeed_treeInv (xd xv : XReg) : Answers (exec (.ctFeed xd xv) s) State.TreeInv := by
  refine .of_running hs (unlessHalted_halted · _) fun hf => ?_
  rcases Nat.lt_or_ge 1 s.x[xv] with hv | hv
  · exact ⟨_, unlessHalted_eq_raised hf (by rw [bitOperand_of_one_lt hv]), hs.congr rfl rfl⟩
  · obtain ⟨v, hbit⟩ := exists_eq_toNat_of_le_one hv
    cases hat : s.tree.at (s.cur ++ [v]) with
    | absent => exact ⟨_, exec_ctFeed_absent hf xd hbit hat, hs.congr rfl rfl⟩
    | leaf sym => exact ⟨_, exec_ctFeed_leaf hf xd hbit hat, .of_root hs.tree rfl⟩
    | node l r =>
      refine ⟨_, exec_ctFeed_node hf xd hbit hat, hs.tree, ?_⟩
      simp only [hat, Tree.isNode]

theorem hfBuild_treeInv : Answers (exec .hfBuild s) State.TreeInv := by
  refine .of_running hs (unlessHalted_halted · _) fun hf => ?_
  cases h : hufTree s.hist with
  | none => exact ⟨_, unlessHalted_eq_raised hf (by rw [h]), hs.congr rfl rfl⟩
  | some t => exact ⟨_, unlessHalted_eq hf (by rw [h]), .of_root (wf_of_fullTree (fullTree_hufTree h)) rfl⟩

theorem ctReset_treeInv : Answers (exec .ctReset s) State.TreeInv :=
  .of_running hs (unlessHalted_halted · _) fun hf => ⟨_, unlessHalted_running hf _, .of_root hs.tree rfl⟩

/-- Every command keeps the tree well formed and the cursor on an inner node of it. -/
theorem treeInv_of_exec {i : Instr} {t : State} (h : exec i s = .next t) : t.TreeInv := by
  have heff := effect_of_exec h
  cases i with
  | ctFromMap => exact (ctFromMap_treeInv hs).elim h
  | ctDeser => exact (ctDeser_treeInv hs).elim h
  | ctFeed xd xv => exact (ctFeed_treeInv hs xd xv).elim h
  | hfBuild => exact (hfBuild_treeInv hs).elim h
  | ctReset => exact (ctReset_treeInv hs).elim h
  | _ => exact hs.congr (heff.tree_kept nofun nofun nofun) (heff.cur_kept nofun nofun nofun nofun nofun)

end

section
variable {s : State} (hs : s.CodesInv)
include hs

/-- The codes that CT.TOMAP reads are paths of leaves, and the root is none. -/
theorem ctToMap_codesInv (htree : s.TreeInv) : Answers (exec .ctToMap s) State.CodesInv := by
  refine .of_running hs (unlessHalted_halted · _) fun hf => ⟨_, exec_ctToMap hf, fun i hi => ?_⟩
  have hroot := Tree.isNode_of_wf htree.tree
  have hleaf := at_of_getElem_codesOfTree (v := BitVec.ofFin i) hi
  rw [Tree.at_nil] at hleaf
  rw [hleaf] at hroot
  cases hroot

theorem sfBuild_codesInv : Answers (exec .sfBuild s) State.CodesInv := by
  refine .of_running hs (unlessHalted_halted · _) fun hf => ?_
  cases h : sfTable s.hist with
  | none => exact ⟨_, unlessHalted_eq_raised hf (by rw [h]), hs⟩
  | some codes => exact ⟨_, unlessHalted_eq hf (by rw [h]), sfTable_ne_some_nil h⟩

/-- CT.SETCODE deletes the entry when the code is empty (R219). -/
theorem ctSetCode_codesInv (xs : XReg) (bs : BReg) : Answers (exec (.ctSetCode xs bs) s) State.CodesInv := by
  refine .of_running hs (unlessHalted_halted · _) fun hf => ?_
  cases hv : byteOperand s.x[xs] with
  | none => exact ⟨_, unlessHalted_eq_raised hf (by rw [hv]), hs⟩
  | some v =>
    refine ⟨_, unlessHalted_eq hf (by rw [hv]), ?_⟩
    refine set_ne_some_nil hs _ ?_
    cases s.b[bs] <;> simp

/-- Every command keeps the codes of the table nonempty. -/
theorem codesInv_of_exec {i : Instr} {t : State} (htree : s.TreeInv) (h : exec i s = .next t) : t.CodesInv := by
  have heff := effect_of_exec h
  cases i with
  | ctToMap => exact (ctToMap_codesInv hs htree).elim h
  | sfBuild => exact (sfBuild_codesInv hs).elim h
  | ctSetCode xs bs => exact (ctSetCode_codesInv hs xs bs).elim h
  | _ =>
    rw [State.CodesInv, heff.codes_kept nofun nofun nofun]
    exact hs

end

/-! ## The obligation -/

/-- Settles O58: the commands by `treeInv_of_exec` and `codesInv_of_exec`; of the host's other acts only reset touches
tree, cursor or table. -/
theorem stepKeepsTheTreeInvariant : Obligations.StepKeepsTheTreeInvariant := by
  intro s t htree hcodes h
  obtain ⟨-, rfl⟩ | ⟨w, rest, i, -, -, hexec⟩ | ⟨w, rest, e, -, -, rfl⟩ | ⟨rest, -, rfl⟩ |
    ⟨bytes, rest, -, -, -, rfl⟩ | ⟨bytes, rest, -, -, rfl⟩ | ⟨level, rest, -, rfl⟩ := step_cases h
  · exact ⟨htree, hcodes⟩
  · have htaken : (s.takeCommand rest).TreeInv := htree.congr rfl rfl
    exact ⟨treeInv_of_exec htaken hexec, codesInv_of_exec (s := s.takeCommand rest) hcodes htaken hexec⟩
  · rw [raise_eq]
    exact ⟨htree.congr rfl rfl, hcodes⟩
  · exact ⟨⟨rfl, rfl⟩, by simp [State.CodesInv]⟩
  · exact ⟨htree.congr rfl rfl, hcodes⟩
  · exact ⟨htree.congr rfl rfl, hcodes⟩
  · exact ⟨htree.congr rfl rfl, hcodes⟩

end Sys2Proof.Machine
end

section
/-! SUPPORT. The code builders (45_prefix_builders.md): Shannon-Fano. The number of symbols in the left half, the
codes as the `Splits` of the ordered histogram, and the table with given entries. -/

namespace Sys2Proof.Machine
open Sys2Proof.Claims

/-! ## The symbols of the ordered histogram (43_histogram.md R196) -/

theorem nodup_symbols_orderedHist (h : Hist) : ((orderedHist h).map Prod.fst).Nodup := by
  refine (nodup_orderedHist h).map_on fun p hp q hq heq => Prod.ext heq ?_
  rw [(mem_orderedHist.1 hp).1, (mem_orderedHist.1 hq).1, heq]

theorem mem_symbols_orderedHist {h : Hist} {v : Byte} : v ∈ (orderedHist h).map Prod.fst ↔ 0 < h[v.toFin] := by
  constructor
  · intro hv
    obtain ⟨⟨u, n⟩, hp, rfl⟩ := List.mem_map.1 hv
    obtain ⟨rfl, hpos⟩ := mem_orderedHist.1 hp
    exact hpos
  · exact fun hpos => List.mem_map.2 ⟨(v, h[v.toFin]), mem_orderedHist.2 ⟨rfl, hpos⟩, rfl⟩

/-! ## The best split (R241) -/

theorem balance_eq_imbalance (l : List (Byte × Nat)) (n : Nat) : balance l n = imbalance l n := by
  simp only [balance, imbalance, weightOf]
  omega

/-- Of the numbers 1, 2, … below `bound`, `n` is the smallest with the least imbalance. -/
structure BestBelow (l : List (Byte × Nat)) (bound n : Nat) : Prop where
  pos : 1 ≤ n
  lt : n < bound
  le : ∀ k, 1 ≤ k → k < bound → imbalance l n ≤ imbalance l k
  first : ∀ k, 1 ≤ k → k < n → imbalance l n < imbalance l k

/-- The best of one number more: that number only when it is better. -/
theorem BestBelow.succ {l : List (Byte × Nat)} {bound n : Nat} (h : BestBelow l bound n) :
    BestBelow l (bound + 1) (if imbalance l bound < imbalance l n then bound else n) := by
  obtain ⟨hpos, hlt, hle, hfirst⟩ := h
  split
  · next hbetter =>
    refine ⟨by omega, by omega, fun k hk hk' => ?_, fun k hk hk' => hbetter.trans_le (hle k hk hk')⟩
    obtain hk' | rfl := Nat.lt_succ_iff_lt_or_eq.1 hk'
    · exact hbetter.le.trans (hle k hk hk')
    · exact le_rfl
  · next hworse =>
    refine ⟨hpos, by omega, fun k hk hk' => ?_, hfirst⟩
    obtain hk' | rfl := Nat.lt_succ_iff_lt_or_eq.1 hk'
    · exact hle k hk hk'
    · exact Nat.not_lt.1 hworse

theorem BestBelow.bestSplitFrom {l : List (Byte × Nat)} {bound best : Nat} (h : BestBelow l bound best) (fuel : Nat) :
    BestBelow l (bound + fuel) (bestSplitFrom l fuel bound best) := by
  induction fuel generalizing bound best with
  | zero => exact h
  | succ fuel ih =>
    rw [show bound + (fuel + 1) = bound + 1 + fuel by omega]
    exact ih h.succ

/-- The left half is the smallest that balances best. -/
theorem bestBelow_bestSplit {l : List (Byte × Nat)} (hl : 2 ≤ l.length) : BestBelow l l.length (bestSplit l) := by
  have hone : BestBelow l 2 1 :=
    ⟨le_rfl, by omega, fun k hk hk' => by rw [show k = 1 by omega], fun k hk hk' => by omega⟩
  have hbest := hone.bestSplitFrom (l.length - 2)
  rwa [Nat.add_sub_cancel' hl] at hbest

/-! ## The codes (R241) -/

theorem splits_sfCodes {fuel : Nat} {l : List (Byte × Nat)} (hne : l ≠ []) (hfuel : l.length ≤ fuel + 1) :
    Splits l (sfCodes fuel l) := by
  induction fuel generalizing l with
  | zero =>
    obtain ⟨e, rfl⟩ := List.length_eq_one_iff.1 (hfuel.antisymm (List.length_pos_iff.2 hne))
    exact .one e
  | succ fuel ih =>
    rw [sfCodes]
    split
    · next hone =>
      obtain ⟨e, rfl⟩ := List.length_eq_one_iff.1 (hone.antisymm (List.length_pos_iff.2 hne))
      exact .one e
    · next htwo =>
      obtain ⟨hpos, hlt, hle, hfirst⟩ := bestBelow_bestSplit (l := l) (by omega)
      have hleft : (l.take (bestSplit l)).length = bestSplit l := by rw [List.length_take]; omega
      have hright : (l.drop (bestSplit l)).length = l.length - bestSplit l := List.length_drop
      simp only [← balance_eq_imbalance] at hle hfirst
      exact .split l (bestSplit l) _ _ hpos hlt hle hfirst
        (ih (List.ne_nil_of_length_pos (by omega)) (by omega)) (ih (List.ne_nil_of_length_pos (by omega)) (by omega))

theorem symbols_of_splits {l : List (Byte × Nat)} {es : List (Byte × Bits)} (h : Splits l es) :
    es.map Prod.fst = l.map Prod.fst := by
  induction h with
  | one e => rfl
  | split l n left right _ _ _ _ _ _ ihl ihr =>
    calc (left.map (fun e => (e.1, false :: e.2)) ++ right.map (fun e => (e.1, true :: e.2))).map Prod.fst
        = left.map Prod.fst ++ right.map Prod.fst := by simp [Function.comp_def]
      _ = (l.take n ++ l.drop n).map Prod.fst := by rw [ihl, ihr, List.map_append]
      _ = l.map Prod.fst := by rw [List.take_append_drop]

/-! ## The table with given entries (R242) -/

theorem getElem_set_toFin {α : Type} (t : Vector α 256) (u v : Byte) (x : α) :
    (t.set u.toFin x)[v.toFin] = if u = v then x else t[v.toFin] := by
  rw [Fin.getElem_fin, Vector.getElem_set]
  exact if_congr BitVec.toNat_inj rfl rfl

/-- Entering codes of different symbols leaves the other symbols' codes. -/
theorem foldl_set_eq_some_iff {es : List (Byte × Bits)} (hes : (es.map Prod.fst).Nodup)
    (codes : Vector (Option Bits) 256) (v : Byte) (c : Bits) :
    (es.foldl (fun t e => t.set e.1.toFin (some e.2)) codes)[v.toFin] = some c ↔
      (v, c) ∈ es ∨ (v ∉ es.map Prod.fst ∧ codes[v.toFin] = some c) := by
  induction es generalizing codes with
  | nil => simp
  | cons e es ih =>
    obtain ⟨hnew, hes⟩ := List.nodup_cons.1 hes
    rw [List.foldl_cons, ih hes, getElem_set_toFin, List.mem_cons, Prod.ext_iff, List.map_cons, List.mem_cons]
    by_cases hv : e.1 = v
    · subst hv
      have hother : (e.1, c) ∉ es := fun h => hnew (List.mem_map.2 ⟨_, h, rfl⟩)
      simp [hnew, hother, eq_comm]
    · simp [hv, Ne.symm hv]

theorem getElem_tableOf_eq_some {es : List (Byte × Bits)} (hes : (es.map Prod.fst).Nodup) (v : Byte) (c : Bits) :
    (tableOf es)[v.toFin] = some c ↔ (v, c) ∈ es := by
  rw [tableOf, foldl_set_eq_some_iff hes]
  simp

/-- The table of a single symbol (R243). -/
theorem onlyZeroCode_tableOf (v : Byte) : OnlyZeroCode (tableOf [(v, [false])]) v := by
  intro u
  refine (getElem_set_toFin _ v u _).trans ?_
  simp [eq_comm]

/-! ## SF.BUILD (R242) -/

theorem sfTable_of_nil {h : Hist} (ho : orderedHist h = []) : sfTable h = none := by
  rw [sfTable, ho]

theorem sfTable_of_single {h : Hist} {e : Byte × Nat} (ho : orderedHist h = [e]) :
    sfTable h = some (tableOf [(e.1, [false])]) := by
  rw [sfTable, ho]

theorem sfTable_of_two_le {h : Hist} (ho : 2 ≤ (orderedHist h).length) :
    sfTable h = some (tableOf (sfCodes (orderedHist h).length (orderedHist h))) := by
  unfold sfTable
  split
  · next hnil => simp [hnil] at ho
  · next hone => simp [hone] at ho
  · rfl

/-- With two symbols or more the table's entries are a splitting of the ordered histogram. -/
theorem exists_splits_of_two_le {h : Hist} (ho : 2 ≤ (orderedHist h).length) :
    ∃ entries codes, sfTable h = some codes ∧ Splits (orderedHist h) entries ∧
      ∀ (v : Byte) (c : Bits), codes[v.toFin] = some c ↔ (v, c) ∈ entries := by
  have hsplits : Splits (orderedHist h) (sfCodes (orderedHist h).length (orderedHist h)) :=
    splits_sfCodes (List.ne_nil_of_length_pos (by omega)) (by omega)
  refine ⟨_, _, sfTable_of_two_le ho, hsplits, getElem_tableOf_eq_some ?_⟩
  rw [symbols_of_splits hsplits]
  exact nodup_symbols_orderedHist h

theorem exec_sfBuild {s : State} (hs : s.fault = none) {codes : Vector (Option Bits) 256}
    (h : sfTable s.hist = some codes) : exec .sfBuild s = .next { s with codes := codes } :=
  unlessHalted_eq hs (by rw [h])

/-! ## The obligation -/

/-- Settles O40: the codes are a splitting by `splits_sfCodes`, and the table holds the codes it is given, of symbols
that are all different. -/
theorem shannonFanoSplitsAtTheBestBalance : Obligations.ShannonFanoSplitsAtTheBestBalance := by
  refine ⟨row_word (by decide) rfl, fun s hs => ⟨fun hnil => ?_, fun e hone => ?_, fun htwo => ?_⟩⟩
  · exact unlessHalted_eq_raised hs (by rw [sfTable_of_nil hnil])
  · exact ⟨_, onlyZeroCode_tableOf e.1, exec_sfBuild hs (sfTable_of_single hone)⟩
  · obtain ⟨entries, codes, htable, hsplits, hcodes⟩ := exists_splits_of_two_le htwo
    exact ⟨entries, codes, hsplits, hcodes, exec_sfBuild hs htable⟩

end Sys2Proof.Machine
end

section
/-! SUPPORT. The code builders (45_prefix_builders.md): Huffman. The pool as a list sorted by key, the keys'
sequence numbers all different, and the merging as the `Merges` of a pool in any order. -/

namespace Sys2Proof.Machine
open Sys2Proof.Claims

/-! ## The order of the keys (R244) -/

theorem HufNode.before_iff {p q : HufNode} :
    p.before q = true ↔ p.weight < q.weight ∨ (p.weight = q.weight ∧ p.seq ≤ q.seq) := by
  simp [HufNode.before]

/-- Only equal sequence numbers tie. -/
theorem HufNode.before_strict {p q : HufNode} (hpq : p.before q = true ∧ p.seq ≠ q.seq) :
    p.weight < q.weight ∨ (p.weight = q.weight ∧ p.seq < q.seq) := by
  obtain ⟨hbefore, hne⟩ := hpq
  exact (HufNode.before_iff.1 hbefore).imp_right fun ⟨hweight, hseq⟩ => ⟨hweight, lt_of_le_of_ne hseq hne⟩

theorem HufNode.before_total : Std.Total fun p q : HufNode => p.before q = true :=
  ⟨fun p q => by simp only [HufNode.before_iff]; omega⟩

theorem HufNode.before_trans : IsTrans HufNode fun p q => p.before q = true :=
  ⟨fun p q r hpq hqr => by simp only [HufNode.before_iff] at *; omega⟩

/-! ## The pool (R244) -/

theorem poolInsert_eq_orderedInsert (n : HufNode) (pool : List HufNode) :
    poolInsert n pool = pool.orderedInsert (fun p q => p.before q = true) n := by
  induction pool with
  | nil => rfl
  | cons p ps ih => rw [poolInsert, ih, List.orderedInsert_cons]

/-- What the pool holds while it is merged: nodes in key order, sequence numbers all different and all given out. -/
structure PoolInv (next : Nat) (pool : List HufNode) : Prop where
  sorted : pool.Pairwise fun p q => p.before q = true
  distinct : (pool.map HufNode.seq).Nodup
  below : ∀ n ∈ pool, n.seq < next

/-- The pool is in strict key order. -/
theorem PoolInv.strict {next : Nat} {pool : List HufNode} (h : PoolInv next pool) :
    pool.Pairwise fun p q => p.weight < q.weight ∨ (p.weight = q.weight ∧ p.seq < q.seq) :=
  (h.sorted.and (List.pairwise_map.1 h.distinct)).imp HufNode.before_strict

theorem PoolInv.tail {next : Nat} {n : HufNode} {pool : List HufNode} (h : PoolInv next (n :: pool)) :
    PoolInv next pool :=
  ⟨h.sorted.of_cons, (List.nodup_cons.1 h.distinct).2, (List.forall_mem_cons.1 h.below).2⟩

/-- A node with the next sequence number may enter the pool. -/
theorem PoolInv.insert {next : Nat} {pool : List HufNode} (h : PoolInv next pool) {n : HufNode} (hn : n.seq = next) :
    PoolInv (next + 1) (poolInsert n pool) := by
  have total := HufNode.before_total
  have trans := HufNode.before_trans
  have hperm := poolInsert_perm n pool
  have hnew : n.seq ∉ pool.map HufNode.seq := by
    rw [List.mem_map, hn]
    rintro ⟨p, hp, hseq⟩
    exact absurd hseq (h.below p hp).ne
  refine ⟨?_, (hperm.map _).nodup_iff.2 (List.nodup_cons.2 ⟨hnew, h.distinct⟩), fun p hp => ?_⟩
  · rw [poolInsert_eq_orderedInsert]
    exact h.sorted.orderedInsert n pool
  · obtain rfl | hp := List.mem_cons.1 (hperm.mem_iff.1 hp)
    · omega
    · exact (h.below p hp).trans (Nat.lt_succ_self next)

/-- The first pool is sorted by insertion, and its sequence numbers are the ranks. -/
theorem poolInv_firstPool (o : List (Byte × Nat)) : PoolInv o.length (firstPool o) := by
  have total := HufNode.before_total
  have trans := HufNode.before_trans
  have hperm := firstPool_perm o
  have hsorted : firstPool o = (o.zipIdx.map fun e => (⟨e.1.2, e.2, .leaf e.1.1⟩ : HufNode)).insertionSort
      fun p q => p.before q = true := by
    rw [firstPool, List.insertionSort, List.foldr_map]
    simp only [poolInsert_eq_orderedInsert]
  refine ⟨?_, ?_, fun n hn => ?_⟩
  · rw [hsorted]
    exact List.pairwise_insertionSort _ _
  · rw [(hperm.map _).nodup_iff, List.map_map]
    exact List.nodup_zipIdx_map_snd o
  · obtain ⟨e, he, rfl⟩ := List.mem_map.1 (hperm.mem_iff.1 hn)
    have := List.snd_lt_of_mem_zipIdx he
    simpa using this

/-! ## Merging (R244) -/

/-- The order in which a pool is listed does not matter. -/
theorem merges_of_perm {pool pool' : List HufNode} {next : Nat} {t : Tree} (h : Merges pool next t)
    (hperm : pool'.Perm pool) : Merges pool' next t := by
  cases h with
  | one n => exact List.perm_singleton.1 hperm ▸ .one n next
  | merge _ rest n1 n2 _ _ hpool h1 h2 hmerged => exact .merge pool' rest n1 n2 next t (hperm.trans hpool) h1 h2 hmerged

theorem merges_hufMerge {fuel next : Nat} {pool : List HufNode} (hpool : PoolInv next pool) (hne : pool ≠ [])
    (hfuel : pool.length ≤ fuel + 1) : Merges pool next (hufMerge fuel next pool) := by
  induction fuel generalizing next pool with
  | zero =>
    obtain ⟨n, rfl⟩ := List.length_eq_one_iff.1 (hfuel.antisymm (List.length_pos_iff.2 hne))
    exact .one n next
  | succ fuel ih =>
    match pool with
    | [] => exact absurd rfl hne
    | [n] => exact .one n next
    | n1 :: n2 :: rest =>
      obtain ⟨h1, hstrict⟩ := List.pairwise_cons.1 hpool.strict
      obtain ⟨h2, -⟩ := List.pairwise_cons.1 hstrict
      have hperm := poolInsert_perm ⟨n1.weight + n2.weight, next, .node n1.tree n2.tree⟩ rest
      have hlen := hperm.length_eq
      simp only [List.length_cons] at hfuel hlen
      have hmerged := ih (hpool.tail.tail.insert (n := ⟨n1.weight + n2.weight, next, .node n1.tree n2.tree⟩) rfl)
        (List.ne_nil_of_length_pos (by omega)) (by omega)
      exact .merge _ rest n1 n2 next _ .rfl h1 h2 (merges_of_perm hmerged hperm.symm)

/-! ## HF.BUILD (R245) -/

theorem hufTree_of_nil {h : Hist} (ho : orderedHist h = []) : hufTree h = none := by
  rw [hufTree, ho]

theorem hufTree_of_single {h : Hist} {e : Byte × Nat} (ho : orderedHist h = [e]) :
    hufTree h = some (.node (.leaf e.1) (.leaf e.1)) := by
  rw [hufTree, ho]

theorem hufTree_of_two_le {h : Hist} (ho : 2 ≤ (orderedHist h).length) :
    hufTree h = some (hufMerge (orderedHist h).length (orderedHist h).length (firstPool (orderedHist h))) := by
  unfold hufTree
  split
  · next hnil => simp [hnil] at ho
  · next hone => simp [hone] at ho
  · rfl

/-- With two symbols or more the tree is a merging of the symbols' leaves. -/
theorem exists_merges_of_two_le {h : Hist} (ho : 2 ≤ (orderedHist h).length) :
    ∃ t, hufTree h = some t ∧
      Merges ((orderedHist h).zipIdx.map fun e => ⟨e.1.2, e.2, .leaf e.1.1⟩) (orderedHist h).length t := by
  have hperm := firstPool_perm (orderedHist h)
  have hlen : (firstPool (orderedHist h)).length = (orderedHist h).length := by simpa using hperm.length_eq
  have hmerges := merges_hufMerge (fuel := (orderedHist h).length) (poolInv_firstPool (orderedHist h))
    (List.ne_nil_of_length_pos (by omega)) (by omega)
  exact ⟨_, hufTree_of_two_le ho, merges_of_perm hmerges hperm.symm⟩

theorem exec_hfBuild {s : State} (hs : s.fault = none) {t : Tree} (h : hufTree s.hist = some t) :
    exec .hfBuild s = .next { s with tree := t, cur := [] } := unlessHalted_eq hs (by rw [h])

/-! ## The obligation -/

/-- Settles O41: the two nodes at the head of a sorted pool are those of smallest key (`merges_hufMerge`). -/
theorem huffmanMergesTheSmallestKeys : Obligations.HuffmanMergesTheSmallestKeys := by
  refine ⟨row_word (by decide) rfl, fun s hs => ⟨fun hnil => ?_, fun e hone => ?_, fun htwo => ?_⟩⟩
  · exact unlessHalted_eq_raised hs (by rw [hufTree_of_nil hnil])
  · exact exec_hfBuild hs (hufTree_of_single hone)
  · obtain ⟨t, htree, hmerges⟩ := exists_merges_of_two_le htwo
    exact ⟨t, hmerges, exec_hfBuild hs htree⟩

end Sys2Proof.Machine
end

section
/-! SUPPORT. The code builders (45_prefix_builders.md): complete codes. The tree whose leaves a splitting
lists, the leaves of a merging, and for each builder the tree to whose leaves the codes of its table lead. -/

namespace Sys2Proof.Machine
open Sys2Proof.Claims

/-! ## Tables of leaf paths -/

/-- Codes that are paths to the symbols' leaves in one tree are `PrefixFree`. -/
theorem prefixFree_of_at {codes : Vector (Option Bits) 256} {t : Tree}
    (h : ∀ (v : Byte) (c : Bits), codes[v.toFin] = some c → t.at c = .leaf v) : PrefixFree codes := by
  rintro u v c d huv hc hd ⟨rest, rfl⟩
  have hu := h (BitVec.ofFin u) c hc
  have hv := h (BitVec.ofFin v) (c ++ rest) hd
  rw [Tree.at_append, hu] at hv
  cases rest with
  | nil => exact huv (congrArg BitVec.toFin (Tree.leaf.inj hv))
  | cons b rest => simp at hv

/-- A root's leaves have nonempty paths. -/
theorem ne_some_nil_of_at {codes : Vector (Option Bits) 256} {t : Tree} (ht : t.isNode = true)
    (h : ∀ (v : Byte) (c : Bits), codes[v.toFin] = some c → t.at c = .leaf v) (v : Fin 256) : codes[v] ≠ some [] := by
  intro hv
  have hleaf := h (BitVec.ofFin v) [] hv
  rw [Tree.at_nil] at hleaf
  rw [hleaf] at ht
  cases ht

/-- A tree without childless inner nodes is known by its leaves. -/
theorem Tree.eq_of_at_eq_leaf_iff {t u : Tree} (ht : t.wfBelow = true) (hu : u.wfBelow = true)
    (h : ∀ p v, t.at p = .leaf v ↔ u.at p = .leaf v) : t = u := by
  induction t generalizing u with
  | absent =>
    by_contra hne
    obtain ⟨p, v, hp⟩ := Tree.exists_leaf_of_wfBelow hu (Ne.symm hne)
    simpa using (h p v).2 hp
  | leaf v => exact ((h [] v).1 rfl).symm
  | node l r ihl ihr =>
    obtain ⟨-, hl, hr⟩ := Tree.wfBelow_node.1 ht
    cases u with
    | absent =>
      obtain ⟨p, v, hp⟩ := Tree.exists_leaf_of_wfBelow ht nofun
      simpa using (h p v).1 hp
    | leaf v => exact (h [] v).2 rfl
    | node l' r' =>
      obtain ⟨-, hl', hr'⟩ := Tree.wfBelow_node.1 hu
      rw [ihl hl hl' fun p v => h (false :: p) v, ihr hr hr' fun p v => h (true :: p) v]

/-- A full tree has a leaf on its right side. -/
theorem Tree.exists_right_leaf_of_full {t : Tree} (h : t.full = true) : ∃ p v, t.at (true :: p) = .leaf v := by
  obtain ⟨l, r, rfl, -, hr⟩ := Tree.exists_node_of_full h
  refine Tree.exists_leaf_of_wfBelow (Tree.wfBelow_of_fullBelow hr) ?_
  rintro rfl
  cases hr

/-- Build-from-map gives back a full tree from the paths to its leaves (44_code_tree.md R212). -/
theorem treeOfCodes_of_leafPaths {codes : Vector (Option Bits) 256} {t : Tree} (ht : FullTree t)
    (h : ∀ (v : Byte) (c : Bits), codes[v.toFin] = some c ↔ t.at c = .leaf v) : treeOfCodes codes = .ok t := by
  have hfull := ht.1
  have hcount : t.nodeCount ≤ maxNodes := ht.2
  obtain ⟨p, v, hp⟩ := Tree.exists_right_leaf_of_full hfull
  have hright := (h v (true :: p)).2 hp
  have hnone : ∀ w, codeEntries codes ≠ [(w, [false])] := by
    intro w hw
    have hcode := codeEntries_eq_singleton_iff.1 hw v
    rw [hright] at hcode
    split at hcode <;> simp at hcode
  have hat : ∀ (v : Byte) (c : Bits), codes[v.toFin] = some c → t.at c = .leaf v := fun v c => (h v c).1
  obtain ⟨u, hu⟩ := Option.isSome_iff_exists.1 ((isSome_insertAll_codeEntries codes).2
    ⟨ne_some_nil_of_at (Tree.isNode_of_wf (wf_of_fullTree ht)) hat, prefixFree_of_at hat⟩)
  have hleaves : ∀ p v, u.at p = .leaf v ↔ t.at p = .leaf v := fun p v => by
    rw [Tree.at_insertAll hu, mem_codeEntries, or_iff_left (Tree.at_rootOnly_ne_leaf p v), h]
  have hwf := (Tree.grown_rootOnly.insertAll hu).wfBelow_of_leaf ((hleaves _ v).2 hp)
  obtain rfl := Tree.eq_of_at_eq_leaf_iff hwf (Tree.wfBelow_of_fullBelow (Tree.fullBelow_of_full hfull)) hleaves
  have hne : codeEntries codes ≠ [] := List.ne_nil_of_mem (mem_codeEntries.2 hright)
  rw [treeOfCodes_eq_of_insertAll hne hu, degenerateFix_of_ne hnone, if_neg (Nat.not_lt.2 hcount)]

/-! ## The tree of a splitting (R241) -/

/-- The entries of a splitting are the leaves of a full tree, with their paths. -/
theorem exists_tree_of_splits {l : List (Byte × Nat)} {es : List (Byte × Bits)} (h : Splits l es) :
    ∃ t : Tree, t.fullBelow = true ∧ t.leafPaths.map Prod.swap = es := by
  induction h with
  | one e => exact ⟨.leaf e.1, rfl, rfl⟩
  | split l n left right _ _ _ _ _ _ ihl ihr =>
    obtain ⟨tl, hl, rfl⟩ := ihl
    obtain ⟨tr, hr, rfl⟩ := ihr
    exact ⟨.node tl tr, by rw [Tree.fullBelow, hl, hr]; rfl, by simp [Tree.leafPaths, Function.comp_def]⟩

/-- Two to 256 leaves make a full tree that the block can hold (44_code_tree.md R210). -/
theorem fullTree_of_fullBelow {t : Tree} (h : t.fullBelow = true) (hmin : 2 ≤ t.leaves.length)
    (hmax : t.leaves.length ≤ 256) : FullTree t := by
  have hnodes := Tree.nodeCount_fullBelow h
  exact ⟨Tree.full_of_leaves h hmin, by omega⟩

/-- The table of SF.BUILD: one code for each symbol that occurs, all of them leaf paths of the full tree that CT.FROMMAP
makes of the table. -/
theorem sfTable_spec {h : Hist} (hne : orderedHist h ≠ []) :
    ∃ codes t, sfTable h = some codes ∧ FullTree t ∧ treeOfCodes codes = .ok t ∧
      (∀ (v : Byte) (c : Bits), codes[v.toFin] = some c → t.at c = .leaf v) ∧
      ∀ v : Byte, (∃ c, codes[v.toFin] = some c) ↔ 0 < h[v.toFin] := by
  by_cases hone : ∃ e, orderedHist h = [e]
  · obtain ⟨e, he⟩ := hone
    have hzero := onlyZeroCode_tableOf e.1
    refine ⟨_, _, sfTable_of_single he, ⟨rfl, Nat.le_of_ble_eq_true rfl⟩, treeOfCodes_of_onlyZeroCode hzero,
      fun v c hc => ?_, fun v => ?_⟩
    · rw [hzero] at hc
      split at hc
      · next hv => cases hc; rw [hv]; rfl
      · cases hc
    · rw [hzero, ← mem_symbols_orderedHist, he]
      by_cases hv : v = e.1 <;> simp [hv]
  · have htwo := two_le_length_of_ne hne (not_exists.1 hone)
    obtain ⟨entries, codes, htable, hsplits, hcodes⟩ := exists_splits_of_two_le htwo
    obtain ⟨t, hbelow, rfl⟩ := exists_tree_of_splits hsplits
    have hat : ∀ (v : Byte) (c : Bits), codes[v.toFin] = some c ↔ t.at c = .leaf v := fun v c => by
      rw [hcodes, ← Tree.mem_leafPaths, List.mem_map_swap]
    have hsymbols : t.leaves = (orderedHist h).map Prod.fst := by
      rw [← symbols_of_splits hsplits, ← Tree.leafPaths_symbols, List.map_map]
      rfl
    have hleaves : t.leaves.length = (orderedHist h).length := by rw [hsymbols, List.length_map]
    have hfull := fullTree_of_fullBelow hbelow (by omega) (by have := length_orderedHist_le h; omega)
    refine ⟨codes, t, htable, hfull, treeOfCodes_of_leafPaths hfull hat, fun v c => (hat v c).1, fun v => ?_⟩
    rw [← mem_symbols_orderedHist, ← hsymbols, ← Tree.leafPaths_symbols]
    simp only [hat, List.mem_map, Prod.exists, Tree.mem_leafPaths, exists_eq_right]

/-! ## The leaves of a merging (R244) -/

/-- A merging keeps all the leaves of the pool. -/
theorem leaves_perm_of_merges {pool : List HufNode} {next : Nat} {t : Tree} (h : Merges pool next t) :
    t.leaves.Perm (pool.flatMap fun n => n.tree.leaves) := by
  induction h with
  | one n => simp
  | merge pool rest n1 n2 next t hpool _ _ _ ih =>
    refine ih.trans (.trans ?_ (hpool.flatMap_right _).symm)
    simp [Tree.leaves]

/-- The leaves of the first pool hold the symbols of the ordered histogram. -/
theorem leaves_of_ranked (o : List (Byte × Nat)) :
    ((o.zipIdx.map fun e => (⟨e.1.2, e.2, .leaf e.1.1⟩ : HufNode)).flatMap fun n => n.tree.leaves) =
      o.map Prod.fst :=
  calc
    _ = (o.zipIdx.map Prod.fst).map Prod.fst := by
      simp only [List.flatMap_map, Tree.leaves, ← List.map_eq_flatMap, List.map_map, Function.comp_def]
    _ = o.map Prod.fst := by rw [List.zipIdx_map_fst]

/-- The tree of HF.BUILD: its leaves hold the symbols that occur. -/
theorem hufTree_spec {h : Hist} (hne : orderedHist h ≠ []) :
    ∃ t, hufTree h = some t ∧ ∀ v : Byte, v ∈ t.leaves ↔ 0 < h[v.toFin] := by
  simp only [← mem_symbols_orderedHist]
  by_cases hone : ∃ e, orderedHist h = [e]
  · obtain ⟨e, he⟩ := hone
    refine ⟨_, hufTree_of_single he, fun v => ?_⟩
    simp [he, Tree.leaves]
  · obtain ⟨t, htree, hmerges⟩ := exists_merges_of_two_le (two_le_length_of_ne hne (not_exists.1 hone))
    have hperm := leaves_perm_of_merges hmerges
    rw [leaves_of_ranked] at hperm
    exact ⟨t, htree, fun v => hperm.mem_iff⟩

/-- CT.TOMAP gives a code to exactly the symbols of the leaves (44_code_tree.md R213). -/
theorem exists_code_iff_mem_leaves (t : Tree) (v : Byte) : (∃ c, (codesOfTree t)[v.toFin] = some c) ↔ v ∈ t.leaves := by
  rw [← Option.isSome_iff_exists, getElem_codesOfTree, Option.isSome_map, List.find?_isSome, ← Tree.leafPaths_symbols]
  simp

/-! ## The obligation -/

theorem exists_nonempty_code_iff {codes : Vector (Option Bits) 256} (h : ∀ v : Fin 256, codes[v] ≠ some [])
    (v : Fin 256) : (∃ c, codes[v] = some c ∧ c ≠ []) ↔ ∃ c, codes[v] = some c :=
  exists_congr fun _ => and_iff_left_of_imp fun hc hnil => h v (hnil ▸ hc)

/-- Settles O42: each table holds paths to leaves of one full tree, so no code is empty and none begins another one. -/
theorem buildersGiveCompletePrefixCodes : Obligations.BuildersGiveCompletePrefixCodes := by
  rintro s hs ⟨v, hv⟩
  have hne : orderedHist s.hist ≠ [] := List.ne_nil_of_mem (mem_orderedHist (v := BitVec.ofFin v).2 ⟨rfl, hv⟩)
  constructor
  · obtain ⟨codes, t, htable, hfull, htree, hat, hcodes⟩ := sfTable_spec hne
    have hnil := ne_some_nil_of_at (Tree.isNode_of_wf (wf_of_fullTree hfull)) hat
    exact ⟨_, _, exec_sfBuild hs htable, hs, fun v => (exists_nonempty_code_iff hnil v).trans (hcodes (BitVec.ofFin v)),
      hnil, prefixFree_of_at hat, exec_ctFromMap_ok (s := { s with codes := codes }) hs htree, hs, hfull⟩
  · obtain ⟨t, htree, hleaves⟩ := hufTree_spec hne
    have hfull := fullTree_hufTree htree
    have hat : ∀ (v : Byte) (c : Bits), (codesOfTree t)[v.toFin] = some c → t.at c = .leaf v :=
      fun _ _ => at_of_getElem_codesOfTree
    have hnil := ne_some_nil_of_at (Tree.isNode_of_wf (wf_of_fullTree hfull)) hat
    have hcodes (v : Byte) := (exists_code_iff_mem_leaves t v).trans (hleaves v)
    exact ⟨_, _, exec_hfBuild hs htree, hs, hfull, exec_ctToMap hs,
      fun v => (exists_nonempty_code_iff hnil v).trans (hcodes (BitVec.ofFin v)), hnil, prefixFree_of_at hat⟩

end Sys2Proof.Machine
end

section
/-! SUPPORT. The file-level commands as courses of events (60_exceptions.md R326). A body is the performance of its
events, and in a quiet environment a performance does what its events say: it takes their polls, writes their bits and
leaves their last PROGRESS. -/

namespace Sys2Proof.Machine
open Sys2Proof.Claims

/-! ## Quiet environments (60_exceptions.md R328, R330) -/

theorem quiet_afterDraws {e : Env} (h : Quiet e) (p n : Nat) : Quiet (afterDraws e p n) :=
  ⟨h.signal, fun b hb => h.polls b (List.mem_of_mem_drop hb), fun f hf => h.ios f (List.mem_of_mem_drop hf)⟩

theorem getD_of_forall_eq_false {l : List Bool} (h : ∀ b ∈ l, b = false) (j : Nat) : l.getD j false = false := by
  rw [List.getD_eq_getElem?_getD]
  cases hj : l[j]? with
  | none => rfl
  | some b => exact h b (List.mem_of_getElem? hj)

theorem pollSees_of_quiet {e : Env} (h : Quiet e) (j : Nat) : pollSees e j = false := by
  rw [pollSees, h.signal]
  exact getD_of_forall_eq_false h.polls j

theorem failsAt_of_quiet {e : Env} (h : Quiet e) (j : Nat) : failsAt e j = false := getD_of_forall_eq_false h.ios j

/-! ## Lists of events -/

theorem received_append (es fs : List Event) : received (es ++ fs) = received es ++ received fs := List.flatMap_append

theorem received_flatMap {α : Type} (l : List α) (f : α → List Event) :
    received (l.flatMap f) = l.flatMap fun a => received (f a) := List.flatMap_assoc

theorem pollCount_append (es fs : List Event) : pollCount (es ++ fs) = pollCount es + pollCount fs :=
  List.countP_append

theorem pollCount_flatMap {α : Type} (l : List α) (f : α → List Event) :
    pollCount (l.flatMap f) = (l.map fun a => pollCount (f a)).sum := List.countP_flatMap

theorem lastProgress_append (p : Nat) (es fs : List Event) :
    lastProgress p (es ++ fs) = lastProgress (lastProgress p es) fs := List.foldl_append

/-- What an event adds to the outcome counters. -/
def addOutcome : Event → OutcomeCounts → OutcomeCounts
  | .outcome (some k) => countOutcome k
  | .outcome none => countFail
  | _ => id

/-! ## Performing events -/

namespace FileM

/-- The action of a file-level body that is an event. -/
def event (cfg : Config) : Event → FileM Unit
  | .poll => poll
  | .read => io
  | .write v => write cfg v
  | .progress p => setProgress p
  | .outcome k => count (addOutcome (.outcome k))

/-- The events one after another. -/
def perform (cfg : Config) : List Event → FileM Unit
  | [] => pure ()
  | e :: es => do
    event cfg e
    perform cfg es

/-- The end of a body that reports `r`. -/
def finish : Report → FileM Unit
  | .success => pure ()
  | r => stop r

/-- The body of a file-level command whose course is the events `es` and the report `r`. -/
def course (cfg : Config) (es : List Event) (r : Report) : FileM Unit := do
  perform cfg es
  finish r

theorem course_success (cfg : Config) (es : List Event) : course cfg es .success = perform cfg es := bind_pure_unit

theorem perform_append (cfg : Config) (es fs : List Event) :
    perform cfg (es ++ fs) = (do perform cfg es; perform cfg fs) := by
  induction es with
  | nil => exact (pure_bind _ _).symm
  | cons e es ih => simp only [List.cons_append, perform, ih, bind_assoc]

theorem perform_singleton (cfg : Config) (e : Event) : perform cfg [e] = event cfg e := bind_pure _

end FileM

/-! ## A quiet performance -/

/-- The job `k` that is left of `j` when a body has done `es`, no poll having seen 1 and no I/O action having failed. -/
structure Job.Did (es : List Event) (j k : Job) : Prop where
  env : ∃ n, k.env = afterDraws j.env (pollCount es) n
  written : streamBits k.out ++ k.pend = streamBits j.out ++ j.pend ++ received es
  progress : k.progress = lastProgress j.progress es
  counts : k.counts = es.foldl (fun c e => addOutcome e c) j.counts

theorem Job.Did.nil (j : Job) : Job.Did [] j j := ⟨⟨0, rfl⟩, (List.append_nil _).symm, rfl, rfl⟩

theorem Job.Did.append {es fs : List Event} {j k l : Job} (h : Job.Did es j k) (h' : Job.Did fs k l) :
    Job.Did (es ++ fs) j l where
  env := by
    obtain ⟨n, hn⟩ := h.env
    obtain ⟨m, hm⟩ := h'.env
    exact ⟨n + m, by rw [hm, hn, afterDraws_afterDraws, pollCount_append]⟩
  written := by rw [h'.written, h.written, received_append, List.append_assoc]
  progress := by rw [h'.progress, h.progress, lastProgress_append]
  counts := by rw [h'.counts, h.counts, List.foldl_append]

theorem Job.Did.quiet {es : List Event} {j k : Job} (h : Job.Did es j k) (hq : Quiet j.env) : Quiet k.env := by
  obtain ⟨n, hn⟩ := h.env
  rw [hn]
  exact quiet_afterDraws hq _ n

theorem FileM.event_quiet (cfg : Config) (e : Event) {j : Job} (hq : Quiet j.env) :
    ∃ k, FileM.event cfg e j = .ok () k ∧ Job.Did [e] j k := by
  cases e with
  | poll =>
    exact ⟨_, FileM.poll_sees_false (pollSees_of_quiet hq 0), ⟨0, rfl⟩, (List.append_nil _).symm, rfl, rfl⟩
  | read => exact ⟨_, FileM.io_succeeds (failsAt_of_quiet hq 0), ⟨1, rfl⟩, (List.append_nil _).symm, rfl, rfl⟩
  | write v =>
    obtain ⟨out, pend, n, hrun, hwritten⟩ := FileM.write_ok cfg v j hq.ios
    exact ⟨_, hrun, ⟨n, rfl⟩, by rw [hwritten, received, List.flatMap_singleton]; rfl, rfl, rfl⟩
  | progress p => exact ⟨_, FileM.setProgress_run p j, ⟨0, rfl⟩, (List.append_nil _).symm, rfl, rfl⟩
  | outcome k => exact ⟨_, FileM.count_run _ j, ⟨0, rfl⟩, (List.append_nil _).symm, rfl, rfl⟩

theorem FileM.perform_quiet (cfg : Config) (es : List Event) {j : Job} (hq : Quiet j.env) :
    ∃ k, FileM.perform cfg es j = .ok () k ∧ Job.Did es j k := by
  induction es generalizing j with
  | nil => exact ⟨j, rfl, .nil j⟩
  | cons e es ih =>
    obtain ⟨k, hrun, hdid⟩ := FileM.event_quiet cfg e hq
    obtain ⟨l, hrest, hdid'⟩ := ih (hdid.quiet hq)
    exact ⟨l, (FileM.bind_ok hrun).trans hrest, hdid.append hdid'⟩

section
variable {j k : Job} {body : FileM Unit} (h : failsAt j.env 0 = false)
include h

theorem Job.runFile_of_ok (hbody : body { j with env := afterDraws j.env 0 1, out := [], pend := [] } = .ok () k) :
    j.runFile body = k.close .success := by
  simp only [Job.runFile, Env.io_eq_draw, h, Bool.false_eq_true, if_false, hbody]

theorem Job.runFile_of_error {why : Report}
    (hbody : body { j with env := afterDraws j.env 0 1, out := [], pend := [] } = .error why k) :
    j.runFile body = k.close why := by
  simp only [Job.runFile, Env.io_eq_draw, h, Bool.false_eq_true, if_false, hbody]

end

theorem Job.close_succeeds {j : Job} (h : failsAt j.env 0 = false) (why : Report) :
    j.close why = ({ j with env := afterDraws j.env 0 1, out := j.out ++ pack j.pend, pend := [] }, why) := by
  simp only [Job.close, Env.io_eq_draw, h, Bool.false_eq_true, if_false]

/-- The wrapper around a quiet course: all the bits written reach OUT, zero-padded (42_bit_streams.md R177). -/
theorem Job.runFile_course_quiet (cfg : Config) (es : List Event) (r : Report) {j : Job} (hq : Quiet j.env) :
    ∃ n, j.runFile (FileM.course cfg es r) =
      ({ env := afterDraws j.env (pollCount es) n, out := pack (received es), pend := [],
         progress := lastProgress j.progress es, counts := es.foldl (fun c e => addOutcome e c) j.counts }, r) := by
  have hopen := quiet_afterDraws hq 0 1
  obtain ⟨k, hrun, hdid⟩ := FileM.perform_quiet cfg es
    (j := { j with env := afterDraws j.env 0 1, out := [], pend := [] }) hopen
  have hclose : j.runFile (FileM.course cfg es r) = k.close r := by
    have hend := FileM.bind_ok (f := fun _ => FileM.finish r) hrun
    cases r with
    | success => exact Job.runFile_of_ok (failsAt_of_quiet hq 0) hend
    | _ => exact Job.runFile_of_error (failsAt_of_quiet hq 0) hend
  obtain ⟨n, hn⟩ := hdid.env
  refine ⟨1 + n + 1, ?_⟩
  rw [hclose, Job.close_succeeds (failsAt_of_quiet (hdid.quiet hopen) 0), pack_written hdid.written, hdid.progress,
    hdid.counts, hn, afterDraws_afterDraws, afterDraws_afterDraws, Nat.zero_add, Nat.add_zero]
  rfl

/-- A file-level command whose body is a course, in a quiet environment. -/
theorem State.afterJob_course_quiet (s : State) (counts : OutcomeCounts) (es : List Event) (r : Report)
    (hq : Quiet s.env) :
    ∃ n, s.afterJob ((s.job counts).runFile (FileM.course s.cfg es r)) = { s with
      output := pack (received es), progress := lastProgress s.progress es, report := r,
      env := afterDraws s.env (pollCount es) n } := by
  obtain ⟨n, hn⟩ := Job.runFile_course_quiet s.cfg es r (j := s.job counts) hq
  exact ⟨n, by rw [hn]; rfl⟩

end Sys2Proof.Machine
end

section
/-! SUPPORT. The compression family (46_compression.md): CD.COMPRESS. Its code, which the unit commands build too, the
length of the payload, and its body as the course that R261 describes. -/

namespace Sys2Proof.Machine
open Sys2Proof.Claims

/-! ## The command's own histogram and code (R261) -/

/-- The histogram that CD.COMPRESS counts for itself. -/
def histOf (inp : List Byte) : Hist := inp.foldl tally (Vector.replicate 256 0)

theorem getElem_histOf (inp : List Byte) (v : Byte) : (histOf inp)[v.toFin] = inp.count v := by
  rw [histOf, getElem_foldl_tally]
  simp

theorem getElem_histOf_fin (inp : List Byte) (i : Fin 256) : (histOf inp)[i] = inp.count (BitVec.ofFin i) :=
  getElem_histOf inp (BitVec.ofFin i)

theorem getElem_histOf_pos {inp : List Byte} {v : Byte} : 0 < (histOf inp)[v.toFin] ↔ v ∈ inp := by
  rw [getElem_histOf, List.count_pos_iff]

theorem orderedHist_histOf_ne_nil {inp : List Byte} (h : inp ≠ []) : orderedHist (histOf inp) ≠ [] := by
  obtain ⟨v, hv⟩ := List.exists_mem_of_ne_nil inp h
  exact List.ne_nil_of_mem (mem_orderedHist (v := v).2 ⟨rfl, getElem_histOf_pos.2 hv⟩)

/-- What the code of a nonempty IN is good for: its tree is full, the codes are paths to the symbols' leaves in it, and
every byte of IN has one. -/
structure CodeOf (inp : List Byte) (tree : Tree) (codes : Vector (Option Bits) 256) : Prop where
  full : FullTree tree
  leads : ∀ (v : Byte) (c : Bits), codes[v.toFin] = some c → tree.at c = .leaf v
  covers : ∀ v ∈ inp, ∃ c, codes[v.toFin] = some c

/-- The operand's algorithm. -/
theorem algorithmOperand_of_le_one {n : Nat} (h : n ≤ 1) :
    algorithmOperand n = some (if n = 0 then .shannonFano else .huffman) := by
  interval_cases n <;> rfl

/-- Both algorithms build a code for a nonempty IN, and it is the one that the unit commands build. -/
theorem exists_buildCode {alg : Nat} {inp : List Byte} (hne : inp ≠ []) :
    ∃ tree codes, buildCode (if alg = 0 then .shannonFano else .huffman) (histOf inp) = some (tree, codes) ∧
      Builds alg inp tree codes ∧ CodeOf inp tree codes := by
  have hordered := orderedHist_histOf_ne_nil hne
  let s : State := { State.reset with hist := histOf inp }
  unfold Builds
  split
  · obtain ⟨codes, tree, htable, hfull, htree, hleads, hcodes⟩ := sfTable_spec hordered
    refine ⟨tree, codes, by simp only [buildCode, htable, htree, hfull.1, if_true], ?_, hfull, hleads,
      fun v hv => (hcodes v).2 (getElem_histOf_pos.2 hv)⟩
    exact ⟨s, _, _, rfl, getElem_histOf inp, exec_sfBuild rfl htable, rfl,
      exec_ctFromMap_ok (s := { s with codes := codes }) rfl htree, rfl, rfl, rfl⟩
  · obtain ⟨tree, htree, hleaves⟩ := hufTree_spec hordered
    have hfull := fullTree_hufTree htree
    refine ⟨tree, codesOfTree tree, by simp only [buildCode, htree, hfull.1, if_true], ?_, hfull,
      fun _ _ => at_of_getElem_codesOfTree,
      fun v hv => (exists_code_iff_mem_leaves tree v).2 ((hleaves v).2 (getElem_histOf_pos.2 hv))⟩
    exact ⟨s, _, _, rfl, getElem_histOf inp, exec_hfBuild rfl htree, rfl, exec_ctToMap rfl, rfl, rfl, rfl⟩

/-! ## The payload (R260) -/

theorem payloadOf_singleton (codes : Vector (Option Bits) 256) (v : Byte) :
    payloadOf codes [v] = codes[v.toFin].getD [] := List.flatMap_singleton _ _

/-- The bytes' codes one by one. -/
theorem flatMap_payloadOf_singleton (codes : Vector (Option Bits) 256) (inp : List Byte) :
    (inp.flatMap fun v => payloadOf codes [v]) = payloadOf codes inp := by
  simp only [payloadOf_singleton]
  rfl

theorem payloadLength_eq_sum (h : Hist) (codes : Vector (Option Bits) 256) :
    payloadLength h codes = ∑ i : Fin 256, h[i] * (codes[i].getD []).length := by
  rw [payloadLength, toList_eq_map_finRange, toList_eq_map_finRange, List.zipWith_map, List.zipWith_self,
    Fin.sum_univ_def]

/-- The length computed from the histogram is the length of the payload. -/
theorem payloadLength_histOf (codes : Vector (Option Bits) 256) (inp : List Byte) :
    payloadLength (histOf inp) codes = (payloadOf codes inp).length := by
  simp only [payloadLength_eq_sum, getElem_histOf_fin]
  induction inp with
  | nil => simp [payloadOf]
  | cons b inp ih =>
    have hsplit : payloadOf codes (b :: inp) = codes[b.toFin].getD [] ++ payloadOf codes inp := rfl
    have hone (i : Fin 256) : b = BitVec.ofFin i ↔ b.toFin = i := ⟨congrArg BitVec.toFin, congrArg BitVec.ofFin⟩
    rw [hsplit, List.length_append, ← ih]
    simp only [List.count_cons, add_mul, Finset.sum_add_distrib, beq_iff_eq, hone, ite_mul, one_mul, zero_mul,
      Finset.sum_ite_eq, Finset.mem_univ, if_true]
    exact Nat.add_comm _ _

/-! ## The passes over the chunks (R261) -/

theorem flatten_chunksOf (size n : Nat) (bytes : List Byte) :
    (chunksOf size n bytes).flatten = bytes.take (n * size) := by
  induction n generalizing bytes with
  | zero => simp [chunksOf]
  | succ n ih => rw [chunksOf, List.flatten_cons, ih, Nat.succ_mul, Nat.add_comm, List.take_add]

theorem flatten_chunksOfIn {cfg : Config} (hsize : 1 ≤ cfg.chunkBytes) (inp : List Byte) :
    (chunksOfIn cfg inp).flatten = inp := by
  rw [chunksOfIn, flatten_chunksOf, List.take_of_length_le (le_ceilDiv_mul hsize _)]

/-- Chunk `k` of IN. -/
def chunkAt (C : Nat) (inp : List Byte) (k : Nat) : List Byte := (inp.drop (k * C)).take C

theorem flatMap_chunkAt {C : Nat} (hC : 1 ≤ C) (inp : List Byte) :
    (List.range (ceilDiv inp.length C)).flatMap (chunkAt C inp) = inp := by
  have htake (n : Nat) : (List.range n).flatMap (chunkAt C inp) = inp.take (n * C) := by
    induction n with
    | zero => simp
    | succ n ih =>
      rw [List.range_succ, List.flatMap_append, ih, List.flatMap_singleton, Nat.succ_mul, List.take_add]
      rfl
  rw [htake, List.take_of_length_le (le_ceilDiv_mul hC _)]

/-- PROGRESS after chunk `k`. -/
def chunkDone (C : Nat) (inp : List Byte) (k : Nat) : Event :=
  .progress (100 * min ((k + 1) * C) inp.length / inp.length)

/-- The bytes of the chunks before chunk `k`, and that chunk. -/
theorem min_add_length_chunkAt (C : Nat) (inp : List Byte) (k : Nat) :
    min (k * C) inp.length + (chunkAt C inp k).length = min ((k + 1) * C) inp.length := by
  rw [chunkAt, List.length_take, List.length_drop, Nat.succ_mul]
  omega

theorem chunksOf_drop_succ (C n : Nat) (inp : List Byte) (k : Nat) :
    chunksOf C (n + 1) (inp.drop (k * C)) = chunkAt C inp k :: chunksOf C n (inp.drop ((k + 1) * C)) := by
  rw [chunksOf, List.drop_drop, ← Nat.succ_mul]
  rfl

/-- The events of the histogram pass on chunk `k`. -/
def countEvents (C : Nat) (inp : List Byte) (k : Nat) : List Event := [.poll, .read, chunkDone C inp k]

/-- The events of the substitution of chunk `k`. -/
def substEvents (C : Nat) (codes : Vector (Option Bits) 256) (inp : List Byte) (k : Nat) : List Event :=
  [.poll] ++ ((chunkAt C inp k).flatMap fun v => [.read, .write (payloadOf codes [v])]) ++ [chunkDone C inp k]

theorem countChunks_eq_perform (cfg : Config) (inp : List Byte) (k n : Nat) (h : Hist) :
    countChunks inp.length (min (k * cfg.chunkBytes) inp.length)
        (chunksOf cfg.chunkBytes n (inp.drop (k * cfg.chunkBytes))) h =
      (do FileM.perform cfg ((List.range' k n).flatMap (countEvents cfg.chunkBytes inp))
          pure ((chunksOf cfg.chunkBytes n (inp.drop (k * cfg.chunkBytes))).flatten.foldl tally h)) := by
  induction n generalizing k h with
  | zero => rfl
  | succ n ih =>
    rw [chunksOf_drop_succ, countChunks, min_add_length_chunkAt, ih, List.range'_succ, List.flatMap_cons,
      FileM.perform_append, List.flatten_cons, List.foldl_append]
    simp only [countEvents, chunkDone, FileM.perform, FileM.event, bind_assoc, pure_bind]

theorem countPass_eq_perform {cfg : Config} (hsize : 1 ≤ cfg.chunkBytes) (inp : List Byte) :
    countPass cfg inp =
      (do FileM.perform cfg
            ((List.range (ceilDiv inp.length cfg.chunkBytes)).flatMap (countEvents cfg.chunkBytes inp))
          pure (histOf inp)) := by
  have hpass := countChunks_eq_perform cfg inp 0 (ceilDiv inp.length cfg.chunkBytes) (Vector.replicate 256 0)
  rw [Nat.zero_mul, Nat.zero_min, List.drop_zero] at hpass
  rw [countPass, chunksOfIn, hpass, ← chunksOfIn, flatten_chunksOfIn hsize, List.range_eq_range']
  rfl

theorem substBytes_eq_perform (cfg : Config) {codes : Vector (Option Bits) 256} {bytes : List Byte}
    (hcodes : ∀ v ∈ bytes, ∃ c, codes[v.toFin] = some c) :
    substBytes cfg codes bytes =
      FileM.perform cfg (bytes.flatMap fun v => [.read, .write (payloadOf codes [v])]) := by
  induction bytes with
  | nil => rfl
  | cons v bytes ih =>
    obtain ⟨⟨c, hc⟩, hcodes⟩ := List.forall_mem_cons.1 hcodes
    rw [substBytes, hc, ih hcodes, List.flatMap_cons, payloadOf_singleton, hc]
    rfl

theorem substChunks_eq_perform (cfg : Config) {codes : Vector (Option Bits) 256} {inp : List Byte}
    (hcodes : ∀ v ∈ inp, ∃ c, codes[v.toFin] = some c) (k n : Nat) :
    substChunks cfg codes inp.length (min (k * cfg.chunkBytes) inp.length)
        (chunksOf cfg.chunkBytes n (inp.drop (k * cfg.chunkBytes))) =
      FileM.perform cfg ((List.range' k n).flatMap (substEvents cfg.chunkBytes codes inp)) := by
  induction n generalizing k with
  | zero => rfl
  | succ n ih =>
    have hchunk : ∀ v ∈ chunkAt cfg.chunkBytes inp k, ∃ c, codes[v.toFin] = some c :=
      fun v hv => hcodes v (List.mem_of_mem_drop (List.mem_of_mem_take hv))
    rw [chunksOf_drop_succ, substChunks, min_add_length_chunkAt, ih, substBytes_eq_perform cfg hchunk, List.range'_succ,
      List.flatMap_cons]
    simp only [substEvents, chunkDone, FileM.perform_append, FileM.perform_singleton, FileM.event, bind_assoc]

/-! ## The body (R261) -/

/-- F field and tree are what stands before the payload. -/
theorem take_compressedBits (tree : Tree) (payload : Bits) :
    (compressedBits tree payload).take (3 + tree.serialize.length) =
      bitsOf 3 ((3 + tree.serialize.length + payload.length) % 8) ++ tree.serialize := by
  rw [compressedBits, List.take_left' (by simp)]

theorem compressEvents_eq (C : Nat) (tree : Tree) (codes : Vector (Option Bits) 256) (inp : List Byte) :
    compressEvents C tree codes inp =
      (List.range (ceilDiv inp.length C)).flatMap (countEvents C inp) ++
        [.write (bitsOf 3 ((3 + tree.serialize.length + (payloadOf codes inp).length) % 8)), .write tree.serialize,
          .progress 0] ++
        (List.range (ceilDiv inp.length C)).flatMap (substEvents C codes inp) := by
  rw [compressEvents, take_compressedBits, List.take_left' (by simp), List.drop_left' (by simp)]
  rfl

/-- CD.COMPRESS goes through the course of R261, whatever the environment does. -/
theorem compressBody_eq_course {cfg : Config} {alg : Algorithm} {inp : List Byte} {tree : Tree}
    {codes : Vector (Option Bits) 256} (hsize : 1 ≤ cfg.chunkBytes)
    (hbuild : buildCode alg (histOf inp) = some (tree, codes)) (hcodes : ∀ v ∈ inp, ∃ c, codes[v.toFin] = some c) :
    compressBody cfg inp alg = FileM.course cfg (compressEvents cfg.chunkBytes tree codes inp) .success := by
  have hsubst := substChunks_eq_perform cfg hcodes 0 (ceilDiv inp.length cfg.chunkBytes)
  rw [Nat.zero_mul, Nat.zero_min, List.drop_zero, ← chunksOfIn, ← List.range_eq_range'] at hsubst
  rw [compressBody, countPass_eq_perform hsize, compressEvents_eq, FileM.course_success]
  simp only [bind_assoc, pure_bind, hbuild, writeCompressed, payloadLength_histOf, hsubst, FileM.perform_append,
    FileM.perform, FileM.event]

/-! ## What the course leaves (R260, R261, R263) -/

section
variable {C : Nat} (hC : 1 ≤ C) (tree : Tree) (codes : Vector (Option Bits) 256) (inp : List Byte)

theorem received_countEvents (k : Nat) : received (countEvents C inp k) = [] := rfl

theorem pollCount_countEvents (k : Nat) : pollCount (countEvents C inp k) = 1 := rfl

theorem received_substEvents (k : Nat) :
    received (substEvents C codes inp k) = payloadOf codes (chunkAt C inp k) := by
  rw [substEvents, received_append, received_append, received_flatMap, ← flatMap_payloadOf_singleton]
  simp [received, Event.bits, chunkDone]

theorem pollCount_substEvents (k : Nat) : pollCount (substEvents C codes inp k) = 1 := by
  rw [substEvents, pollCount_append, pollCount_append, pollCount_flatMap]
  simp [pollCount, Event.isPoll, chunkDone]

theorem lastProgress_substEvents (k p : Nat) :
    lastProgress p (substEvents C codes inp k) = 100 * min ((k + 1) * C) inp.length / inp.length := by
  rw [substEvents, lastProgress_append]
  rfl

include hC in
theorem received_compressEvents :
    received (compressEvents C tree codes inp) = compressedBits tree (payloadOf codes inp) := by
  have hpayload : ((List.range (ceilDiv inp.length C)).flatMap fun k => payloadOf codes (chunkAt C inp k)) =
      payloadOf codes inp := by
    conv_rhs => rw [← flatMap_chunkAt hC inp]
    exact List.flatMap_assoc.symm
  rw [compressEvents_eq, received_append, received_append, received_flatMap, received_flatMap]
  simp only [received_countEvents, received_substEvents, hpayload]
  simp [received, Event.bits, compressedBits]

theorem pollCount_compressEvents : pollCount (compressEvents C tree codes inp) = 2 * ceilDiv inp.length C := by
  rw [compressEvents_eq, pollCount_append, pollCount_append, pollCount_flatMap, pollCount_flatMap]
  simp only [pollCount_countEvents, pollCount_substEvents, List.map_const', List.length_range, List.sum_replicate,
    smul_eq_mul, Nat.mul_one, Nat.two_mul]
  rfl

include hC in
theorem lastProgress_compressEvents (hne : inp ≠ []) (p : Nat) :
    lastProgress p (compressEvents C tree codes inp) = 100 := by
  have hlen := List.length_pos_iff.2 hne
  have hall := le_ceilDiv_mul hC inp.length
  obtain ⟨n, hn⟩ := Nat.exists_eq_succ_of_ne_zero (n := ceilDiv inp.length C) fun h0 => by
    rw [h0] at hall
    omega
  rw [hn] at hall
  simp only [compressEvents_eq, lastProgress_append, hn, Nat.succ_eq_add_one, List.range_succ, List.flatMap_append,
    List.flatMap_singleton, lastProgress_substEvents]
  rw [Nat.min_eq_right hall, Nat.mul_div_cancel _ hlen]

end

/-! ## The command (R261) -/

theorem exec_cdCompress {s : State} {r : XReg} {alg : Algorithm} (hs : Ready s) (hne : s.input ≠ [])
    (halg : algorithmOperand s.x[r] = some alg) :
    exec (.cdCompress r) s = .next (s.afterJob ((s.job s.ham).runFile (compressBody s.cfg s.input alg))) := by
  refine unlessHalted_eq hs.running ?_
  rw [halg]
  exact (unlessUnitOpen_closed hs.reader hs.writer _).trans (if_neg (by simpa using hne))

/-- CD.COMPRESS in a quiet environment, and the code it uses. -/
theorem exec_cdCompress_quiet {s : State} {r : XReg} (hs : Ready s) (hq : Quiet s.env) (hr : s.x[r] ≤ 1)
    (hne : s.input ≠ []) (hsize : 1 ≤ s.cfg.chunkBytes) :
    ∃ tree codes n, Builds s.x[r] s.input tree codes ∧ CodeOf s.input tree codes ∧
      exec (.cdCompress r) s = .next { s with
        output := pack (compressedBits tree (payloadOf codes s.input)),
        progress := 100, report := .success,
        env := afterDraws s.env (2 * ceilDiv s.input.length s.cfg.chunkBytes) n } := by
  obtain ⟨tree, codes, hbuild, hbuilds, hcode⟩ := exists_buildCode (alg := s.x[r]) hne
  obtain ⟨n, hn⟩ :=
    s.afterJob_course_quiet s.ham (compressEvents s.cfg.chunkBytes tree codes s.input) .success hq
  refine ⟨tree, codes, n, hbuilds, hcode, ?_⟩
  rw [exec_cdCompress hs hne (algorithmOperand_of_le_one hr), compressBody_eq_course hsize hbuild hcode.covers, hn,
    received_compressEvents hsize, pollCount_compressEvents, lastProgress_compressEvents hsize _ _ _ hne]

/-! ## The obligation -/

/-- Settles O45: the body is the course of R261 (`compressBody_eq_course`), whose writes are the format of R260. -/
theorem compressWritesTheFormat : Obligations.CompressWritesTheFormat := by
  refine fun r => ⟨row_word (by decide) rfl, fun s hs hq hr hne hsize => ?_⟩
  obtain ⟨tree, codes, n, hbuilds, hcode, hexec⟩ := exec_cdCompress_quiet hs hq hr hne hsize
  exact ⟨tree, codes, n, hbuilds, hcode.full, fun v hv => Option.isSome_iff_exists.2 (hcode.covers v hv), hexec⟩

end Sys2Proof.Machine
end

section
/-! SUPPORT. The compression family (46_compression.md): CD.DECOMPRESS. The symbols that the payload bits complete on
their way through the tree, and the body as the course that R262 describes. -/

namespace Sys2Proof.Machine
open Sys2Proof.Claims

/-! ## The walk of the payload through the tree (R262) -/

/-- From the node `cur` of `root` the bits reach children that are there; the marks tell for each bit the symbol it
completes, if any. -/
inductive Walks (root : Tree) : Tree → Bits → List (Option Byte) → Prop where
  | done (cur : Tree) : Walks root cur [] []
  | symbol {cur : Tree} {v : Bool} {sym : Byte} {bits : Bits} {marks : List (Option Byte)} :
      cur.child v = .leaf sym → Walks root root bits marks → Walks root cur (v :: bits) (some sym :: marks)
  | inner {cur : Tree} {v : Bool} {l r : Tree} {bits : Bits} {marks : List (Option Byte)} :
      cur.child v = .node l r → Walks root (.node l r) bits marks → Walks root cur (v :: bits) (none :: marks)

theorem Walks.length_eq {root cur : Tree} {bits : Bits} {marks : List (Option Byte)} (h : Walks root cur bits marks) :
    marks.length = bits.length := by
  induction h with
  | done => rfl
  | symbol _ _ ih | inner _ _ ih => rw [List.length_cons, List.length_cons, ih]

theorem Tree.at_cons (t : Tree) (v : Bool) (p : Bits) : t.at (v :: p) = (t.child v).at p := rfl

/-- The path to a leaf completes the leaf's symbol with its last bit, and the walk goes on from the root. -/
theorem Walks.leaf {root : Tree} {bits : Bits} {marks : List (Option Byte)} (h : Walks root root bits marks)
    {sym : Byte} {v : Bool} {p : Bits} {cur : Tree} (hleaf : cur.at (v :: p) = .leaf sym) :
    Walks root cur (v :: p ++ bits) (List.replicate p.length none ++ some sym :: marks) := by
  induction p generalizing v cur with
  | nil => exact .symbol hleaf h
  | cons v' p ih =>
    rw [Tree.at_cons] at hleaf
    obtain ⟨l, r, hnode⟩ := Tree.exists_node_of_at_cons hleaf
    rw [hnode] at hleaf
    exact .inner hnode (ih hleaf)

theorem Tree.exists_node_of_isNode {t : Tree} (h : t.isNode = true) : ∃ l r, t = .node l r := by
  cases t with
  | absent | leaf => cases h
  | node l r => exact ⟨l, r, rfl⟩

/-- The node above an inner node is an inner node. -/
theorem Tree.isNode_child_of_at_cons {t : Tree} {v : Bool} {p : Bits} (h : (t.at (v :: p)).isNode = true) :
    ∃ l r, t.child v = .node l r := by
  rw [Tree.at_cons] at h
  cases p with
  | nil => exact Tree.exists_node_of_isNode h
  | cons v' p =>
    obtain ⟨l, r, hnode⟩ := Tree.exists_node_of_isNode h
    cases hchild : t.child v with
    | absent | leaf => rw [hchild] at hnode; simp at hnode
    | node l r => exact ⟨l, r, rfl⟩

/-- A partial code completes no symbol. -/
theorem Walks.part {root cur : Tree} {p : Bits} (h : (cur.at p).isNode = true) :
    Walks root cur p (List.replicate p.length none) := by
  induction p generalizing cur with
  | nil => exact .done cur
  | cons v p ih =>
    obtain ⟨l, r, hnode⟩ := Tree.isNode_child_of_at_cons h
    rw [Tree.at_cons, hnode] at h
    exact .inner hnode (ih h)

/-- The codes of symbols, each a path to the symbol's leaf, then a partial code. -/
theorem walks_marksOf {root : Tree} (hroot : root.isNode = true) {items : List (Bits × Byte)} {part : Bits}
    (hitems : ∀ e ∈ items, root.at e.1 = .leaf e.2) (hpart : (root.at part).isNode = true) :
    Walks root root (items.flatMap Prod.fst ++ part) (marksOf items part) := by
  induction items with
  | nil => exact .part hpart
  | cons e items ih =>
    rw [List.forall_mem_cons] at hitems
    obtain ⟨hleaf, hitems⟩ := hitems
    obtain ⟨code, sym⟩ := e
    cases code with
    | nil =>
      rw [Tree.at_nil] at hleaf
      rw [hleaf] at hroot
      cases hroot
    | cons v p => simpa [marksOf] using (ih hitems).leaf hleaf

/-! ## Feeding the payload (R262) -/

/-- The events of one payload bit, `e` being its mark and its index. -/
def bitEvents (C total : Nat) (e : Option Byte × Nat) : List Event :=
  (if e.2 % (8 * C) = 0 then [.poll, .progress (100 * e.2 / total)] else []) ++ [.read] ++
    (match e.1 with | some v => [.write (byteBits v)] | none => [])

theorem payloadPoll_eq_perform (cfg : Config) (j total : Nat) :
    payloadPoll cfg j total =
      FileM.perform cfg (if j % (8 * cfg.chunkBytes) = 0 then [.poll, .progress (100 * j / total)] else []) := by
  rw [payloadPoll]
  split <;> rfl

theorem feedPayload_eq_perform (cfg : Config) {root cur : Tree} {bits : Bits} {marks : List (Option Byte)}
    (h : Walks root cur bits marks) (total j : Nat) :
    feedPayload cfg root total j cur bits =
      FileM.perform cfg ((marks.zipIdx j).flatMap (bitEvents cfg.chunkBytes total)) := by
  induction h generalizing j with
  | done => rfl
  | symbol hchild _ ih | inner hchild _ ih =>
    rw [feedPayload, hchild, List.zipIdx_cons, List.flatMap_cons, payloadPoll_eq_perform]
    simp only [ih, bitEvents, FileM.perform_append, FileM.perform_singleton, FileM.event, bind_assoc, List.append_nil]

/-! ## The body (R262) -/

theorem decompressEvents_eq (C : Nat) (marks : List (Option Byte)) :
    decompressEvents C marks =
      [.read, .read] ++ marks.zipIdx.flatMap (bitEvents C marks.length) ++ [.progress 100] := rfl

theorem length_compressedBits (tree : Tree) (payload : Bits) :
    (compressedBits tree payload).length = 3 + tree.serialize.length + payload.length := by
  rw [compressedBits, List.length_append, List.length_append, length_bitsOf]

theorem usedBitsField_eq (bits : Bits) :
    usedBitsField bits = if natOfBits (bits.take 3) = 0 then 8 else natOfBits (bits.take 3) := rfl

theorem course_refused (cfg : Config) :
    FileM.course cfg [.read, .read] .failure = (do FileM.io; FileM.io; FileM.stop .failure) := by
  simp only [FileM.course, FileM.perform, FileM.event, FileM.finish, bind_assoc, pure_bind]

section
variable (cfg : Config) {inp : List Byte} {tree : Tree}

/-- CD.DECOMPRESS of a file with a tree and a payload, filled up to whole bytes by any bits, goes through the course of
R262. -/
theorem decompressBody_eq_course (htree : FullTree tree) {payload pad : Bits} {marks : List (Option Byte)}
    (hwalk : Walks tree tree payload marks) (hfile : streamBits inp = compressedBits tree payload ++ pad)
    (hpad : pad.length < 8) :
    decompressBody cfg inp = FileM.course cfg (decompressEvents cfg.chunkBytes marks) .success := by
  have hlen := congrArg List.length hfile
  simp only [length_streamBits, List.length_append, length_compressedBits] at hlen
  have htake : (streamBits inp).take 3 = bitsOf 3 ((3 + tree.serialize.length + payload.length) % 8) := by
    rw [hfile, compressedBits]
    simp
  have hdrop : (streamBits inp).drop 3 = tree.serialize ++ (payload ++ pad) := by
    rw [hfile, compressedBits]
    simp
  have hpayload : (streamBits inp).drop (3 + tree.serialize.length) = payload ++ pad := by
    rw [← List.drop_drop, hdrop, List.drop_left]
  have htotal : 8 * (inp.length - 1) + usedBitsField (streamBits inp) =
      3 + tree.serialize.length + payload.length := by
    rw [usedBitsField_eq, htake, natOfBits_bitsOf]
    split <;> omega
  rw [decompressBody, hdrop, deserialize_serialize htree, decompressEvents_eq, FileM.course_success]
  simp only [htotal, hpayload, gt_iff_lt, Nat.not_lt.2 (Nat.le_add_right _ _), if_false, Nat.add_sub_cancel_left,
    List.take_left, feedPayload_eq_perform cfg hwalk, hwalk.length_eq, FileM.perform_append, FileM.perform, FileM.event,
    bind_assoc, bind_pure_unit]

/-- CD.DECOMPRESS of a file without a tree ends after its reads of F and of the tree (R262). -/
theorem decompressBody_noTree
    (hnone : ∀ (t : Tree) (rest : Bits), FullTree t → (streamBits inp).drop 3 ≠ t.serialize ++ rest) :
    decompressBody cfg inp = FileM.course cfg [.read, .read] .failure := by
  obtain ⟨c, hrefused, -⟩ := deserialize_refuses hnone
  rw [decompressBody, hrefused, course_refused]

/-- CD.DECOMPRESS of a file whose tree runs past the bits that F leaves ends there too (R262). -/
theorem decompressBody_cutTree (htree : FullTree tree) {rest : Bits}
    (hbits : (streamBits inp).drop 3 = tree.serialize ++ rest)
    (hcut : 8 * (inp.length - 1) + usedBitsField (streamBits inp) < 3 + tree.serialize.length) :
    decompressBody cfg inp = FileM.course cfg [.read, .read] .failure := by
  rw [decompressBody, hbits, deserialize_serialize htree]
  simp only [gt_iff_lt, hcut, if_true, course_refused]

end

/-! ## What the course leaves (R262, R263) -/

theorem received_bitEvents (C total : Nat) (e : Option Byte × Nat) :
    received (bitEvents C total e) = streamBits e.1.toList := by
  obtain ⟨mark, j⟩ := e
  rw [bitEvents, received_append, received_append]
  split <;> cases mark <;> simp [received, Event.bits, streamBits]

theorem received_decompressEvents (C : Nat) (marks : List (Option Byte)) :
    received (decompressEvents C marks) = streamBits (marks.flatMap Option.toList) := by
  have hmarks : (marks.zipIdx.flatMap fun e => streamBits e.1.toList) = streamBits (marks.flatMap Option.toList) := by
    rw [streamBits, List.flatMap_assoc]
    conv_rhs => rw [← List.zipIdx_map_fst 0 marks, List.flatMap_map]
    rfl
  rw [decompressEvents_eq, received_append, received_append, received_flatMap]
  simp only [received_bitEvents, hmarks]
  exact List.append_nil _

theorem flatMap_toList_marksOf (items : List (Bits × Byte)) (part : Bits) :
    (marksOf items part).flatMap Option.toList = items.map Prod.snd := by
  have hnone (n : Nat) : (List.replicate n (none : Option Byte)).flatMap Option.toList = [] := by simp
  rw [marksOf, List.flatMap_append, hnone, List.append_nil, List.flatMap_assoc]
  simp [hnone, List.flatMap_append, ← List.map_eq_flatMap]

theorem pollCount_bitEvents (C total : Nat) (e : Option Byte × Nat) :
    pollCount (bitEvents C total e) = if e.2 % (8 * C) = 0 then 1 else 0 := by
  obtain ⟨mark, j⟩ := e
  rw [bitEvents, pollCount_append, pollCount_append]
  split <;> cases mark <;> rfl

/-- One poll in each run of `m` indices that has begun. -/
theorem sum_multiples_range {m : Nat} (hm : 1 ≤ m) (n : Nat) :
    ((List.range n).map fun j => if j % m = 0 then 1 else 0).sum = ceilDiv n m := by
  induction n with
  | zero => exact (Nat.div_eq_of_lt (by omega)).symm
  | succ n ih =>
    have hstep : ceilDiv (n + 1) m = ceilDiv n m + if m ∣ n then 1 else 0 := by
      rw [ceilDiv, ceilDiv, show n + 1 + m - 1 = n + m - 1 + 1 by omega, Nat.succ_div,
        show n + m - 1 + 1 = n + m by omega]
      simp
    rw [List.range_succ, List.map_append, List.sum_append, ih, hstep]
    simp [Nat.dvd_iff_mod_eq_zero]

theorem pollCount_decompressEvents {C : Nat} (hC : 1 ≤ C) (marks : List (Option Byte)) :
    pollCount (decompressEvents C marks) = ceilDiv marks.length (8 * C) := by
  rw [decompressEvents_eq, pollCount_append, pollCount_append, pollCount_flatMap]
  have hindices : (marks.zipIdx.map fun e => if e.2 % (8 * C) = 0 then 1 else 0) =
      (List.range marks.length).map fun j => if j % (8 * C) = 0 then 1 else 0 := by
    rw [List.range_eq_range', ← List.zipIdx_map_snd 0 marks, List.map_map]
    rfl
  simp only [pollCount_bitEvents, hindices, sum_multiples_range (m := 8 * C) (by omega)]
  exact Nat.zero_add _

theorem lastProgress_decompressEvents (C : Nat) (marks : List (Option Byte)) (p : Nat) :
    lastProgress p (decompressEvents C marks) = 100 := by
  rw [decompressEvents_eq, lastProgress_append]
  rfl

/-! ## The command (R262) -/

theorem exec_cdDecompress {s : State} (hs : Ready s) (hne : s.input ≠ []) :
    exec .cdDecompress s = .next (s.afterJob ((s.job s.ham).runFile (decompressBody s.cfg s.input))) :=
  unlessHalted_eq hs.running
    ((unlessUnitOpen_closed hs.reader hs.writer _).trans (if_neg (by simpa using hne)))

section
variable {s : State} (hs : Ready s) (hq : Quiet s.env) (hne : s.input ≠ [])
include hs hq hne

/-- CD.DECOMPRESS of a file in a quiet environment. -/
theorem exec_cdDecompress_file (hsize : 1 ≤ s.cfg.chunkBytes) {tree : Tree} {items : List (Bits × Byte)}
    {part pad : Bits} (htree : FullTree tree) (hitems : ∀ e ∈ items, tree.at e.1 = .leaf e.2)
    (hpart : (tree.at part).isNode = true)
    (hfile : streamBits s.input = compressedBits tree (items.flatMap Prod.fst ++ part) ++ pad) (hpad : pad.length < 8) :
    ∃ n, exec .cdDecompress s = .next { s with
      output := items.map Prod.snd, progress := 100, report := .success,
      env := afterDraws s.env (ceilDiv (items.flatMap Prod.fst ++ part).length (8 * s.cfg.chunkBytes)) n } := by
  have hwalk := walks_marksOf (Tree.isNode_of_wf (wf_of_fullTree htree)) hitems hpart
  obtain ⟨n, hn⟩ :=
    s.afterJob_course_quiet s.ham (decompressEvents s.cfg.chunkBytes (marksOf items part)) .success hq
  refine ⟨n, ?_⟩
  rw [exec_cdDecompress hs hne, decompressBody_eq_course s.cfg htree hwalk hfile hpad, hn, received_decompressEvents,
    flatMap_toList_marksOf, pack_streamBits, lastProgress_decompressEvents, pollCount_decompressEvents hsize,
    hwalk.length_eq]

/-- CD.DECOMPRESS of a file whose header is refused. -/
theorem exec_cdDecompress_refused (hbody : decompressBody s.cfg s.input = FileM.course s.cfg [.read, .read] .failure) :
    ∃ n, exec .cdDecompress s =
      .next { s with output := [], report := .failure, env := afterDraws s.env 0 n } := by
  obtain ⟨n, hn⟩ := s.afterJob_course_quiet s.ham [.read, .read] .failure hq
  refine ⟨n, ?_⟩
  rw [exec_cdDecompress hs hne, hbody, hn]
  rfl

end

/-! ## The round trip (R264) -/

/-- The codes of the bytes of IN, as the items of a payload. -/
def codedItems (codes : Vector (Option Bits) 256) (inp : List Byte) : List (Bits × Byte) :=
  inp.map fun v => (payloadOf codes [v], v)

theorem flatMap_codedItems (codes : Vector (Option Bits) 256) (inp : List Byte) :
    (codedItems codes inp).flatMap Prod.fst = payloadOf codes inp := by
  rw [codedItems, List.flatMap_map]
  exact flatMap_payloadOf_singleton codes inp

theorem at_of_mem_codedItems {inp : List Byte} {tree : Tree} {codes : Vector (Option Bits) 256}
    (h : CodeOf inp tree codes) : ∀ e ∈ codedItems codes inp, tree.at e.1 = .leaf e.2 := by
  intro e he
  obtain ⟨v, hv, rfl⟩ := List.mem_map.1 he
  obtain ⟨c, hc⟩ := h.covers v hv
  rw [payloadOf_singleton, hc]
  exact h.leads v c hc

theorem map_snd_codedItems (codes : Vector (Option Bits) 256) (inp : List Byte) :
    (codedItems codes inp).map Prod.snd = inp := by
  simp [codedItems, Function.comp_def]

/-- A packed sequence is filled up to whole bytes. -/
theorem exists_padding_of_pack (w : Bits) : ∃ pad, streamBits (pack w) = w ++ pad ∧ pad.length < 8 :=
  ⟨_, streamBits_pack_padded w, by rw [List.length_replicate]; omega⟩

/-! ## The obligations -/

/-- Settles O46: a file with a tree goes through the course of R262 (`decompressBody_eq_course`), whose writes are the
completed symbols; a refused header ends it before any write. -/
theorem decompressWritesTheCodedBytes : Obligations.DecompressWritesTheCodedBytes := by
  refine ⟨row_word (by decide) rfl, fun s hs hq hne hsize => ⟨fun tree items part pad => ?_, fun hnone => ?_,
    fun tree rest htree hbits F hF hcut => ?_⟩⟩
  · exact exec_cdDecompress_file hs hq hne hsize
  · exact exec_cdDecompress_refused hs hq hne (decompressBody_noTree s.cfg hnone)
  · subst hF
    exact exec_cdDecompress_refused hs hq hne (decompressBody_cutTree s.cfg htree hbits hcut)

/-- Settles O47: the file that CD.COMPRESS writes is the F field, the tree and the codes of the bytes of IN, padded with
zeros, which CD.DECOMPRESS reads back symbol by symbol. -/
theorem compressedFilesDecompress : Obligations.CompressedFilesDecompress := by
  intro r s hs hq hr hne hsize
  obtain ⟨tree, codes, n, hbuilds, hcode, hexec⟩ := exec_cdCompress_quiet hs hq hr hne hsize
  refine ⟨_, hexec, rfl, ⟨tree, codes, hbuilds, ?_⟩, fun u hu hqu hsizeu hin => ?_⟩
  · rw [length_pack, length_compressedBits]
  · obtain ⟨pad, hpack, hpad⟩ := exists_padding_of_pack (compressedBits tree (payloadOf codes s.input))
    have hfile : streamBits u.input =
        compressedBits tree ((codedItems codes s.input).flatMap Prod.fst ++ []) ++ pad := by
      rw [hin, List.append_nil, flatMap_codedItems, hpack]
    have hneu : u.input ≠ [] := by
      rw [hin]
      refine List.ne_nil_of_length_pos ?_
      rw [length_pack, length_compressedBits]
      omega
    obtain ⟨m, hm⟩ := exec_cdDecompress_file (part := []) hu hqu hneu hsizeu hcode.full (at_of_mem_codedItems hcode)
      (Tree.isNode_of_wf (wf_of_fullTree hcode.full)) hfile hpad
    rw [map_snd_codedItems] at hm
    exact ⟨_, hm⟩

end Sys2Proof.Machine
end

section
/-! SUPPORT. The Hamming family (47_hamming.md): the block code. Positions by their index, what the encoder puts at each
of them, and what a flipped bit does to syndrome and parity. -/

namespace Sys2Proof.Machine
open Sys2Proof.Claims

/-! ## Block sizes and positions (R280) -/

theorem hamSize_pos {B : Nat} (h : HamSize B) : 0 < B := by
  obtain ⟨m, -, -, rfl⟩ := h
  positivity

theorem hamSize_le {B : Nat} (h : HamSize B) : B ≤ 2 ^ 16 := by
  obtain ⟨m, -, hm, rfl⟩ := h
  exact Nat.pow_le_pow_right (by decide) hm

theorem hamK_eq_infoBits {B : Nat} (h : B ≠ 0) : hamK B = infoBits B := if_neg h

/-- The parity positions are 0 and the powers of two. -/
theorem isParityPos_iff {p : Nat} : isParityPos p = true ↔ p = 0 ∨ ∃ t, p = 2 ^ t := by
  simp only [isParityPos, Bool.or_eq_true, beq_iff_eq]
  constructor
  · exact Or.imp_right fun h => ⟨_, h.symm⟩
  · rintro (h | ⟨t, rfl⟩)
    · exact .inl h
    · exact .inr (by rw [Nat.log2_two_pow])

theorem isParityPos_two_pow (t : Nat) : isParityPos (2 ^ t) = true := isParityPos_iff.2 (.inr ⟨t, rfl⟩)

/-- The rule's list of data positions, by the model's test of a position. -/
theorem dataPositions_eq_filter {B : Nat} (h : B ≤ 2 ^ 16) :
    dataPositions B = (List.range B).filter fun p => !isParityPos p := by
  refine List.filter_congr fun p hp => ?_
  have hp : p < 2 ^ 16 := (List.mem_range.1 hp).trans_le h
  have hpow : ((List.range 17).any fun t => p == 2 ^ t) = true ↔ ∃ t, p = 2 ^ t := by
    simp only [List.any_eq_true, List.mem_range, beq_iff_eq]
    refine ⟨fun ⟨t, _, ht⟩ => ⟨t, ht⟩, fun ⟨t, ht⟩ => ⟨t, ?_, ht⟩⟩
    rw [ht, Nat.pow_lt_pow_iff_right (by decide)] at hp
    omega
  rw [Bool.eq_iff_iff]
  simp only [Bool.and_eq_true, decide_eq_true_eq, Bool.not_eq_true', ← Bool.not_eq_true, hpow, isParityPos_iff,
    not_or]

/-- Below 2^m stand m + 1 parity positions. -/
theorem countP_isParityPos_range (m : Nat) : (List.range (2 ^ m)).countP isParityPos = m + 1 := by
  have hset : {p ∈ Finset.range (2 ^ m) | isParityPos p = true} =
      insert 0 ((Finset.range m).image fun t => 2 ^ t) := by
    ext p
    simp only [Finset.mem_filter, Finset.mem_range, isParityPos_iff, Finset.mem_insert, Finset.mem_image]
    constructor
    · rintro ⟨hlt, h | ⟨t, rfl⟩⟩
      · exact .inl h
      · exact .inr ⟨t, (Nat.pow_lt_pow_iff_right (by decide)).1 hlt, rfl⟩
    · rintro (rfl | ⟨t, ht, rfl⟩)
      · exact ⟨by positivity, .inl rfl⟩
      · exact ⟨Nat.pow_lt_pow_right (by decide) ht, .inr ⟨t, rfl⟩⟩
  have hcount : (List.range (2 ^ m)).countP isParityPos = Nat.count (fun p => isParityPos p = true) (2 ^ m) := by
    simp [Nat.count]
  rw [hcount, Nat.count_eq_card_filter_range, hset, Finset.card_insert_of_notMem (by simp),
    Finset.card_image_of_injective _ (Nat.pow_right_injective le_rfl), Finset.card_range]

/-! ## Flipped bits -/

theorem flipAt_eq_flipBit (r : Bits) (p : Nat) : flipAt r p = flipBit r p := by
  apply List.ext_getElem?
  intro i
  rw [flipAt, flipBit, List.getElem?_set, List.getElem?_modify]
  by_cases h : p = i
  · subst h
    cases hp : r[p]? with
    | none => simp [List.getElem?_eq_none_iff.1 hp]
    | some v => obtain ⟨hlt, rfl⟩ := List.getElem?_eq_some_iff.1 hp; simp [hlt]
  · simp [h]

theorem flipBit_cons_zero (v : Bool) (r : Bits) : flipBit (v :: r) 0 = (!v) :: r := rfl

theorem flipBit_cons_succ (v : Bool) (r : Bits) (p : Nat) : flipBit (v :: r) (p + 1) = v :: flipBit r p := rfl

theorem syndromeFrom_flipBit {r : Bits} {i : Nat} (h : i < r.length) (p : Nat) :
    syndromeFrom p (flipBit r i) = syndromeFrom p r ^^^ (p + i) := by
  induction r generalizing p i with
  | nil => cases h
  | cons v r ih =>
    cases i with
    | zero => cases v <;> simp [flipBit_cons_zero, syndromeFrom, Nat.xor_comm]
    | succ i =>
      rw [flipBit_cons_succ, syndromeFrom, syndromeFrom, ih (by simpa using h), Nat.xor_assoc,
        show p + 1 + i = p + (i + 1) by omega]

theorem syndrome_flipBit {r : Bits} {i : Nat} (h : i < r.length) : syndrome (flipBit r i) = syndrome r ^^^ i := by
  rw [syndrome, syndromeFrom_flipBit h, Nat.zero_add]
  rfl

theorem parity_cons (v : Bool) (r : Bits) : parity (v :: r) = (v ^^ parity r) := by
  have hfold (a : Bool) : r.foldl Bool.xor a = (a ^^ r.foldl Bool.xor false) := by
    induction r generalizing a with
    | nil => simp
    | cons u r ih => rw [List.foldl_cons, List.foldl_cons, ih, ih (false ^^ u), Bool.false_xor, Bool.xor_assoc]
  rw [parity, List.foldl_cons, hfold, Bool.false_xor]
  rfl

theorem parity_flipBit {r : Bits} {i : Nat} (h : i < r.length) : parity (flipBit r i) = !parity r := by
  induction r generalizing i with
  | nil => cases h
  | cons v r ih =>
    cases i with
    | zero => rw [flipBit_cons_zero, parity_cons, parity_cons, Bool.not_xor]
    | succ i => rw [flipBit_cons_succ, parity_cons, parity_cons, ih (by simpa using h), Bool.xor_not]

/-- Position 0 holds no data. -/
theorem dataBits_eq_tail (r : Bits) : dataBits 0 r = dataBits 1 r.tail := by cases r <;> rfl

/-- Position 0 adds nothing to the syndrome. -/
theorem syndrome_eq_tail (r : Bits) : syndrome r = syndromeFrom 1 r.tail := by
  cases r with
  | nil => rfl
  | cons v r =>
    rw [syndrome, syndromeFrom, ite_self, Nat.zero_xor]
    rfl

theorem tail_flipBit_zero (r : Bits) : (flipBit r 0).tail = r.tail := by cases r <;> rfl

/-! ## The rule's syndrome, parity and data bits (R282) -/

theorem foldl_xor_eq (l : List Nat) (a : Nat) : l.foldl (· ^^^ ·) a = a ^^^ l.foldl (· ^^^ ·) 0 := by
  induction l generalizing a with
  | nil => simp
  | cons p l ih => rw [List.foldl_cons, List.foldl_cons, ih, ih (0 ^^^ p), Nat.zero_xor, Nat.xor_assoc]

theorem getD_append_length {r d : Bits} {v : Bool} : (r ++ v :: d).getD r.length false = v := by simp

/-- The positions of the set bits of a suffix of a block. -/
theorem foldl_xor_filter_range' (pre r : Bits) :
    ((List.range' pre.length r.length).filter fun p => (pre ++ r).getD p false).foldl (· ^^^ ·) 0 =
      syndromeFrom pre.length r := by
  induction r generalizing pre with
  | nil => rfl
  | cons v r ih =>
    have htail := ih (pre ++ [v])
    rw [List.append_assoc, List.singleton_append, List.length_append, List.length_singleton] at htail
    rw [List.length_cons, List.range'_succ, List.filter_cons, getD_append_length, syndromeFrom, ← htail]
    cases v with
    | false => simp
    | true => rw [if_pos rfl, if_pos rfl, List.foldl_cons, foldl_xor_eq, Nat.zero_xor]

theorem xorOfPositions_eq_syndrome (r : Bits) : xorOfPositions r = syndrome r := by
  rw [xorOfPositions, List.range_eq_range']
  exact foldl_xor_filter_range' [] r

theorem oddParity_eq_parity (r : Bits) : oddParity r = parity r := by
  induction r with
  | nil => rfl
  | cons v r ih =>
    rw [parity_cons, ← ih, oddParity, oddParity, List.count_cons]
    have hmod := Nat.mod_two_eq_zero_or_one (r.count true)
    cases v <;> grind

theorem map_getD_filter_range' (pre r : Bits) :
    (((List.range' pre.length r.length).filter fun p => !isParityPos p).map fun p => (pre ++ r).getD p false) =
      dataBits pre.length r := by
  induction r generalizing pre with
  | nil => rfl
  | cons v r ih =>
    have htail := ih (pre ++ [v])
    rw [List.append_assoc, List.singleton_append, List.length_append, List.length_singleton] at htail
    rw [List.length_cons, List.range'_succ, List.filter_cons, dataBits, ← htail]
    cases isParityPos pre.length with
    | true => rfl
    | false => simp

theorem readData_eq_dataBits {r : Bits} (h : r.length ≤ 2 ^ 16) : readData r = dataBits 0 r := by
  rw [readData, dataPositions_eq_filter h, List.range_eq_range']
  exact map_getD_filter_range' [] r

/-- The rule's decode function is the model's. -/
theorem hdec_eq_hamDecode {r : Bits} (h : r.length ≤ 2 ^ 16) : hdec r = hamDecode r := by
  have hflip : (flipBit r (syndrome r)).length ≤ 2 ^ 16 := by rwa [length_flipBit]
  rw [hdec, hamDecode, xorOfPositions_eq_syndrome, oddParity_eq_parity, flipAt_eq_flipBit, readData_eq_dataBits h,
    readData_eq_dataBits hflip]

/-! ## What the encoder puts where (R281) -/

theorem placeData_getElem?_parity {n p i : Nat} (msg : Bits) (hi : i < n) (hp : isParityPos (p + i) = true) :
    (placeData n p msg)[i]? = some false := by
  induction n generalizing p i msg with
  | zero => cases hi
  | succ n ih =>
    cases i with
    | zero =>
      rw [Nat.add_zero] at hp
      rw [placeData, if_pos hp]
      rfl
    | succ i =>
      have htail (msg : Bits) : (placeData n (p + 1) msg)[i]? = some false :=
        ih msg (by omega) (by rwa [show p + 1 + i = p + (i + 1) by omega])
      rw [placeData]
      split <;> exact htail _

/-- A parity slot 2^t holds bit t of the syndrome of the data, any other position keeps its bit. -/
theorem setParitySlots_getElem? (syn p i : Nat) (r : Bits) :
    (setParitySlots syn p r)[i]? =
      if p + i ≠ 0 ∧ isParityPos (p + i) then r[i]?.map fun _ => syn.testBit (Nat.log2 (p + i)) else r[i]? := by
  induction r generalizing p i with
  | nil => simp [setParitySlots]
  | cons v r ih =>
    cases i with
    | zero =>
      simp only [setParitySlots, Nat.add_zero]
      split <;> rfl
    | succ i => simpa [setParitySlots, show p + 1 + i = p + (i + 1) by omega] using ih (p + 1) i

theorem dataBits_setParitySlots (syn p : Nat) (r : Bits) : dataBits p (setParitySlots syn p r) = dataBits p r := by
  induction r generalizing p with
  | nil => rfl
  | cons v r ih =>
    rw [setParitySlots, dataBits, dataBits, ih]
    cases hp : isParityPos p <;> simp

/-- Placed message bits are read back, when there are as many as data positions. -/
theorem dataBits_placeData {n p : Nat} {msg : Bits}
    (h : msg.length = (List.range' p n).countP fun q => !isParityPos q) : dataBits p (placeData n p msg) = msg := by
  induction n generalizing p msg with
  | zero => exact (List.length_eq_zero_iff.1 h).symm
  | succ n ih =>
    rw [List.range'_succ, List.countP_cons] at h
    rw [placeData]
    cases hp : isParityPos p with
    | true => rw [if_pos rfl, dataBits, if_pos hp, ih (by simpa [hp] using h)]
    | false =>
      cases msg with
      | nil => simp [hp] at h
      | cons v msg =>
        rw [if_neg (by decide), dataBits, if_neg (by simp [hp]), List.tail_cons, ih (by simpa [hp] using h)]
        rfl

/-- Filling the parity slots changes bit t of the syndrome by what slot 2^t gets. -/
theorem testBit_syndromeFrom_setParitySlots (syn n p t : Nat) (msg : Bits) :
    (syndromeFrom p (setParitySlots syn p (placeData n p msg))).testBit t =
      ((syndromeFrom p (placeData n p msg)).testBit t ^^
        (decide (p ≤ 2 ^ t ∧ 2 ^ t < p + n) && syn.testBit t)) := by
  induction n generalizing p msg with
  | zero =>
    simp [placeData, setParitySlots, syndromeFrom]
  | succ n ih =>
    by_cases hp : p ≠ 0 ∧ isParityPos p = true
    · obtain ⟨hp0, hpar⟩ := hp
      obtain ⟨u, rfl⟩ := (isParityPos_iff.1 hpar).resolve_left hp0
      have hrange : decide (2 ^ u ≤ 2 ^ t ∧ 2 ^ t < 2 ^ u + (n + 1)) =
          (decide (u = t) ^^ decide (2 ^ u + 1 ≤ 2 ^ t ∧ 2 ^ t < 2 ^ u + 1 + n)) := by
        have hinj : u = t ↔ 2 ^ u = 2 ^ t := (Nat.pow_right_injective le_rfl).eq_iff.symm
        grind
      simp only [placeData, hpar, if_true, setParitySlots, hp0, ne_eq, not_false_eq_true, and_self, syndromeFrom,
        Nat.testBit_xor, ih, Nat.log2_two_pow, hrange]
      by_cases hut : u = t
      · subst hut
        cases hs : syn.testBit u <;> simp
      · cases hs : syn.testBit u <;> simp [hut]
    · have hslot : p ≠ 2 ^ t ∨ p = 0 := by
        by_contra hcon
        push Not at hcon
        exact hp ⟨hcon.2, hcon.1 ▸ isParityPos_two_pow t⟩
      have hpos : 0 < 2 ^ t := by positivity
      have hrange : decide (p ≤ 2 ^ t ∧ 2 ^ t < p + (n + 1)) = decide (p + 1 ≤ 2 ^ t ∧ 2 ^ t < p + 1 + n) := by
        grind
      rw [placeData]
      split <;> simp only [setParitySlots, hp, if_false, syndromeFrom, Nat.testBit_xor, ih, hrange, Bool.xor_assoc]

theorem syndromeFrom_lt {m : Nat} {r : Bits} {p : Nat} (h : p + r.length ≤ 2 ^ m) : syndromeFrom p r < 2 ^ m := by
  induction r generalizing p with
  | nil => exact Nat.two_pow_pos m
  | cons v r ih =>
    rw [List.length_cons] at h
    refine Nat.xor_lt_two_pow ?_ (ih (by omega))
    split <;> omega

/-! ## The codeword (R281) -/

section
variable (B : Nat) (msg : Bits)

/-- The message at the data positions and its parity slots, before position 0 is set. -/
def slotted : Bits := setParitySlots (syndrome (placeData B 0 msg)) 0 (placeData B 0 msg)

theorem length_slotted : (slotted B msg).length = B := by rw [slotted, length_setParitySlots, length_placeData]

variable {B} in
theorem hamEncode_eq_cons (hB : 0 < B) : hamEncode B msg = parity (slotted B msg).tail :: (slotted B msg).tail := by
  have hlen := length_slotted B msg
  rw [show hamEncode B msg = (slotted B msg).set 0 (parity (slotted B msg).tail) from rfl]
  cases hs : slotted B msg with
  | nil => rw [hs] at hlen; exact absurd hlen.symm hB.ne'
  | cons v r => rfl

/-- Position 0 is not a slot, and the data positions keep their bits. -/
theorem hamEncode_getElem?_succ (i : Nat) : (hamEncode B msg)[i + 1]? = (slotted B msg)[i + 1]? :=
  List.getElem?_set_ne (Nat.succ_ne_zero i).symm

variable {B msg}

/-- A data position of a codeword holds its message bit, a parity position of the placed message a 0. -/
theorem getD_placeData {p : Nat} (hp : p < B) :
    (placeData B 0 msg).getD p false = ((hamEncode B msg).getD p false && !isParityPos p) := by
  rw [List.getD_eq_getElem?_getD, List.getD_eq_getElem?_getD]
  cases hpar : isParityPos p with
  | true => rw [placeData_getElem?_parity msg hp (by rwa [Nat.zero_add]), Bool.not_true, Bool.and_false]; rfl
  | false =>
    cases p with
    | zero => cases hpar
    | succ i =>
      rw [hamEncode_getElem?_succ, slotted, setParitySlots_getElem?, if_neg (by simp [hpar]), Bool.not_false,
        Bool.and_true]

/-- Slot 2^t of a codeword. -/
theorem getD_hamEncode_two_pow {t : Nat} (ht : 2 ^ t < B) :
    (hamEncode B msg).getD (2 ^ t) false = (syndrome (placeData B 0 msg)).testBit t := by
  obtain ⟨i, hi⟩ := Nat.exists_eq_succ_of_ne_zero (Nat.two_pow_pos t).ne'
  have hslot : 2 ^ t ≠ 0 ∧ isParityPos (2 ^ t) = true := ⟨(Nat.two_pow_pos t).ne', isParityPos_two_pow t⟩
  have hlen : 2 ^ t < (placeData B 0 msg).length := by rwa [length_placeData]
  rw [List.getD_eq_getElem?_getD, hi, hamEncode_getElem?_succ, ← Nat.succ_eq_add_one, ← hi, slotted,
    setParitySlots_getElem?, Nat.zero_add, if_pos hslot, List.getElem?_eq_getElem hlen, Nat.log2_two_pow]
  rfl

/-- The exclusive or of the data positions set in a codeword is the syndrome of the placed message. -/
theorem foldl_xor_dataPositions (hB : B ≤ 2 ^ 16) :
    ((dataPositions B).filter fun p => (hamEncode B msg).getD p false).foldl (· ^^^ ·) 0 =
      syndrome (placeData B 0 msg) := by
  rw [← xorOfPositions_eq_syndrome, xorOfPositions, length_placeData, dataPositions_eq_filter hB, List.filter_filter]
  congr 1
  exact List.filter_congr fun p hp => (getD_placeData (List.mem_range.1 hp)).symm

/-- Every codeword has syndrome 0. -/
theorem syndrome_hamEncode (h : HamSize B) : syndrome (hamEncode B msg) = 0 := by
  obtain ⟨m, -, -, rfl⟩ := h
  have hlt : syndrome (placeData (2 ^ m) 0 msg) < 2 ^ m := syndromeFrom_lt (by simp)
  rw [syndrome_eq_tail, hamEncode_eq_cons msg (Nat.two_pow_pos m), List.tail_cons, ← syndrome_eq_tail]
  refine Nat.eq_of_testBit_eq fun t => ?_
  rw [syndrome, slotted, testBit_syndromeFrom_setParitySlots, ← syndrome, Nat.zero_testBit, Nat.zero_add]
  by_cases ht : 2 ^ t < 2 ^ m
  · simp [ht]
  · have hhigh : (syndrome (placeData (2 ^ m) 0 msg)).testBit t = false :=
      Nat.testBit_lt_two_pow (hlt.trans_le (Nat.not_lt.1 ht))
    simp [hhigh]

/-- Every codeword has even parity. -/
theorem parity_hamEncode (hB : 0 < B) : parity (hamEncode B msg) = false := by
  rw [hamEncode_eq_cons msg hB, parity_cons, Bool.xor_self]

/-- A block has as many data positions as a message has bits. -/
theorem countP_dataPositions (h : HamSize B) : (List.range B).countP (fun p => !isParityPos p) = infoBits B := by
  obtain ⟨m, -, -, rfl⟩ := h
  have hall := List.length_eq_countP_add_countP isParityPos (l := List.range (2 ^ m))
  rw [List.length_range, countP_isParityPos_range] at hall
  simp only [Bool.not_eq_true, Bool.decide_eq_false] at hall
  rw [infoBits, Nat.log2_two_pow]
  omega

/-- The code is systematic. -/
theorem dataBits_hamEncode (h : HamSize B) (hmsg : msg.length = infoBits B) : dataBits 0 (hamEncode B msg) = msg := by
  rw [dataBits_eq_tail, hamEncode_eq_cons msg (hamSize_pos h), List.tail_cons, ← dataBits_eq_tail, slotted,
    dataBits_setParitySlots]
  refine dataBits_placeData ?_
  rw [hmsg, ← List.range_eq_range', countP_dataPositions h]

/-- The encoder writes the codeword of R281. -/
theorem isCodeword_hamEncode (h : HamSize B) (hmsg : msg.length = infoBits B) :
    IsCodeword B msg (hamEncode B msg) where
  length := length_hamEncode B msg
  data := by
    rw [readData_eq_dataBits (by rw [length_hamEncode]; exact hamSize_le h), dataBits_hamEncode h hmsg]
  slots t ht := by rw [getD_hamEncode_two_pow ht, foldl_xor_dataPositions (hamSize_le h)]
  parity := by
    rw [hamEncode_eq_cons msg (hamSize_pos h), oddParity_eq_parity]
    rfl

end

/-! ## Decoding a codeword with up to two flips (R288) -/

section
variable {B : Nat} {msg : Bits} (h : HamSize B)

theorem hamDecode_of_syndrome_eq_zero {r : Bits} (hs : syndrome r = 0) : hamDecode r = (dataBits 0 r, .ok) :=
  if_pos hs

theorem hamDecode_of_odd {r : Bits} (hs : syndrome r ≠ 0) (hp : parity r = true) :
    hamDecode r = (dataBits 0 (flipBit r (syndrome r)), .fixed) := (if_neg hs).trans (if_pos hp)

theorem hamDecode_of_even {r : Bits} (hs : syndrome r ≠ 0) (hp : parity r = false) :
    hamDecode r = (dataBits 0 r, .bad) := (if_neg hs).trans (if_neg (by simp [hp]))

include h in
theorem hamDecode_hamEncode (hmsg : msg.length = infoBits B) : hamDecode (hamEncode B msg) = (msg, .ok) := by
  rw [hamDecode_of_syndrome_eq_zero (syndrome_hamEncode h), dataBits_hamEncode h hmsg]

include h in
/-- The syndrome after one flip is the flipped position. -/
theorem syndrome_flipBit_hamEncode {p : Nat} (hp : p < B) : syndrome (flipBit (hamEncode B msg) p) = p := by
  rw [syndrome_flipBit (by rwa [length_hamEncode]), syndrome_hamEncode h, Nat.zero_xor]

theorem parity_flipBit_hamEncode {p : Nat} (hp : p < B) : parity (flipBit (hamEncode B msg) p) = true := by
  rw [parity_flipBit (by rwa [length_hamEncode]), parity_hamEncode (Nat.zero_lt_of_lt hp), Bool.not_false]

include h in
theorem hamDecode_flipBit (hmsg : msg.length = infoBits B) {p : Nat} (hp : p < B) (hp0 : p ≠ 0) :
    hamDecode (flipBit (hamEncode B msg) p) = (msg, .fixed) := by
  have hsyn := syndrome_flipBit_hamEncode (msg := msg) h hp
  rw [hamDecode_of_odd (by rwa [hsyn]) (parity_flipBit_hamEncode hp), hsyn, flipBit_flipBit,
    dataBits_hamEncode h hmsg]

include h in
theorem hamDecode_flipBit_zero (hmsg : msg.length = infoBits B) :
    hamDecode (flipBit (hamEncode B msg) 0) = (msg, .ok) := by
  rw [hamDecode_of_syndrome_eq_zero (syndrome_flipBit_hamEncode h (hamSize_pos h)), dataBits_eq_tail,
    tail_flipBit_zero, ← dataBits_eq_tail, dataBits_hamEncode h hmsg]

include h in
theorem hamDecode_flipBit_flipBit {p q : Nat} (hp : p < B) (hq : q < B) (hpq : p ≠ q) :
    (hamDecode (flipBit (flipBit (hamEncode B msg) p) q)).2 = .bad := by
  have hlen : q < (flipBit (hamEncode B msg) p).length := by rwa [length_flipBit, length_hamEncode]
  rw [hamDecode_of_even]
  · rwa [syndrome_flipBit hlen, syndrome_flipBit_hamEncode h hp, ne_eq, Nat.xor_eq_zero_iff]
  · rw [parity_flipBit hlen, parity_flipBit_hamEncode hp, Bool.not_true]

end

/-! ## The obligations -/

/-- Settles O49: a codeword has syndrome 0 and even parity; a flip adds its position to the syndrome and turns the
parity. -/
theorem hammingCorrectsOneAndDetectsTwo : Obligations.HammingCorrectsOneAndDetectsTwo := by
  intro B msg h hmsg
  simp only [flipAt_eq_flipBit]
  exact ⟨hamDecode_hamEncode h hmsg, fun p hp0 hp => hamDecode_flipBit h hmsg hp (Nat.one_le_iff_ne_zero.1 hp0),
    hamDecode_flipBit_zero h hmsg, fun p q => hamDecode_flipBit_flipBit h⟩

section
variable {s : State} (hs : s.fault = none)
include hs

theorem exec_hmEnc_ok {bd bs : BReg} (hB : s.hamB ≠ 0) (hlen : s.b[bs].length = infoBits s.hamB) :
    exec (.hmEnc bd bs) s = .next { s with b := s.b.set bd (hamEncode s.hamB s.b[bs]) } :=
  unlessHalted_eq hs ((if_neg hB).trans (if_neg (not_not.2 (by rw [hamK_eq_infoBits hB, hlen]))))

theorem exec_hmDec_ok {bd bs : BReg} {xd : XReg} {d : Bits} {k : OutcomeKind} (hB : s.hamB ≠ 0)
    (hlen : s.b[bs].length = s.hamB) (hdec : hamDecode s.b[bs] = (d, k)) :
    exec (.hmDec bd xd bs) s = .next { s with
      b := s.b.set bd d, x := s.x.set xd (outcomeCode k), ham := countOutcome k s.ham } :=
  unlessHalted_eq hs ((if_neg hB).trans ((if_neg (not_not.2 hlen)).trans (by rw [hdec]; rfl)))

end

/-- Settles O48: the two checks, then the code of R281 and the three outcomes of R282. -/
theorem hammingBlockCommands : Obligations.HammingBlockCommands := by
  refine ⟨fun bd bs => ⟨row_word (by decide) rfl, fun s hs => ⟨fun hB => ?_, fun hB hlen => ?_, fun h hlen => ?_⟩⟩,
    fun bd xd bs => ⟨row_word (by decide) rfl, fun s hs => ⟨fun hB => ?_, fun hB hlen => ?_, fun h hlen => ?_⟩⟩⟩
  · exact unlessHalted_eq_raised hs (if_pos hB)
  · exact unlessHalted_eq_raised hs ((if_neg hB).trans (if_pos (by rwa [hamK_eq_infoBits hB])))
  · exact ⟨_, isCodeword_hamEncode h hlen, exec_hmEnc_ok hs (hamSize_pos h).ne' hlen⟩
  · exact unlessHalted_eq_raised hs (if_pos hB)
  · exact unlessHalted_eq_raised hs ((if_neg hB).trans (if_pos hlen))
  · have hle : s.b[bs].length ≤ 2 ^ 16 := hlen.le.trans (hamSize_le h)
    have hexec {d : Bits} {k : OutcomeKind} := exec_hmDec_ok (bd := bd) (xd := xd) (d := d) (k := k) hs
      (hamSize_pos h).ne' hlen
    rw [xorOfPositions_eq_syndrome, oddParity_eq_parity, flipAt_eq_flipBit, readData_eq_dataBits hle,
      readData_eq_dataBits (by rwa [length_flipBit])]
    exact ⟨fun hsyn => hexec (hamDecode_of_syndrome_eq_zero hsyn), fun hsyn hp => hexec (hamDecode_of_odd hsyn hp),
      fun hsyn hp => hexec (hamDecode_of_even hsyn hp)⟩

end Sys2Proof.Machine
end

section
/-! SUPPORT. The Hamming family (47_hamming.md): HM.FENC. The blocks of a file and the bits of IN that they carry, and
the body as the course that R286 describes. -/

namespace Sys2Proof.Machine
open Sys2Proof.Claims

/-! ## Lists of events by index -/

theorem flatMap_zipIdx_fst {α β : Type} (f : α → List β) (l : List α) (j : Nat) :
    ((l.zipIdx j).flatMap fun e => f e.1) = l.flatMap f := by
  conv_rhs => rw [← List.zipIdx_map_fst j l, List.flatMap_map]

theorem zipIdx_take_append_drop {α : Type} {l : List α} {n : Nat} (h : n ≤ l.length) :
    l.zipIdx = (l.take n).zipIdx ++ (l.drop n).zipIdx n := by
  conv_lhs => rw [← List.take_append_drop n l, List.zipIdx_append, List.length_take, Nat.min_eq_left h, Nat.zero_add]

section
variable {α : Type} {f : α × Nat → List Event} (l : List α)

theorem pollCount_zipIdx_flatMap (hf : ∀ e, pollCount (f e) = 1) (j : Nat) :
    pollCount ((l.zipIdx j).flatMap f) = l.length := by
  rw [pollCount_flatMap, List.map_congr_left fun e _ => hf e, List.map_const', List.sum_replicate, smul_eq_mul,
    Nat.mul_one, List.length_zipIdx]

/-- When each item writes a PROGRESS of its index, that of the last one stays. -/
theorem lastProgress_zipIdx_flatMap {g : Nat → Nat} (hf : ∀ e p, lastProgress p (f e) = g (e.2 + 1)) (p : Nat) :
    lastProgress p (l.zipIdx.flatMap f) = if l = [] then p else g l.length := by
  cases l using List.reverseRecOn with
  | nil => rfl
  | append_singleton l a =>
    rw [List.zipIdx_append, List.flatMap_append, lastProgress_append, List.zipIdx_singleton, List.flatMap_singleton,
      hf, if_neg (by simp), List.length_append, Nat.zero_add]
    rfl

end

/-! ## Slices (R285) -/

theorem infoBits_pos {B : Nat} (h : HamSize B) : 0 < infoBits B := by
  obtain ⟨m, hm, -, rfl⟩ := h
  have hlt := Nat.lt_two_pow_self (n := m - 1)
  have hpow : 2 ^ m = 2 * 2 ^ (m - 1) := by rw [← Nat.pow_succ']; congr 1; omega
  rw [infoBits, Nat.log2_two_pow]
  omega

theorem infoBits_lt {B : Nat} (h : HamSize B) : infoBits B < 2 ^ 16 := by
  have := hamSize_le h
  have := infoBits_pos h
  rw [infoBits] at *
  omega

theorem slicesOf_eq_map_range (k n : Nat) (bits : Bits) :
    slicesOf k n bits = (List.range n).map fun i => (bits.drop (i * k)).take k := by
  induction n generalizing bits with
  | zero => rfl
  | succ n ih =>
    rw [slicesOf, ih, List.range_succ_eq_map, List.map_cons, List.map_map, Nat.zero_mul, List.drop_zero]
    simp [List.drop_drop, Nat.succ_mul, Nat.add_comm]

theorem length_of_mem_slicesOf {k n : Nat} {bits d : Bits} (h : n * k ≤ bits.length) (hd : d ∈ slicesOf k n bits) :
    d.length = k := by
  induction n generalizing bits with
  | zero => cases hd
  | succ n ih =>
    rw [Nat.succ_mul] at h
    rcases List.mem_cons.1 hd with rfl | hd
    · rw [List.length_take]
      omega
    · exact ih (by rw [List.length_drop]; omega) hd

/-- The overflow block of the input bits `M`, if there is one. -/
def overflowSlices (k : Nat) (M : Bits) : List Bits :=
  if M.length % k > 0 then [M.take (M.length % k) ++ bitRun (k - M.length % k) false] else []

/-- The body blocks of the input bits `M`. -/
def bodySlices (k : Nat) (M : Bits) : List Bits := slicesOf k (M.length / k) (M.drop (M.length % k))

/-- The rule's list of the blocks of a file. -/
theorem hamFileData_eq (k : Nat) (M : Bits) :
    hamFileData k M = fieldSlices k (M.length % k) ++ overflowSlices k M ++ bodySlices k M := by
  have hbody : (M.length - M.length % k) / k = M.length / k := (Nat.div_eq_sub_mod_div).symm
  simp only [hamFileData, fieldSlices, overflowSlices, bodySlices, slicesOf_eq_map_range, fieldBlocks, hbody,
    List.drop_drop]

theorem hamFileBlocks_eq (k : Nat) (M : Bits) :
    hamFileBlocks k M = (fieldSlices k (M.length % k)).map (·, 0) ++
      (overflowSlices k M).map (·, M.length % k) ++ (bodySlices k M).map (·, k) := by
  rw [hamFileBlocks, overflowSlices]
  split <;> rfl

theorem map_fst_hamFileBlocks (k : Nat) (M : Bits) : (hamFileBlocks k M).map Prod.fst = hamFileData k M := by
  rw [hamFileBlocks_eq, hamFileData_eq]
  simp [Function.comp_def]

section
variable {B : Nat} (h : HamSize B) (M : Bits)

theorem length_fieldSlices (o : Nat) : (fieldSlices (infoBits B) o).length = fieldCount B := length_slicesOf _ _ _

theorem length_overflowSlices (k : Nat) : (overflowSlices k M).length = if M.length % k = 0 then 0 else 1 := by
  rcases Nat.eq_zero_or_pos (M.length % k) with ho | ho
  · rw [overflowSlices, ho]
    rfl
  · rw [overflowSlices, if_pos ho, if_neg ho.ne']
    rfl

theorem length_bodySlices (k : Nat) : (bodySlices k M).length = M.length / k := length_slicesOf _ _ _

theorem length_hamFileData : (hamFileData (infoBits B) M).length =
    fieldCount B + (if M.length % infoBits B = 0 then 0 else 1) + M.length / infoBits B := by
  rw [hamFileData_eq, List.length_append, List.length_append, length_fieldSlices, length_overflowSlices,
    length_bodySlices]

include h in
theorem sixteen_le_fieldCount_mul : 16 ≤ fieldCount B * infoBits B := le_ceilDiv_mul (infoBits_pos h) 16

include h in
theorem fieldCount_pos : 0 < fieldCount B :=
  Nat.pos_of_ne_zero fun h0 => by have := sixteen_le_fieldCount_mul h; rw [h0] at this; omega

include h in
/-- Every block of a file carries k bits. -/
theorem length_of_mem_hamFileData {d : Bits} (hd : d ∈ hamFileData (infoBits B) M) : d.length = infoBits B := by
  have hk := infoBits_pos h
  have hmod := Nat.mod_lt M.length hk
  have hsplit := Nat.div_add_mod' M.length (infoBits B)
  rw [hamFileData_eq, List.mem_append, List.mem_append] at hd
  rcases hd with (hd | hd) | hd
  · refine length_of_mem_slicesOf ?_ hd
    rw [List.length_append, length_bitsOf, List.length_replicate]
    exact (Nat.add_sub_of_le (sixteen_le_fieldCount_mul h)).ge
  · rw [overflowSlices] at hd
    split at hd
    · rw [List.mem_singleton.1 hd, List.length_append, List.length_take, List.length_replicate]
      omega
    · cases hd
  · exact length_of_mem_slicesOf (by rw [List.length_drop]; omega) hd

end

/-! ## The bits of IN that the blocks carry (R286) -/

theorem hamConsumed_of_le (B total : Nat) {n : Nat} (hn : n ≤ fieldCount B) : hamConsumed B total n = 0 :=
  if_pos (Nat.sub_eq_zero_of_le hn)

/-- After the overflow block, if any, each block carries k bits. -/
theorem hamConsumed_body (B total j : Nat) :
    hamConsumed B total (fieldCount B + (if total % infoBits B = 0 then 0 else 1) + j) =
      total % infoBits B + j * infoBits B := by
  by_cases ho : total % infoBits B = 0
  · rw [if_pos ho, Nat.add_zero, hamConsumed, Nat.add_sub_cancel_left, ho, Nat.zero_add]
    cases j <;> simp
  · rw [if_neg ho, Nat.add_assoc, hamConsumed, Nat.add_sub_cancel_left, Nat.add_sub_cancel_left]
    simp [ho]

theorem of_mem_zipIdx_map_const {α : Type} {l : List α} {carried n : Nat} {e : (α × Nat) × Nat}
    (he : e ∈ (l.map (·, carried)).zipIdx n) : e.1.2 = carried ∧ n ≤ e.2 ∧ e.2 < n + l.length := by
  obtain ⟨blk, i⟩ := e
  obtain ⟨hle, hlt, hblk⟩ := List.mem_zipIdx he
  rw [List.length_map] at hlt
  exact ⟨by rw [hblk, List.getElem_map], hle, hlt⟩

/-- The bits of IN consumed grow by those that a block carries, which are none for the field blocks. -/
theorem hamConsumed_succ {B : Nat} (h : HamSize B) (M : Bits) :
    ∀ e ∈ (hamFileBlocks (infoBits B) M).zipIdx,
      hamConsumed B M.length (e.2 + 1) = hamConsumed B M.length e.2 + e.1.2 ∧ (0 < e.1.2 ↔ fieldCount B ≤ e.2) := by
  intro e he
  have hbody := hamConsumed_body B M.length
  simp only [hamFileBlocks_eq, List.zipIdx_append, List.length_append, List.length_map, length_fieldSlices,
    length_overflowSlices, List.mem_append, Nat.zero_add] at he
  rcases he with (he | he) | he
  · obtain ⟨hcarried, -, hlt⟩ := of_mem_zipIdx_map_const he
    rw [length_fieldSlices, Nat.zero_add] at hlt
    rw [hcarried, hamConsumed_of_le B _ hlt, hamConsumed_of_le B _ hlt.le]
    exact ⟨rfl, by omega⟩
  · obtain ⟨hcarried, hle, hlt⟩ := of_mem_zipIdx_map_const he
    rw [length_overflowSlices] at hlt
    have ho : M.length % infoBits B ≠ 0 := fun ho => by rw [if_pos ho] at hlt; omega
    rw [if_neg ho] at hlt
    have hidx : e.2 = fieldCount B := by omega
    have hfirst := hbody 0
    rw [if_neg ho, Nat.add_zero, Nat.zero_mul, Nat.add_zero] at hfirst
    rw [hcarried, hidx, hfirst, hamConsumed_of_le B _ le_rfl, Nat.zero_add]
    exact ⟨rfl, by omega⟩
  · obtain ⟨hcarried, hle, -⟩ := of_mem_zipIdx_map_const he
    obtain ⟨j, hj⟩ := Nat.exists_eq_add_of_le hle
    rw [hcarried, hj, Nat.add_assoc _ j 1, hbody, hbody, Nat.succ_mul, ← Nat.add_assoc]
    exact ⟨rfl, by have := infoBits_pos h; omega⟩

/-! ## The body (R286) -/

/-- The events of one block of HM.FENC. -/
def encodeEvents (B total : Nat) (e : Bits × Nat) : List Event :=
  [.poll] ++ (if fieldCount B ≤ e.2 then [.read] else []) ++
    [.write e.1, .progress (percent (hamConsumed B total (e.2 + 1)) total)]

theorem hamEncodeEvents_eq (B : Nat) (inp : List Byte) :
    hamEncodeEvents B inp = (hamFile B inp).zipIdx.flatMap (encodeEvents B (8 * inp.length)) := rfl

theorem readCarried_eq_perform (cfg : Config) {carried i n : Nat} (h : 0 < carried ↔ n ≤ i) :
    readCarried carried = FileM.perform cfg (if n ≤ i then [.read] else []) := by
  simp only [readCarried, gt_iff_lt, h]
  split
  · exact (FileM.perform_singleton cfg .read).symm
  · rfl

theorem hamEncodeBlocks_eq_perform (cfg : Config) (B total j : Nat) {blks : List (Bits × Nat)}
    (hblks : ∀ e ∈ blks.zipIdx j,
      hamConsumed B total (e.2 + 1) = hamConsumed B total e.2 + e.1.2 ∧ (0 < e.1.2 ↔ fieldCount B ≤ e.2)) :
    hamEncodeBlocks cfg B total (hamConsumed B total j) blks =
      FileM.perform cfg (((blks.map fun blk => hamEncode B blk.1).zipIdx j).flatMap (encodeEvents B total)) := by
  induction blks generalizing j with
  | nil => rfl
  | cons blk blks ih =>
    rw [List.zipIdx_cons, List.forall_mem_cons] at hblks
    obtain ⟨⟨hconsumed, hread⟩, hblks⟩ := hblks
    rw [hamEncodeBlocks, ← hconsumed, ih _ hblks, readCarried_eq_perform cfg hread, List.map_cons, List.zipIdx_cons,
      List.flatMap_cons, encodeEvents]
    simp only [FileM.perform_append, FileM.perform, FileM.event, bind_assoc, pure_bind]
    rfl

/-- HM.FENC goes through the course of R286, whatever the environment does. -/
theorem hamEncodeBody_eq_course (cfg : Config) {B : Nat} (h : HamSize B) (inp : List Byte) :
    hamEncodeBody cfg B inp = FileM.course cfg (hamEncodeEvents B inp) .success := by
  have hblks := hamConsumed_succ h (streamBits inp)
  rw [length_streamBits] at hblks
  rw [FileM.course_success, hamEncodeEvents_eq, hamFile, ← map_fst_hamFileBlocks, List.map_map, hamEncodeBody,
    hamK_eq_infoBits (hamSize_pos h).ne']
  have hrun := hamEncodeBlocks_eq_perform cfg B _ 0 hblks
  rwa [hamConsumed_of_le B _ (Nat.zero_le _)] at hrun

/-! ## What the course leaves (R285, R286) -/

theorem received_hamEncodeEvents (B : Nat) (inp : List Byte) :
    received (hamEncodeEvents B inp) = (hamFile B inp).flatten := by
  have hblock (e : Bits × Nat) : received (encodeEvents B (8 * inp.length) e) = e.1 := by
    rw [encodeEvents]
    split <;> simp [received, Event.bits]
  rw [hamEncodeEvents_eq, received_flatMap]
  simp only [hblock]
  rw [flatMap_zipIdx_fst fun w => w, List.flatMap_id']

theorem pollCount_hamEncodeEvents (B : Nat) (inp : List Byte) :
    pollCount (hamEncodeEvents B inp) = (hamFile B inp).length := by
  refine pollCount_zipIdx_flatMap _ (fun e => ?_) 0
  split <;> rfl

theorem length_hamFile (B : Nat) (inp : List Byte) : (hamFile B inp).length =
    fieldCount B + (if 8 * inp.length % infoBits B = 0 then 0 else 1) + 8 * inp.length / infoBits B := by
  rw [hamFile, List.length_map, length_hamFileData, length_streamBits]

/-- The blocks of a file carry all the bits of IN. -/
theorem hamConsumed_hamFile (B : Nat) (inp : List Byte) :
    hamConsumed B (8 * inp.length) (hamFile B inp).length = 8 * inp.length := by
  rw [length_hamFile, hamConsumed_body, Nat.mod_add_div']

theorem hamFile_ne_nil {B : Nat} (h : HamSize B) (inp : List Byte) : hamFile B inp ≠ [] := by
  refine List.ne_nil_of_length_pos ?_
  rw [length_hamFile, Nat.add_assoc]
  exact Nat.add_pos_left (fieldCount_pos h) _

theorem percent_self (total : Nat) : percent total total = 100 := by
  rcases Nat.eq_zero_or_pos total with rfl | hpos
  · rfl
  · rw [percent, if_neg hpos.ne', Nat.mul_div_cancel _ hpos]

theorem lastProgress_hamEncodeEvents {B : Nat} (h : HamSize B) (inp : List Byte) (p : Nat) :
    lastProgress p (hamEncodeEvents B inp) = 100 := by
  rw [hamEncodeEvents_eq, lastProgress_zipIdx_flatMap (hamFile B inp)
    (g := fun n => percent (hamConsumed B (8 * inp.length) n) (8 * inp.length)) fun e p => ?_,
    if_neg (hamFile_ne_nil h inp), hamConsumed_hamFile, percent_self]
  rw [encodeEvents]
  split <;> rfl

/-! ## The obligation -/

theorem exec_hmFenc {s : State} (hs : Ready s) (hB : s.hamB ≠ 0) :
    exec .hmFenc s = .next (s.afterJob ((s.job s.ham).runFile (hamEncodeBody s.cfg s.hamB s.input))) :=
  unlessHalted_eq hs.running ((if_neg hB).trans (unlessUnitOpen_closed hs.reader hs.writer _))

/-- Settles O50: the body is the course of R286 (`hamEncodeBody_eq_course`), whose writes are the blocks of R285. -/
theorem hammingFilesHaveTheFormat : Obligations.HammingFilesHaveTheFormat := by
  refine ⟨row_word (by decide) rfl, fun s hs hq h => ?_⟩
  obtain ⟨n, hn⟩ := s.afterJob_course_quiet s.ham (hamEncodeEvents s.hamB s.input) .success hq
  refine ⟨n, ?_⟩
  rw [exec_hmFenc hs (hamSize_pos h).ne', hamEncodeBody_eq_course s.cfg h, hn, received_hamEncodeEvents,
    pollCount_hamEncodeEvents, lastProgress_hamEncodeEvents h]

end Sys2Proof.Machine
end

section
/-! SUPPORT. The Hamming family (47_hamming.md): HM.FDEC. The whole blocks of a file, damaged or not, and the body as
the course that R287 describes. -/

namespace Sys2Proof.Machine
open Sys2Proof.Claims

/-! ## The blocks that IN holds whole (R287) -/

section
variable {B : Nat} {inp : List Byte}

theorem length_hamRead (B : Nat) (inp : List Byte) : (hamRead B inp).length = 8 * inp.length / B := by
  rw [hamRead, List.length_map, List.length_range]

theorem hamRead_eq_map_slicesOf (B : Nat) (inp : List Byte) :
    hamRead B inp = (slicesOf B (8 * inp.length / B) (streamBits inp)).map hdec := by
  rw [slicesOf_eq_map_range, List.map_map]
  rfl

/-- The events of `next_block()` on a block that is there. -/
def readEvents (B bytes : Nat) (e : (Bits × OutcomeKind) × Nat) : List Event :=
  [.poll, .read, .outcome (some e.1.2), .progress (100 * ((e.2 + 1) * B) / (8 * bytes))]

theorem hamBlockEvents_field {O bytes : Nat} {e : (Bits × OutcomeKind) × Nat} (h : e.2 < fieldCount B) :
    hamBlockEvents B O bytes e = readEvents B bytes e := by
  rw [hamBlockEvents, if_pos h, List.append_nil]
  rfl

theorem hamBlockEvents_written {O bytes : Nat} {e : (Bits × OutcomeKind) × Nat} (h : fieldCount B ≤ e.2) :
    hamBlockEvents B O bytes e = readEvents B bytes e ++ [.write (hamMessagePart B O e.2 e.1.1)] := by
  rw [hamBlockEvents, if_neg (Nat.not_lt.2 h)]
  rfl

theorem hamMessagePart_overflow {O : Nat} (hO : 0 < O) (d : Bits) :
    hamMessagePart B O (fieldCount B) d = d.take O := by
  rw [hamMessagePart, if_neg (Nat.lt_irrefl _), if_pos ⟨rfl, hO⟩]

theorem hamMessagePart_body {O j : Nat} (hj : fieldCount B ≤ j) (h : j = fieldCount B → O = 0) (d : Bits) :
    hamMessagePart B O j d = d := by
  rw [hamMessagePart, if_neg (Nat.not_lt.2 hj), if_neg fun hb => hb.2.ne' (h hb.1)]

variable (cfg : Config)

theorem hamNextBlock_of_some (h : HamSize B) {j : Nat} {d : Bits × OutcomeKind} (hd : (hamRead B inp)[j]? = some d) :
    hamNextBlock B inp (j * B) = (do FileM.perform cfg (readEvents B inp.length (d, j)); pure (some d.1)) := by
  obtain ⟨hj, hblock⟩ := List.getElem?_eq_some_iff.1 hd
  rw [length_hamRead, Nat.lt_iff_add_one_le, Nat.le_div_iff_mul_le (hamSize_pos h)] at hj
  have hlen : (memRead inp (j * B) B).length ≤ 2 ^ 16 := (List.length_take_le _ _).trans (hamSize_le h)
  have hdec : hamDecode (memRead inp (j * B) B) = d := by
    rw [← hdec_eq_hamDecode hlen, ← hblock]
    simp [hamRead, memRead]
  have hbound : ¬ 8 * inp.length < j * B + B := by
    rw [← Nat.succ_mul]
    exact Nat.not_lt.2 hj
  rw [hamNextBlock, if_neg hbound, hamReadBlock, hdec, ← Nat.succ_mul, readEvents]
  simp only [FileM.perform, FileM.event, addOutcome, bind_assoc, pure_bind]

theorem hamNextBlock_of_none (h : HamSize B) {j : Nat} (hnone : (hamRead B inp)[j]? = none) :
    hamNextBlock B inp (j * B) = (do FileM.perform cfg [.poll]; pure none) := by
  have hj := List.getElem?_eq_none_iff.1 hnone
  rw [length_hamRead, ← Nat.lt_succ_iff, Nat.div_lt_iff_lt_mul (hamSize_pos h), Nat.succ_mul j] at hj
  rw [hamNextBlock, if_pos hj, FileM.perform_singleton]
  rfl

/-! ## The field (R287) -/

theorem getElem?_of_drop_eq_cons {α : Type} {l rest : List α} {j : Nat} {a : α} (h : l.drop j = a :: rest) :
    l[j]? = some a ∧ l.drop (j + 1) = rest := by
  rw [← List.tail_drop, h, ← Nat.add_zero j, ← List.getElem?_drop, h]
  exact ⟨rfl, rfl⟩

/-- Field blocks that are there are read one after another. -/
theorem hamReadField_whole (h : HamSize B) {j : Nat} {l rest : List (Bits × OutcomeKind)} (f : Bits)
    (hl : (hamRead B inp).drop j = l ++ rest) :
    hamReadField B inp l.length (j * B) f =
      (do FileM.perform cfg ((l.zipIdx j).flatMap (readEvents B inp.length)); pure (f ++ l.flatMap Prod.fst)) := by
  induction l generalizing j f with
  | nil => rw [List.flatMap_nil, List.append_nil]; rfl
  | cons d l ih =>
    obtain ⟨hd, hrest⟩ := getElem?_of_drop_eq_cons hl
    rw [List.length_cons, hamReadField, hamNextBlock_of_some cfg h hd, List.zipIdx_cons, List.flatMap_cons,
      List.flatMap_cons, FileM.perform_append, ← List.append_assoc]
    simp only [bind_assoc, pure_bind, ← Nat.succ_mul, ih _ hrest]

/-- A field cut short is a Failure at the first missing block. -/
theorem hamReadField_cut (h : HamSize B) {j n : Nat} {l : List (Bits × OutcomeKind)} (f : Bits)
    (hl : (hamRead B inp).drop j = l) (hn : l.length < n) :
    hamReadField B inp n (j * B) f =
      (do FileM.perform cfg ((l.zipIdx j).flatMap (readEvents B inp.length) ++ [.poll]); FileM.stop .failure) := by
  induction l generalizing j n f with
  | nil =>
    obtain ⟨n, rfl⟩ := Nat.exists_eq_succ_of_ne_zero (Nat.ne_zero_of_lt hn)
    have hnone := List.getElem?_eq_none_iff.2 (List.drop_eq_nil_iff.1 hl)
    rw [hamReadField, hamNextBlock_of_none cfg h hnone]
    simp only [bind_assoc, pure_bind]
    rfl
  | cons d l ih =>
    obtain ⟨n, rfl⟩ := Nat.exists_eq_succ_of_ne_zero (Nat.ne_zero_of_lt hn)
    obtain ⟨hd, hrest⟩ := getElem?_of_drop_eq_cons hl
    rw [hamReadField, hamNextBlock_of_some cfg h hd, List.zipIdx_cons, List.flatMap_cons, List.append_assoc,
      FileM.perform_append]
    simp only [bind_assoc, pure_bind, ← Nat.succ_mul, ih _ hrest (Nat.lt_of_succ_lt_succ hn)]

/-! ## The body blocks (R287) -/

theorem hamDecodeBlocks_eq_perform (h : HamSize B) {j : Nat} {l : List (Bits × OutcomeKind)}
    (hl : (hamRead B inp).drop j = l) :
    hamDecodeBlocks cfg B inp l.length (j * B) =
      FileM.perform cfg ((l.zipIdx j).flatMap fun e => readEvents B inp.length e ++ [.write e.1.1]) := by
  induction l generalizing j with
  | nil => rfl
  | cons d l ih =>
    obtain ⟨hd, hrest⟩ := getElem?_of_drop_eq_cons hl
    rw [List.length_cons, hamDecodeBlocks, hamNextBlock_of_some cfg h hd, List.zipIdx_cons, List.flatMap_cons,
      FileM.perform_append, FileM.perform_append, FileM.perform_singleton]
    simp only [bind_assoc, pure_bind, ← Nat.succ_mul, ih hrest]
    rfl

/-- From block `j` on, when that is behind the overflow block: every block is written whole, and a partial block at the
end is counted. -/
theorem hamDecodeRest_eq_perform (h : HamSize B) {O j : Nat} (hj : j ≤ (hamRead B inp).length)
    (hfield : fieldCount B ≤ j) (hO : j = fieldCount B → O = 0) :
    hamDecodeRest cfg B inp (j * B) =
      FileM.perform cfg ((((hamRead B inp).drop j).zipIdx j).flatMap (hamBlockEvents B O inp.length) ++
        (if 8 * inp.length % B = 0 then [] else [.outcome none])) := by
  have hblocks : (8 * inp.length - j * B) / B = ((hamRead B inp).drop j).length := by
    rw [List.length_drop, length_hamRead, Nat.mul_comm j, Nat.sub_mul_div]
  have hpartial : (8 * inp.length - j * B) % B = 8 * inp.length % B := by
    rw [length_hamRead, Nat.le_div_iff_mul_le (hamSize_pos h)] at hj
    rw [Nat.mul_comm j, Nat.sub_mul_mod (by rwa [Nat.mul_comm])]
  have hevents : ((((hamRead B inp).drop j).zipIdx j).flatMap (hamBlockEvents B O inp.length)) =
      (((hamRead B inp).drop j).zipIdx j).flatMap fun e => readEvents B inp.length e ++ [.write e.1.1] := by
    refine List.flatMap_congr fun e he => ?_
    have hle : j ≤ e.2 := (List.mem_zipIdx (x := e.1) (i := e.2) he).1
    rw [hamBlockEvents_written (hfield.trans hle), hamMessagePart_body (hfield.trans hle) fun he2 => hO (by omega)]
  rw [hamDecodeRest, hblocks, hpartial, hamDecodeBlocks_eq_perform cfg h rfl, FileM.perform_append, hevents]
  congr 1
  funext _
  by_cases hzero : 8 * inp.length % B = 0
  · rw [if_neg (by omega), if_pos hzero]
    rfl
  · rw [if_pos (Nat.pos_of_ne_zero hzero), if_neg hzero, FileM.perform_singleton]
    rfl

/-! ## The body (R287) -/

/-- The events of the blocks `l`, which begin the file. -/
def blocksEvents (B O bytes : Nat) (l : List (Bits × OutcomeKind)) : List Event :=
  l.zipIdx.flatMap (hamBlockEvents B O bytes)

theorem blocksEvents_field {O bytes : Nat} {l : List (Bits × OutcomeKind)} (hl : l.length ≤ fieldCount B) :
    blocksEvents B O bytes l = l.zipIdx.flatMap (readEvents B bytes) :=
  List.flatMap_congr fun e he => hamBlockEvents_field
    ((List.mem_zipIdx (x := e.1) (i := e.2) he).2.1.trans_le (by rwa [Nat.zero_add]))

theorem hamDecodeCourse_eq (B : Nat) (inp : List Byte) : hamDecodeCourse B inp =
    if (hamRead B inp).length < fieldCount B then
      (blocksEvents B (overflowOf B (hamRead B inp)) inp.length (hamRead B inp) ++ [.poll], .failure)
    else if infoBits B ≤ overflowOf B (hamRead B inp) then
      (blocksEvents B (overflowOf B (hamRead B inp)) inp.length ((hamRead B inp).take (fieldCount B)), .failure)
    else if 0 < overflowOf B (hamRead B inp) ∧ (hamRead B inp).length = fieldCount B then
      (blocksEvents B (overflowOf B (hamRead B inp)) inp.length (hamRead B inp) ++ [.poll], .failure)
    else
      (blocksEvents B (overflowOf B (hamRead B inp)) inp.length (hamRead B inp) ++
        (if 8 * inp.length % B = 0 then [] else [.outcome none]), .success) := rfl

/-- HM.FDEC behind a whole field: the overflow count decides. -/
theorem hamDecodeBody_of_field (h : HamSize B) (hfield : fieldCount B ≤ (hamRead B inp).length) :
    hamDecodeBody cfg B inp = (do
      FileM.perform cfg (blocksEvents B (overflowOf B (hamRead B inp)) inp.length ((hamRead B inp).take (fieldCount B)))
      if infoBits B ≤ overflowOf B (hamRead B inp) then FileM.stop .failure
      else if 0 < overflowOf B (hamRead B inp) then do
        match ← hamNextBlock B inp (fieldCount B * B) with
        | none => FileM.stop .failure
        | some d => do
          FileM.write cfg (d.take (overflowOf B (hamRead B inp)))
          hamDecodeRest cfg B inp ((fieldCount B + 1) * B)
      else hamDecodeRest cfg B inp (fieldCount B * B)) := by
  have htake : ((hamRead B inp).take (fieldCount B)).length = fieldCount B := by
    rw [List.length_take, Nat.min_eq_left hfield]
  have hread := hamReadField_whole cfg h (j := 0) [] (List.take_append_drop (fieldCount B) (hamRead B inp)).symm
  rw [htake, Nat.zero_mul] at hread
  rw [hamDecodeBody, hamK_eq_infoBits (hamSize_pos h).ne', blocksEvents_field htake.le, Nat.succ_mul]
  simp only [fieldBlocks]
  rw [← fieldCount, hread]
  simp only [bind_assoc, pure_bind]
  rfl

theorem blocksEvents_split (hfield : fieldCount B ≤ (hamRead B inp).length) (O : Nat) :
    blocksEvents B O inp.length (hamRead B inp) =
      blocksEvents B O inp.length ((hamRead B inp).take (fieldCount B)) ++
        (((hamRead B inp).drop (fieldCount B)).zipIdx (fieldCount B)).flatMap (hamBlockEvents B O inp.length) := by
  rw [blocksEvents, zipIdx_take_append_drop hfield, List.flatMap_append]
  rfl

/-- HM.FDEC of a file whose field is cut short. -/
theorem hamDecodeBody_cutField (h : HamSize B) (hcut : (hamRead B inp).length < fieldCount B) (O : Nat) :
    hamDecodeBody cfg B inp = FileM.course cfg (blocksEvents B O inp.length (hamRead B inp) ++ [.poll]) .failure := by
  have hread := hamReadField_cut cfg h (j := 0) [] (List.drop_zero (l := hamRead B inp)) hcut
  rw [Nat.zero_mul] at hread
  rw [blocksEvents_field hcut.le, hamDecodeBody, hamK_eq_infoBits (hamSize_pos h).ne']
  simp only [fieldBlocks]
  rw [← fieldCount, hread]
  simp only [bind_assoc]
  rfl

section
variable (h : HamSize B) (hO : overflowOf B (hamRead B inp) < infoBits B)
include h hO

/-- HM.FDEC of a file that ends behind a field that announces an overflow block. -/
theorem hamDecodeBody_noOverflowBlock (hlen : (hamRead B inp).length = fieldCount B)
    (hpos : 0 < overflowOf B (hamRead B inp)) :
    hamDecodeBody cfg B inp = FileM.course cfg
      (blocksEvents B (overflowOf B (hamRead B inp)) inp.length (hamRead B inp) ++ [.poll]) .failure := by
  have hend : (hamRead B inp).take (fieldCount B) = hamRead B inp := List.take_of_length_le hlen.le
  rw [hamDecodeBody_of_field cfg h hlen.ge, if_neg (Nat.not_le.2 hO), if_pos hpos, hend,
    hamNextBlock_of_none cfg h (List.getElem?_eq_none_iff.2 hlen.le), FileM.course, FileM.perform_append]
  simp only [bind_assoc, pure_bind]
  rfl

/-- HM.FDEC of a file with all the blocks that its field announces. -/
theorem hamDecodeBody_whole (hfield : fieldCount B ≤ (hamRead B inp).length)
    (hover : ¬ (0 < overflowOf B (hamRead B inp) ∧ (hamRead B inp).length = fieldCount B)) :
    hamDecodeBody cfg B inp = FileM.course cfg
      (blocksEvents B (overflowOf B (hamRead B inp)) inp.length (hamRead B inp) ++
        (if 8 * inp.length % B = 0 then [] else [.outcome none])) .success := by
  have hrest {j : Nat} := hamDecodeRest_eq_perform cfg h (inp := inp) (O := overflowOf B (hamRead B inp)) (j := j)
  rw [hamDecodeBody_of_field cfg h hfield, if_neg (Nat.not_le.2 hO), blocksEvents_split hfield, FileM.course_success]
  by_cases hpos : 0 < overflowOf B (hamRead B inp)
  · have hlt : fieldCount B < (hamRead B inp).length := hfield.lt_of_ne' fun hlen => hover ⟨hpos, hlen⟩
    rw [if_pos hpos, hamNextBlock_of_some cfg h (List.getElem?_eq_getElem hlt), List.drop_eq_getElem_cons hlt,
      List.zipIdx_cons, List.flatMap_cons, hamBlockEvents_written le_rfl, hamMessagePart_overflow hpos,
      hrest hlt (Nat.le_succ _) fun hj => by omega]
    simp only [FileM.perform_append, FileM.perform_singleton, FileM.event, bind_assoc, pure_bind]
  · rw [if_neg hpos, List.append_assoc, FileM.perform_append,
      hrest hfield le_rfl fun _ => Nat.eq_zero_of_not_pos hpos]

end

/-- HM.FDEC goes through the course of R287, whatever the environment does. -/
theorem hamDecodeBody_eq_course (h : HamSize B) (inp : List Byte) :
    hamDecodeBody cfg B inp = FileM.course cfg (hamDecodeCourse B inp).1 (hamDecodeCourse B inp).2 := by
  rw [hamDecodeCourse_eq]
  split
  case isTrue hcut => exact hamDecodeBody_cutField cfg h hcut _
  case isFalse hcut =>
    have hfield := Nat.not_lt.1 hcut
    split
    case isTrue hO =>
      rw [hamDecodeBody_of_field cfg h hfield, if_pos hO]
      rfl
    case isFalse hO =>
      have hO := Nat.not_le.1 hO
      split
      case isTrue hover => exact hamDecodeBody_noOverflowBlock cfg h hO hover.2 hover.1
      case isFalse hover => exact hamDecodeBody_whole cfg h hO hfield hover

end

end Sys2Proof.Machine
end

section
/-! SUPPORT. The Hamming family (47_hamming.md): the files that HM.FDEC reads. What its course leaves, of any file, and
the message of a file in the format of R285. -/

namespace Sys2Proof.Machine
open Sys2Proof.Claims

/-! ## The outcomes counted (10_state.md R33) -/

theorem countOutcome_tally (k : OutcomeKind) (ks : List OutcomeKind) (fails : Nat) :
    countOutcome k (Claims.tally ks fails) = Claims.tally (ks ++ [k]) fails := by
  cases k <;> simp [countOutcome, Claims.tally, List.count_append, BitVec.ofNat_add]

theorem countFail_tally (ks : List OutcomeKind) (fails : Nat) :
    countFail (Claims.tally ks fails) = Claims.tally ks (fails + 1) := by
  simp [countFail, Claims.tally, BitVec.ofNat_add]

theorem foldl_addOutcome_tally (es : List Event) (ks : List OutcomeKind) (fails : Nat) :
    es.foldl (fun n e => addOutcome e n) (Claims.tally ks fails) =
      Claims.tally (ks ++ (es.filterMap Event.kind).filterMap id)
        (fails + (es.filterMap Event.kind).count none) := by
  induction es generalizing ks fails with
  | nil => simp
  | cons e es ih =>
    cases e with
    | poll | read | write | progress => exact ih ks fails
    | outcome k =>
      rw [List.foldl_cons]
      cases k with
      | some k =>
        rw [show addOutcome (.outcome (some k)) = countOutcome k from rfl, countOutcome_tally, ih]
        simp [Event.kind]
      | none =>
        rw [show addOutcome (.outcome none) = countFail from rfl, countFail_tally, ih]
        simp [Event.kind, Nat.add_assoc, Nat.add_comm 1]

/-- Counting from zero along a course gives the tally of its outcomes. -/
theorem foldl_addOutcome_zero (es : List Event) : es.foldl (fun n e => addOutcome e n) .zero = counted es := by
  have htally := foldl_addOutcome_tally es [] 0
  rw [List.nil_append, Nat.zero_add] at htally
  exact htally

/-! ## What the course leaves (R287) -/

section
variable (B O bytes : Nat) (l : List (Bits × OutcomeKind))

theorem pollCount_blocksEvents : pollCount (blocksEvents B O bytes l) = l.length := by
  refine pollCount_zipIdx_flatMap _ (fun e => ?_) 0
  rw [hamBlockEvents]
  split <;> rfl

theorem lastProgress_blocksEvents (p : Nat) :
    lastProgress p (blocksEvents B O bytes l) = if l = [] then p else 100 * (l.length * B) / (8 * bytes) := by
  refine lastProgress_zipIdx_flatMap l (g := fun n => 100 * (n * B) / (8 * bytes)) (fun e p => ?_) p
  rw [hamBlockEvents]
  split <;> rfl

theorem received_blocksEvents :
    received (blocksEvents B O bytes l) = l.zipIdx.flatMap fun e => hamMessagePart B O e.2 e.1.1 := by
  refine (received_flatMap _ _).trans (List.flatMap_congr fun e _ => ?_)
  rw [hamBlockEvents, received_append]
  split
  case isTrue h => rw [hamMessagePart, if_pos h]; rfl
  case isFalse => simp [received, Event.bits]

variable {B} in
theorem received_blocksEvents_field (hl : l.length ≤ fieldCount B) : received (blocksEvents B O bytes l) = [] := by
  rw [blocksEvents_field hl, received_flatMap]
  exact List.flatMap_eq_nil_iff.2 fun _ _ => rfl

theorem filterMap_kind_blocksEvents :
    (blocksEvents B O bytes l).filterMap Event.kind = (l.map Prod.snd).map some := by
  have hblock (e : (Bits × OutcomeKind) × Nat) :
      (hamBlockEvents B O bytes e).filterMap Event.kind = [some e.1.2] := by
    rw [hamBlockEvents]
    split <;> rfl
  rw [blocksEvents, List.filterMap_flatMap]
  simp only [hblock]
  rw [List.map_map]
  exact (flatMap_zipIdx_fst (fun d => [some d.2]) l 0).trans List.map_eq_flatMap.symm

/-- Blocks, then events that count `fails` times the Fail kind. -/
theorem counted_blocksEvents_append {rest : List Event} {fails : Nat}
    (hrest : rest.filterMap Event.kind = List.replicate fails none) :
    counted (blocksEvents B O bytes l ++ rest) = Claims.tally (l.map Prod.snd) fails := by
  have hkinds (ks : List OutcomeKind) : (ks.map some ++ List.replicate fails none).filterMap id = ks := by
    rw [List.filterMap_append, List.filterMap_map]
    simp
  have hfails (ks : List OutcomeKind) : (ks.map some ++ List.replicate fails none).count none = fails := by
    rw [List.count_append, List.count_replicate_self, List.count_eq_zero.2 (by simp), Nat.zero_add]
  simp only [counted, List.filterMap_append, filterMap_kind_blocksEvents, hrest, hkinds, hfails]

end

/-! ## The command (R287) -/

section
variable {s : State} (hs : Ready s)

include hs in
theorem exec_hmFdec (hB : s.hamB ≠ 0) :
    exec .hmFdec s = .next (s.afterHamJob ((s.job .zero).runFile (hamDecodeBody s.cfg s.hamB s.input))) :=
  unlessHalted_eq hs.running ((if_neg hB).trans (unlessUnitOpen_closed hs.reader hs.writer _))

variable (hq : Quiet s.env) (h : HamSize s.hamB)
include hs hq h

/-- HM.FDEC in a quiet environment, its course being the blocks `l` and then `rest`. -/
theorem exec_hmFdec_of_course {l : List (Bits × OutcomeKind)} {O fails : Nat} {rest : List Event} {r : Report}
    (hcourse : hamDecodeCourse s.hamB s.input = (blocksEvents s.hamB O s.input.length l ++ rest, r))
    (hkinds : rest.filterMap Event.kind = List.replicate fails none) :
    ∃ n, exec .hmFdec s = .next { s with
      output := pack (received (blocksEvents s.hamB O s.input.length l) ++ received rest),
      progress := lastProgress (if l = [] then s.progress else 100 * (l.length * s.hamB) / (8 * s.input.length)) rest,
      report := r, ham := Claims.tally (l.map Prod.snd) fails,
      env := afterDraws s.env (l.length + pollCount rest) n } := by
  obtain ⟨n, hn⟩ := Job.runFile_course_quiet s.cfg (blocksEvents s.hamB O s.input.length l ++ rest) r
    (j := s.job .zero) hq
  refine ⟨n, ?_⟩
  rw [exec_hmFdec hs (hamSize_pos h).ne', hamDecodeBody_eq_course s.cfg h, hcourse, hn, received_append,
    pollCount_append, pollCount_blocksEvents, lastProgress_append, lastProgress_blocksEvents,
    show (s.job .zero).counts = .zero from rfl, foldl_addOutcome_zero, counted_blocksEvents_append _ _ _ _ hkinds]
  rfl

/-- A file whose field is legal and whose overflow block is there is decoded to its end. -/
theorem exec_hmFdec_success (hfield : fieldCount s.hamB ≤ (hamRead s.hamB s.input).length)
    (hO : overflowOf s.hamB (hamRead s.hamB s.input) < infoBits s.hamB)
    (hover : overflowOf s.hamB (hamRead s.hamB s.input) = 0 ∨ fieldCount s.hamB < (hamRead s.hamB s.input).length) :
    ∃ n, exec .hmFdec s = .next { s with
      output := pack (hamMessage s.hamB (hamRead s.hamB s.input)),
      progress := 100 * ((hamRead s.hamB s.input).length * s.hamB) / (8 * s.input.length), report := .success,
      ham := Claims.tally ((hamRead s.hamB s.input).map Prod.snd) (if 8 * s.input.length % s.hamB = 0 then 0 else 1),
      env := afterDraws s.env (hamRead s.hamB s.input).length n } := by
  have hne : hamRead s.hamB s.input ≠ [] := List.ne_nil_of_length_pos ((fieldCount_pos h).trans_le hfield)
  have hcourse := hamDecodeCourse_eq s.hamB s.input
  rw [if_neg (Nat.not_lt.2 hfield), if_neg (Nat.not_le.2 hO), if_neg (by omega)] at hcourse
  have hnone : received (if 8 * s.input.length % s.hamB = 0 then [] else [.outcome none]) = [] := by split <;> rfl
  obtain ⟨n, hn⟩ := exec_hmFdec_of_course hs hq h (fails := if 8 * s.input.length % s.hamB = 0 then 0 else 1) hcourse
    (by split <;> rfl)
  refine ⟨n, hn.trans ?_⟩
  rw [received_blocksEvents, ← hamMessage, hnone, List.append_nil, if_neg hne]
  split <;> rfl

/-- A file without a whole field, or without the overflow block it announces, ends at the missing block. -/
theorem exec_hmFdec_cut (hcut : (hamRead s.hamB s.input).length < fieldCount s.hamB ∨
      (hamRead s.hamB s.input).length = fieldCount s.hamB ∧ 0 < overflowOf s.hamB (hamRead s.hamB s.input) ∧
        overflowOf s.hamB (hamRead s.hamB s.input) < infoBits s.hamB) :
    ∃ n, exec .hmFdec s = .next { s with
      output := [],
      progress := if hamRead s.hamB s.input = [] then s.progress
        else 100 * ((hamRead s.hamB s.input).length * s.hamB) / (8 * s.input.length),
      report := .failure, ham := Claims.tally ((hamRead s.hamB s.input).map Prod.snd) 0,
      env := afterDraws s.env ((hamRead s.hamB s.input).length + 1) n } := by
  have hcourse := hamDecodeCourse_eq s.hamB s.input
  have hend : hamDecodeCourse s.hamB s.input = (blocksEvents s.hamB (overflowOf s.hamB (hamRead s.hamB s.input))
      s.input.length (hamRead s.hamB s.input) ++ [.poll], .failure) := by
    rcases hcut with hlt | ⟨heq, hpos, hO⟩
    · rwa [if_pos hlt] at hcourse
    · rwa [if_neg (by omega), if_neg (by omega), if_pos ⟨hpos, heq⟩] at hcourse
  have hle : (hamRead s.hamB s.input).length ≤ fieldCount s.hamB := by omega
  obtain ⟨n, hn⟩ := exec_hmFdec_of_course hs hq h (fails := 0) hend rfl
  refine ⟨n, hn.trans ?_⟩
  rw [received_blocksEvents_field _ _ _ hle]
  rfl

/-- A field that gives an illegal overflow count ends the command. -/
theorem exec_hmFdec_illegal (hfield : fieldCount s.hamB ≤ (hamRead s.hamB s.input).length)
    (hO : infoBits s.hamB ≤ overflowOf s.hamB (hamRead s.hamB s.input)) :
    ∃ n, exec .hmFdec s = .next { s with
      output := [],
      progress := 100 * (fieldCount s.hamB * s.hamB) / (8 * s.input.length), report := .failure,
      ham := Claims.tally (((hamRead s.hamB s.input).take (fieldCount s.hamB)).map Prod.snd) 0,
      env := afterDraws s.env (fieldCount s.hamB) n } := by
  have hcourse := hamDecodeCourse_eq s.hamB s.input
  rw [if_neg (Nat.not_lt.2 hfield), if_pos hO] at hcourse
  have hlen : ((hamRead s.hamB s.input).take (fieldCount s.hamB)).length = fieldCount s.hamB := by
    rw [List.length_take, Nat.min_eq_left hfield]
  have hne : (hamRead s.hamB s.input).take (fieldCount s.hamB) ≠ [] :=
    List.ne_nil_of_length_pos (by rw [hlen]; exact fieldCount_pos h)
  obtain ⟨n, hn⟩ := exec_hmFdec_of_course hs hq h (rest := []) (fails := 0)
    (hcourse.trans (by rw [List.append_nil])) rfl
  refine ⟨n, hn.trans ?_⟩
  rw [received_blocksEvents_field _ _ _ hlen.le, if_neg hne, hlen]
  rfl

end

/-! ## The message of a file (R285, R287) -/

section
variable {B : Nat} (M : Bits)

theorem flatMap_message_field {ds : List Bits} (hds : ds.length = fieldCount B) (O : Nat) :
    ((ds.zipIdx).flatMap fun e => hamMessagePart B O e.2 e.1) = [] := by
  refine List.flatMap_eq_nil_iff.2 fun e he => if_pos ?_
  obtain ⟨-, hlt, -⟩ := List.mem_zipIdx (x := e.1) (i := e.2) he
  rwa [Nat.zero_add, hds] at hlt

theorem flatMap_message_overflow :
    (((overflowSlices (infoBits B) M).zipIdx (fieldCount B)).flatMap fun e =>
      hamMessagePart B (M.length % infoBits B) e.2 e.1) = M.take (M.length % infoBits B) := by
  rcases Nat.eq_zero_or_pos (M.length % infoBits B) with ho | ho
  · rw [overflowSlices, ho]
    rfl
  · rw [overflowSlices, if_pos ho, List.zipIdx_singleton, List.flatMap_singleton, hamMessagePart_overflow ho,
      List.take_left' (List.length_take_of_le (Nat.mod_le _ _))]

theorem flatMap_message_body :
    (((bodySlices (infoBits B) M).zipIdx (fieldCount B + (overflowSlices (infoBits B) M).length)).flatMap fun e =>
      hamMessagePart B (M.length % infoBits B) e.2 e.1) = M.drop (M.length % infoBits B) := by
  have hlen : (M.drop (M.length % infoBits B)).length ≤ M.length / infoBits B * infoBits B := by
    have := Nat.div_add_mod' M.length (infoBits B)
    rw [List.length_drop]
    omega
  have hwhole : ∀ e ∈ (bodySlices (infoBits B) M).zipIdx (fieldCount B + (overflowSlices (infoBits B) M).length),
      hamMessagePart B (M.length % infoBits B) e.2 e.1 = e.1 := by
    intro e he
    obtain ⟨hle, -⟩ := List.mem_zipIdx (x := e.1) (i := e.2) he
    rw [length_overflowSlices] at hle
    refine hamMessagePart_body (by omega) (fun hj => ?_) e.1
    by_contra ho
    rw [if_neg ho] at hle
    omega
  rw [List.flatMap_congr hwhole, flatMap_zipIdx_fst fun d => d, List.flatMap_id', bodySlices, flatten_slicesOf,
    List.take_of_length_le hlen]

end

section
variable {B : Nat} (h : HamSize B) {ds : List (Bits × OutcomeKind)} {M : Bits}
  (hds : ds.map Prod.fst = hamFileData (infoBits B) M)
include h hds

/-- The field gives the overflow count back. -/
theorem overflowOf_of_data : overflowOf B ds = M.length % infoBits B := by
  have hlt : M.length % infoBits B < 2 ^ 16 := (Nat.mod_lt _ (infoBits_pos h)).trans (infoBits_lt h)
  have hfield : (ds.take (fieldCount B)).flatMap Prod.fst =
      (fieldSlices (infoBits B) (M.length % infoBits B)).flatten := by
    rw [List.flatMap_def, List.map_take, hds, hamFileData_eq, List.append_assoc,
      List.take_left' (length_fieldSlices _)]
  have hlen : 16 ≤ fieldBlocks (infoBits B) * infoBits B := sixteen_le_fieldCount_mul h
  rw [overflowOf, hfield, fieldSlices, flatten_slicesOf, List.take_take, Nat.min_eq_left hlen,
    List.take_left' (length_bitsOf _ _), natOfBits_bitsOf_of_lt hlt]

theorem hamMessage_of_data : hamMessage B ds = M := by
  have hparts : hamMessage B ds =
      (ds.map Prod.fst).zipIdx.flatMap fun e => hamMessagePart B (M.length % infoBits B) e.2 e.1 := by
    rw [hamMessage, overflowOf_of_data h hds, List.zipIdx_map, List.flatMap_map]
    rfl
  rw [hparts, hds, hamFileData_eq, List.zipIdx_append, List.zipIdx_append, List.flatMap_append, List.flatMap_append,
    Nat.zero_add, Nat.zero_add, List.length_append, length_fieldSlices, flatMap_message_field (length_fieldSlices _),
    flatMap_message_overflow, flatMap_message_body, List.nil_append, List.take_append_drop]

end

end Sys2Proof.Machine
end

section
/-! SUPPORT. The Hamming family (47_hamming.md): the round trip. The file that HM.FENC writes, with up to one flip in
each block and with bytes behind it, as HM.FDEC reads it. -/

namespace Sys2Proof.Machine
open Sys2Proof.Claims

/-! ## Files of HM.FENC, damaged or not (R288) -/

/-- A block with the bit at the given position flipped, if one is given. -/
def damaged (r : Bits) : Option Nat → Bits
  | some p => flipAt r p
  | none => r

/-- The outcome of a codeword with at most one flip, at a position other than 0. -/
def damageKind (f : Option Nat) : OutcomeKind := if f.isSome then .fixed else .ok

theorem length_damaged (r : Bits) (f : Option Nat) : (damaged r f).length = r.length := by
  cases f with
  | none => rfl
  | some p => exact List.length_set

theorem zipWith_damaged_none (l : List Bits) : List.zipWith damaged l (List.replicate l.length none) = l := by
  induction l with
  | nil => rfl
  | cons r l ih => rw [List.length_cons, List.replicate_succ, List.zipWith_cons_cons, ih]; rfl

section
variable {B : Nat} (h : HamSize B)

include h in
theorem hdec_damaged {msg : Bits} (hmsg : msg.length = infoBits B) {f : Option Nat}
    (hf : ∀ p, f = some p → 1 ≤ p ∧ p < B) : hdec (damaged (hamEncode B msg) f) = (msg, damageKind f) := by
  rw [hdec_eq_hamDecode (by rw [length_damaged, length_hamEncode]; exact hamSize_le h)]
  cases f with
  | none => exact hamDecode_hamEncode h hmsg
  | some p =>
    obtain ⟨hp0, hp⟩ := hf p rfl
    rw [damaged, flipAt_eq_flipBit]
    exact hamDecode_flipBit h hmsg hp (Nat.one_le_iff_ne_zero.1 hp0)

include h in
/-- The damaged codewords of messages are decoded to the messages. -/
theorem map_hdec_damaged {msgs : List Bits} {flips : List (Option Nat)} (hlen : flips.length = msgs.length)
    (hmsgs : ∀ d ∈ msgs, d.length = infoBits B) (hflips : ∀ p, some p ∈ flips → 1 ≤ p ∧ p < B) :
    (List.zipWith damaged (msgs.map (hamEncode B)) flips).map hdec = msgs.zip (flips.map damageKind) := by
  induction msgs generalizing flips with
  | nil => rfl
  | cons d msgs ih =>
    obtain ⟨f, flips, rfl⟩ := List.exists_cons_of_length_eq_add_one hlen
    rw [List.forall_mem_cons] at hmsgs
    obtain ⟨hd, hmsgs⟩ := hmsgs
    have hf : ∀ p, f = some p → 1 ≤ p ∧ p < B := fun p hp => hflips p (hp ▸ List.mem_cons_self)
    rw [List.map_cons, List.zipWith_cons_cons, List.map_cons, List.map_cons, List.zip_cons_cons, hdec_damaged h hd hf,
      ih (Nat.succ.inj hlen) hmsgs fun p hp => hflips p (List.mem_cons_of_mem _ hp)]

theorem length_flatten_of_forall {α : Type} {n : Nat} {ls : List (List α)} (hls : ∀ l ∈ ls, l.length = n) :
    ls.flatten.length = ls.length * n := by
  rw [List.length_flatten, List.map_congr_left hls, List.map_const', List.sum_replicate, smul_eq_mul]

theorem slicesOf_flatten {n : Nat} {rs : List Bits} (hrs : ∀ r ∈ rs, r.length = n) (rest : Bits) :
    slicesOf n rs.length (rs.flatten ++ rest) = rs := by
  induction rs with
  | nil => rfl
  | cons r rs ih =>
    rw [List.forall_mem_cons] at hrs
    obtain ⟨hr, hrs⟩ := hrs
    rw [List.length_cons, slicesOf, List.flatten_cons, List.append_assoc, List.take_left' hr, List.drop_left' hr,
      ih hrs]

/-- The blocks that IN is made of, with fewer bits than a block behind them. -/
theorem hamRead_of_blocks {rs : List Bits} {rest : Bits} {inp : List Byte} (hrs : ∀ r ∈ rs, r.length = B)
    (hinp : streamBits inp = rs.flatten ++ rest) (hrest : rest.length < B) : hamRead B inp = rs.map hdec := by
  have hlen : 8 * inp.length = rs.length * B + rest.length := by
    rw [← length_streamBits, hinp, List.length_append, length_flatten_of_forall hrs]
  have hcount : 8 * inp.length / B = rs.length := by
    rw [hlen, Nat.mul_comm, Nat.mul_add_div (Nat.zero_lt_of_lt hrest), Nat.div_eq_of_lt hrest, Nat.add_zero]
  rw [hamRead_eq_map_slicesOf, hcount, hinp, slicesOf_flatten hrs]

include h in
/-- A file is a whole number of bytes: B is a multiple of 8, or 4 with an even number of blocks (R286). -/
theorem length_hamFile_mul_mod (m : List Byte) : (hamFile B m).length * B % 8 = 0 := by
  obtain ⟨e, he, -, rfl⟩ := h
  rcases Nat.eq_or_lt_of_le he with rfl | hlt
  · have hfield : fieldCount (2 ^ 2) = 16 := by decide
    have hk : infoBits (2 ^ 2) = 1 := by decide
    rw [length_hamFile, hfield, hk, Nat.mod_one, Nat.div_one, if_pos rfl]
    omega
  · exact Nat.mod_eq_zero_of_dvd (Dvd.dvd.mul_left (Nat.pow_dvd_pow 2 hlt) _)

end

/-- The counters of a damaged file. -/
theorem tally_damageKind (flips : List (Option Nat)) (fails : Nat) :
    Claims.tally (flips.map damageKind) fails = ⟨BitVec.ofNat 64 fails, BitVec.ofNat 64 (flips.countP Option.isNone),
      BitVec.ofNat 64 (flips.countP Option.isSome), 0⟩ := by
  have hkind (k : OutcomeKind) : (flips.map damageKind).count k = flips.countP fun f => damageKind f == k :=
    List.countP_map
  have hok : (fun f => damageKind f == .ok) = Option.isNone := by funext f; cases f <;> rfl
  have hfixed : (fun f => damageKind f == .fixed) = Option.isSome := by funext f; cases f <;> rfl
  have hbad : (fun f => damageKind f == .bad) = fun _ => false := by funext f; cases f <;> rfl
  rw [Claims.tally, hkind, hkind, hkind, hok, hfixed, hbad, List.countP_false]
  rfl

section
variable {B : Nat} (h : HamSize B) {m extra inp : List Byte} {flips : List (Option Nat)}
  (hlen : flips.length = (hamFile B m).length)
  (hin : inp = pack (List.zipWith damaged (hamFile B m) flips).flatten ++ extra)

theorem length_of_mem_damagedFile {r : Bits} (hr : r ∈ List.zipWith damaged (hamFile B m) flips) : r.length = B := by
  obtain ⟨i, hi, rfl⟩ := List.getElem_of_mem hr
  rw [List.getElem_zipWith, length_damaged]
  simp [hamFile]

include hlen in
theorem length_flatten_damagedFile :
    (List.zipWith damaged (hamFile B m) flips).flatten.length = (hamFile B m).length * B := by
  rw [length_flatten_of_forall fun r => length_of_mem_damagedFile, List.length_zipWith, hlen, Nat.min_self]

include h hlen hin

theorem streamBits_damagedFile :
    streamBits inp = (List.zipWith damaged (hamFile B m) flips).flatten ++ streamBits extra := by
  rw [hin, streamBits_append, streamBits_pack]
  rw [length_flatten_damagedFile hlen]
  exact length_hamFile_mul_mod h m

theorem length_damagedFile : 8 * inp.length = (hamFile B m).length * B + 8 * extra.length := by
  rw [← length_streamBits, streamBits_damagedFile h hlen hin, List.length_append, length_flatten_damagedFile hlen,
    length_streamBits]

theorem hamRead_damagedFile (hflips : ∀ p, some p ∈ flips → 1 ≤ p ∧ p < B) (hextra : 8 * extra.length < B) :
    hamRead B inp = (hamFileData (infoBits B) (streamBits m)).zip (flips.map damageKind) := by
  have hmsgs : flips.length = (hamFileData (infoBits B) (streamBits m)).length := by rw [hlen, hamFile, List.length_map]
  rw [hamRead_of_blocks (fun r => length_of_mem_damagedFile) (streamBits_damagedFile h hlen hin)
    (by rwa [length_streamBits]), hamFile, map_hdec_damaged h hmsgs (fun d => length_of_mem_hamFileData h _) hflips]

end

theorem fieldCount_le_length_hamFile (B : Nat) (m : List Byte) :
    fieldCount B + (if 8 * m.length % infoBits B = 0 then 0 else 1) ≤ (hamFile B m).length := by
  rw [length_hamFile]
  exact Nat.le_add_right _ _

section
variable {s : State} (hs : Ready s) (hq : Quiet s.env) (h : HamSize s.hamB) {m : List Byte}
include hs hq h

/-- HM.FDEC of the file of `m`, at most one bit flipped in each block, with fewer bytes than a block behind it. -/
theorem exec_hmFdec_file {flips : List (Option Nat)} (extra : List Byte)
    (hlen : flips.length = (hamFile s.hamB m).length) (hflips : ∀ p, some p ∈ flips → 1 ≤ p ∧ p < s.hamB)
    (hin : s.input = pack (List.zipWith damaged (hamFile s.hamB m) flips).flatten ++ extra)
    (hextra : 8 * extra.length < s.hamB) :
    ∃ n, exec .hmFdec s = .next { s with
      output := m, progress := 100 * ((hamFile s.hamB m).length * s.hamB) / (8 * s.input.length), report := .success,
      ham := ⟨if extra = [] then 0 else 1, BitVec.ofNat 64 (flips.countP Option.isNone),
        BitVec.ofNat 64 (flips.countP Option.isSome), 0⟩,
      env := afterDraws s.env (hamFile s.hamB m).length n } := by
  have hread := hamRead_damagedFile h hlen hin hflips hextra
  have hzip : (flips.map damageKind).length = (hamFileData (infoBits s.hamB) (streamBits m)).length := by
    rw [List.length_map, hlen, hamFile, List.length_map]
  have hdata : (hamRead s.hamB s.input).map Prod.fst = hamFileData (infoBits s.hamB) (streamBits m) := by
    rw [hread, List.map_fst_zip hzip.ge]
  have hkinds : (hamRead s.hamB s.input).map Prod.snd = flips.map damageKind := by
    rw [hread, List.map_snd_zip hzip.le]
  have hnum : (hamRead s.hamB s.input).length = (hamFile s.hamB m).length := by
    rw [← List.length_map Prod.snd, hkinds, List.length_map, hlen]
  have hO := overflowOf_of_data h hdata
  rw [length_streamBits] at hO
  have hpartial : 8 * s.input.length % s.hamB = 8 * extra.length := by
    rw [length_damagedFile h hlen hin, Nat.mul_comm, Nat.mul_add_mod, Nat.mod_eq_of_lt hextra]
  have hmin := fieldCount_le_length_hamFile s.hamB m
  obtain ⟨n, hn⟩ := exec_hmFdec_success hs hq h (by omega) (by rw [hO]; exact Nat.mod_lt _ (infoBits_pos h))
    (by rw [hO, hnum]; split at hmin <;> omega)
  refine ⟨n, hn.trans ?_⟩
  rw [hamMessage_of_data h hdata, hkinds, pack_streamBits, hnum, tally_damageKind, hpartial]
  cases extra <;> rfl

/-- Of the damaged file alone PROGRESS ends at 100, and no Fail is counted. -/
theorem exec_hmFdec_flipped {flips : List (Option Nat)} (hlen : flips.length = (hamFile s.hamB m).length)
    (hflips : ∀ p, some p ∈ flips → 1 ≤ p ∧ p < s.hamB)
    (hin : s.input = pack (List.zipWith damaged (hamFile s.hamB m) flips).flatten) :
    ∃ n, exec .hmFdec s = .next { s with
      output := m, progress := 100, report := .success,
      ham := ⟨0, BitVec.ofNat 64 (flips.countP Option.isNone), BitVec.ofNat 64 (flips.countP Option.isSome), 0⟩,
      env := afterDraws s.env (hamFile s.hamB m).length n } := by
  have hin : s.input = pack (List.zipWith damaged (hamFile s.hamB m) flips).flatten ++ [] := by
    rw [hin, List.append_nil]
  have hpos : 0 < (hamFile s.hamB m).length * s.hamB :=
    Nat.mul_pos (List.length_pos_iff.2 (hamFile_ne_nil h m)) (hamSize_pos h)
  have hprogress : 100 * ((hamFile s.hamB m).length * s.hamB) / (8 * s.input.length) = 100 := by
    rw [length_damagedFile h hlen hin]
    exact Nat.mul_div_cancel _ hpos
  obtain ⟨n, hn⟩ := exec_hmFdec_file hs hq h [] hlen hflips hin (hamSize_pos h)
  rw [hprogress] at hn
  exact ⟨n, hn⟩

end

theorem forall_some_mem_replicate_none {B n : Nat} :
    ∀ p, some p ∈ List.replicate n (none : Option Nat) → 1 ≤ p ∧ p < B :=
  fun _ hp => nomatch List.eq_of_mem_replicate hp

/-! ## The obligation -/

/-- Settles O51: the body is the course of R287 (`hamDecodeBody_eq_course`) for any file; the file of HM.FENC is read
back block by block, the field giving O and the other blocks the message (`hamMessage_of_data`). -/
theorem hammingFilesDecode : Obligations.HammingFilesDecode := by
  refine ⟨row_word (by decide) rfl, fun s hs hq h =>
    ⟨?_, fun m hin => ?_, fun m flips hlen hflips hin => ?_, fun m extra hin hne hextra => ?_, fun hin => ?_⟩⟩
  · rintro ds O rfl rfl
    exact ⟨exec_hmFdec_success hs hq h, exec_hmFdec_cut hs hq h, exec_hmFdec_illegal hs hq h⟩
  · obtain ⟨n, hn⟩ := exec_hmFdec_flipped hs hq h List.length_replicate forall_some_mem_replicate_none
      (by rw [zipWith_damaged_none, hin])
    rw [List.countP_replicate, List.countP_replicate] at hn
    exact ⟨n, hn⟩
  · exact exec_hmFdec_flipped hs hq h hlen hflips hin
  · obtain ⟨n, hn⟩ := exec_hmFdec_file hs hq h extra List.length_replicate forall_some_mem_replicate_none
      (by rw [zipWith_damaged_none, hin]) hextra
    rw [if_neg (List.ne_nil_of_length_pos hne), List.countP_replicate, List.countP_replicate] at hn
    exact ⟨_, n, hn⟩
  · have hread : hamRead s.hamB s.input = [] := by
      rw [← List.length_eq_zero_iff, length_hamRead, hin]
      exact Nat.zero_div _
    obtain ⟨n, hn⟩ := exec_hmFdec_cut hs hq h (.inl (by rw [hread]; exact fieldCount_pos h))
    rw [hread] at hn
    exact ⟨n, hn⟩

end Sys2Proof.Machine
end

section
/-! SUPPORT. The CRC family (48_crc.md): the block code. Bit sequences as polynomials over GF(2), the remainder as the
residue of the division by the generator, and what it finds in a codeword and in one with a flipped bit. -/

namespace Sys2Proof.Machine
open Sys2Proof.Claims

/-! ## Polynomials over GF(2) (R300) -/

/-- The polynomial over GF(2) whose coefficients are the bits of a number. -/
noncomputable def gfPoly (n : Nat) : Polynomial (ZMod 2) :=
  ∑ i ∈ Finset.range n, Polynomial.monomial i ((n.testBit i).toNat : ZMod 2)

@[simp] theorem coeff_gfPoly (n i : Nat) : (gfPoly n).coeff i = (n.testBit i).toNat := by
  have hout : n ≤ i → n.testBit i = false := fun h => Nat.testBit_eq_false_of_lt (h.trans_lt Nat.lt_two_pow_self)
  rw [gfPoly, Polynomial.finsetSum_coeff]
  simp only [Polynomial.coeff_monomial, Finset.sum_ite_eq', Finset.mem_range]
  split
  · rfl
  · rw [hout (by omega)]; rfl

theorem gfPoly_xor (n m : Nat) : gfPoly (n ^^^ m) = gfPoly n + gfPoly m := by
  ext i
  rw [Polynomial.coeff_add, coeff_gfPoly, coeff_gfPoly, coeff_gfPoly, Nat.testBit_xor]
  cases n.testBit i <;> cases m.testBit i <;> decide

theorem gfPoly_mul_two_pow (n k : Nat) : gfPoly (n * 2 ^ k) = gfPoly n * Polynomial.X ^ k := by
  ext i
  rw [Polynomial.coeff_mul_X_pow', coeff_gfPoly, Nat.testBit_mul_two_pow]
  by_cases h : k ≤ i <;> simp [h]

theorem gfPoly_one : gfPoly 1 = 1 := by simp [gfPoly]

theorem gfPoly_two_pow (k : Nat) : gfPoly (2 ^ k) = Polynomial.X ^ k := by
  rw [← Nat.one_mul (2 ^ k), gfPoly_mul_two_pow, gfPoly_one, one_mul]

theorem eq_zero_of_gfPoly_eq_zero {n : Nat} (h : gfPoly n = 0) : n = 0 := by
  refine Nat.eq_of_testBit_eq fun i => ?_
  have hi := coeff_gfPoly n i
  rw [h, Polynomial.coeff_zero] at hi
  rw [Nat.zero_testBit]
  cases hb : n.testBit i with
  | false => rfl
  | true => rw [hb] at hi; exact absurd hi (by decide)

theorem degree_gfPoly_lt {n w : Nat} (h : n < 2 ^ w) : (gfPoly n).degree < w := by
  refine (Polynomial.degree_lt_iff_coeff_zero _ _).2 fun i hi => ?_
  rw [coeff_gfPoly, Nat.testBit_eq_false_of_lt (h.trans_le (Nat.pow_le_pow_right (by omega) hi))]
  rfl

/-! ## Sums of aligned copies of the generator (R301) -/

/-- The sum over GF(2) of copies of the generator `g`, each aligned at the given shift. -/
def shiftSum (g : Nat) (shifts : List Nat) : Nat := (shifts.map fun k => g * 2 ^ k).foldl (· ^^^ ·) 0

theorem shiftSum_cons (g k : Nat) (shifts : List Nat) : shiftSum g (k :: shifts) = g * 2 ^ k ^^^ shiftSum g shifts := by
  rw [shiftSum, List.map_cons, List.foldl_cons, Nat.zero_xor, foldl_xor_eq]
  rfl

theorem dvd_gfPoly_shiftSum (g : Nat) (shifts : List Nat) : gfPoly g ∣ gfPoly (shiftSum g shifts) := by
  induction shifts with
  | nil => exact dvd_zero _
  | cons k shifts ih =>
    rw [shiftSum_cons, gfPoly_xor, gfPoly_mul_two_pow]
    exact dvd_add (dvd_mul_right _ _) ih

/-! ## The division loop (R301) -/

theorem bitRun_succ (n : Nat) (v : Bool) : bitRun (n + 1) v = v :: bitRun n v := rfl

theorem exists_eq_zeros_or_leading (r : Bits) :
    r = bitRun r.length false ∨ ∃ i t, r = bitRun i false ++ true :: t := by
  induction r with
  | nil => exact .inl rfl
  | cons v r ih =>
    cases v with
    | true => exact .inr ⟨0, r, rfl⟩
    | false =>
      rcases ih with h | ⟨i, t, h⟩
      · exact .inl (by rw [List.length_cons, bitRun_succ, ← h])
      · exact .inr ⟨i + 1, t, by rw [bitRun_succ, List.cons_append, ← h]⟩

theorem findIdx?_leading (i : Nat) (t : Bits) : (bitRun i false ++ true :: t).findIdx? id = some i := by
  simp [List.findIdx?_append, List.findIdx?_cons, bitRun]

theorem natOfBits_leading (i : Nat) (t : Bits) :
    natOfBits (bitRun i false ++ true :: t) = 2 ^ t.length + natOfBits t := by
  rw [natOfBits_zeros_append, natOfBits_cons, Bool.toNat_true, Nat.one_mul]

section
variable {g : Bits} (hg : g.head? = some true)
include hg

/-- What a turn of the loop can do: it ends the loop when the dividend's degree is below W − 1, else it adds the
generator, aligned at the leading 1 of the dividend, which it clears. -/
theorem remStep_cases (r : Bits) :
    (remStep g r = none ∧ natOfBits r < 2 ^ (g.length - 1)) ∨
    ∃ r' k, remStep g r = some r' ∧ natOfBits r' = natOfBits r ^^^ natOfBits g * 2 ^ k ∧
      ∀ f, natOfBits r < 2 ^ (f + 1) → natOfBits r' < 2 ^ f := by
  rcases exists_eq_zeros_or_leading r with hr | ⟨i, t, rfl⟩
  · have hnone : (bitRun r.length false).findIdx? id = none := by simp [bitRun]
    rw [hr, remStep, hnone, natOfBits_zeros]
    exact .inl ⟨rfl, Nat.two_pow_pos _⟩
  rw [natOfBits_leading]
  have ht := natOfBits_lt t
  rcases Nat.lt_or_ge (t.length + 1) g.length with h | h
  · refine .inl ⟨?_, ?_⟩
    · simp only [remStep, findIdx?_leading]
      rw [if_pos (by simp; omega)]
    · calc 2 ^ t.length + natOfBits t < 2 ^ (t.length + 1) := by rw [Nat.pow_succ]; omega
        _ ≤ 2 ^ (g.length - 1) := Nat.pow_le_pow_right (by omega) (by omega)
  · refine .inr ⟨xorTail (bitRun i false ++ true :: t) (g ++ bitRun (t.length + 1 - g.length) false),
      t.length + 1 - g.length, ?_, ?_, fun f hf => ?_⟩
    · simp only [remStep, findIdx?_leading]
      rw [if_neg (by simp; omega)]
      simp
    · rw [natOfBits_xorTail, natOfBits_leading, natOfBits_append g, natOfBits_zeros, List.length_replicate,
        Nat.add_zero]
    · have hlt : t.length < f + 1 := by
        by_contra hle
        have := Nat.pow_le_pow_right (n := 2) (by omega) (Nat.not_lt.1 hle)
        omega
      obtain ⟨g0, rfl⟩ := List.head?_eq_some_iff.1 hg
      rw [xorTail_append_left _ (by simp at h ⊢; omega), List.cons_append, List.zipWith_cons_cons, Bool.xor_self,
        natOfBits_zeros_append, natOfBits_cons, Bool.toNat_false, Nat.zero_mul, Nat.zero_add]
      refine (natOfBits_lt _).trans_le (Nat.pow_le_pow_right (by omega) ?_)
      simp
      omega

/-- The loop, with as many turns left as its dividend has bits behind its zeros. -/
theorem remLoop_spec {fuel : Nat} {r : Bits} (hr : natOfBits r < 2 ^ fuel) :
    natOfBits (remLoop g fuel r) < 2 ^ (g.length - 1) ∧
      ∃ shifts, natOfBits r = natOfBits (remLoop g fuel r) ^^^ shiftSum (natOfBits g) shifts := by
  induction fuel generalizing r with
  | zero => exact ⟨hr.trans_le (Nat.two_pow_pos _), [], (Nat.xor_zero _).symm⟩
  | succ fuel ih =>
    rw [remLoop]
    rcases remStep_cases hg r with ⟨hstep, hlt⟩ | ⟨r', k, hstep, hadd, hclear⟩
    · rw [hstep]
      exact ⟨hlt, [], (Nat.xor_zero _).symm⟩
    · rw [hstep]
      obtain ⟨hlt, shifts, hsum⟩ := ih (hclear fuel hr)
      refine ⟨hlt, k :: shifts, ?_⟩
      rw [shiftSum_cons, Nat.xor_left_comm, ← hsum, hadd, Nat.xor_left_comm, Nat.xor_self, Nat.xor_zero]

end

theorem natOfBits_lastBits {w : Nat} {r : Bits} (h : natOfBits r < 2 ^ w) : natOfBits (lastBits w r) = natOfBits r := by
  rw [lastBits]
  split
  case isTrue hw =>
    have hsplit := natOfBits_append (r.take (r.length - w)) (r.drop (r.length - w))
    have hlen : (r.drop (r.length - w)).length = w := by
      rw [List.length_drop]
      omega
    have hlt := natOfBits_lt (r.drop (r.length - w))
    rw [hlen] at hlt hsplit
    rw [List.take_append_drop] at hsplit
    rw [← Nat.mod_eq_of_lt h, hsplit, Nat.mul_add_mod', Nat.mod_eq_of_lt hlt]
  case isFalse => exact natOfBits_zeros_append _ _

/-! ## The remainder (R301) -/

section
variable {g : Bits} (hg : LegalPoly g) (d : Bits)
include hg

theorem natOfBits_crcRem_lt : natOfBits (crcRem g d) < 2 ^ (g.length - 1) := by
  obtain ⟨hlen, hhead, -⟩ := hg
  have hlt := (remLoop_spec hhead (natOfBits_lt d)).1
  rwa [crcRem, natOfBits_lastBits (hlt.trans_le (Nat.pow_le_pow_right (by omega) (by omega)))]

theorem exists_shifts_crcRem :
    ∃ shifts, natOfBits d = natOfBits (crcRem g d) ^^^ shiftSum (natOfBits g) shifts := by
  obtain ⟨hlen, hhead, -⟩ := hg
  obtain ⟨hlt, hshifts⟩ := remLoop_spec hhead (natOfBits_lt d)
  rwa [crcRem, natOfBits_lastBits (hlt.trans_le (Nat.pow_le_pow_right (by omega) (by omega)))]

theorem head?_crcRem : (crcRem g d).head? = some false := by
  have hlt := natOfBits_crcRem_lt hg d
  have hlen := length_crcRem g d
  obtain ⟨hpos, -, -⟩ := hg
  cases hr : crcRem g d with
  | nil => rw [hr, List.length_nil] at hlen; omega
  | cons v r =>
    rw [hr, List.length_cons] at hlen
    cases v with
    | false => rfl
    | true =>
      rw [hr, natOfBits_cons, Bool.toNat_true, ← hlen, Nat.add_sub_cancel] at hlt
      omega

end

/-- Settles O52: each turn of the loop adds an aligned copy of G (`remStep_cases`), and the loop ends when the degree is
below W − 1. -/
theorem crcRemainderIsTheResidue : Obligations.CrcRemainderIsTheResidue :=
  fun g d hg => ⟨length_crcRem g d, head?_crcRem hg d, natOfBits_crcRem_lt hg d, exists_shifts_crcRem hg d⟩

/-! ## Remainder zero as divisibility (R301) -/

/-- A number whose bits are all 0. -/
theorem eq_zeros_of_natOfBits_eq_zero {s : Bits} (h : natOfBits s = 0) : s = List.replicate s.length false := by
  rcases exists_eq_zeros_or_leading s with hs | ⟨i, t, rfl⟩
  · exact hs
  · rw [natOfBits_leading] at h
    have := Nat.two_pow_pos t.length
    omega

/-- The degree of the generator is W − 1 at least. -/
theorem degree_generator {g : Bits} (hg : LegalPoly g) :
    ((g.length - 1 : Nat) : WithBot Nat) ≤ (gfPoly (natOfBits g)).degree := by
  obtain ⟨-, hhead, -⟩ := hg
  obtain ⟨g0, rfl⟩ := List.head?_eq_some_iff.1 hhead
  refine Polynomial.le_degree_of_ne_zero ?_
  rw [coeff_gfPoly, natOfBits_cons, List.length_cons, Nat.add_sub_cancel, Bool.toNat_true, Nat.one_mul,
    Nat.testBit_two_pow_add_eq, Nat.testBit_eq_false_of_lt (natOfBits_lt g0)]
  decide

/-- The remainder is zero exactly for the multiples of the generator. -/
theorem crcRem_eq_zeros_iff {g : Bits} (hg : LegalPoly g) (d : Bits) :
    crcRem g d = List.replicate g.length false ↔ gfPoly (natOfBits g) ∣ gfPoly (natOfBits d) := by
  obtain ⟨shifts, hsum⟩ := exists_shifts_crcRem hg d
  rw [hsum, gfPoly_xor, dvd_add_left (dvd_gfPoly_shiftSum _ _)]
  constructor
  · intro hzero
    rw [hzero, natOfBits_zeros]
    exact dvd_zero _
  · intro hdvd
    have hdeg := (degree_gfPoly_lt (natOfBits_crcRem_lt hg d)).trans_le (degree_generator hg)
    have hzero := eq_zero_of_gfPoly_eq_zero (Polynomial.eq_zero_of_dvd_of_degree_lt hdvd hdeg)
    rw [eq_zeros_of_natOfBits_eq_zero hzero, length_crcRem]

/-- No power of X is a multiple of the generator, whose first and last bits are 1. -/
theorem not_generator_dvd_X_pow {g : Bits} (hg : LegalPoly g) (k : Nat) :
    ¬ gfPoly (natOfBits g) ∣ Polynomial.X ^ k := by
  intro hdvd
  obtain ⟨j, -, hassoc⟩ := (dvd_prime_pow Polynomial.prime_X k).1 hdvd
  have hdeg := degree_generator hg
  obtain ⟨hlen, -, hlast⟩ := hg
  obtain ⟨g1, rfl⟩ := List.getLast?_eq_some_iff.1 hlast
  cases j with
  | zero =>
    rw [pow_zero, associated_one_iff_isUnit] at hassoc
    rw [Polynomial.degree_eq_zero_of_isUnit hassoc] at hdeg
    have hle : (g1 ++ [true]).length - 1 ≤ 0 := by exact_mod_cast hdeg
    omega
  | succ j =>
    have hzero := Polynomial.X_dvd_iff.1 ((dvd_pow_self Polynomial.X j.succ_ne_zero).trans hassoc.symm.dvd)
    rw [coeff_gfPoly, natOfBits_append, natOfBits_singleton, List.length_singleton, pow_one, Bool.toNat_true,
      Nat.testBit_zero, Nat.mul_add_mod'] at hzero
    exact absurd hzero (by decide)

/-! ## Flipped bits (R303) -/

theorem flipBit_eq_zipWith_xor {r : Bits} {i : Nat} (h : i < r.length) :
    flipBit r i = List.zipWith Bool.xor r (bitRun i false ++ true :: bitRun (r.length - 1 - i) false) := by
  induction r generalizing i with
  | nil => cases h
  | cons v r ih =>
    cases i with
    | zero =>
      rw [List.length_cons, Nat.add_sub_cancel, Nat.sub_zero, bitRun, List.replicate_zero, List.nil_append,
        List.zipWith_cons_cons, zipWith_xor_zeros, Bool.xor_true, flipBit_cons_zero]
    | succ i =>
      have hlen : (v :: r).length - 1 - (i + 1) = r.length - 1 - i := by
        rw [List.length_cons]
        omega
      rw [flipBit_cons_succ, ih (Nat.lt_of_succ_lt_succ h), hlen, bitRun_succ, List.cons_append,
        List.zipWith_cons_cons, Bool.xor_false]

theorem natOfBits_flipBit {r : Bits} {i : Nat} (h : i < r.length) :
    natOfBits (flipBit r i) = natOfBits r ^^^ 2 ^ (r.length - 1 - i) := by
  rw [flipBit_eq_zipWith_xor h, natOfBits_zipWith_xor (by simp; omega), natOfBits_leading, natOfBits_zeros,
    List.length_replicate, Nat.add_zero]

/-- A flip of a bit makes a remainder of zero nonzero. -/
theorem crcRem_flipBit_ne {g r : Bits} (hg : LegalPoly g) (hr : crcRem g r = List.replicate g.length false) {i : Nat}
    (hi : i < r.length) : crcRem g (flipBit r i) ≠ List.replicate g.length false := by
  rw [crcRem_eq_zeros_iff hg] at hr
  rw [ne_eq, crcRem_eq_zeros_iff hg, natOfBits_flipBit hi, gfPoly_xor, gfPoly_two_pow, dvd_add_right hr]
  exact not_generator_dvd_X_pow hg _

/-! ## The codeword (R302) -/

/-- The remainder takes the place of the zeros. -/
theorem crcEncode_eq_append (g m : Bits) :
    crcEncode g m = m ++ crcRem g (m ++ List.replicate g.length false) := by
  have hxor := zipWith_xor_zeros (crcRem g (m ++ bitRun g.length false))
  rw [length_crcRem] at hxor
  rw [crcEncode, xorTail_append_left m (by rw [List.length_replicate, length_crcRem]),
    List.zipWith_comm_of_comm Bool.xor_comm, hxor]

theorem crcRem_crcEncode {g : Bits} (hg : LegalPoly g) (m : Bits) :
    crcRem g (crcEncode g m) = List.replicate g.length false := by
  obtain ⟨shifts, hsum⟩ := exists_shifts_crcRem hg (m ++ bitRun g.length false)
  rw [crcRem_eq_zeros_iff hg, crcEncode, natOfBits_xorTail, hsum, Nat.xor_comm, ← Nat.xor_assoc, Nat.xor_self,
    Nat.zero_xor]
  exact dvd_gfPoly_shiftSum _ _

/-! ## The decode function (R303) -/

/-- A search that finds exactly one position. -/
theorem filter_range_eq_singleton_iff {p : Nat → Bool} {n i : Nat} :
    (List.range n).filter p = [i] ↔ i < n ∧ p i = true ∧ ∀ j, j < n → p j = true → j = i := by
  constructor
  · intro h
    have hmem (j : Nat) : j < n ∧ p j = true ↔ j = i := by
      rw [← List.mem_range, ← List.mem_filter, h, List.mem_singleton]
    obtain ⟨hlt, hp⟩ := (hmem i).2 rfl
    exact ⟨hlt, hp, fun j hj hpj => (hmem j).1 ⟨hj, hpj⟩⟩
  · rintro ⟨hlt, hp, honly⟩
    refine List.perm_singleton.1 ((List.perm_ext_iff_of_nodup (List.nodup_range.filter p) (List.nodup_singleton i)).2
      fun j => ?_)
    rw [List.mem_filter, List.mem_range, List.mem_singleton]
    exact ⟨fun ⟨hj, hpj⟩ => honly j hj hpj, fun hj => hj ▸ ⟨hlt, hp⟩⟩

theorem crcZero_iff {g r : Bits} : crcZero g r = true ↔ crcRem g r = List.replicate g.length false := beq_iff_eq

section
variable {g r : Bits}

theorem crcDecode_ok (h : crcRem g r = List.replicate g.length false) (corr : Bool) :
    crcDecode g r corr = (r.take (r.length - g.length), .ok) := by
  rw [crcDecode, if_pos (crcZero_iff.2 h)]

variable (h : crcRem g r ≠ List.replicate g.length false)
include h

theorem crcDecode_off : crcDecode g r false = (r.take (r.length - g.length), .bad) := by
  rw [crcDecode, if_neg (mt crcZero_iff.1 h)]
  rfl

/-- The only flip that gives remainder zero is undone. -/
theorem crcDecode_fixed {i : Nat} (hi : i < r.length) (hzero : crcRem g (flipBit r i) = List.replicate g.length false)
    (honly : ∀ j, j < r.length → crcRem g (flipBit r j) = List.replicate g.length false → j = i) :
    crcDecode g r true = ((flipBit r i).take (r.length - g.length), .fixed) := by
  have hfound : crcCandidates g r = [i] :=
    filter_range_eq_singleton_iff.2 ⟨hi, crcZero_iff.2 hzero, fun j hj hj0 => honly j hj (crcZero_iff.1 hj0)⟩
  rw [crcDecode, if_neg (mt crcZero_iff.1 h), if_pos rfl, hfound]

/-- With no such flip, or more than one, the block stays as it is. -/
theorem crcDecode_unfixed (hnone : ¬ ∃ i, i < r.length ∧ crcRem g (flipBit r i) = List.replicate g.length false ∧
      ∀ j, j < r.length → crcRem g (flipBit r j) = List.replicate g.length false → j = i) :
    crcDecode g r true = (r.take (r.length - g.length), .bad) := by
  rw [crcDecode, if_neg (mt crcZero_iff.1 h), if_pos rfl]
  split
  case h_1 i hfound =>
    obtain ⟨hi, hzero, honly⟩ := filter_range_eq_singleton_iff.1 hfound
    exact absurd ⟨i, hi, crcZero_iff.1 hzero, fun j hj hj0 => honly j hj (crcZero_iff.2 hj0)⟩ hnone
  case h_2 => rfl

theorem snd_crcDecode_ne_ok (corr : Bool) : (crcDecode g r corr).2 ≠ .ok := by
  rw [crcDecode, if_neg (mt crcZero_iff.1 h)]
  split
  · split <;> nofun
  · nofun

end

/-! ## Decoding a codeword with up to one flip (R310) -/

section
variable {g : Bits} (hg : LegalPoly g) (m : Bits)

theorem take_crcEncode (g m : Bits) : (crcEncode g m).take ((crcEncode g m).length - g.length) = m := by
  rw [length_crcEncode, Nat.add_sub_cancel, crcEncode_eq_append, List.take_left]

include hg

theorem crcDecode_crcEncode (corr : Bool) : crcDecode g (crcEncode g m) corr = (m, .ok) := by
  rw [crcDecode_ok (crcRem_crcEncode hg m), take_crcEncode]

theorem crcDecode_flipBit {i : Nat} (hi : i < m.length + g.length)
    (honly : ∀ j, j < m.length + g.length → j ≠ i →
      crcRem g (flipBit (flipBit (crcEncode g m) i) j) ≠ List.replicate g.length false) :
    crcDecode g (flipBit (crcEncode g m) i) true = (m, .fixed) := by
  have hlen : (flipBit (crcEncode g m) i).length = (crcEncode g m).length := length_flipBit _ _
  have hback := flipBit_flipBit (crcEncode g m) i
  have hzero := crcRem_crcEncode hg m
  rw [← length_crcEncode] at hi honly
  rw [crcDecode_fixed (crcRem_flipBit_ne hg hzero hi) (i := i) (by rwa [hlen]) (by rwa [hback])
    fun j hj hj0 => ?_, hback, hlen, take_crcEncode]
  rw [hlen] at hj
  by_contra hne
  exact honly j hj hne hj0

end

/-- Settles O54: remainder zero is divisibility by G (`crcRem_eq_zeros_iff`); a codeword is a multiple of G, and a flip
adds a power of X, which is none. -/
theorem crcCodewordsLeaveNoRemainder : Obligations.CrcCodewordsLeaveNoRemainder := by
  intro g m hg
  have hzero := crcRem_crcEncode hg m
  refine ⟨rfl, crcEncode_eq_append g m, length_crcEncode g m, hzero, crcDecode_crcEncode hg m, fun i hi => ?_⟩
  have hne := crcRem_flipBit_ne hg hzero (by rwa [length_crcEncode])
  simp only [flipAt_eq_flipBit]
  exact ⟨hne, by rw [crcDecode_off hne], snd_crcDecode_ne_ok hne true, crcDecode_flipBit hg m hi⟩

/-! ## The block commands (R304–R306) -/

theorem exec_crcDec_ok {s : State} (hs : s.fault = none) {bd bs : BReg} {xd : XReg} {d : Bits} {k : OutcomeKind}
    (hlen : s.cfg.poly.length ≤ s.b[bs].length)
    (hdec : crcDecode s.cfg.poly s.b[bs] s.crcCorr = (d, k)) :
    exec (.crcDec bd xd bs) s = .next { s with
      b := s.b.set bd d, x := s.x.set xd (outcomeCode k), crc := countOutcome k s.crc } :=
  unlessHalted_eq hs ((if_neg (Nat.not_lt.2 hlen)).trans (by rw [hdec]; rfl))

/-- Settles O53: CRC.REM and CRC.ENC have no checks; behind the length check of CRC.DEC the outcome is that of R303. -/
theorem crcBlockCommands : Obligations.CrcBlockCommands := by
  refine ⟨fun bd bs => ⟨row_word (by decide) rfl, fun s hs => unlessHalted_running hs _⟩,
    fun bd bs => ⟨row_word (by decide) rfl, fun s hs _ => ?_⟩,
    fun bd xd bs => ⟨row_word (by decide) rfl, ?_⟩⟩
  · rw [← crcEncode_eq_append]
    exact unlessHalted_running hs _
  · rintro s r hs rfl
    have hexec {d : Bits} {k : OutcomeKind} := exec_crcDec_ok (bd := bd) (bs := bs) (xd := xd) (d := d) (k := k) hs
    simp only [flipAt_eq_flipBit]
    refine ⟨fun hshort => unlessHalted_eq_raised hs (if_pos hshort), fun hlen => ⟨fun hzero => ?_,
      fun hne hcorr => ⟨fun i hi hzero honly => ?_, fun hnone => ?_⟩, fun hne hcorr => ?_⟩⟩
    · exact hexec hlen (crcDecode_ok hzero _)
    · exact hexec hlen (by rw [hcorr, crcDecode_fixed hne hi hzero honly])
    · exact hexec hlen (by rw [hcorr, crcDecode_unfixed hne hnone])
    · exact hexec hlen (by rw [hcorr, crcDecode_off hne])

end Sys2Proof.Machine
end

section
/-! SUPPORT. The CRC family (48_crc.md): the files. The message blocks by their index, and the bodies of CRC.FENC and
CRC.FDEC as the courses that R308 and R309 describe. -/

namespace Sys2Proof.Machine
open Sys2Proof.Claims

/-! ## The message blocks by index (R307) -/

/-- The number of bits of message block `j` of `total` bits. -/
def crcSize (N total j : Nat) : Nat := min N (total - j * N)

/-- Message block `j` of the bits `M`. -/
def crcBlockAt (N : Nat) (M : Bits) (j : Nat) : Bits := (M.drop (j * N)).take N

theorem length_crcBlockAt (N : Nat) (M : Bits) (j : Nat) : (crcBlockAt N M j).length = crcSize N M.length j := by
  rw [crcBlockAt, List.length_take, List.length_drop, crcSize]

/-- The bits in the blocks before block `j`, and that block. -/
theorem min_add_crcSize (N total j : Nat) : min (j * N) total + crcSize N total j = min ((j + 1) * N) total := by
  rw [crcSize, Nat.succ_mul]
  omega

theorem mul_lt_of_lt_ceilDiv {N total j : Nat} (hN : 1 ≤ N) (h : j < ceilDiv total N) : j * N < total :=
  Nat.lt_of_not_le fun hle => absurd ((ceilDiv_le_iff hN).2 hle) (Nat.not_le.2 h)

section
variable {N : Nat} (hN : 1 ≤ N)
include hN

theorem ceilDiv_eq_zero_iff {total : Nat} : ceilDiv total N = 0 ↔ total = 0 := by
  rw [← Nat.le_zero, ceilDiv_le_iff hN, Nat.zero_mul, Nat.le_zero]

theorem ceilDiv_eq_div_add (total : Nat) : ceilDiv total N = total / N + if total % N > 0 then 1 else 0 := by
  have hsplit := Nat.div_add_mod' total N
  have hmod := Nat.mod_lt total hN
  refine Nat.div_eq_of_lt_le ?_ ?_
  · rw [Nat.add_mul]
    split <;> omega
  · rw [Nat.succ_mul, Nat.add_mul]
    split <;> omega

/-- The blocks of N bits, and a last one when bits remain. -/
theorem map_range_ceilDiv {α : Type} (f : Nat → α) (total : Nat) :
    (List.range (ceilDiv total N)).map f =
      (List.range (total / N)).map f ++ (if total % N > 0 then [f (total / N)] else []) := by
  rw [ceilDiv_eq_div_add hN]
  split
  · rw [List.range_succ, List.map_append, List.map_singleton]
  · rw [Nat.add_zero, List.append_nil]

theorem crcBlockSizes_eq (total : Nat) :
    crcBlockSizes N total = (List.range (ceilDiv total N)).map (crcSize N total) := by
  have hsplit := Nat.div_add_mod' total N
  have hmod := Nat.mod_lt total hN
  have hwhole : (List.range (total / N)).map (crcSize N total) = List.replicate (total / N) N := by
    rw [List.eq_replicate_iff, List.length_map, List.length_range]
    refine ⟨rfl, fun n hn => ?_⟩
    obtain ⟨j, hj, rfl⟩ := List.mem_map.1 hn
    have hle := Nat.mul_le_mul_right N (Nat.succ_le_of_lt (List.mem_range.1 hj))
    rw [Nat.succ_mul] at hle
    exact Nat.min_eq_left (by omega)
  have hlast : crcSize N total (total / N) = total % N := by
    rw [crcSize]
    omega
  rw [map_range_ceilDiv hN, hwhole, hlast, crcBlockSizes]

theorem crcBlocks_eq (M : Bits) : crcBlocks N M = (List.range (ceilDiv M.length N)).map (crcBlockAt N M) := by
  have hlast : crcBlockAt N M (M.length / N) = M.drop (M.length / N * N) := by
    have hsplit := Nat.div_add_mod' M.length N
    have hmod := Nat.mod_lt M.length hN
    refine List.take_of_length_le ?_
    rw [List.length_drop]
    omega
  rw [map_range_ceilDiv hN, hlast]
  rfl

theorem length_crcBlocks (M : Bits) : (crcBlocks N M).length = ceilDiv M.length N := by
  rw [crcBlocks_eq hN, List.length_map, List.length_range]

end

/-- The blocks together are the message. -/
theorem flatten_crcBlocks (N : Nat) (M : Bits) : (crcBlocks N M).flatten = M := by
  have hsplit := Nat.div_add_mod' M.length N
  rw [crcBlocks, ← slicesOf_eq_map_range, List.flatten_append, flatten_slicesOf]
  split
  · rw [List.flatten_singleton, List.take_append_drop]
  · rw [List.flatten_nil, List.append_nil, List.take_of_length_le (by omega)]

theorem length_flatten_map_crcEncode (g : Bits) (blks : List Bits) :
    (blks.map (crcEncode g)).flatten.length = blks.flatten.length + g.length * blks.length := by
  induction blks with
  | nil => rfl
  | cons blk blks ih =>
    rw [List.map_cons, List.flatten_cons, List.flatten_cons, List.length_append, List.length_append, ih,
      length_crcEncode, List.length_cons, Nat.mul_succ]
    omega

section
variable (g : Bits) {N : Nat} (hN : 1 ≤ N) (inp : List Byte)
include hN

theorem length_crcFile : (crcFile g N inp).length = ceilDiv (8 * inp.length) N := by
  rw [crcFile, List.length_map, length_crcBlocks hN, length_streamBits]

/-- A file of n bytes is E(n) bits long before padding. -/
theorem length_flatten_crcFile : (crcFile g N inp).flatten.length = encodedBits g.length N inp.length := by
  rw [crcFile, length_flatten_map_crcEncode, flatten_crcBlocks, length_crcBlocks hN, length_streamBits]
  rfl

end

/-! ## CRC.FENC (R308) -/

/-- The events of one block of CRC.FENC, `e` being the codeword and its index. -/
def crcFencEvents (N bytes : Nat) (e : Bits × Nat) : List Event :=
  [.poll, .read, .write e.1, .progress (100 * min ((e.2 + 1) * N) (8 * bytes) / (8 * bytes))]

theorem crcEncodeEvents_eq (g : Bits) (N : Nat) (inp : List Byte) :
    crcEncodeEvents g N inp = (crcFile g N inp).zipIdx.flatMap (crcFencEvents N inp.length) := rfl

theorem memRead_crcBlock (N : Nat) (inp : List Byte) (j : Nat) :
    memRead inp (min (j * N) (8 * inp.length)) (crcSize N (8 * inp.length) j) = crcBlockAt N (streamBits inp) j := by
  have hlen := length_streamBits inp
  rw [memRead, crcBlockAt, crcSize]
  rcases Nat.le_total (j * N) (8 * inp.length) with h | h
  · rw [Nat.min_eq_left h, ← hlen, ← List.length_drop, ← List.take_eq_take_min]
  · rw [Nat.min_eq_right h, List.drop_of_length_le (by omega), List.drop_of_length_le (by omega), List.take_nil,
      List.take_nil]

theorem crcEncodeBlocks_eq_perform (cfg : Config) (N : Nat) (inp : List Byte) (j n : Nat) :
    crcEncodeBlocks cfg inp (min (j * N) (8 * inp.length)) ((List.range' j n).map (crcSize N (8 * inp.length))) =
      FileM.perform cfg ((((List.range' j n).map fun i => crcEncode cfg.poly (crcBlockAt N (streamBits inp) i)).zipIdx
        j).flatMap (crcFencEvents N inp.length)) := by
  induction n generalizing j with
  | zero => rfl
  | succ n ih =>
    rw [List.range'_succ, List.map_cons, List.map_cons, List.zipIdx_cons, List.flatMap_cons, crcEncodeBlocks,
      memRead_crcBlock, min_add_crcSize, ih, FileM.perform_append]
    simp only [crcFencEvents, FileM.perform, FileM.event, bind_assoc, pure_bind]

/-- CRC.FENC goes through the course of R308, whatever the environment does. -/
theorem crcEncodeBlocks_eq_course (cfg : Config) {N : Nat} (hN : 1 ≤ N) (inp : List Byte) :
    crcEncodeBlocks cfg inp 0 (crcBlockSizes N (8 * inp.length)) =
      FileM.course cfg (crcEncodeEvents cfg.poly N inp) .success := by
  have hrun := crcEncodeBlocks_eq_perform cfg N inp 0 (ceilDiv (8 * inp.length) N)
  rw [Nat.zero_mul, Nat.zero_min, ← List.range_eq_range'] at hrun
  rw [crcBlockSizes_eq hN, hrun, FileM.course_success, crcEncodeEvents_eq, crcFile, crcBlocks_eq hN, List.map_map,
    length_streamBits]
  rfl

section
variable (g : Bits) (N : Nat) (inp : List Byte)

theorem received_crcEncodeEvents : received (crcEncodeEvents g N inp) = (crcFile g N inp).flatten := by
  have hblock (e : Bits × Nat) : received (crcFencEvents N inp.length e) = e.1 := by
    simp [crcFencEvents, received, Event.bits]
  rw [crcEncodeEvents_eq, received_flatMap]
  simp only [hblock]
  rw [flatMap_zipIdx_fst fun w => w, List.flatMap_id']

theorem pollCount_crcEncodeEvents : pollCount (crcEncodeEvents g N inp) = (crcFile g N inp).length :=
  pollCount_zipIdx_flatMap _ (fun _ => rfl) 0

variable {N} in
theorem lastProgress_crcEncodeEvents (hN : 1 ≤ N) (p : Nat) :
    lastProgress p (crcEncodeEvents g N inp) = if inp.isEmpty then p else 100 := by
  have hlast := lastProgress_zipIdx_flatMap (crcFile g N inp) (f := crcFencEvents N inp.length)
    (g := fun n => 100 * min (n * N) (8 * inp.length) / (8 * inp.length)) (fun _ _ => rfl) p
  rw [crcEncodeEvents_eq, hlast, length_crcFile g hN, Nat.min_eq_right (le_ceilDiv_mul hN _)]
  have hnil : crcFile g N inp = [] ↔ inp = [] := by
    rw [← List.length_eq_zero_iff, length_crcFile g hN, ceilDiv_eq_zero_iff hN, ← List.length_eq_zero_iff]
    omega
  simp only [hnil, List.isEmpty_iff]
  split
  case isTrue => rfl
  case isFalse hne =>
    have hpos := List.length_pos_iff.2 hne
    exact Nat.mul_div_cancel _ (by omega)

end

theorem exec_crcFenc {s : State} (hs : Ready s) (hN : 1 ≤ s.crcN) :
    exec .crcFenc s = .next (s.afterJob ((s.job s.crc).runFile
      (crcEncodeBlocks s.cfg s.input 0 (crcBlockSizes s.crcN (8 * s.input.length))))) :=
  unlessHalted_eq hs.running ((if_neg (by omega)).trans (unlessUnitOpen_closed hs.reader hs.writer _))

/-- Settles O55: the body is the course of R308 (`crcEncodeBlocks_eq_course`), whose writes are the codewords of the
message blocks. -/
theorem crcFilesHaveTheFormat : Obligations.CrcFilesHaveTheFormat := by
  refine ⟨row_word (by decide) rfl, fun s hs hq hN _ => ⟨length_flatten_crcFile _ hN _, ?_⟩⟩
  obtain ⟨n, hn⟩ := s.afterJob_course_quiet s.crc (crcEncodeEvents s.cfg.poly s.crcN s.input) .success hq
  refine ⟨n, ?_⟩
  rw [exec_crcFenc hs hN, crcEncodeBlocks_eq_course s.cfg hN, hn, received_crcEncodeEvents, pollCount_crcEncodeEvents,
    lastProgress_crcEncodeEvents _ _ hN, length_crcFile _ hN]

end Sys2Proof.Machine
end

section
/-! SUPPORT. The CRC family (48_crc.md): CRC.FDEC. The blocks of a file, damaged or not, the body as the course that
R309 describes, and the file that CRC.FENC writes as CRC.FDEC reads it. -/

namespace Sys2Proof.Machine
open Sys2Proof.Claims

/-! ## The blocks of a file (R309) -/

theorem cdec_eq_crcDecode (g : Bits) (corr : Bool) (r : Bits) : cdec g corr r = crcDecode g r corr := by
  have hcandidates : ((List.range r.length).filter fun i => crcRem g (flipBit r i) = List.replicate g.length false) =
      crcCandidates g r := by
    refine List.filter_congr fun i _ => ?_
    rw [crcZero, Bool.beq_eq_decide_eq]
  simp only [cdec, crcDecode, crcZero_iff, flipAt_eq_flipBit, hcandidates] <;> rfl

/-- Block `j` of a file of `total` message bits, as it stands in the bits `F`. -/
def crcReadAt (g : Bits) (N total : Nat) (F : Bits) (j : Nat) : Bits :=
  (F.drop (j * (N + g.length))).take (crcSize N total j + g.length)

theorem crcRead_eq (g : Bits) (N : Nat) (corr : Bool) (n : Nat) (inp : List Byte) :
    crcRead g N corr n inp = (List.range (ceilDiv (8 * n) N)).map fun j =>
      crcDecode g (crcReadAt g N (8 * n) (streamBits inp) j) corr := by
  simp only [crcRead, cdec_eq_crcDecode]
  rfl

theorem length_crcRead (g : Bits) (N : Nat) (corr : Bool) (n : Nat) (inp : List Byte) :
    (crcRead g N corr n inp).length = ceilDiv (8 * n) N := by
  rw [crcRead_eq, List.length_map, List.length_range]

/-! ## The message length that a file's length gives (R309) -/

theorem crcFileBytes_eq (W N n : Nat) : crcFileBytes W N n = (encodedBits W N n + 7) / 8 := rfl

/-- One more byte of message makes the file longer by a byte at least. -/
theorem encodedBits_add_eight_le (W N : Nat) {n n' : Nat} (h : n < n') :
    encodedBits W N n + 8 ≤ encodedBits W N n' := by
  have hceil : ceilDiv (8 * n) N ≤ ceilDiv (8 * n') N := Nat.div_le_div_right (by omega)
  have := Nat.mul_le_mul_left W hceil
  rw [encodedBits, encodedBits]
  omega

theorem crcOriginalBytes_eq {W N f n : Nat} (h : OriginalBytes W N f n) : crcOriginalBytes W N f = n := by
  obtain ⟨hfits, hnext⟩ := h
  obtain ⟨-, hsat, hmax⟩ := largestUpTo_spec (fun b => crcFileBytes W N b ≤ f) f
  rw [← crcOriginalBytes] at hsat hmax
  have hlen : 8 * n ≤ encodedBits W N n := Nat.le_add_right _ _
  rcases Nat.lt_trichotomy (crcOriginalBytes W N f) n with hlt | heq | hgt
  · have hnot := of_decide_eq_false (hmax n hlt (by omega))
    rw [crcFileBytes_eq] at hnot
    exact absurd hfits hnot
  · exact heq
  · have hfit := of_decide_eq_true (hsat (by omega))
    rw [crcFileBytes_eq] at hfit
    rcases Nat.eq_or_lt_of_le (show n + 1 ≤ crcOriginalBytes W N f from hgt) with he | hlt
    · rw [← he] at hfit
      exact absurd hfit (Nat.not_le.2 hnext)
    · have := encodedBits_add_eight_le W N hlt
      omega

/-! ## The body (R309) -/

/-- The events of one block of CRC.FDEC. -/
def crcFdecEvents (W N total bytes : Nat) (e : (Bits × OutcomeKind) × Nat) : List Event :=
  [.poll, .read, .outcome (some e.1.2), .write e.1.1,
    .progress (100 * (min ((e.2 + 1) * N) total + (e.2 + 1) * W) / (8 * bytes))]

/-- The events behind the blocks: a length that no file has counts one Fail. -/
def lengthEvents (W N n bytes : Nat) : List Event :=
  if (encodedBits W N n + 7) / 8 = bytes then [] else [.outcome none]

theorem crcDecodeEvents_eq (g : Bits) (N : Nat) (corr : Bool) (n : Nat) (inp : List Byte) :
    crcDecodeEvents g N corr n inp =
      (crcRead g N corr n inp).zipIdx.flatMap (crcFdecEvents g.length N (8 * n) inp.length) ++
        lengthEvents g.length N n inp.length := rfl

theorem crcDecodeBlocks_eq_perform (cfg : Config) (corr : Bool) (inp : List Byte) (N total : Nat) {j n : Nat}
    (hwithin : ∀ i ∈ List.range' j n, i * N ≤ total) :
    crcDecodeBlocks cfg corr inp (min (j * N) total + j * cfg.poly.length) ((List.range' j n).map (crcSize N total)) =
      FileM.perform cfg ((((List.range' j n).map fun i =>
        crcDecode cfg.poly (crcReadAt cfg.poly N total (streamBits inp) i) corr).zipIdx j).flatMap
          (crcFdecEvents cfg.poly.length N total inp.length)) := by
  induction n generalizing j with
  | zero => rfl
  | succ n ih =>
    rw [List.range'_succ, List.forall_mem_cons] at hwithin
    obtain ⟨hj, hwithin⟩ := hwithin
    have hread : memRead inp (min (j * N) total + j * cfg.poly.length) (crcSize N total j + cfg.poly.length) =
        crcReadAt cfg.poly N total (streamBits inp) j := by
      rw [Nat.min_eq_left hj, ← Nat.mul_add]
      rfl
    have hnext : min (j * N) total + j * cfg.poly.length + crcSize N total j + cfg.poly.length =
        min ((j + 1) * N) total + (j + 1) * cfg.poly.length := by
      rw [← min_add_crcSize, Nat.succ_mul]
      omega
    rw [List.range'_succ, List.map_cons, List.map_cons, List.zipIdx_cons, List.flatMap_cons, crcDecodeBlocks, hread,
      hnext, ih hwithin, FileM.perform_append]
    simp only [crcFdecEvents, FileM.perform, FileM.event, addOutcome, bind_assoc, pure_bind]

/-- CRC.FDEC goes through the course of R309, whatever the environment does. -/
theorem crcDecodeBody_eq_course (cfg : Config) {N n : Nat} (hN : 1 ≤ N) (corr : Bool) {inp : List Byte}
    (h : OriginalBytes cfg.poly.length N inp.length n) :
    crcDecodeBody cfg N corr inp = FileM.course cfg (crcDecodeEvents cfg.poly N corr n inp) .success := by
  have hrun := crcDecodeBlocks_eq_perform cfg corr inp N (8 * n) (j := 0) (n := ceilDiv (8 * n) N) fun i hi =>
    (mul_lt_of_lt_ceilDiv hN (by simpa using hi)).le
  rw [Nat.zero_mul, Nat.zero_min, Nat.zero_mul, Nat.add_zero, ← List.range_eq_range', ← crcBlockSizes_eq hN,
    ← crcRead_eq] at hrun
  simp only [crcDecodeBody, crcOriginalBytes_eq h]
  rw [hrun, FileM.course_success, crcDecodeEvents_eq, FileM.perform_append, lengthEvents]
  congr 1
  funext _
  rw [crcFileBytes_eq, ite_not]
  split
  case isTrue => rfl
  case isFalse => exact (FileM.perform_singleton cfg (.outcome none)).symm

/-! ## What the course leaves (R309) -/

/-- Outcomes, then `fails` times the Fail kind. -/
theorem counted_of_kinds {es : List Event} {ks : List OutcomeKind} {fails : Nat}
    (h : es.filterMap Event.kind = ks.map some ++ List.replicate fails none) : counted es = Claims.tally ks fails := by
  have hkinds : (ks.map some ++ List.replicate fails none).filterMap id = ks := by
    rw [List.filterMap_append, List.filterMap_map]
    simp
  have hfails : (ks.map some ++ List.replicate fails none).count none = fails := by
    rw [List.count_append, List.count_replicate_self, List.count_eq_zero.2 (by simp), Nat.zero_add]
  simp only [counted, h, hkinds, hfails]

section
variable (g : Bits) {N : Nat} (corr : Bool) (n : Nat) (inp : List Byte)

theorem received_crcDecodeEvents :
    received (crcDecodeEvents g N corr n inp) = (crcRead g N corr n inp).flatMap Prod.fst := by
  have hblock (e : (Bits × OutcomeKind) × Nat) :
      received (crcFdecEvents g.length N (8 * n) inp.length e) = e.1.1 := by
    simp [crcFdecEvents, received, Event.bits]
  have hend : received (lengthEvents g.length N n inp.length) = [] := by
    rw [lengthEvents]
    split <;> rfl
  rw [crcDecodeEvents_eq, received_append, received_flatMap, hend, List.append_nil]
  simp only [hblock]
  exact flatMap_zipIdx_fst Prod.fst _ 0

theorem pollCount_crcDecodeEvents : pollCount (crcDecodeEvents g N corr n inp) = ceilDiv (8 * n) N := by
  have hend : pollCount (lengthEvents g.length N n inp.length) = 0 := by
    rw [lengthEvents]
    split <;> rfl
  rw [crcDecodeEvents_eq, pollCount_append, pollCount_zipIdx_flatMap _ (fun _ => rfl) 0, hend, length_crcRead,
    Nat.add_zero]

theorem counted_crcDecodeEvents : counted (crcDecodeEvents g N corr n inp) =
    Claims.tally ((crcRead g N corr n inp).map Prod.snd)
      (if (encodedBits g.length N n + 7) / 8 = inp.length then 0 else 1) := by
  refine counted_of_kinds ?_
  have hend : (lengthEvents g.length N n inp.length).filterMap Event.kind =
      List.replicate (if (encodedBits g.length N n + 7) / 8 = inp.length then 0 else 1) none := by
    rw [lengthEvents]
    split <;> rfl
  rw [crcDecodeEvents_eq, List.filterMap_append, List.filterMap_flatMap, hend, List.map_map]
  congr 1
  exact (flatMap_zipIdx_fst (fun d : Bits × OutcomeKind => [some d.2]) _ 0).trans List.map_eq_flatMap.symm

theorem lastProgress_crcDecodeEvents (hN : 1 ≤ N) (p : Nat) : lastProgress p (crcDecodeEvents g N corr n inp) =
    if n = 0 then p else 100 * encodedBits g.length N n / (8 * inp.length) := by
  have hlast := lastProgress_zipIdx_flatMap (crcRead g N corr n inp)
    (f := crcFdecEvents g.length N (8 * n) inp.length)
    (g := fun k => 100 * (min (k * N) (8 * n) + k * g.length) / (8 * inp.length)) (fun _ _ => rfl) p
  have hend (q : Nat) : lastProgress q (lengthEvents g.length N n inp.length) = q := by
    rw [lengthEvents]
    split <;> rfl
  have hnil : crcRead g N corr n inp = [] ↔ n = 0 := by
    rw [← List.length_eq_zero_iff, length_crcRead, ceilDiv_eq_zero_iff hN]
    omega
  rw [crcDecodeEvents_eq, lastProgress_append, hlast, hend, length_crcRead, Nat.min_eq_right (le_ceilDiv_mul hN _),
    Nat.mul_comm _ g.length]
  simp only [hnil]
  rfl

end

/-! ## The command (R309) -/

section
variable {s : State} (hs : Ready s) (hN : 1 ≤ s.crcN)
include hs hN

theorem exec_crcFdec :
    exec .crcFdec s = .next (s.afterCrcJob ((s.job .zero).runFile (crcDecodeBody s.cfg s.crcN s.crcCorr s.input))) :=
  unlessHalted_eq hs.running ((if_neg (by omega)).trans (unlessUnitOpen_closed hs.reader hs.writer _))

/-- CRC.FDEC in a quiet environment. -/
theorem exec_crcFdec_quiet (hq : Quiet s.env) {n : Nat}
    (h : OriginalBytes s.cfg.poly.length s.crcN s.input.length n) :
    ∃ d, exec .crcFdec s = .next { s with
      output := pack ((crcRead s.cfg.poly s.crcN s.crcCorr n s.input).flatMap Prod.fst),
      progress := if n = 0 then s.progress
        else 100 * encodedBits s.cfg.poly.length s.crcN n / (8 * s.input.length),
      report := .success,
      crc := Claims.tally ((crcRead s.cfg.poly s.crcN s.crcCorr n s.input).map Prod.snd)
        (if (encodedBits s.cfg.poly.length s.crcN n + 7) / 8 = s.input.length then 0 else 1),
      env := afterDraws s.env (ceilDiv (8 * n) s.crcN) d } := by
  obtain ⟨d, hd⟩ := Job.runFile_course_quiet s.cfg (crcDecodeEvents s.cfg.poly s.crcN s.crcCorr n s.input) .success
    (j := s.job .zero) hq
  refine ⟨d, ?_⟩
  rw [exec_crcFdec hs hN, crcDecodeBody_eq_course s.cfg hN _ h, hd, received_crcDecodeEvents,
    pollCount_crcDecodeEvents, lastProgress_crcDecodeEvents _ _ _ _ hN, show (s.job .zero).counts = .zero from rfl,
    foldl_addOutcome_zero, counted_crcDecodeEvents]
  rfl

end

/-! ## Files of CRC.FENC (R310) -/

theorem tally_replicate_ok (n fails : Nat) :
    Claims.tally (List.replicate n .ok) fails = ⟨BitVec.ofNat 64 fails, BitVec.ofNat 64 n, 0, 0⟩ := by
  simp [Claims.tally, List.count_replicate]

/-- A block of a list of blocks, those before it being of one length. -/
theorem take_drop_flatten {rs : List Bits} {L j : Nat} (hj : j < rs.length) (hwhole : ∀ r ∈ rs.take j, r.length = L)
    (rest : Bits) : ((rs.flatten ++ rest).drop (j * L)).take rs[j].length = rs[j] := by
  have hbefore : (rs.take j).flatten.length = j * L := by
    rw [length_flatten_of_forall hwhole, List.length_take, Nat.min_eq_left hj.le]
  have hsplit : rs.flatten = (rs.take j).flatten ++ (rs[j] ++ (rs.drop (j + 1)).flatten) := by
    conv_lhs => rw [← List.take_append_drop j rs, List.flatten_append, List.drop_eq_getElem_cons hj,
      List.flatten_cons]
  rw [hsplit, List.append_assoc, List.drop_left' hbefore, List.append_assoc, List.take_left]

section
variable {g : Bits} (hg : LegalPoly g) {N : Nat} (hN : 1 ≤ N) {m inp : List Byte} {rest : Bits}
  (hin : streamBits inp = (crcFile g N m).flatten ++ rest)
include hN

theorem crcFile_eq (g : Bits) (m : List Byte) : crcFile g N m =
    (List.range (ceilDiv (8 * m.length) N)).map fun j => crcEncode g (crcBlockAt N (streamBits m) j) := by
  rw [crcFile, crcBlocks_eq hN, List.map_map, length_streamBits]
  rfl

include hin

/-- The blocks that CRC.FDEC reads of the file are those that CRC.FENC wrote. -/
theorem crcReadAt_crcFile {j : Nat} (hj : j < ceilDiv (8 * m.length) N) :
    crcReadAt g N (8 * m.length) (streamBits inp) j = crcEncode g (crcBlockAt N (streamBits m) j) := by
  have hnum := length_crcFile g hN m
  have hblock {i : Nat} (hi : i < (crcFile g N m).length) :
      (crcFile g N m)[i] = crcEncode g (crcBlockAt N (streamBits m) i) := by
    simp [crcFile_eq hN]
  have hlen (i : Nat) : (crcEncode g (crcBlockAt N (streamBits m) i)).length =
      crcSize N (8 * m.length) i + g.length := by
    rw [length_crcEncode, length_crcBlockAt, length_streamBits]
  have hwhole : ∀ r ∈ (crcFile g N m).take j, r.length = N + g.length := by
    intro r hr
    obtain ⟨i, hi, rfl⟩ := List.getElem_of_mem hr
    rw [List.length_take] at hi
    rw [List.getElem_take, hblock, hlen, crcSize]
    have hle := Nat.mul_le_mul_right N (show i + 1 ≤ j by omega)
    have hlt := mul_lt_of_lt_ceilDiv hN hj
    rw [Nat.succ_mul] at hle
    omega
  have htake := take_drop_flatten (hnum ▸ hj) hwhole rest
  rwa [hblock, hlen, ← hin] at htake

include hg in
theorem crcRead_crcFile (corr : Bool) :
    crcRead g N corr m.length inp = (crcBlocks N (streamBits m)).map fun d => (d, .ok) := by
  rw [crcRead_eq, crcBlocks_eq hN, List.map_map, length_streamBits]
  refine List.map_congr_left fun j hj => ?_
  rw [crcReadAt_crcFile hN hin (List.mem_range.1 hj), crcDecode_crcEncode hg]
  rfl

end

section
variable {s : State} (hs : Ready s) (hq : Quiet s.env) (hN : 1 ≤ s.crcN) (hg : LegalPoly s.cfg.poly)
include hs hq hN hg

/-- CRC.FDEC of the file of `m`, with bytes behind it that make no further byte of message. -/
theorem exec_crcFdec_file {m : List Byte} (extra : List Byte)
    (hin : s.input = pack (crcFile s.cfg.poly s.crcN m).flatten ++ extra)
    (hnext : s.input.length < (encodedBits s.cfg.poly.length s.crcN (m.length + 1) + 7) / 8) :
    ∃ d, exec .crcFdec s = .next { s with
      output := m,
      progress := if m.isEmpty then s.progress
        else 100 * (crcFile s.cfg.poly s.crcN m).flatten.length / (8 * s.input.length),
      report := .success,
      crc := ⟨BitVec.ofNat 64 (if extra = [] then 0 else 1), BitVec.ofNat 64 (ceilDiv (8 * m.length) s.crcN), 0, 0⟩,
      env := afterDraws s.env (ceilDiv (8 * m.length) s.crcN) d } := by
  have hbits := length_flatten_crcFile s.cfg.poly hN m
  have hlen : s.input.length = (encodedBits s.cfg.poly.length s.crcN m.length + 7) / 8 + extra.length := by
    rw [hin, List.length_append, length_pack, hbits]
  obtain ⟨pad, hpack, -⟩ := exists_padding_of_pack (crcFile s.cfg.poly s.crcN m).flatten
  have hfile : streamBits s.input = (crcFile s.cfg.poly s.crcN m).flatten ++ (pad ++ streamBits extra) := by
    rw [hin, streamBits_append, hpack, List.append_assoc]
  have hread := crcRead_crcFile hg hN hfile s.crcCorr
  have hdata : (crcRead s.cfg.poly s.crcN s.crcCorr m.length s.input).flatMap Prod.fst = streamBits m := by
    rw [hread, List.flatMap_map]
    simp [flatten_crcBlocks]
  have hkinds : (crcRead s.cfg.poly s.crcN s.crcCorr m.length s.input).map Prod.snd =
      List.replicate (ceilDiv (8 * m.length) s.crcN) .ok := by
    rw [hread, List.map_map, List.eq_replicate_iff]
    simp [length_crcBlocks hN]
  have hfails : (encodedBits s.cfg.poly.length s.crcN m.length + 7) / 8 = s.input.length ↔ extra = [] := by
    rw [hlen, ← List.length_eq_zero_iff]
    omega
  obtain ⟨d, hd⟩ := exec_crcFdec_quiet hs hN hq (n := m.length) ⟨by omega, hnext⟩
  refine ⟨d, hd.trans ?_⟩
  rw [hdata, hkinds, pack_streamBits, hbits, tally_replicate_ok]
  simp only [hfails, List.isEmpty_iff, List.length_eq_zero_iff]

end

/-- Settles O56: the body is the course of R309 (`crcDecodeBody_eq_course`) for any file; of the file of CRC.FENC each
block is a codeword, decoded to its message. -/
theorem crcFilesDecode : Obligations.CrcFilesDecode := by
  refine ⟨row_word (by decide) rfl, fun s hs hq hN hg => ⟨?_, fun m hin => ?_, fun m extra hin hne hnext => ?_⟩⟩
  · rintro n ds h rfl
    exact exec_crcFdec_quiet hs hN hq h
  · have hin' : s.input = pack (crcFile s.cfg.poly s.crcN m).flatten ++ [] := by rw [hin, List.append_nil]
    refine exec_crcFdec_file hs hq hN hg [] hin' ?_
    have := encodedBits_add_eight_le s.cfg.poly.length s.crcN (Nat.lt_add_one m.length)
    rw [hin, length_pack, length_flatten_crcFile _ hN]
    omega
  · obtain ⟨d, hd⟩ := exec_crcFdec_file hs hq hN hg extra hin hnext
    rw [if_neg hne] at hd
    exact ⟨_, d, hd⟩

end Sys2Proof.Machine
end

section
/-! SUPPORT. The exceptions family (60_exceptions.md) and the host's acts (70_reset_and_hazards.md): what a fault and
the halted block leave, the checks of the file-level commands, and one step for each act of the host. -/

namespace Sys2Proof.Machine
open Sys2Proof.Claims

/-! ## Faults (60_exceptions.md R322, R323) -/

/-- Settles O8: of the shapes that `exec_effect` lists only fault entry writes the fault. -/
theorem faultEntryHasNoOtherEffect : Obligations.FaultEntryHasNoOtherEffect := by
  intro i s t c hs hexec ht
  cases effect_of_exec hexec with
  | faulted d draw =>
    rw [show s.fault.or (some d) = some c from ht]
    rcases draw with rfl | rfl
    · exact .inl rfl
    · exact .inr (by rw [Env.io_eq]; rfl)
  | _ => exact absurd (hs.symm.trans ht) nofun

/-- A halted block ignores every command but CSR.R. -/
theorem exec_halted {i : Instr} {s : State} (hs : s.fault ≠ none) (hi : ∀ xd csr, i ≠ .csrR xd csr) :
    exec i s = .next s := by
  cases i with
  | csrR xd csr => exact absurd rfl (hi xd csr)
  | _ => exact unlessHalted_halted hs _

theorem fatal_halted {s : State} (hs : s.fault ≠ none) (c : Cause) : fatal c s = .next s := by
  rw [fatal, raise_halted hs]

/-- The number of a CSR, and of CANCEL alone the one that is read with a draw. -/
theorem csrOfNum_of_csrExists : ∀ csr : BitVec 8, csrExists csr = true →
    (csrOfNum csr).isSome = true ∧ (csrOfNum csr = some .cancel → csr = 0x17) := by
  decide

theorem csrOfNum_of_not_csrExists {csr : BitVec 8} (h : csrExists csr ≠ true) : csrOfNum csr = none :=
  csrOfNum_absent (Nat.lt_of_not_le fun hle => h (decide_eq_true hle))

theorem envAfterRead_of_ne_cancel {c : Csr} (h : c ≠ .cancel) (s : State) : s.envAfterRead c = s.env := by
  cases c with
  | cancel => exact absurd rfl h
  | _ => rfl

/-- Settles O9: every command but CSR.R is guarded by the halted block, and CSR.R of an absent CSR is a fault entry,
which keeps the first fault. -/
theorem haltedBlockIgnoresCommands : Obligations.HaltedBlockIgnoresCommands := by
  refine fun s hs => ⟨fun w hw => ?_, fun w xd csr hexists hdecode => ?_⟩
  · unfold runWord
    split
    case h_1 i hdecode =>
      by_cases hread : ∃ xd csr, i = .csrR xd csr
      · obtain ⟨xd, csr, rfl⟩ := hread
        rw [exec_csrR_absent (csrOfNum_of_not_csrExists fun hexists => hw xd csr hexists hdecode), fatal_halted hs]
      · exact exec_halted hs fun xd csr hi => hread ⟨xd, csr, hi⟩
    case h_2 => exact fatal_halted hs _
  · obtain ⟨hsome, hcancel⟩ := csrOfNum_of_csrExists csr hexists
    obtain ⟨c, hc⟩ := Option.isSome_iff_exists.1 hsome
    refine ⟨s.csrValue c, s.envAfterRead c, ?_, fun hne => envAfterRead_of_ne_cancel (fun h => ?_) s⟩
    · rw [runWord, hdecode]
      exact exec_csrR_present hc
    · exact hne (hcancel (h ▸ hc))

/-! ## The checks of the file-level commands (60_exceptions.md R326) -/

theorem algorithmOperand_of_one_lt {n : Nat} (h : 1 < n) : algorithmOperand n = none := by
  match n with
  | 0 | 1 => omega
  | n + 2 => rfl

/-- Settles O43: the operand or configuration check, the open units, then the empty IN decide, in that order. -/
theorem fileCommandsCheckBeforeRunning : Obligations.FileCommandsCheckBeforeRunning := by
  refine fun s hs => ⟨fun r hr => ?_, fun hB => ⟨?_, ?_⟩, fun hN => ⟨?_, ?_⟩,
    fun hunit => ⟨fun r hr => ?_, ?_, fun hB => ⟨?_, ?_⟩, fun hN => ⟨?_, ?_⟩⟩,
    fun hreader hwriter hin => ⟨fun r hr => ?_, ?_⟩⟩
  · exact unlessHalted_eq_raised hs (by rw [algorithmOperand_of_one_lt hr])
  · exact unlessHalted_eq_raised hs (if_pos hB)
  · exact unlessHalted_eq_raised hs (if_pos hB)
  · exact unlessHalted_eq_raised hs (if_pos hN)
  · exact unlessHalted_eq_raised hs (if_pos hN)
  · exact unlessHalted_eq hs (by rw [algorithmOperand_of_le_one hr]; exact unlessUnitOpen_open hunit _)
  · exact unlessHalted_eq hs (unlessUnitOpen_open hunit _)
  · exact unlessHalted_eq hs ((if_neg hB).trans (unlessUnitOpen_open hunit _))
  · exact unlessHalted_eq hs ((if_neg hB).trans (unlessUnitOpen_open hunit _))
  · exact unlessHalted_eq hs ((if_neg hN).trans (unlessUnitOpen_open hunit _))
  · exact unlessHalted_eq hs ((if_neg hN).trans (unlessUnitOpen_open hunit _))
  · refine unlessHalted_eq hs ?_
    rw [algorithmOperand_of_le_one hr]
    exact (unlessUnitOpen_closed hreader hwriter _).trans (if_pos (List.isEmpty_iff.2 hin))
  · exact unlessHalted_eq hs ((unlessUnitOpen_closed hreader hwriter _).trans (if_pos (List.isEmpty_iff.2 hin)))

/-! ## Steps (70_reset_and_hazards.md R351–R355) -/

/-- A step over a legal word is the command it decodes to, the host's list and index having moved on. -/
theorem step_decoded {s : State} {w : Word} {rest : List HostAct} {i : Instr} (hacts : s.acts = .command w :: rest)
    (hdecode : decode w = .ok i) : step s = exec i { s with acts := rest, pc := s.pc + 1 } := by
  rw [step_command hacts, runWord, hdecode]
  rfl

/-- Settles O4: a command word is decoded and run; an illegal one by O2. -/
theorem stepRunsTheDecodedCommand : Obligations.StepRunsTheDecodedCommand := by
  refine ⟨fun s w rest i => step_decoded, fun s w rest hacts hs hillegal => ?_, fun s w i hdecode => ?_⟩
  · obtain ⟨-, hraise, -⟩ := illegalWordsOnlyRaiseIllegalCommand
    exact (step_command hacts).trans (hraise w (s.takeCommand rest) hillegal hs)
  · rw [withFetchWord_acts]
    exact step_decoded rfl hdecode

section
variable {s : State} {rest : List HostAct}

theorem step_reset (h : s.acts = .reset :: rest) : step s = .next (s.takeAct rest).afterReset := by
  unfold step hostAct
  rw [h]

theorem step_supplyIn {bytes : List Byte} (h : s.acts = .supplyIn bytes :: rest) :
    step s = supplyIn bytes (s.takeAct rest) := by
  unfold step hostAct
  rw [h]

theorem step_supplyOut {bytes : List Byte} (h : s.acts = .supplyOut bytes :: rest) :
    step s = supplyOut bytes (s.takeAct rest) := by
  unfold step hostAct
  rw [h]

theorem step_setCancel {level : Bool} (h : s.acts = .setCancel level :: rest) :
    step s = setCancel level (s.takeAct rest) := by
  unfold step hostAct
  rw [h]

theorem step_waiting (h : s.acts = []) : step s = .next s := by
  unfold step hostAct
  rw [h]

end

/-- Settles O5: of each act its own guard decides. -/
theorem stepTakesTheOtherHostActs : Obligations.StepTakesTheOtherHostActs := by
  refine ⟨fun s rest => step_reset,
    fun s bytes rest h => ⟨fun hclosed hlen => ?_, fun hopen => ?_, fun hclosed hlen => ?_⟩,
    fun s bytes rest h => ⟨fun hclosed => ?_, fun hopen => ?_⟩, fun s level rest => step_setCancel,
    fun s => step_waiting⟩
  · exact (step_supplyIn h).trans ((if_neg (by simp [hclosed])).trans (if_neg (Nat.not_le.2 hlen)))
  · exact (step_supplyIn h).trans (if_pos hopen)
  · exact (step_supplyIn h).trans ((if_neg (by simp [hclosed])).trans (if_pos hlen))
  · exact (step_supplyOut h).trans (if_neg (by simp [hclosed]))
  · exact (step_supplyOut h).trans (if_pos hopen)

/-! ## Reset (70_reset_and_hazards.md R350) -/

/-- Settles O7: the values that `State.afterReset` gives, and the registers computed from them. -/
theorem resetGivesTheListedValues : Obligations.ResetGivesTheListedValues :=
  ⟨fun _ => rfl, fun _ => ⟨by simp [State.status, causeCode], rfl, rfl, rfl⟩, rfl⟩

theorem afterReset_inv {s : State} (h : s.input.length < 2 ^ 64) : s.afterReset.Inv where
  tree := ⟨rfl, rfl⟩
  codes i := by simp
  streams := ⟨nofun, fun _ => rfl, by simp⟩
  ranges := ⟨h, fun i => by simp, .inl rfl, Nat.zero_le _⟩

/-- Settles O57: reset keeps IN and puts the rest of what the invariant speaks of to zeros. -/
theorem resetMeetsTheInvariant : Obligations.ResetMeetsTheInvariant :=
  ⟨afterReset_inv (s := State.reset) (Nat.two_pow_pos 64), fun _ => afterReset_inv⟩

end Sys2Proof.Machine
end

section
/-! SUPPORT. The file-level commands (60_exceptions.md R326): what they can change. A body works on its job alone, and
whatever ends it names a report. -/

namespace Sys2Proof.Machine
open Sys2Proof.Claims

/-! ## The reports of the bodies (R326, R327) -/

/-- A body that ends early does so with a report code other than None. -/
def FileM.Reports {α : Type} (x : FileM α) : Prop := ∀ j r k, x j = .error r k → r ≠ .none

namespace FileM.Reports
variable {α β : Type}

theorem bind {x : FileM α} {f : α → FileM β} (hx : x.Reports) (hf : ∀ a, (f a).Reports) : (x >>= f).Reports := by
  intro j r k h
  cases hrun : x j with
  | ok a j' =>
    rw [bind_ok hrun] at h
    exact hf a j' r k h
  | error r' j' =>
    rw [bind_error hrun] at h
    cases h
    exact hx j r k hrun

theorem ite {p : Prop} [Decidable p] {x y : FileM α} (hx : x.Reports) (hy : y.Reports) :
    (if p then x else y).Reports := by
  split
  · exact hx
  · exact hy

/-- An action that always completes. -/
theorem of_ok {x : FileM α} (h : ∀ j, ∃ a k, x j = .ok a k) : x.Reports := by
  intro j r k herror
  obtain ⟨a, k', hok⟩ := h j
  cases hok.symm.trans herror

theorem pure (a : α) : (Pure.pure a : FileM α).Reports := of_ok fun j => ⟨a, j, rfl⟩

theorem setProgress (p : Nat) : (FileM.setProgress p).Reports := of_ok fun _ => ⟨_, _, rfl⟩

theorem count (f : OutcomeCounts → OutcomeCounts) : (FileM.count f).Reports := of_ok fun _ => ⟨_, _, rfl⟩

theorem append (v : Bits) : (FileM.append v).Reports := of_ok fun _ => ⟨_, _, rfl⟩

theorem stop : (FileM.stop .failure : FileM α).Reports := by
  intro j r k h
  cases h
  nofun

theorem poll : FileM.poll.Reports := by
  intro j r k h
  unfold FileM.poll at h
  split at h
  · cases h
    nofun
  · cases h

theorem io : FileM.io.Reports := by
  intro j r k h
  unfold FileM.io at h
  split at h
  · cases h
    nofun
  · cases h

theorem flush (cfg : Config) : (FileM.flush cfg).Reports := by
  intro j r k h
  unfold FileM.flush at h
  split at h
  · cases h
  · split at h
    · cases h
      nofun
    · cases h

theorem write (cfg : Config) (v : Bits) : (FileM.write cfg v).Reports := .bind (.append v) fun _ => .flush cfg

end FileM.Reports

theorem Job.close_report (j : Job) {why : Report} (h : why ≠ .none) : (j.close why).2 ≠ .none := by
  unfold Job.close
  split
  · nofun
  · exact h

/-- A command that runs its body reports something. -/
theorem Job.runFile_report (j : Job) {body : FileM Unit} (hb : body.Reports) : (j.runFile body).2 ≠ .none := by
  unfold Job.runFile
  split
  · nofun
  · dsimp only
    split
    · exact Job.close_report _ nofun
    · next hrun => exact Job.close_report _ (hb _ _ _ hrun)

/-! ### Compression (46_compression.md) -/

theorem countChunks_reports (total done : Nat) (chunks : List (List Byte)) (h : Hist) :
    (countChunks total done chunks h).Reports := by
  induction chunks generalizing done h with
  | nil => exact .pure h
  | cons chunk rest ih => exact .bind .poll fun _ => .bind .io fun _ => .bind (.setProgress _) fun _ => ih _ _

theorem substBytes_reports (cfg : Config) (codes : Vector (Option Bits) 256) (bytes : List Byte) :
    (substBytes cfg codes bytes).Reports := by
  induction bytes with
  | nil => exact .pure ()
  | cons v rest ih =>
    refine .bind .io fun _ => ?_
    split
    · exact .stop
    · exact .bind (.write _ _) fun _ => ih

theorem substChunks_reports (cfg : Config) (codes : Vector (Option Bits) 256) (total done : Nat)
    (chunks : List (List Byte)) : (substChunks cfg codes total done chunks).Reports := by
  induction chunks generalizing done with
  | nil => exact .pure ()
  | cons chunk rest ih =>
    exact .bind .poll fun _ => .bind (substBytes_reports cfg codes chunk) fun _ => .bind (.setProgress _) fun _ => ih _

theorem compressBody_reports (cfg : Config) (inp : List Byte) (alg : Algorithm) :
    (compressBody cfg inp alg).Reports := by
  refine .bind (countChunks_reports _ _ _ _) fun h => ?_
  split
  · exact .stop
  · exact .bind (.write _ _) fun _ => .bind (.write _ _) fun _ => .bind (.setProgress _) fun _ =>
      substChunks_reports _ _ _ _ _

theorem feedPayload_reports (cfg : Config) (root : Tree) (total j : Nat) (cur : Tree) (bits : Bits) :
    (feedPayload cfg root total j cur bits).Reports := by
  induction bits generalizing j cur with
  | nil => exact .pure ()
  | cons v rest ih =>
    have hpoll : (payloadPoll cfg j total).Reports := .ite (.bind .poll fun _ => .setProgress _) (.pure ())
    refine .bind hpoll fun _ => .bind .io fun _ => ?_
    split
    · exact .stop
    · exact .bind (.write _ _) fun _ => ih _ _
    · exact ih _ _

theorem decompressBody_reports (cfg : Config) (inp : List Byte) : (decompressBody cfg inp).Reports := by
  refine .bind .io fun _ => .bind .io fun _ => ?_
  split
  · exact .stop
  · exact .ite .stop (.bind (feedPayload_reports _ _ _ _ _ _) fun _ => .setProgress _)

/-! ### Hamming files (47_hamming.md) -/

theorem hamEncodeBlocks_reports (cfg : Config) (B total done : Nat) (blks : List (Bits × Nat)) :
    (hamEncodeBlocks cfg B total done blks).Reports := by
  induction blks generalizing done with
  | nil => exact .pure ()
  | cons blk rest ih =>
    have hread : (readCarried blk.2).Reports := .ite .io (.pure ())
    exact .bind .poll fun _ => .bind hread fun _ => .bind (.write _ _) fun _ => .bind (.setProgress _) fun _ => ih _

theorem hamNextBlock_reports (B : Nat) (inp : List Byte) (pos : Nat) : (hamNextBlock B inp pos).Reports := by
  have hread : (hamReadBlock B inp pos).Reports :=
    .bind .io fun _ => .bind (.count _) fun _ => .bind (.setProgress _) fun _ => .pure _
  exact .bind .poll fun _ => .ite (.pure _) (.bind hread fun _ => .pure _)

theorem hamReadField_reports (B : Nat) (inp : List Byte) (n pos : Nat) (f : Bits) :
    (hamReadField B inp n pos f).Reports := by
  induction n generalizing pos f with
  | zero => exact .pure f
  | succ n ih =>
    refine .bind (hamNextBlock_reports _ _ _) fun d => ?_
    cases d with
    | none => exact .stop
    | some d => exact ih _ _

theorem hamDecodeBlocks_reports (cfg : Config) (B : Nat) (inp : List Byte) (n pos : Nat) :
    (hamDecodeBlocks cfg B inp n pos).Reports := by
  induction n generalizing pos with
  | zero => exact .pure ()
  | succ n ih =>
    refine .bind (hamNextBlock_reports _ _ _) fun d => ?_
    cases d with
    | none => exact .stop
    | some d => exact .bind (.write _ _) fun _ => ih _

theorem hamDecodeRest_reports (cfg : Config) (B : Nat) (inp : List Byte) (pos : Nat) :
    (hamDecodeRest cfg B inp pos).Reports :=
  .bind (hamDecodeBlocks_reports _ _ _ _ _) fun _ => .ite (.count _) (.pure ())

theorem hamDecodeBody_reports (cfg : Config) (B : Nat) (inp : List Byte) : (hamDecodeBody cfg B inp).Reports := by
  have hrest := hamDecodeRest_reports cfg B inp
  refine .bind (hamReadField_reports _ _ _ _ _) fun f => .ite .stop (.ite ?_ (hrest _))
  refine .bind (hamNextBlock_reports _ _ _) fun d => ?_
  cases d with
  | none => exact .stop
  | some d => exact .bind (.write _ _) fun _ => hrest _

/-! ### CRC files (48_crc.md) -/

theorem crcEncodeBlocks_reports (cfg : Config) (inp : List Byte) (pos : Nat) (sizes : List Nat) :
    (crcEncodeBlocks cfg inp pos sizes).Reports := by
  induction sizes generalizing pos with
  | nil => exact .pure ()
  | cons size rest ih =>
    exact .bind .poll fun _ => .bind .io fun _ => .bind (.write _ _) fun _ => .bind (.setProgress _) fun _ => ih _

theorem crcDecodeBlocks_reports (cfg : Config) (corr : Bool) (inp : List Byte) (pos : Nat) (sizes : List Nat) :
    (crcDecodeBlocks cfg corr inp pos sizes).Reports := by
  induction sizes generalizing pos with
  | nil => exact .pure ()
  | cons size rest ih =>
    exact .bind .poll fun _ => .bind .io fun _ => .bind (.count _) fun _ => .bind (.write _ _) fun _ =>
      .bind (.setProgress _) fun _ => ih _

theorem crcDecodeBody_reports (cfg : Config) (N : Nat) (corr : Bool) (inp : List Byte) :
    (crcDecodeBody cfg N corr inp).Reports :=
  .bind (crcDecodeBlocks_reports _ _ _ _ _) fun _ => .ite (.count _) (.pure ())

/-! ## The commands (R326) -/

/-- The state after the run of the file-level command `i`: the decoders write their outcome counters too. -/
def State.afterFile (s : State) (i : Instr) (e : Job × Report) : State :=
  { s.afterJob e with
    ham := if i = .hmFdec then e.1.counts else s.ham
    crc := if i = .crcFdec then e.1.counts else s.crc }

/-- What the file-level command `i` can make of a state that is not halted: it is refused its operand or configuration,
it reports without running, or it runs its body. -/
inductive Filed (i : Instr) (s : State) : State → Prop
  | refused (c : Cause) : Filed i s (raised s c)
  | reported {r : Report} (hr : r ≠ .none) : Filed i s (s.reportAs r)
  | ran {counts : OutcomeCounts} {body : FileM Unit} (hbody : body.Reports) :
      Filed i s (s.afterFile i ((s.job counts).runFile body))

section
variable {i : Instr} {s : State}

theorem Answers.filed_unlessUnitOpen {body : Result} (h : Answers body (Filed i s)) :
    Answers (s.unlessUnitOpen body) (Filed i s) :=
  .ite (fun _ => .next (.reported nofun)) fun _ => h

variable (hs : s.fault = none)
include hs

theorem Answers.filed_unlessHalted {body : Result} (h : Answers body (Filed i s)) :
    Answers (s.unlessHalted body) (Filed i s) := by
  rwa [unlessHalted_running hs]

theorem Answers.filed_fatal (c : Cause) : Answers (fatal c s) (Filed i s) := by
  rw [fatal_running hs]
  exact .next (.refused c)

/-- Everything a file-level command can do. -/
theorem exec_filed (hi : fileLevel i = true) : Answers (exec i s) (Filed i s) := by
  cases i with
  | cdCompress xalg =>
    refine .filed_unlessHalted hs ?_
    split
    · exact .filed_fatal hs _
    · exact .filed_unlessUnitOpen (.ite (fun _ => .next (.reported nofun)) fun _ =>
        .next (.ran (compressBody_reports _ _ _)))
  | cdDecompress =>
    exact .filed_unlessHalted hs (.filed_unlessUnitOpen (.ite (fun _ => .next (.reported nofun)) fun _ =>
      .next (.ran (decompressBody_reports _ _))))
  | hmFenc =>
    exact .filed_unlessHalted hs (.ite (fun _ => .filed_fatal hs _) fun _ => .filed_unlessUnitOpen
      (.next (.ran (hamEncodeBlocks_reports _ _ _ _ _))))
  | hmFdec =>
    exact .filed_unlessHalted hs (.ite (fun _ => .filed_fatal hs _) fun _ => .filed_unlessUnitOpen
      (.next (.ran (hamDecodeBody_reports _ _ _))))
  | crcFenc =>
    exact .filed_unlessHalted hs (.ite (fun _ => .filed_fatal hs _) fun _ => .filed_unlessUnitOpen
      (.next (.ran (crcEncodeBlocks_reports _ _ _ _))))
  | crcFdec =>
    exact .filed_unlessHalted hs (.ite (fun _ => .filed_fatal hs _) fun _ => .filed_unlessUnitOpen
      (.next (.ran (crcDecodeBody_reports _ _ _ _))))
  | _ => cases hi

end

/-- Settles O14: a file-level command that is not refused reports or runs its body, and a body works on its job
alone. -/
theorem fileLevelCommandsKeepTheUnitState : Obligations.FileLevelCommandsKeepTheUnitState := by
  intro i s t hi hs hexec ht
  cases Answers.elim (exec_filed hs hi) hexec with
  | refused c => exact absurd ht nofun
  | reported hr => exact ⟨_, _, _, _, _, _, rfl, fun _ => rfl, fun _ => rfl, hr⟩
  | ran hbody => exact ⟨_, _, _, _, _, _, rfl, fun h => if_neg h, fun h => if_neg h, Job.runFile_report _ hbody⟩

end Sys2Proof.Machine
end

section
/-! SUPPORT. The file-level commands as courses in any environment (60_exceptions.md R326, R328, R330). The course of
each of the six commands, what the job is like behind a part of it that nothing ended, and how a poll, a read, a flush
or the course's own end closes the command. -/

namespace Sys2Proof.Machine
open Sys2Proof.Claims

/-! ## The commands that pass their checks go through their course -/

theorem hist_eq_histOf {s : State} {inp : List Byte} (h : ∀ v : Byte, s.hist[v.toFin] = inp.count v) :
    s.hist = histOf inp := by
  refine Vector.ext fun i hi => ?_
  exact (h (BitVec.ofFin ⟨i, hi⟩)).trans (getElem_histOf inp (BitVec.ofFin ⟨i, hi⟩)).symm

/-- The code that the unit commands build is the one that CD.COMPRESS builds, and every byte of IN has one. -/
theorem buildCode_of_builds {alg : Nat} {inp : List Byte} (hne : inp ≠ []) {tree : Tree}
    {codes : Vector (Option Bits) 256} (h : Builds alg inp tree codes) :
    buildCode (if alg = 0 then .shannonFano else .huffman) (histOf inp) = some (tree, codes) ∧
      ∀ v ∈ inp, ∃ c, codes[v.toFin] = some c := by
  have hordered := orderedHist_histOf_ne_nil hne
  obtain ⟨s, t, u, hs, hcount, hbuild, ht, hto, -, rfl, rfl⟩ := h
  have hhist := hist_eq_histOf hcount
  split at hbuild
  case isTrue halg =>
    obtain ⟨codes, tree, htable, hfull, htree, -, hcodes⟩ := sfTable_spec hordered
    cases (exec_sfBuild hs (hhist ▸ htable)).symm.trans hbuild
    rw [if_pos halg] at hto
    cases (exec_ctFromMap_ok ht htree).symm.trans hto
    exact ⟨by simp only [halg, if_true, buildCode, htable, htree, hfull.1],
      fun v hv => (hcodes v).2 (getElem_histOf_pos.2 hv)⟩
  case isFalse halg =>
    obtain ⟨tree, htree, hleaves⟩ := hufTree_spec hordered
    cases (exec_hfBuild hs (hhist ▸ htree)).symm.trans hbuild
    rw [if_neg halg] at hto
    cases (exec_ctToMap ht).symm.trans hto
    exact ⟨by simp only [halg, if_false, buildCode, htree, (fullTree_hufTree htree).1, if_true],
      fun v hv => (exists_code_iff_mem_leaves tree v).2 ((hleaves v).2 (getElem_histOf_pos.2 hv))⟩

/-- A file in the format of R260 is not empty. -/
theorem ne_nil_of_compressedBits {inp : List Byte} {tree : Tree} {payload pad : Bits}
    (h : streamBits inp = compressedBits tree payload ++ pad) : inp ≠ [] := by
  rintro rfl
  have hlen := congrArg List.length h
  rw [streamBits_nil, List.length_nil, List.length_append, length_compressedBits] at hlen
  omega

/-- The counters that a file-level command starts with: the decoders zero theirs. -/
def StartsWith (i : Instr) (counts : OutcomeCounts) : Prop := i = .hmFdec ∨ i = .crcFdec → counts = .zero

/-- A ready block runs a command that passes its checks as its course. -/
theorem exec_of_course {s : State} {i : Instr} {es : List Event} {final : Report} (hs : Ready s)
    (h : Course s i es final) : ∃ counts, StartsWith i counts ∧
      exec i s = .next (s.afterFile i ((s.job counts).runFile (FileM.course s.cfg es final))) := by
  cases h with
  | compress r tree codes hr hne hsize hbuilds =>
    obtain ⟨hbuild, hcodes⟩ := buildCode_of_builds hne hbuilds
    refine ⟨s.ham, by simp [StartsWith], ?_⟩
    rw [exec_cdCompress hs hne (algorithmOperand_of_le_one hr), compressBody_eq_course hsize hbuild hcodes]
    rfl
  | decompress tree items part pad hsize htree hitems hpart hfile hpad =>
    have hwalk := walks_marksOf (Tree.isNode_of_wf (wf_of_fullTree htree)) hitems hpart
    refine ⟨s.ham, by simp [StartsWith], ?_⟩
    rw [exec_cdDecompress hs (ne_nil_of_compressedBits hfile), decompressBody_eq_course s.cfg htree hwalk hfile hpad]
    rfl
  | noTree hne hnone =>
    refine ⟨s.ham, by simp [StartsWith], ?_⟩
    rw [exec_cdDecompress hs hne, decompressBody_noTree s.cfg hnone]
    rfl
  | cutTree tree rest hne htree hbits hcut =>
    refine ⟨s.ham, by simp [StartsWith], ?_⟩
    rw [exec_cdDecompress hs hne, decompressBody_cutTree s.cfg htree hbits hcut]
    rfl
  | hamEncode hB =>
    refine ⟨s.ham, by simp [StartsWith], ?_⟩
    rw [exec_hmFenc hs (hamSize_pos hB).ne', hamEncodeBody_eq_course s.cfg hB]
    rfl
  | hamDecode hB =>
    refine ⟨.zero, fun _ => rfl, ?_⟩
    rw [exec_hmFdec hs (hamSize_pos hB).ne', hamDecodeBody_eq_course s.cfg hB]
    rfl
  | crcEncode hN =>
    refine ⟨s.crc, by simp [StartsWith], ?_⟩
    rw [exec_crcFenc hs hN, crcEncodeBlocks_eq_course s.cfg hN]
    rfl
  | crcDecode n hN _ hbytes =>
    refine ⟨.zero, fun _ => rfl, ?_⟩
    rw [exec_crcFdec hs hN, crcDecodeBody_eq_course s.cfg hN _ hbytes]
    rfl

/-! ## Writes (42_bit_streams.md R173) -/

section
variable {cfg : Config} {v : Bits} {j : Job}

theorem FileM.write_eq_flush : FileM.write cfg v j = FileM.flush cfg { j with pend := j.pend ++ v } := rfl

theorem FileM.write_kept (h : ¬ cfg.flushT < (j.pend ++ v).length / 8) :
    FileM.write cfg v j = .ok () { j with pend := j.pend ++ v } := by
  simp only [write_eq_flush, flush, flushOf, gt_iff_lt, h, if_false]

variable (h : cfg.flushT < (j.pend ++ v).length / 8)
include h

theorem FileM.write_flushed (hio : failsAt j.env 0 = false) : FileM.write cfg v j = .ok () { j with
    env := afterDraws j.env 0 1,
    out := j.out ++ pack ((j.pend ++ v).take (8 * ((j.pend ++ v).length / 8))),
    pend := (j.pend ++ v).drop (8 * ((j.pend ++ v).length / 8)) } := by
  simp only [write_eq_flush, flush, flushOf, gt_iff_lt, h, if_true, Env.io_eq_draw, hio, Bool.false_eq_true, if_false]

theorem FileM.write_fails (hio : failsAt j.env 0 = true) : FileM.write cfg v j =
    .error .failure { j with env := afterDraws j.env 0 1, pend := j.pend ++ v } := by
  simp only [write_eq_flush, flush, flushOf, gt_iff_lt, h, if_true, Env.io_eq_draw, hio]

end

/-! ## The I/O actions and the pending bits of a course -/

section
variable (F : Nat) (es : List Event)

theorem ioCount_concat (e : Event) : ioCount F (es ++ [e]) = (flow F (ioCount F es, pendCount F es) e).1 := by
  rw [ioCount, List.foldl_append]
  rfl

theorem pendCount_concat (e : Event) : pendCount F (es ++ [e]) = (flow F (ioCount F es, pendCount F es) e).2 := by
  rw [pendCount, List.foldl_append]
  rfl

theorem ioCount_le_concat (e : Event) : ioCount F es ≤ ioCount F (es ++ [e]) := by
  rw [ioCount_concat]
  cases e with
  | read => exact Nat.le_succ _
  | write v =>
    rw [flow]
    split
    · exact Nat.le_succ _
    · exact le_rfl
  | _ => exact le_rfl

/-- The truncation of OUT is an action. -/
theorem ioCount_pos : 0 < ioCount F es := by
  induction es using List.reverseRecOn with
  | nil => exact Nat.one_pos
  | append_singleton es e ih => exact ih.trans_le (ioCount_le_concat F es e)

end

/-! ## The job behind a part of a course -/

/-- The job `k` of a command that has done the events `es`: the draws it has taken, the bits `w` it has received, of
which `pending` are not in OUT yet, PROGRESS and the outcomes. -/
structure Job.Left (s : State) (counts : OutcomeCounts) (es : List Event) (polls ios pending : Nat) (w : Bits)
    (k : Job) : Prop where
  env : k.env = afterDraws s.env polls ios
  written : streamBits k.out ++ k.pend = w
  pend : k.pend.length = pending
  progress : k.progress = lastProgress s.progress es
  counts : k.counts = es.foldl (fun c e => addOutcome e c) counts

/-- The job after the truncation of OUT. -/
def State.opened (s : State) (counts : OutcomeCounts) : Job :=
  { s.job counts with env := afterDraws s.env 0 1, out := [], pend := [] }

/-- The job `k` behind the events `es`, no poll having seen 1 and no I/O action having failed. -/
def Job.Reached (s : State) (counts : OutcomeCounts) (es : List Event) (k : Job) : Prop :=
  k.Left s counts es (pollCount es) (ioCount s.cfg.flushT es) (pendCount s.cfg.flushT es) (received es)

section
variable {s : State} {counts : OutcomeCounts} {es : List Event} {k : Job}

theorem Job.reached_opened (s : State) (counts : OutcomeCounts) : (s.opened counts).Reached s counts [] :=
  ⟨rfl, rfl, rfl, rfl, rfl⟩

/-- The environment of a job, by the draws taken since the command began. -/
theorem Job.Left.pollSees {polls ios pending : Nat} {w : Bits} (h : k.Left s counts es polls ios pending w) :
    Claims.pollSees k.env 0 = Claims.pollSees s.env polls := by
  rw [h.env, pollSees_afterDraws, Nat.add_zero]

theorem Job.Left.failsAt {polls ios pending : Nat} {w : Bits} (h : k.Left s counts es polls ios pending w) :
    Claims.failsAt k.env 0 = Claims.failsAt s.env ios := by
  rw [h.env, failsAt_afterDraws, Nat.add_zero]

theorem Job.Left.draw {polls ios pending : Nat} {w : Bits} (h : k.Left s counts es polls ios pending w) (p n : Nat) :
    Job.Left s counts es (polls + p) (ios + n) pending w { k with env := afterDraws k.env p n } where
  env := by rw [h.env, afterDraws_afterDraws]
  written := h.written
  pend := h.pend
  progress := h.progress
  counts := h.counts

/-- More bits in the private writer. -/
theorem Job.Left.append {polls ios pending : Nat} {w : Bits} (h : k.Left s counts es polls ios pending w) (v : Bits) :
    Job.Left s counts es polls ios (pending + v.length) (w ++ v) { k with pend := k.pend ++ v } where
  env := h.env
  written := by rw [← h.written, List.append_assoc]
  pend := by rw [List.length_append, h.pend]
  progress := h.progress
  counts := h.counts

/-- The job behind one more event, by the actions the event takes and what it leaves in the writer. -/
theorem Job.Reached.concat (hk : k.Reached s counts es) (e : Event) {n : Nat} {out : List Byte} {pend : Bits}
    (hn : ioCount s.cfg.flushT (es ++ [e]) = ioCount s.cfg.flushT es + n)
    (hpend : pend.length = pendCount s.cfg.flushT (es ++ [e]))
    (hwritten : streamBits out ++ pend = streamBits k.out ++ k.pend ++ received [e]) :
    Job.Reached s counts (es ++ [e]) ⟨afterDraws k.env (pollCount [e]) n, out, pend, lastProgress k.progress [e],
      addOutcome e k.counts⟩ where
  env := by rw [hk.env, afterDraws_afterDraws, hn, pollCount_append]
  written := by rw [hwritten, hk.written, received_append]
  pend := hpend
  progress := by rw [hk.progress, lastProgress_append]
  counts := by rw [hk.counts, List.foldl_append, List.foldl_cons, List.foldl_nil]

/-- An event that leaves the private writer alone. -/
theorem Job.Reached.concat_quiet (hk : k.Reached s counts es) (e : Event) {n : Nat} (hbits : received [e] = [])
    (hflow : ∀ np, flow s.cfg.flushT np e = (np.1 + n, np.2)) :
    Job.Reached s counts (es ++ [e]) ⟨afterDraws k.env (pollCount [e]) n, k.out, k.pend, lastProgress k.progress [e],
      addOutcome e k.counts⟩ :=
  hk.concat e (by rw [ioCount_concat, hflow]) (by rw [pendCount_concat, hflow, hk.pend])
    (by rw [hbits, List.append_nil])

/-- A flush moves the whole bytes among the bits `w` to OUT. -/
theorem streamBits_flushed (out : List Byte) (w : Bits) :
    streamBits (out ++ pack (w.take (8 * (w.length / 8)))) ++ w.drop (8 * (w.length / 8)) = streamBits out ++ w := by
  have hfull : (w.take (8 * (w.length / 8))).length % 8 = 0 := by
    rw [List.length_take_of_le (by omega), Nat.mul_mod_right]
  rw [streamBits_append, streamBits_pack _ hfull, List.append_assoc, List.take_append_drop]

/-- A write that no failing flush ends. -/
theorem Job.Reached.write (hk : k.Reached s counts es) (v : Bits)
    (hio : ioCount s.cfg.flushT es < ioCount s.cfg.flushT (es ++ [.write v]) →
      Claims.failsAt s.env (ioCount s.cfg.flushT es) = false) :
    ∃ l, FileM.write s.cfg v k = .ok () l ∧ l.Reached s counts (es ++ [.write v]) := by
  have hlen : (k.pend ++ v).length = pendCount s.cfg.flushT es + v.length := by rw [List.length_append, hk.pend]
  have hbits : received [.write v] = v := List.append_nil v
  by_cases h : s.cfg.flushT < (k.pend ++ v).length / 8
  case pos =>
    have hflow : flow s.cfg.flushT (ioCount s.cfg.flushT es, pendCount s.cfg.flushT es) (.write v) =
        (ioCount s.cfg.flushT es + 1, (k.pend ++ v).length % 8) := by rw [flow, ← hlen, if_pos h]
    have hn : ioCount s.cfg.flushT (es ++ [.write v]) = ioCount s.cfg.flushT es + 1 := by rw [ioCount_concat, hflow]
    have hsucceeds := hio (hn ▸ Nat.lt_succ_self _)
    refine ⟨_, FileM.write_flushed h (hk.failsAt.trans hsucceeds), hk.concat (.write v) hn ?_ ?_⟩
    · rw [pendCount_concat, hflow, List.length_drop]
      omega
    · rw [streamBits_flushed, hbits, List.append_assoc]
  case neg =>
    have hflow : flow s.cfg.flushT (ioCount s.cfg.flushT es, pendCount s.cfg.flushT es) (.write v) =
        (ioCount s.cfg.flushT es, (k.pend ++ v).length) := by rw [flow, ← hlen, if_neg h]
    refine ⟨_, FileM.write_kept h, hk.concat (.write v) (n := 0) ?_ ?_ ?_⟩
    · rw [ioCount_concat, hflow, Nat.add_zero]
    · rw [pendCount_concat, hflow]
    · rw [hbits, List.append_assoc]

/-- An event that no poll and no failing action ends. -/
theorem Job.Reached.event (hk : k.Reached s counts es) (e : Event)
    (hpoll : pollCount es < pollCount (es ++ [e]) → Claims.pollSees s.env (pollCount es) = false)
    (hio : ioCount s.cfg.flushT es < ioCount s.cfg.flushT (es ++ [e]) →
      Claims.failsAt s.env (ioCount s.cfg.flushT es) = false) :
    ∃ l, FileM.event s.cfg e k = .ok () l ∧ l.Reached s counts (es ++ [e]) := by
  cases e with
  | poll =>
    have hsees := hpoll (by rw [pollCount_append]; exact Nat.lt_succ_self _)
    exact ⟨_, FileM.poll_sees_false (hk.pollSees.trans hsees), hk.concat_quiet .poll rfl fun _ => rfl⟩
  | read =>
    have hsucceeds := hio (by rw [ioCount_concat]; exact Nat.lt_succ_self _)
    exact ⟨_, FileM.io_succeeds (hk.failsAt.trans hsucceeds), hk.concat_quiet .read rfl fun _ => rfl⟩
  | write v => exact hk.write v hio
  | progress p => exact ⟨_, FileM.setProgress_run p k, hk.concat_quiet (.progress p) (n := 0) rfl fun _ => rfl⟩
  | outcome o => exact ⟨_, FileM.count_run _ k, hk.concat_quiet (.outcome o) (n := 0) rfl fun _ => rfl⟩

/-- A part of a course that no poll and no I/O action ends. -/
theorem FileM.perform_reaches (hpolls : ∀ j, j < pollCount es → pollSees s.env j = false)
    (hios : ∀ j, j < ioCount s.cfg.flushT es → failsAt s.env j = false) :
    ∃ k, FileM.perform s.cfg es (s.opened counts) = .ok () k ∧ k.Reached s counts es := by
  induction es using List.reverseRecOn with
  | nil => exact ⟨_, rfl, Job.reached_opened s counts⟩
  | append_singleton es e ih =>
    have hle : pollCount es ≤ pollCount (es ++ [e]) := by
      rw [pollCount_append]
      exact Nat.le_add_right _ _
    obtain ⟨k, hrun, hk⟩ := ih (fun j hj => hpolls j (hj.trans_le hle))
      fun j hj => hios j (hj.trans_le (ioCount_le_concat _ _ _))
    obtain ⟨l, hevent, hl⟩ := hk.event e (hpolls _) (hios _)
    rw [FileM.perform_append, FileM.perform_singleton]
    exact ⟨l, (FileM.bind_ok hrun).trans hevent, hl⟩

/-! ## The end of a course -/

/-- The counters a decoder leaves: those of the events, its own having started at zero. -/
theorem foldl_addOutcome_of_startsWith {i : Instr} (hstart : StartsWith i counts) (hi : i = .hmFdec ∨ i = .crcFdec) :
    es.foldl (fun c e => addOutcome e c) counts = counted es := by
  rw [hstart hi, foldl_addOutcome_zero]

theorem Job.close_fails (h : Claims.failsAt k.env 0 = true) (why : Report) :
    k.close why = ({ k with env := afterDraws k.env 0 1 }, .failure) := by
  simp only [Job.close, Env.io_eq_draw, h, if_true]

/-- The close of the private streams (42_bit_streams.md R177). -/
theorem Job.Left.closed {polls ios pending : Nat} {w : Bits} {i : Instr}
    (h : k.Left s counts es polls ios pending w) (hstart : StartsWith i counts) (r : Report) :
    s.afterFile i (k.close r) = closed s i es r polls ios pending w := by
  have hham : (if i = .hmFdec then k.counts else s.ham) = if i = .hmFdec then counted es else s.ham :=
    ite_congr rfl (fun hi => h.counts.trans (foldl_addOutcome_of_startsWith hstart (.inl hi))) fun _ => rfl
  have hcrc : (if i = .crcFdec then k.counts else s.crc) = if i = .crcFdec then counted es else s.crc :=
    ite_congr rfl (fun hi => h.counts.trans (foldl_addOutcome_of_startsWith hstart (.inr hi))) fun _ => rfl
  have henv : afterDraws k.env 0 1 = afterDraws s.env polls (ios + 1) := by rw [h.env, afterDraws_afterDraws]; rfl
  unfold Claims.closed
  cases hio : Claims.failsAt s.env ios with
  | false =>
    rw [Job.close_succeeds (h.failsAt.trans hio)]
    simp only [State.afterFile, State.afterJob, hham, hcrc, henv, h.progress, pack_written h.written,
      Bool.false_eq_true, if_false]
  | true =>
    have hkept : w.take (w.length - pending) = streamBits k.out := by
      rw [← h.written, ← h.pend, List.length_append, Nat.add_sub_cancel, List.take_left]
    rw [Job.close_fails (h.failsAt.trans hio)]
    simp only [State.afterFile, State.afterJob, hham, hcrc, henv, h.progress, hkept, pack_streamBits, if_true]

/-- A failed truncation of OUT (log entry 12). -/
theorem afterFile_truncation_fails {i : Instr} (h : ioFailsNext s = true) (hstart : StartsWith i counts)
    (body : FileM Unit) : s.afterFile i ((s.job counts).runFile body) = { s with
      report := .failure
      ham := if i = .hmFdec then .zero else s.ham
      crc := if i = .crcFdec then .zero else s.crc
      env := afterIo s } := by
  have hham : (if i = .hmFdec then counts else s.ham) = if i = .hmFdec then .zero else s.ham :=
    ite_congr rfl (fun hi => hstart (.inl hi)) fun _ => rfl
  have hcrc : (if i = .crcFdec then counts else s.crc) = if i = .crcFdec then .zero else s.crc :=
    ite_congr rfl (fun hi => hstart (.inr hi)) fun _ => rfl
  have hio : (s.job counts).env.ioFails.headD false = true := h
  rw [← hham, ← hcrc, Job.runFile_failed hio body]
  rfl

section
variable (hopen : failsAt s.env 0 = false) (hrun : FileM.perform s.cfg es (s.opened counts) = .ok () k)
include hopen hrun

/-- The command ends with its course. -/
theorem runFile_course_end (r : Report) : (s.job counts).runFile (FileM.course s.cfg es r) = k.close r := by
  have hend := FileM.bind_ok (f := fun _ => FileM.finish r) hrun
  cases r with
  | success => exact Job.runFile_of_ok hopen hend
  | _ => exact Job.runFile_of_error hopen hend

/-- An event ends the command early. -/
theorem runFile_course_stop {e : Event} {why : Report} {l : Job} (hevent : FileM.event s.cfg e k = .error why l)
    (rest : List Event) (r : Report) :
    (s.job counts).runFile (FileM.course s.cfg (es ++ e :: rest) r) = l.close why := by
  refine Job.runFile_of_error hopen (FileM.bind_error ?_)
  rw [FileM.perform_append]
  exact (FileM.bind_ok hrun).trans (FileM.bind_error hevent)

end
end

/-- Settles O44: the command is its course (`exec_of_course`); behind the events before the first poll that sees 1 or
the first failing action the job is the one that `Job.Reached` describes, and the close makes of it what `closed`
says. -/
theorem firstPollCancelsAndFirstFailureReports : Obligations.FirstPollCancelsAndFirstFailureReports := by
  intro s i es final hs hcourse
  obtain ⟨counts, hstart, hexec⟩ := exec_of_course hs hcourse
  refine ⟨fun hfail => ?_, ?_⟩
  · rw [hexec, afterFile_truncation_fails hfail hstart]
    rfl
  · rintro pre post rfl hpolls hios
    have hopen := hios 0 (ioCount_pos _ _)
    obtain ⟨k, hrun, hk⟩ := FileM.perform_reaches (counts := counts) hpolls hios
    refine ⟨fun hpost => ?_, fun rest hpost hpoll => ?_, fun rest hpost hio => ?_,
      fun v rest hpost hflush hio => ?_⟩
    · rw [hpost, List.append_nil] at hexec
      rw [hexec, runFile_course_end hopen hrun, hk.closed hstart]
    · have hevent := FileM.poll_sees_true (hk.pollSees.trans hpoll)
      rw [hpost] at hexec
      rw [hexec, runFile_course_stop hopen hrun (e := .poll) hevent, (hk.draw 1 0).closed hstart]
      rfl
    · have hevent := FileM.io_fails (hk.failsAt.trans hio)
      rw [hpost] at hexec
      rw [hexec, runFile_course_stop hopen hrun (e := .read) hevent, (hk.draw 0 1).closed hstart]
      rfl
    · have hflushes : s.cfg.flushT < (k.pend ++ v).length / 8 := by rwa [List.length_append, hk.pend]
      have hevent := FileM.write_fails hflushes (hk.failsAt.trans hio)
      rw [hpost] at hexec
      rw [hexec, runFile_course_stop hopen hrun (e := .write v) hevent, ((hk.draw 0 1).append v).closed hstart]
      rfl

end Sys2Proof.Machine
end
